-- ==== Sys2Proof/Word.lean ====
section
/-! DEFINITION. Words, bit fields, little-endian bytes and the two canonical sparse containers. -/

namespace Sys2Proof

abbrev Byte := BitVec 8
abbrev W16 := BitVec 16
abbrev W32 := BitVec 32
abbrev W64 := BitVec 64
/-- A shape register (R46). -/
abbrev Shape := BitVec 512

/-- Bits [hi:lo] of an unbounded natural (R2). -/
def bits (x hi lo : Nat) : Nat := (x >>> lo) % 2 ^ (hi + 1 - lo)

/-- Bit `i` of a natural. -/
def bit (x i : Nat) : Bool := x.testBit i

/-- `sext(x, n)` of R6: the value of the low `n` bits read as two's complement. -/
def sextNat (n x : Nat) : Int :=
  let y := x % 2 ^ n
  if n = 0 then 0 else if y < 2 ^ (n - 1) then (y : Int) else (y : Int) - (2 ^ n : Nat)

/-- `trunc(x, n)` of R6 on an exact integer. -/
def truncInt (n : Nat) (x : Int) : Nat := (x % ((2 ^ n : Nat) : Int)).toNat

/-- Ceiling division. -/
def cdiv (a b : Nat) : Nat := (a + b - 1) / b

/-- The `n` little-endian bytes of a natural (R2). -/
def leBytes : Nat → Nat → List Byte
  | 0, _ => []
  | n + 1, x => BitVec.ofNat 8 x :: leBytes n (x / 256)

/-- The natural that little-endian bytes stand for (R2). -/
def ofLe : List Byte → Nat
  | [] => 0
  | b :: bs => b.toNat + 256 * ofLe bs

/-- A map from naturals to data, as a list with strictly rising keys. -/
abbrev AMap (α : Type) := List (Nat × α)

namespace AMap
variable {α : Type}

def look : AMap α → Nat → Option α
  | [], _ => none
  | (k, v) :: m, a => if a = k then some v else if a < k then none else look m a

def put : AMap α → Nat → α → AMap α
  | [], a, x => [(a, x)]
  | (k, v) :: m, a, x =>
    if a < k then (a, x) :: (k, v) :: m else if a = k then (a, x) :: m else (k, v) :: put m a x

def del : AMap α → Nat → AMap α
  | [], _ => []
  | (k, v) :: m, a => if a < k then (k, v) :: m else if a = k then m else (k, v) :: del m a

/-- Every key of `m` is at least `lo` and the keys rise strictly. -/
def wfFrom : Nat → AMap α → Bool
  | _, [] => true
  | lo, (k, _) :: m => decide (lo ≤ k) && wfFrom (k + 1) m

/-- The canonical form: keys rise strictly. -/
def wf (m : AMap α) : Bool := wfFrom 0 m

def has (m : AMap α) (a : Nat) : Bool := (look m a).isSome

/-- Changes the entry at `a`, if there is one. -/
def upd (m : AMap α) (a : Nat) (f : α → α) : AMap α :=
  match look m a with
  | some v => put m a (f v)
  | none => m

/-- The value at `a`, or `d`. -/
def lookD (m : AMap α) (a : Nat) (d : α) : α := (look m a).getD d

def keys (m : AMap α) : List Nat := m.map (·.1)
/-- The keys whose entries satisfy a test. -/
def sel (m : AMap α) (f : Nat → α → Bool) : List Nat := (m.filter fun e => f e.1 e.2).map (·.1)
/-- Some entry satisfies a test. -/
def ex (m : AMap α) (f : Nat → α → Bool) : Bool := m.any fun e => f e.1 e.2
/-- Every entry satisfies a test. -/
def ok (m : AMap α) (f : Nat → α → Bool) : Bool := m.all fun e => f e.1 e.2
def vals (m : AMap α) : List α := m.map (·.2)

end AMap

/-- Bytes of one storage, sparse: an unlisted address reads as zero and no listed byte is zero. -/
abbrev Mem := List Host.Cell

namespace Mem

def read : Mem → Nat → Byte
  | [], _ => 0
  | (k, v) :: m, a => if a = k then v else if a < k then 0 else read m a

def erase : Mem → Nat → Mem
  | [], _ => []
  | (k, v) :: m, a => if a < k then (k, v) :: m else if a = k then m else (k, v) :: erase m a

def insert : Mem → Nat → Byte → Mem
  | [], a, b => [(a, b)]
  | (k, v) :: m, a, b =>
    if a < k then (a, b) :: (k, v) :: m else if a = k then (a, b) :: m else (k, v) :: insert m a b

/-- Writes one byte, keeping the canonical form: a zero is not listed. -/
def write (m : Mem) (a : Nat) (b : Byte) : Mem := if b = 0 then erase m a else insert m a b

/-- The canonical form from address `lo` up. -/
def wfFrom : Nat → Mem → Bool
  | _, [] => true
  | lo, (k, v) :: m => decide (lo ≤ k) && decide (v ≠ 0) && wfFrom (k + 1) m

/-- Addresses rise strictly and no listed byte is what an unlisted address reads as. -/
def wf (m : Mem) : Bool := wfFrom 0 m

/-- The `n` bytes from `a` up. -/
def readN (m : Mem) : Nat → Nat → List Byte
  | _, 0 => []
  | a, n + 1 => read m a :: readN m (a + 1) n

/-- Writes bytes from `a` up. -/
def writeN (m : Mem) : Nat → List Byte → Mem
  | _, [] => m
  | a, b :: bs => writeN (write m a b) (a + 1) bs

/-- Makes every byte of `[lo, hi)` zero. -/
def clear (m : Mem) (lo hi : Nat) : Mem := m.filter fun c => decide (c.1 < lo) || decide (hi ≤ c.1)

end Mem

/-- A sorted list of naturals without repeats, used as a set. -/
abbrev NSet := List Nat

namespace NSet
def add : NSet → Nat → NSet
  | [], a => [a]
  | k :: m, a => if a < k then a :: k :: m else if a = k then k :: m else k :: add m a
def rem (m : NSet) (a : Nat) : NSet := m.filter (· != a)
def addAll (m : NSet) (l : List Nat) : NSet := l.foldl add m
end NSet

/-- The first `some` of a function over a list. -/
def firstSome {α β : Type} (f : α → Option β) : List α → Option β
  | [] => none
  | a :: l => match f a with
    | some b => some b
    | none => firstSome f l

end Sys2Proof
end

