-- ==== Sys2Proof/Config.lean ====
section
/-! DEFINITION. What the part fixes (R11 to R18, R224, R349) and the values the spec leaves open, which no proof can see. -/

namespace Sys2Proof.Config

/-! ### Fixed figures -/

/-- W of R9. -/
def lanes : Nat := 64
def dies : Nat := 4
def clustersPerDie : Nat := 24
def coresPerCluster : Nat := 8
def cores : Nat := 768
/-- Store pages of a core (R136). -/
def storePages : Nat := 64
/-- Entries of the outstanding-transaction table (R231). -/
def tableEntries : Nat := 256
/-- Entries of the range scoreboard (R236). -/
def scoreboard : Nat := 32
/-- Commands a cluster's copy engine holds (R256). -/
def copyQueue : Nat := 64
/-- Commands a matrix array holds (R271) and staging tiles (R272). -/
def matrixQueue : Nat := 16
def stagingTiles : Nat := 4
/-- Start requests of a core (R244) and entries of an AP data queue (R246). -/
def startQueue : Nat := 16
def queueEntries : Nat := 64
/-- Doorbells a Porter holds (R374) and watches of a scratchpad port (R267). -/
def porterSlots : Nat := 512
def watches : Nat := 64
/-- Line entries of a controller's write queue (R295). -/
def writeQueue : Nat := 2048

/-- Shadow storage of a die (R15, R18). -/
def shadowBytes : Nat := 1024 * 2 ^ 20

/-- The module's own entropy, drawn for keys (R300). DESIGN CHOICE: log 11. -/
opaque entropy : Nat → BitVec 256

/-! ### Free values: nothing constrains them -/

/-- A fresh unconstrained natural, for a choice the spec leaves open. DESIGN CHOICE: log 9. -/
opaque pick : Nat → Nat
/-- The place of an element in an order that the spec leaves open (R250). DEDUCED: log 20. -/
opaque place : Nat → Nat → Nat
/-- A fresh unconstrained word, for a value the spec leaves open. DESIGN CHOICE: log 9. -/
opaque word : Nat → BitVec 64
/-- A proposal for an SFU result of function `fn`, of .ftz and the source bits; it is used only when it meets the bound of R200. DESIGN CHOICE: log 10. -/
opaque sfuProposal : Nat → Bool → BitVec 32 → BitVec 32
/-- RCP.A returns the neighbour away from zero, of .ftz and the source bits (R200). DESIGN CHOICE: log 10. -/
opaque sfuApprox : Bool → BitVec 32 → Bool
/-- Use of a cached translation of an address where it differs from a fresh walk (R369). DEDUCED: log 17. -/
opaque useCached : Nat → Nat → Bool
/-- Local cycles that a core has counted by a cycle of the model's clock (R429). DESIGN CHOICE: log 5. -/
opaque localCycles : Nat → Nat → Nat
/-- What the array reports for a line read: 0 clean, 1 corrected, 2 uncorrectable, 3 a counter-tree node that fails (R298, R302). DESIGN CHOICE: log 13. -/
opaque arrayError : Nat → Nat
/-- A byte that a device behind a root port returns for an address, on which the spec is silent. DESIGN CHOICE: log 13. -/
opaque deviceRead : Nat → Nat → BitVec 8
/-- The metadata address of a structure of the counter tree, of its level (0 for counter lines) and its number; no path reaches it (R297). DEDUCED: log 14. -/
opaque metaAddress : Nat → Nat → Nat
/-- SLH-DSA-SHA2-128s over a message under a key number (R422). DESIGN CHOICE: log 11. -/
opaque sign : Nat → List Byte → List Byte
/-- Whether a signature verifies under a key number (R78, R432). DESIGN CHOICE: log 11. -/
opaque verify : Nat → List Byte → List Byte → Bool
/-- Bytes of an SPDM message whose content DMTF fixes (R306, R433). DESIGN CHOICE: log 11. -/
opaque spdm : Nat → List Byte → List Byte
/-- Energy measured on a core so far in the window, in nJ (R124). DESIGN CHOICE: log 13. -/
opaque energySoFar : Nat → Nat → Nat
/-- Offset in the pipeline region of a stage block's output reservation (R110, R224). DEDUCED: log 28. -/
opaque reservation : Nat → Nat → Nat
/-- The boot flash cannot be read (R432). DESIGN CHOICE: log 13. -/
opaque flashFails : Nat → Bool
/-- Whether a peer's chain and firmware verify in a migration (R426). DESIGN CHOICE: log 13. -/
opaque peerVerifies : Nat → Bool
/-- Whether the clerks can map a page that is asked for (R365, R404). DESIGN CHOICE: log 13. -/
opaque pageMaps : Nat → Bool
/-- A link of a root port is down (R373). DESIGN CHOICE: log 13. -/
opaque linkDown : Nat → Nat → Bool
/-- A companion device's answer with its ATS Invalidate Completion (R371). DESIGN CHOICE: log 13. -/
opaque invalidates : Nat → Bool

/-- Cycles that the zeroing of released partitions takes (R404, R417). DESIGN CHOICE: log 13. -/
opaque zeroCycles : Nat → Nat

/-- Bytes of CHIPID, the hash of the module's identity public key (R422). DESIGN CHOICE: log 11. -/
opaque chipId : Nat → BitVec 8

end Sys2Proof.Config
end

