-- ==== Sys2Proof/Syntax.lean ====
section
/-! DEFINITION. The steps of the module as data: one constructor of `Instr` per row of the opcode table.
The first 154 are the encoded instructions of R80 to R94; the rest are the module's other steps. -/

namespace Sys2Proof

/-- Integer types (R81). -/
inductive ITy where
  | s32 | n32 | s64 | n64 | s16 | n16 | s8 | n8 | b32 | b64 | b16 | b8
  deriving DecidableEq, Repr

/-- Comparison codes (R82). -/
inductive Cmp where
  | eq | ne | lt | le | gt | ge | num | equ | neu | ltu | leu | gtu | geu | nan
  deriving DecidableEq, Repr

/-- Rounding codes (R83). -/
inductive Rnd where
  | rne | rz | rd | ru | sr
  deriving DecidableEq, Repr

/-- Scopes (R83, R310). -/
inductive Scope where
  | gang | block | cluster | die | module | fabric | system
  deriving DecidableEq, Repr

/-- Orders of an M-class access (R88). -/
inductive Ord4 where
  | plain | acq | rel | ar
  deriving DecidableEq, Repr

/-- The FCVT formats (R85). -/
inductive FFmt where
  | f32 | f16 | bf16 | e4m3 | e5m2 | e3m2 | e2m3 | e2m1 | f64 | s32 | n32
  deriving DecidableEq, Repr

/-- Reduction operations (R86). -/
inductive Rop where
  | iadd | imin | imax | nmin | nmax | and | or | xor | fadd | fmin | fmax
  deriving DecidableEq, Repr

/-- Atomic operations (R89). -/
inductive Aop where
  | add | min | max | and | or | xor | exch | fadd | fmin | fmax | fadd2h | fadd2b
  deriving DecidableEq, Repr

/-- Barrier levels (R85). -/
inductive Level where
  | gang | block | cluster | grid
  deriving DecidableEq, Repr

/-- SHFL modes (R207). -/
inductive ShfMode where
  | up | down | xor | idx
  deriving DecidableEq, Repr

/-- POLL modes (R213). -/
inductive PollMode where
  | every | some | agree | mask
  deriving DecidableEq, Repr

/-- Special registers (R51). -/
inductive SReg where
  | lanew | tid | gangid | homelane | nthreads | blockid | nblocks | clusterid | blkincl | clblocks | gridid
  | ctxid | corenum | ksp | ksb | freedrd | rngs | fabst | rplc0 | rplc1 | rplc2 | rplc3 | argp | lcyc
  deriving DecidableEq, Repr

/-- Privileged registers (R390, R431). -/
inductive PReg where
  | fpxc | fabcfg | trcfg | traph | stepc | wdog | fltpol | fltlog | fltcnt | govbud | thst | platcfg
  deriving DecidableEq, Repr

/-- An operand code (R59). In an A-class clause `v n` names address register `a n` and `p n` condition `c n` (R243). -/
inductive Opnd where
  | v (n : Fin 128)
  | p (n : Fin 8)
  | q (n : Fin 16)
  | k (n : Fin 40)
  | lit (w : W64)
  | null
  deriving DecidableEq, Repr

/-- The fields every instruction word shares (R58): operands, last-use bits, guard and flag select. -/
structure X where
  dst : Opnd := .null
  sa : Opnd := .null
  sb : Opnd := .null
  sc : Opnd := .null
  lua : Bool := false
  lub : Bool := false
  luc : Bool := false
  gneg : Bool := false
  gpred : Fin 8 := 7
  fsel : Bool := false
  deriving DecidableEq, Repr

/-- What a peripheral device asks of memory (R363, R365). -/
inductive DevOp where
  | read (n : Nat)
  | write (bytes : List Byte)
  | fetchAdd (n v : Nat)
  | swap (n v : Nat)
  | cas (n expected new : Nat)
  deriving DecidableEq, Repr

/-- A request of a peripheral device: the root port, the function (requester ID), its PASID if any, and the address. -/
structure DevReq where
  port : Nat
  fn : Nat
  pasid : Option Nat
  addr : Nat
  op : DevOp
  deriving DecidableEq, Repr

/-- What a class R request does at its target (R354). -/
inductive RemOp where
  | load (n : Nat)
  | store (bytes : List Byte) (flag : Option Nat)
  | red (aop : Aop) (t : ITy) (v : Nat)
  deriving DecidableEq, Repr

/-- A class R request (R348, R354): the issuing module and operation, the fabric domain and the target's address. -/
structure RemReq where
  src : Nat
  id : Nat
  domain : W16
  va : Nat
  op : RemOp
  deriving DecidableEq, Repr

/-- The answer to a class R load (R303, R354, R355). -/
inductive RemResp where
  | data (v : Nat)
  | poison (line : Nat)
  | nak
  deriving DecidableEq, Repr

/-- A class L packet (R356). -/
structure Packet where
  domain : W16
  va : Nat
  round : W16
  enables : BitVec 256
  lttl : Nat
  payload : List Byte
  crc : W32
  sent : Nat
  deriving DecidableEq, Repr

/-- Registers with no behaviour of their own, written by the steward pair or the clerks (R4, R95, R370, R375). -/
inductive PlainReg where
  | lqbase (die q : Nat)
  | lqrbase (die q : Nat)
  | trcfg (ctx : Nat)
  | notifyLo (vec : Nat)
  | notifyHi (vec : Nat)
  deriving DecidableEq, Repr

/-- One step of the module: an instruction, with the fields of its word, or an event, with what it names. -/
inductive Instr where
  -- class V, integer (R152 to R162)
  | nop (x : X)
  | iadd (x : X) (t : ITy) (sat : Bool)
  | isub (x : X) (t : ITy) (sat : Bool)
  | imul (x : X) (t : ITy) (sat : Bool)
  | imulh (x : X) (t : ITy)
  | imad (x : X) (t : ITy) (sat : Bool)
  | imadWide (x : X) (t : ITy) (sat : Bool)
  | iadc (x : X) (t : ITy) (cp : Fin 8)
  | isbc (x : X) (t : ITy) (cp : Fin 8)
  | imin (x : X) (t : ITy)
  | imax (x : X) (t : ITy)
  | iabs (x : X) (t : ITy)
  | ineg (x : X) (t : ITy)
  | and (x : X) (t : ITy)
  | or (x : X) (t : ITy)
  | xor (x : X) (t : ITy)
  | not (x : X) (t : ITy)
  | bool3 (x : X) (t : ITy) (tt : Byte)
  | shl (x : X) (t : ITy)
  | shr (x : X) (t : ITy)
  | sar (x : X) (t : ITy)
  | rol (x : X) (t : ITy)
  | fsh (x : X) (right : Bool)
  | bfx (x : X) (t : ITy)
  | bfi (x : X)
  | popc (x : X) (t : ITy)
  | clz (x : X) (t : ITy)
  | ctz (x : X) (t : ITy)
  | brev (x : X) (t : ITy)
  | bperm (x : X)
  | sel (x : X) (t : ITy)
  | isetp (x : X) (t : ITy) (c : Cmp)
  | mov (x : X) (t : ITy)
  | cvti (x : X) (t src : ITy) (sat : Bool)
  | pand (x : X)
  | por (x : X)
  | pxor (x : X)
  | pnot (x : X)
  | pmov (x : X)
  -- class V, float (R191 to R201)
  | fadd (x : X) (r : Rnd) (ftz : Bool)
  | fsub (x : X) (r : Rnd) (ftz : Bool)
  | fmul (x : X) (r : Rnd) (ftz : Bool)
  | ffma (x : X) (r : Rnd) (ftz : Bool)
  | fmin (x : X) (ftz : Bool)
  | fmax (x : X) (ftz : Bool)
  | fsetp (x : X) (c : Cmp) (ftz : Bool)
  | fcls (x : X) (mask : BitVec 10) (ftz : Bool)
  | frnd (x : X) (r : Rnd) (ftz : Bool)
  | fcvt (x : X) (d src : FFmt) (r : Rnd) (ftz : Bool)
  | fadd2 (x : X) (bf : Bool) (r : Rnd) (ftz : Bool)
  | fmul2 (x : X) (bf : Bool) (r : Rnd) (ftz : Bool)
  | ffma2 (x : X) (bf : Bool) (r : Rnd) (ftz : Bool)
  | dadd (x : X) (r : Rnd)
  | dmul (x : X) (r : Rnd)
  | dfma (x : X) (r : Rnd)
  | dsetp (x : X) (c : Cmp) (r : Rnd)
  | rcp (x : X) (ftz : Bool)
  | rcpA (x : X) (ftz : Bool)
  | rsq (x : X) (ftz : Bool)
  | rsqA (x : X) (ftz : Bool)
  | sqrt (x : X) (ftz : Bool)
  | ex2 (x : X) (ftz : Bool)
  | lg2 (x : X) (ftz : Bool)
  | sin (x : X) (ftz : Bool)
  | cos (x : X) (ftz : Bool)
  | tanh (x : X) (ftz : Bool)
  -- class V, control, special registers, barriers, shapes (R146, R164 to R175)
  | bra (x : X) (disp : BitVec 14)
  | brx (x : X)
  | call (x : X) (disp : BitVec 14)
  | calli (x : X)
  | ret (x : X)
  | ovcall (x : X)
  | exit (x : X)
  | yield (x : X)
  | trap (x : X) (code : Byte)
  | brk (x : X) (code : Byte)
  | srd (x : X) (r : SReg)
  | swrKsp (x : X)
  | swrRngs (x : X)
  | swrFabst (x : X)
  | barArr (x : X) (l : Level) (n : Fin 16)
  | barWait (x : X) (l : Level) (n : Fin 16)
  | barSync (x : X) (l : Level) (n : Fin 16)
  | barTry (x : X) (l : Level) (n : Fin 16)
  | shld (x : X)
  | shst (x : X)
  | shset (x : X) (f : Fin 33)
  | shget (x : X) (f : Fin 33)
  -- class G (R203 to R217)
  | shfl (x : X) (m : ShfMode) (wrel : Bool)
  | vred (x : X) (op : Rop) (masked : Bool) (r : Rnd)
  | vredMr (x : X) (r : Rnd)
  | vscan (x : X) (op : Rop) (excl : Bool) (r : Rnd)
  | poll (x : X) (m : PollMode)
  | maskof (x : X)
  | matchv (x : X) (t : ITy)
  | elect (x : X)
  | vlut (x : X) (fill : Byte) (n : Fin 8)
  | qpop (x : X) (q : Fin 8)
  -- class M (R226 to R232, R336 to R344, R352)
  | ld (x : X) (t : ITy) (px : Option (Fin 8))
  | ldAcq (x : X) (sc : Scope) (t : ITy) (px : Option (Fin 8))
  | st (x : X) (t : ITy) (px : Option (Fin 8))
  | stRel (x : X) (sc : Scope) (t : ITy) (px : Option (Fin 8))
  | atom (x : X) (sc : Scope) (o : Ord4) (a : Aop) (t : ITy)
  | red (x : X) (sc : Scope) (rel : Bool) (a : Aop) (t : ITy)
  | redm (x : X) (sc : Scope) (rel : Bool)
  | cas (x : X) (sc : Scope) (o : Ord4) (t : ITy)
  | waitmem (x : X) (acq : Bool) (sc : Scope) (t : ITy)
  | fence (x : X) (sc : Scope) (mask : Byte)
  | fenceSc (x : X) (sc : Scope)
  | probe (x : X) (sc : Scope)
  | remst (x : X) (sc : Scope) (rel : Bool) (t : ITy) (px : Option (Fin 8))
  | remstL (x : X) (t : ITy) (px : Option (Fin 8))
  | rld (x : X) (acq : Bool) (sc : Scope) (t : ITy) (px : Option (Fin 8))
  | remred (x : X) (sc : Scope) (rel : Bool) (a : Aop) (t : ITy)
  -- class X (R115, R142, R145, R253 to R266, R373)
  | tcopy (x : X)
  | tcopyMma (x : X) (acc : Fin 32)
  | wbind (x : X) (w : Fin 16)
  | wdrop (x : X) (w : Fin 16)
  | chain (x : X) (n : Fin 8)
  | publ (x : X) (sc : Scope)
  | ovl (x : X)
  | ovrel (x : X)
  | launch (x : X)
  | dbell (x : X) (sc : Scope)
  | dectab (x : X)
  | barExp (x : X)
  -- class T (R277 to R289)
  | mma (x : X) (acc : Fin 32) (sat : Bool)
  | mmaW (x : X) (acc : Fin 32) (sat : Bool)
  | mmaNf (x : X) (acc : Fin 32)
  | accz (x : X) (acc : Fin 32)
  | accld (x : X) (acc : Fin 32)
  | accst (x : X) (acc : Fin 32)
  | drain (x : X) (acc : Fin 32)
  | drainMx (x : X) (acc : Fin 32)
  -- class A (R246)
  | agen (x : X)
  | aadd (x : X)
  | aloop (x : X)
  | aendl (x : X)
  | apush (x : X) (q : Fin 8)
  | agath (x : X) (q : Fin 8)
  | acmp (x : X) (c : Cmp)
  | abra (x : X)
  | await (x : X) (q : Fin 8)
  | asig (x : X)
  | aend (x : X)
  -- class S (R371, R391, R411, R420)
  | srdp (x : X) (r : PReg)
  | swrp (x : X) (r : PReg)
  | tlbinvPage (x : X)
  | tlbinvCtx (x : X)
  | tlbinvAll (x : X)
  | assayrd (x : X)
  | ctxsave (x : X)
  | ctxload (x : X)
  | haltx (x : X)
  -- steps that no instruction word encodes
  | gatherForm (core : Nat)
  | trapEntry (th : Nat)
  | ldDataLands (id : Nat)
  | windowFillComplete (blk win : Nat)
  | sfuQueueAccept (core : Nat)
  | sfuResultLands (id : Nat)
  | shldDataLands (id : Nat)
  | qpopLands (id : Nat)
  | atomicValueLands (id : Nat)
  | waitmemWake (th : Nat)
  | fenceComplete (th id : Nat)
  | probeComplete (id : Nat)
  | barrierReinsert (th : Nat)
  | apHandoff (core : Nat)
  | apProgramStart (core : Nat)
  | apEntryWhole (core queue : Nat)
  | overlayLoadComplete (core page : Nat)
  | copyCommandComplete (id : Nat)
  | tcopyFollowOnIssue (id : Nat)
  | chainComplete (id : Nat)
  | publSwap (id : Nat)
  | dectabComplete (id : Nat)
  | launchDecided (id : Nat)
  | doorbellSend (id : Nat)
  | tlbinvComplete (id : Nat) (returned : Bool)
  | matrixCommandComplete (core id : Nat)
  | mmaNfSquash (core id : Nat)
  | mmaNfCommit (core id : Nat)
  | contextQuiescent (ctx : Nat)
  | faultVerdict (ctx : Nat)
  | pageServiceComplete (ctx : Nat)
  | pageServiceTimeout (ctx : Nat)
  | watchdogExpiry (th : Nat)
  | placementPass (die : Nat)
  | preemptionTier2 (ctx : Nat)
  | contextSaveComplete (ctx : Nat)
  | preemptionTier3Reset (ctx : Nat)
  | governorWindowEnd (core : Nat) (energy : List (Nat × Nat))
  | stageFeed (job : Nat)
  | continuationBinning (job stage : Nat)
  | binFlushDry (job stage : Nat)
  | gridRetire (grid : Nat)
  | lqsubWrite (die q : Nat) (v : W32)
  | lqrackWrite (die q : Nat) (v : W32)
  | lqcanWrite (die q : Nat) (v : W32)
  | lqstatWrite (die q : Nat) (v : W32)
  | lqcfgWrite (die q : Nat) (v : W32)
  | registerWrite (r : PlainReg) (v : W64)
  | notifyArrival (vec : Nat)
  | apertureWake
  | untranslatedDeviceRequest (r : DevReq)
  | atsTranslationRequest (fn pasid : Nat) (addr : Nat)
  | translatedRequest (r : DevReq)
  | priPageRequest (fn pasid : Nat) (addr : Nat)
  | remoteRequestServe (r : RemReq)
  | rldResponseLands (id : Nat) (r : RemResp)
  | remoteTimeout (id : Nat)
  | classLPacketReceive (p : Packet)
  | classLSendExpiry (p : Packet)
  | classLIngressExpiry (p : Packet)
  | lossyBufferClose (pa : Nat)
  | stationLaneLoss (station : Nat)
  | writeQueueAccept (id : Nat)
  | lineWrite (line : Nat)
  | lineRead (line : Nat)
  | sparingCopyStart (stack row : Nat)
  | sparingLineCopy (stack row : Nat)
  | getVersion
  | getCapabilities
  | negotiateAlgorithms (offered : Nat)
  | getDigests
  | getCertificate (slot : Nat)
  | challenge (nonce : List Byte)
  | getMeasurements (idx : Nat)
  | keyExchange (offer : List Byte)
  | finish (verify : List Byte)
  | endSession
  | keyRelease (ctx : Nat) (hash : List Byte)
  | getStatement (ctx : Nat)
  | setbudget (die mask nj : Nat)
  | setthresh (ctx thresh : Nat)
  | setcfg (accid ports : Nat)
  | reset
  | migrate (ctx acc die q : Nat)
  | migrationDigestReceived (ctx : Nat) (digest : List Byte)
  | migrationHandIn
  | migrationRefusal (ctx : Nat)
  | statementSign (ctx : Nat)
  | thermalSample (die temp : Nat)
  | moduleReset
  | firmwareFetch (image signature : List Byte)
  | stewardLockstepMismatch
  | remoteAcknowledgement (id : Nat) (nak : Bool)
  | dpcContainment (port : Nat)
  | moduleReplacementStatement (ctx : Nat) (statement : List Byte)
  deriving DecidableEq, Repr

end Sys2Proof
end

