-- ==== Sys2Proof/WellFormed.lean ====
section
/-! DEFINITION. Which instructions are well formed: the operand kinds and accepted modifiers of R60 and R84 to R93. -/

namespace Sys2Proof

/-- Width in bits of an integer type (R81). -/
def ITy.width : ITy → Nat
  | .s32 | .n32 | .b32 => 32
  | .s64 | .n64 | .b64 => 64
  | .s16 | .n16 | .b16 => 16
  | .s8 | .n8 | .b8 => 8

/-- The access size in bytes (R226). -/
def ITy.bytes (t : ITy) : Nat := t.width / 8

def ITy.signed : ITy → Bool
  | .s32 | .s64 | .s16 | .s8 => true
  | _ => false

def ITy.is64 (t : ITy) : Bool := t.width == 64

/-- ITYPE 0x0 to 0x7: the types that carry a value (R81). -/
def ITy.arith : ITy → Bool
  | .b32 | .b64 | .b16 | .b8 => false
  | _ => true

def ITy.raw3264 (t : ITy) : Bool := t == .b32 || t == .b64

/-- The datum types of the atomics and WAITMEM (R88). -/
def ITy.atomic (t : ITy) : Bool := t == .s32 || t == .n32 || t == .s64 || t == .n64 || t == .b32 || t == .b64

/-- Integer comparisons accept 0x0 to 0x5 only (R82). -/
def Cmp.int : Cmp → Bool
  | .eq | .ne | .lt | .le | .gt | .ge => true
  | _ => false

/-- 64-bit special registers (R51). -/
def SReg.wide : SReg → Bool
  | .rplc0 | .rplc1 | .rplc2 | .rplc3 | .argp | .lcyc => true
  | _ => false

/-- 64-bit privileged registers (R390). -/
def PReg.wide : PReg → Bool
  | .trcfg | .fltlog => true
  | _ => false

/-- Privileged registers that SWRP may write (R390, R413, R431). -/
def PReg.writable : PReg → Bool
  | .fpxc | .fabcfg | .traph | .stepc | .wdog | .fltpol | .fltlog => true
  | _ => false

/-- Barrier numbers per level (R172). -/
def Level.limit : Level → Nat
  | .gang => 4
  | .block => 16
  | .cluster => 8
  | .grid => 4

/-- Shape fields that take a pair: BASE and the strides (R175). -/
def fieldWide (f : Fin 33) : Bool := f == 0 || f == 6 || f == 8 || f == 10 || f == 12 || f == 14

/-- AOP and MTYPE combinations of R89. -/
def Aop.okType : Aop → ITy → Bool
  | .add, t | .min, t | .max, t => t == .s32 || t == .n32 || t == .s64 || t == .n64
  | .and, t | .or, t | .xor, t | .exch, t => t == .b32 || t == .b64
  | .fadd, t | .fmin, t | .fmax, t | .fadd2h, t | .fadd2b, t => t == .b32

/-- What an operand field must hold (R60, R204, R243). -/
inductive Kind where
  | none
  | vreg
  | vregOrNull
  | pair
  | pairOrNull
  | val
  | valOrNull
  | val64
  | pred
  | predOrNull
  | shape
  | scale
  | mask
  | wrel
  | table (n : Nat)
  | areg
  | acond
  | aval
  deriving DecidableEq, Repr

/-- The kinds of the four operand fields. -/
structure Sig where
  dst : Kind := .none
  sa : Kind := .none
  sb : Kind := .none
  sc : Kind := .none
  deriving DecidableEq, Repr

def Opnd.isEven : Opnd → Bool
  | .v n => n.val % 2 == 0
  | _ => false

def Opnd.isV : Opnd → Bool
  | .v _ => true
  | _ => false

def Opnd.lit? : Opnd → Option W64
  | .lit w => some w
  | _ => Option.none

/-- A field holds a code of its kind (R60); a 32-bit literal has a zero upper half (R61). -/
def Kind.ok : Kind → Opnd → Bool
  | .none, o => o == .null
  | .vreg, o => o.isV
  | .vregOrNull, o => o.isV || o == .null
  | .pair, o => o.isEven
  | .pairOrNull, o => o.isEven || o == .null
  | .val, .v _ => true
  | .val, .k _ => true
  | .val, .lit w => w.toNat < 2 ^ 32
  | .val, _ => false
  | .valOrNull, .v _ => true
  | .valOrNull, .k _ => true
  | .valOrNull, .lit w => w.toNat < 2 ^ 32
  | .valOrNull, .null => true
  | .valOrNull, _ => false
  | .val64, .v n => n.val % 2 == 0
  | .val64, .k _ => true
  | .val64, .lit _ => true
  | .val64, _ => false
  | .pred, .p _ => true
  | .pred, _ => false
  | .predOrNull, .p _ => true
  | .predOrNull, .null => true
  | .predOrNull, _ => false
  | .shape, .q _ => true
  | .shape, _ => false
  | .scale, .q n => n.val < 15
  | .scale, .null => true
  | .scale, _ => false
  | .mask, o => o.isEven
  | .wrel, .k n => 1 ≤ n.val && n.val ≤ 7
  | .wrel, _ => false
  | .table n, .v r => r.val + n ≤ 128
  | .table _, _ => false
  | .areg, .v n => n.val < 16
  | .areg, _ => false
  | .acond, .p _ => true
  | .acond, _ => false
  | .aval, .v n => n.val < 16
  | .aval, .k n => n.val < 24 || n.val == 38 || n.val == 39
  | .aval, .lit _ => true
  | .aval, _ => false

/-- Number of v registers a field of this kind names. -/
def Kind.width : Kind → Nat
  | .pair | .pairOrNull | .val64 | .mask => 2
  | .table n => n
  | _ => 1

def kv (t : ITy) : Kind := if t.is64 then .val64 else .val
def kr (t : ITy) : Kind := if t.is64 then .pair else .vreg

namespace Instr

/-- The shared word fields of an encoded instruction. -/
def x : Instr → X
  | nop x | iadd x _ _ | isub x _ _ | imul x _ _ | imulh x _ | imad x _ _ | imadWide x _ _ | iadc x _ _ | isbc x _ _ => x
  | imin x _ | imax x _ | iabs x _ | ineg x _ | and x _ | or x _ | xor x _ | not x _ | bool3 x _ _ | shl x _ | shr x _ => x
  | sar x _ | rol x _ | fsh x _ | bfx x _ | bfi x | popc x _ | clz x _ | ctz x _ | brev x _ | bperm x | sel x _ => x
  | isetp x _ _ | mov x _ | cvti x _ _ _ | pand x | por x | pxor x | pnot x | pmov x => x
  | fadd x _ _ | fsub x _ _ | fmul x _ _ | ffma x _ _ | fmin x _ | fmax x _ | fsetp x _ _ | fcls x _ _ | frnd x _ _ => x
  | fcvt x _ _ _ _ | fadd2 x _ _ _ | fmul2 x _ _ _ | ffma2 x _ _ _ | dadd x _ | dmul x _ | dfma x _ | dsetp x _ _ => x
  | rcp x _ | rcpA x _ | rsq x _ | rsqA x _ | sqrt x _ | ex2 x _ | lg2 x _ | sin x _ | cos x _ | tanh x _ => x
  | bra x _ | brx x | call x _ | calli x | ret x | ovcall x | exit x | yield x | trap x _ | brk x _ | srd x _ => x
  | swrKsp x | swrRngs x | swrFabst x | barArr x _ _ | barWait x _ _ | barSync x _ _ | barTry x _ _ => x
  | shld x | shst x | shset x _ | shget x _ => x
  | shfl x _ _ | vred x _ _ _ | vredMr x _ | vscan x _ _ _ | poll x _ | maskof x | matchv x _ | elect x | vlut x _ _ => x
  | qpop x _ => x
  | ld x _ _ | ldAcq x _ _ _ | st x _ _ | stRel x _ _ _ | atom x _ _ _ _ | red x _ _ _ _ | redm x _ _ | cas x _ _ _ => x
  | waitmem x _ _ _ | fence x _ _ | fenceSc x _ | probe x _ | remst x _ _ _ _ | remstL x _ _ | rld x _ _ _ _ => x
  | remred x _ _ _ _ => x
  | tcopy x | tcopyMma x _ | wbind x _ | wdrop x _ | chain x _ | publ x _ | ovl x | ovrel x | launch x | dbell x _ => x
  | dectab x | barExp x => x
  | mma x _ _ | mmaW x _ _ | mmaNf x _ | accz x _ | accld x _ | accst x _ | drain x _ | drainMx x _ => x
  | agen x | aadd x | aloop x | aendl x | apush x _ | agath x _ | acmp x _ | abra x | await x _ | asig x | aend x => x
  | srdp x _ | swrp x _ | tlbinvPage x | tlbinvCtx x | tlbinvAll x | assayrd x | ctxsave x | ctxload x | haltx x => x
  | _ => {}

/-- The operand kinds each instruction's description fixes (R60). -/
def sig : Instr → Sig
  | iadd _ t _ | isub _ t _ | imul _ t _ => ⟨kr t, kv t, kv t, .none⟩
  | imulh _ _ => ⟨.vreg, .val, .val, .none⟩
  | imad _ _ _ => ⟨.vreg, .val, .val, .val⟩
  | imadWide _ _ _ => ⟨.pair, .val, .val, .val64⟩
  | iadc _ t _ | isbc _ t _ => ⟨kr t, kv t, kv t, .predOrNull⟩
  | imin _ t | imax _ t => ⟨kr t, kv t, kv t, .none⟩
  | iabs _ t | ineg _ t => ⟨kr t, kv t, .none, .none⟩
  | and _ t | or _ t | xor _ t => ⟨kr t, kv t, kv t, .none⟩
  | not _ t => ⟨kr t, kv t, .none, .none⟩
  | bool3 _ t _ => ⟨kr t, kv t, kv t, kv t⟩
  | shl _ t | shr _ t | sar _ t | rol _ t => ⟨kr t, kv t, .val, .none⟩
  | fsh _ _ => ⟨.vreg, .val, .val, .val⟩
  | bfx _ _ => ⟨.vreg, .val, .val, .none⟩
  | bfi _ => ⟨.vreg, .val, .val, .val⟩
  | popc _ t | clz _ t | ctz _ t => ⟨.vreg, kv t, .none, .none⟩
  | brev _ t => ⟨kr t, kv t, .none, .none⟩
  | bperm _ => ⟨.vreg, .val, .val, .val⟩
  | sel _ t => ⟨kr t, kv t, kv t, .pred⟩
  | isetp _ t _ => ⟨.pred, kv t, kv t, .none⟩
  | mov _ t => ⟨kr t, kv t, .none, .none⟩
  | cvti _ t s _ => ⟨kr t, kv s, .none, .none⟩
  | pand _ | por _ | pxor _ => ⟨.pred, .pred, .pred, .none⟩
  | pnot _ | pmov _ => ⟨.pred, .pred, .none, .none⟩
  | fadd _ _ _ | fsub _ _ _ | fmul _ _ _ | fmin _ _ | fmax _ _ => ⟨.vreg, .val, .val, .none⟩
  | ffma _ _ _ => ⟨.vreg, .val, .val, .val⟩
  | fsetp _ _ _ => ⟨.pred, .val, .val, .none⟩
  | fcls _ _ _ => ⟨.pred, .val, .none, .none⟩
  | frnd _ _ _ => ⟨.vreg, .val, .none, .none⟩
  | fcvt _ d s _ _ => ⟨if d = .f64 then .pair else .vreg, if s = .f64 then .val64 else .val, .none, .none⟩
  | fadd2 _ _ _ _ | fmul2 _ _ _ _ => ⟨.vreg, .val, .val, .none⟩
  | ffma2 _ _ _ _ => ⟨.vreg, .val, .val, .val⟩
  | dadd _ _ | dmul _ _ => ⟨.pair, .val64, .val64, .none⟩
  | dfma _ _ => ⟨.pair, .val64, .val64, .val64⟩
  | dsetp _ _ _ => ⟨.pred, .val64, .val64, .none⟩
  | rcp _ _ | rcpA _ _ | rsq _ _ | rsqA _ _ | sqrt _ _ | ex2 _ _ | lg2 _ _ | sin _ _ | cos _ _ | tanh _ _ =>
    ⟨.vreg, .val, .none, .none⟩
  | brx _ | calli _ => ⟨.none, .val, .none, .none⟩
  | ovcall _ => ⟨.none, .vreg, .val, .none⟩
  | srd _ r => ⟨if r.wide then .pair else .vreg, .none, .none, .none⟩
  | swrKsp _ | swrRngs _ | swrFabst _ => ⟨.none, .val, .none, .none⟩
  | barTry _ _ _ => ⟨.pred, .none, .none, .none⟩
  | shld _ => ⟨.shape, .pair, .none, .none⟩
  | shst _ => ⟨.none, .pair, .shape, .none⟩
  | shset _ f => ⟨.shape, if fieldWide f then .val64 else .val, .none, .none⟩
  | shget _ f => ⟨if fieldWide f then .pair else .vreg, .shape, .none, .none⟩
  | shfl _ _ w => ⟨.vreg, .vreg, if w then .wrel else .val, .none⟩
  | vred _ _ m _ => ⟨.vreg, .vreg, if m then .mask else .none, .none⟩
  | vredMr _ _ => ⟨.vreg, .vreg, .mask, .none⟩
  | vscan _ _ _ _ => ⟨.vreg, .vreg, .none, .none⟩
  | poll _ m => ⟨if m = .mask then .mask else .pred, .pred, .none, .none⟩
  | maskof _ => ⟨.mask, .none, .none, .none⟩
  | matchv _ t => ⟨.mask, kr t, .none, .none⟩
  | elect _ => ⟨.pred, .none, .none, .none⟩
  | vlut _ _ n => ⟨.vreg, .table (n.val + 1), .val, .none⟩
  | qpop _ _ => ⟨.vreg, .none, .none, .none⟩
  | ld _ t _ | ldAcq _ _ t _ | rld _ _ _ t _ => ⟨kr t, .pair, .valOrNull, .none⟩
  | st _ t _ | stRel _ _ t _ => ⟨.none, .pair, .valOrNull, kv t⟩
  | atom _ _ _ _ t => ⟨kr t, .pair, .valOrNull, kv t⟩
  | red _ _ _ _ t | remred _ _ _ _ t => ⟨.none, .pair, .valOrNull, kv t⟩
  | redm _ _ _ => ⟨.mask, .pair, .valOrNull, .val⟩
  | cas _ _ _ t => ⟨kr t, .pair, kv t, kv t⟩
  | waitmem _ _ _ t => ⟨kr t, .pair, .valOrNull, kv t⟩
  | probe _ _ => ⟨.vreg, .none, .none, .none⟩
  | remst _ _ _ t _ => ⟨.pairOrNull, .pair, .valOrNull, kv t⟩
  | remstL _ t _ => ⟨.vreg, .pair, .valOrNull, kv t⟩
  | tcopy _ | tcopyMma _ _ | wbind _ _ => ⟨.vreg, .shape, .shape, .pairOrNull⟩
  | wdrop _ _ => ⟨.vreg, .none, .none, .none⟩
  | chain _ _ => ⟨.vreg, .shape, .shape, .pair⟩
  | publ _ _ | ovl _ => ⟨.vreg, .val, .none, .none⟩
  | ovrel _ => ⟨.vreg, .vreg, .none, .none⟩
  | launch _ => ⟨.pair, .pair, .vreg, .none⟩
  | dbell _ _ => ⟨.vreg, .pair, .valOrNull, .val⟩
  | dectab _ | barExp _ => ⟨.vreg, .val, .pair, .pair⟩
  | mma _ _ _ => ⟨.vregOrNull, .shape, .shape, .scale⟩
  | mmaW _ _ _ => ⟨.vregOrNull, .shape, .shape, .val⟩
  | mmaNf _ _ => ⟨.vregOrNull, .shape, .shape, .none⟩
  | accld _ _ | accst _ _ | drain _ _ => ⟨.none, .shape, .none, .none⟩
  | drainMx _ _ => ⟨.none, .shape, .shape, .none⟩
  | agen _ => ⟨.areg, .shape, .aval, .aval⟩
  | aadd _ => ⟨.areg, .areg, .aval, .none⟩
  | aloop _ | abra _ | await _ _ => ⟨.none, .aval, .none, .none⟩
  | apush _ _ => ⟨.none, .areg, .none, .none⟩
  | agath _ _ => ⟨.none, .areg, .areg, .none⟩
  | acmp _ _ => ⟨.acond, .areg, .aval, .none⟩
  | asig _ => ⟨.none, .areg, .aval, .none⟩
  | srdp _ r => ⟨if r.wide then .pair else .vreg, .none, .none, .none⟩
  | swrp _ r => ⟨.none, if r.wide then .val64 else .val, .none, .none⟩
  | tlbinvPage _ => ⟨.vreg, .pair, .none, .none⟩
  | tlbinvCtx _ | tlbinvAll _ => ⟨.vreg, .none, .none, .none⟩
  | assayrd _ => ⟨.pair, .val, .val, .none⟩
  | ctxsave _ | ctxload _ | haltx _ => ⟨.vreg, .val, .none, .none⟩
  | _ => {}

/-- The DST field names registers the instruction reads and does not write (R336, R352). -/
def dstRead : Instr → Bool
  | redm .. | remst .. | remstL .. => true
  | _ => false

/-- Variable-latency instructions (R44). -/
def isVL : Instr → Bool
  | ld .. | ldAcq .. | rld .. | shld .. | atom .. | cas .. | probe .. | qpop .. => true
  | rcp .. | rcpA .. | rsq .. | rsqA .. | sqrt .. | ex2 .. | lg2 .. | sin .. | cos .. | tanh .. => true
  | tcopy .. | tcopyMma .. | wbind .. | wdrop .. | chain .. | publ .. | ovl .. | ovrel .. | launch .. | dbell .. => true
  | dectab .. | barExp .. => true
  | mma .. | mmaW .. | mmaNf .. | accz .. | accld .. | accst .. | drain .. | drainMx .. => true
  | tlbinvPage .. | tlbinvCtx .. | tlbinvAll .. | assayrd .. | ctxsave .. | ctxload .. => true
  | _ => false

/-- Control transfers, which stand last in their clause (R56, R247). -/
def isTransfer : Instr → Bool
  | bra .. | brx .. | call .. | calli .. | ret .. | ovcall .. | exit .. | aloop .. | aendl .. | abra .. | aend .. => true
  | _ => false

/-- A-class instructions (R92). -/
def isA : Instr → Bool
  | agen .. | aadd .. | aloop .. | aendl .. | apush .. | agath .. | acmp .. | abra .. | await .. | asig .. | aend .. => true
  | _ => false

/-- The modifiers the instruction accepts; anything else is a reserved MOD value (R80 to R93, R177, R202, R220, R346, R361). -/
def modOk : Instr → Bool
  | iadd _ t _ | isub _ t _ | imul _ t _ | iadc _ t _ | isbc _ t _ | imin _ t | imax _ t => t.arith
  | imulh _ t | imad _ t _ | imadWide _ t _ | bfx _ t => t == .s32 || t == .n32
  | iabs _ t | ineg _ t => t.signed
  | and _ t | or _ t | xor _ t | not _ t | bool3 _ t _ | shl _ t | shr _ t | rol _ t => t.raw3264
  | popc _ t | clz _ t | ctz _ t | brev _ t | sel _ t | mov _ t | matchv _ t => t.raw3264
  | sar _ t => t == .s32 || t == .s64
  | isetp _ t c => t.arith && c.int
  | cvti _ t s _ => t.arith && s.arith
  | frnd _ r _ | dadd _ r | dmul _ r | dfma _ r | dsetp _ _ r | vredMr _ r => r != .sr
  | fcvt _ d s _ _ => d != s && !((d == .s32 || d == .n32) && (s == .s32 || s == .n32))
  | barArr _ l n | barWait _ l n | barSync _ l n | barTry _ l n => n.val < l.limit
  | vred _ op _ r | vscan _ op _ r => if op = .fadd then r != .sr else r == .rne
  | st _ _ px | stRel _ _ _ px => px != some 4 && px != some 7
  | atom _ sc o a t => a.okType t && (o != .plain || sc == .gang)
  | red _ sc rel a t | remred _ sc rel a t => a != .exch && a.okType t && (rel || sc == .gang)
  | redm _ sc rel => rel || sc == .gang
  | cas _ sc o t => t.raw3264 && (o != .plain || sc == .gang)
  | waitmem _ _ _ t => t.atomic
  | fence _ _ m => m != 0
  | probe _ sc => sc == .die || sc == .module || sc == .fabric
  | remst _ sc rel _ px => (rel || sc == .gang) && (px == none || px == some 5)
  | remstL _ t px => t.raw3264 && (px == none || px == some 5)
  | rld _ acq sc _ px => (acq || sc == .gang) && (px == none || px == some 5)
  | dbell _ sc => sc == .die || sc == .module || sc == .fabric || sc == .system
  | acmp _ c => c.int
  | swrp _ r => r.writable
  | _ => true

/-- A set FSEL is legal only on a variable-latency instruction (R65). -/
def fselOk (i : Instr) : Bool := i.isVL || !i.x.fsel

/-- A last-use bit stands only on a v register or pair, and never in an A clause (R60, R243). -/
def luOk (i : Instr) : Bool :=
  (!i.x.lua || i.x.sa.isV) && (!i.x.lub || i.x.sb.isV) && (!i.x.luc || i.x.sc.isV)
    && !(i.isA && (i.x.lua || i.x.lub || i.x.luc))

/-- TCOPY.MMA names operand B one above qd, so qd is not q15 (R253). -/
def followOnOk : Instr → Bool
  | tcopyMma x _ => x.sa != .q 15
  | _ => true

/-- Every operand field holds a code of its kind (R60). -/
def opsOk (i : Instr) : Bool :=
  i.sig.dst.ok i.x.dst && i.sig.sa.ok i.x.sa && i.sig.sb.ok i.x.sb && i.sig.sc.ok i.x.sc && i.luOk && i.followOnOk

/-- The fields that name 0xE0 read one literal (R61). -/
def literal (i : Instr) : Option W64 :=
  firstSome Opnd.lit? [i.x.dst, i.x.sa, i.x.sb, i.x.sc]

def litOk (i : Instr) : Bool :=
  [i.x.dst, i.x.sa, i.x.sb, i.x.sc].all fun o => o.lit?.isNone || o.lit? == i.literal

end Instr

/-- A well-formed instruction: every check that the encoding alone decides (R57, R66). -/
def wellFormed (i : Instr) : Bool := i.modOk && i.fselOk && i.opsOk && i.litOk

end Sys2Proof
end

