-- ==== Sys2Proof/Decode.lean ====
section
/-! DEFINITION. Clause headers, instruction words and their encoder (R54 to R66, R80 to R94). -/

namespace Sys2Proof

/-! ### Codes of the enumerated modifiers -/

/-- ITYPE (R81). -/
def ITy.code : ITy → Nat
  | .s32 => 0 | .n32 => 1 | .s64 => 2 | .n64 => 3 | .s16 => 4 | .n16 => 5
  | .s8 => 6 | .n8 => 7 | .b32 => 8 | .b64 => 9 | .b16 => 10 | .b8 => 11

def ITy.ofCode : Nat → Option ITy
  | 0 => some .s32 | 1 => some .n32 | 2 => some .s64 | 3 => some .n64 | 4 => some .s16 | 5 => some .n16
  | 6 => some .s8 | 7 => some .n8 | 8 => some .b32 | 9 => some .b64 | 10 => some .b16 | 11 => some .b8
  | _ => none

/-- CMP (R82). -/
def Cmp.code : Cmp → Nat
  | .eq => 0 | .ne => 1 | .lt => 2 | .le => 3 | .gt => 4 | .ge => 5 | .num => 6
  | .equ => 8 | .neu => 9 | .ltu => 10 | .leu => 11 | .gtu => 12 | .geu => 13 | .nan => 14

def Cmp.ofCode : Nat → Option Cmp
  | 0 => some .eq | 1 => some .ne | 2 => some .lt | 3 => some .le | 4 => some .gt | 5 => some .ge | 6 => some .num
  | 8 => some .equ | 9 => some .neu | 10 => some .ltu | 11 => some .leu | 12 => some .gtu | 13 => some .geu
  | 14 => some .nan | _ => none

/-- RND (R83). -/
def Rnd.code : Rnd → Nat
  | .rne => 0 | .rz => 1 | .rd => 2 | .ru => 3 | .sr => 4

def Rnd.ofCode : Nat → Option Rnd
  | 0 => some .rne | 1 => some .rz | 2 => some .rd | 3 => some .ru | 4 => some .sr | _ => none

/-- SCOPE (R83). -/
def Scope.code : Scope → Nat
  | .gang => 0 | .block => 1 | .cluster => 2 | .die => 3 | .module => 4 | .fabric => 5 | .system => 6

def Scope.ofCode : Nat → Option Scope
  | 0 => some .gang | 1 => some .block | 2 => some .cluster | 3 => some .die | 4 => some .module
  | 5 => some .fabric | 6 => some .system | _ => none

/-- ORD (R88). -/
def Ord4.code : Ord4 → Nat
  | .plain => 0 | .acq => 1 | .rel => 2 | .ar => 3

def Ord4.ofCode : Nat → Option Ord4
  | 0 => some .plain | 1 => some .acq | 2 => some .rel | 3 => some .ar | _ => none

/-- The formats of FCVT (R85). -/
def FFmt.code : FFmt → Nat
  | .f32 => 0 | .f16 => 1 | .bf16 => 2 | .e4m3 => 3 | .e5m2 => 4 | .e3m2 => 5 | .e2m3 => 6 | .e2m1 => 7
  | .f64 => 10 | .s32 => 14 | .n32 => 15

def FFmt.ofCode : Nat → Option FFmt
  | 0 => some .f32 | 1 => some .f16 | 2 => some .bf16 | 3 => some .e4m3 | 4 => some .e5m2 | 5 => some .e3m2
  | 6 => some .e2m3 | 7 => some .e2m1 | 10 => some .f64 | 14 => some .s32 | 15 => some .n32 | _ => none

/-- ROP (R86). -/
def Rop.code : Rop → Nat
  | .iadd => 0 | .imin => 1 | .imax => 2 | .nmin => 3 | .nmax => 4 | .and => 5 | .or => 6 | .xor => 7
  | .fadd => 8 | .fmin => 9 | .fmax => 10

def Rop.ofCode : Nat → Option Rop
  | 0 => some .iadd | 1 => some .imin | 2 => some .imax | 3 => some .nmin | 4 => some .nmax | 5 => some .and
  | 6 => some .or | 7 => some .xor | 8 => some .fadd | 9 => some .fmin | 10 => some .fmax | _ => none

/-- AOP (R89). -/
def Aop.code : Aop → Nat
  | .add => 0 | .min => 1 | .max => 2 | .and => 3 | .or => 4 | .xor => 5 | .exch => 6
  | .fadd => 8 | .fmin => 9 | .fmax => 10 | .fadd2h => 11 | .fadd2b => 12

def Aop.ofCode : Nat → Option Aop
  | 0 => some .add | 1 => some .min | 2 => some .max | 3 => some .and | 4 => some .or | 5 => some .xor
  | 6 => some .exch | 8 => some .fadd | 9 => some .fmin | 10 => some .fmax | 11 => some .fadd2h
  | 12 => some .fadd2b | _ => none

/-- LEVEL (R85). -/
def Level.code : Level → Nat
  | .gang => 0 | .block => 1 | .cluster => 2 | .grid => 3

def Level.ofCode : Nat → Option Level
  | 0 => some .gang | 1 => some .block | 2 => some .cluster | 3 => some .grid | _ => none

/-- MODE of SHFL (R86). -/
def ShfMode.code : ShfMode → Nat
  | .up => 0 | .down => 1 | .xor => 2 | .idx => 3

def ShfMode.ofCode : Nat → Option ShfMode
  | 0 => some .up | 1 => some .down | 2 => some .xor | 3 => some .idx | _ => none

/-- The mode of POLL (R86). -/
def PollMode.code : PollMode → Nat
  | .every => 0 | .some => 1 | .agree => 2 | .mask => 3

def PollMode.ofCode : Nat → Option PollMode
  | 0 => Option.some .every | 1 => Option.some .some | 2 => Option.some .agree | 3 => Option.some .mask | _ => Option.none

/-- Special-register indices (R51). -/
def SReg.code : SReg → Nat
  | .lanew => 0x00 | .tid => 0x01 | .gangid => 0x02 | .homelane => 0x03 | .nthreads => 0x04 | .blockid => 0x05
  | .nblocks => 0x06 | .clusterid => 0x07 | .blkincl => 0x08 | .clblocks => 0x09 | .gridid => 0x0A | .ctxid => 0x0B
  | .corenum => 0x0C | .ksp => 0x10 | .ksb => 0x11 | .freedrd => 0x12 | .rngs => 0x13 | .fabst => 0x14
  | .rplc0 => 0x18 | .rplc1 => 0x19 | .rplc2 => 0x1A | .rplc3 => 0x1B | .argp => 0x1C | .lcyc => 0x1D

def SReg.ofCode : Nat → Option SReg
  | 0x00 => some .lanew | 0x01 => some .tid | 0x02 => some .gangid | 0x03 => some .homelane | 0x04 => some .nthreads
  | 0x05 => some .blockid | 0x06 => some .nblocks | 0x07 => some .clusterid | 0x08 => some .blkincl
  | 0x09 => some .clblocks | 0x0A => some .gridid | 0x0B => some .ctxid | 0x0C => some .corenum | 0x10 => some .ksp
  | 0x11 => some .ksb | 0x12 => some .freedrd | 0x13 => some .rngs | 0x14 => some .fabst | 0x18 => some .rplc0
  | 0x19 => some .rplc1 | 0x1A => some .rplc2 | 0x1B => some .rplc3 | 0x1C => some .argp | 0x1D => some .lcyc
  | _ => none

/-- Privileged-register indices (R390, R431). -/
def PReg.code : PReg → Nat
  | .fpxc => 0x40 | .fabcfg => 0x41 | .trcfg => 0x42 | .traph => 0x43 | .stepc => 0x44 | .wdog => 0x45
  | .fltpol => 0x46 | .fltlog => 0x47 | .fltcnt => 0x48 | .govbud => 0x80 | .thst => 0x81 | .platcfg => 0x82

def PReg.ofCode : Nat → Option PReg
  | 0x40 => some .fpxc | 0x41 => some .fabcfg | 0x42 => some .trcfg | 0x43 => some .traph | 0x44 => some .stepc
  | 0x45 => some .wdog | 0x46 => some .fltpol | 0x47 => some .fltlog | 0x48 => some .fltcnt | 0x80 => some .govbud
  | 0x81 => some .thst | 0x82 => some .platcfg | _ => none

/-- PATHX (R88): a path selector 0 to 7, or 0xF for any. -/
def pathxCode : Option (Fin 8) → Nat
  | some n => n.val
  | none => 15

def pathxOf (c : Nat) : Option (Option (Fin 8)) :=
  if h : c < 8 then some (some ⟨c, h⟩) else if c = 15 then some none else none

/-! ### Operand codes -/

/-- The operand code of R59. -/
def Opnd.code : Opnd → Nat
  | .v n => n.val
  | .p n => 0x80 + n.val
  | .q n => 0x88 + n.val
  | .k n => 0x98 + n.val
  | .lit _ => 0xE0
  | .null => 0xFF

/-- The operand that a code names, with the clause's next slot as the literal (R59, R61); `none` on a reserved code. -/
def Opnd.ofCode (next : Option W64) (c : Nat) : Option Opnd :=
  if h : c < 128 then some (.v ⟨c, h⟩)
  else if h : c - 0x80 < 8 then some (.p ⟨c - 0x80, h⟩)
  else if h : c - 0x88 < 16 then some (.q ⟨c - 0x88, h⟩)
  else if h : c - 0x98 < 40 then some (.k ⟨c - 0x98, h⟩)
  else if c = 0xE0 then next.map .lit
  else if c = 0xFF then some .null
  else none

/-! ### Opcodes and MOD fields -/

/-- A clause class (R55). -/
inductive Cls where
  | V | G | M | X | T | A | S
  deriving DecidableEq, Repr

def Cls.code : Cls → Nat
  | .V => 1 | .G => 2 | .M => 3 | .X => 4 | .T => 5 | .A => 6 | .S => 7

def Cls.ofCode : Nat → Option Cls
  | 1 => some .V | 2 => some .G | 3 => some .M | 4 => some .X | 5 => some .T | 6 => some .A | 7 => some .S | _ => none

/-- RND, FTZ and PK of the packed forms (R85). -/
def pkMod (bf : Bool) (r : Rnd) (ftz : Bool) : Nat := r.code + 8 * ftz.toNat + 16 * bf.toNat
/-- RND and FTZ (R85). -/
def fMod (r : Rnd) (ftz : Bool) : Nat := r.code + 8 * ftz.toNat
/-- LEVEL and NUM (R85). -/
def barMod (l : Level) (n : Fin 16) : Nat := l.code + 4 * n.val
/-- SCOPE, ORD, MTYPE and the upper field of class M (R88). -/
def mMod (sc ord ty up : Nat) : Nat := sc + 8 * ord + 32 * ty + 512 * up
/-- ORD 2 for a release, 0 for none. -/
def relOrd (rel : Bool) : Nat := 2 * rel.toNat

/-- Class, opcode and MOD of an encoded instruction (R84 to R93); `none` for a step without an encoding. -/
def codeOf : Instr → Option (Cls × Nat × Nat)
  | .nop _ => some (.V, 0x000, 0)
  | .iadd _ t s => some (.V, 0x010, t.code + 16 * s.toNat)
  | .isub _ t s => some (.V, 0x011, t.code + 16 * s.toNat)
  | .imul _ t s => some (.V, 0x012, t.code + 16 * s.toNat)
  | .imulh _ t => some (.V, 0x013, t.code)
  | .imad _ t s => some (.V, 0x014, t.code + 16 * s.toNat)
  | .imadWide _ t s => some (.V, 0x014, t.code + 16 * s.toNat + 32)
  | .iadc _ t cp => some (.V, 0x015, t.code + 64 * cp.val)
  | .isbc _ t cp => some (.V, 0x016, t.code + 64 * cp.val)
  | .imin _ t => some (.V, 0x017, t.code)
  | .imax _ t => some (.V, 0x018, t.code)
  | .iabs _ t => some (.V, 0x019, t.code)
  | .ineg _ t => some (.V, 0x01A, t.code)
  | .and _ t => some (.V, 0x020, t.code)
  | .or _ t => some (.V, 0x021, t.code)
  | .xor _ t => some (.V, 0x022, t.code)
  | .not _ t => some (.V, 0x023, t.code)
  | .bool3 _ t tt => some (.V, 0x024, t.code + 64 * tt.toNat)
  | .shl _ t => some (.V, 0x028, t.code)
  | .shr _ t => some (.V, 0x029, t.code)
  | .sar _ t => some (.V, 0x02A, t.code)
  | .rol _ t => some (.V, 0x02B, t.code)
  | .fsh _ r => some (.V, 0x02C, 8 + 64 * r.toNat)
  | .bfx _ t => some (.V, 0x02D, t.code)
  | .bfi _ => some (.V, 0x02E, 8)
  | .popc _ t => some (.V, 0x02F, t.code)
  | .clz _ t => some (.V, 0x030, t.code)
  | .ctz _ t => some (.V, 0x031, t.code)
  | .brev _ t => some (.V, 0x032, t.code)
  | .bperm _ => some (.V, 0x033, 8)
  | .sel _ t => some (.V, 0x034, t.code)
  | .isetp _ t c => some (.V, 0x035, t.code + 64 * c.code)
  | .mov _ t => some (.V, 0x036, t.code)
  | .cvti _ t src s => some (.V, 0x037, t.code + 16 * s.toNat + 64 * src.code)
  | .pand _ => some (.V, 0x040, 0)
  | .por _ => some (.V, 0x041, 0)
  | .pxor _ => some (.V, 0x042, 0)
  | .pnot _ => some (.V, 0x043, 0)
  | .pmov _ => some (.V, 0x044, 0)
  | .fadd _ r z => some (.V, 0x050, fMod r z)
  | .fsub _ r z => some (.V, 0x051, fMod r z)
  | .fmul _ r z => some (.V, 0x052, fMod r z)
  | .ffma _ r z => some (.V, 0x053, fMod r z)
  | .fmin _ z => some (.V, 0x054, fMod .rne z)
  | .fmax _ z => some (.V, 0x055, fMod .rne z)
  | .fsetp _ c z => some (.V, 0x056, fMod .rne z + 64 * c.code)
  | .fcls _ m z => some (.V, 0x057, fMod .rne z + 16 * m.toNat)
  | .frnd _ r z => some (.V, 0x058, fMod r z)
  | .fcvt _ d s r z => some (.V, 0x059, fMod r z + 64 * s.code + 1024 * d.code)
  | .fadd2 _ b r z => some (.V, 0x05A, pkMod b r z)
  | .fmul2 _ b r z => some (.V, 0x05B, pkMod b r z)
  | .ffma2 _ b r z => some (.V, 0x05C, pkMod b r z)
  | .dadd _ r => some (.V, 0x05D, r.code)
  | .dmul _ r => some (.V, 0x05E, r.code)
  | .dfma _ r => some (.V, 0x05F, r.code)
  | .dsetp _ c r => some (.V, 0x060, r.code + 64 * c.code)
  | .rcp _ z => some (.V, 0x070, fMod .rne z)
  | .rcpA _ z => some (.V, 0x070, fMod .rne z + 16)
  | .rsq _ z => some (.V, 0x071, fMod .rne z)
  | .rsqA _ z => some (.V, 0x071, fMod .rne z + 16)
  | .sqrt _ z => some (.V, 0x072, fMod .rne z)
  | .ex2 _ z => some (.V, 0x073, fMod .rne z)
  | .lg2 _ z => some (.V, 0x074, fMod .rne z)
  | .sin _ z => some (.V, 0x075, fMod .rne z)
  | .cos _ z => some (.V, 0x076, fMod .rne z)
  | .tanh _ z => some (.V, 0x077, fMod .rne z)
  | .bra _ d => some (.V, 0x080, d.toNat)
  | .brx _ => some (.V, 0x081, 0)
  | .call _ d => some (.V, 0x082, d.toNat)
  | .calli _ => some (.V, 0x083, 0)
  | .ret _ => some (.V, 0x084, 0)
  | .ovcall _ => some (.V, 0x085, 0)
  | .exit _ => some (.V, 0x086, 0)
  | .yield _ => some (.V, 0x087, 0)
  | .trap _ c => some (.V, 0x088, c.toNat)
  | .brk _ c => some (.V, 0x089, c.toNat)
  | .srd _ r => some (.V, 0x08A, r.code)
  | .swrKsp _ => some (.V, 0x08B, 0x010)
  | .swrRngs _ => some (.V, 0x08B, 0x013)
  | .swrFabst _ => some (.V, 0x08B, 0x014)
  | .barArr _ l n => some (.V, 0x090, barMod l n)
  | .barWait _ l n => some (.V, 0x091, barMod l n)
  | .barSync _ l n => some (.V, 0x092, barMod l n)
  | .barTry _ l n => some (.V, 0x093, barMod l n)
  | .shld _ => some (.V, 0x0A0, 0)
  | .shst _ => some (.V, 0x0A1, 0)
  | .shset _ f => some (.V, 0x0A2, f.val)
  | .shget _ f => some (.V, 0x0A3, f.val)
  | .shfl _ m w => some (.G, 0, m.code + 4 * w.toNat)
  | .vred _ o m r => some (.G, 1, o.code + 16 * m.toNat + 64 * r.code)
  | .vredMr _ r => some (.G, 1, 8 + 32 + 64 * r.code)
  | .vscan _ o e r => some (.G, 2, o.code + 16 * e.toNat + 64 * r.code)
  | .poll _ m => some (.G, 3, m.code)
  | .maskof _ => some (.G, 4, 0)
  | .matchv _ t => some (.G, 5, t.code)
  | .elect _ => some (.G, 6, 0)
  | .vlut _ f n => some (.G, 7, f.toNat + 256 * n.val)
  | .qpop _ q => some (.G, 8, q.val)
  | .ld _ t px => some (.M, 0, mMod 0 0 t.code (pathxCode px))
  | .ldAcq _ sc t px => some (.M, 0, mMod sc.code 1 t.code (pathxCode px))
  | .st _ t px => some (.M, 1, mMod 0 0 t.code (pathxCode px))
  | .stRel _ sc t px => some (.M, 1, mMod sc.code 2 t.code (pathxCode px))
  | .atom _ sc o a t => some (.M, 2, mMod sc.code o.code t.code a.code)
  | .red _ sc rel a t => some (.M, 3, mMod sc.code (relOrd rel) t.code a.code)
  | .redm _ sc rel => some (.M, 4, mMod sc.code (relOrd rel) 8 8)
  | .cas _ sc o t => some (.M, 5, mMod sc.code o.code t.code 0)
  | .waitmem _ acq sc t => some (.M, 6, mMod sc.code acq.toNat t.code 0)
  | .fence _ sc m => some (.M, 7, sc.code + 64 * m.toNat)
  | .fenceSc _ sc => some (.M, 8, sc.code)
  | .probe _ sc => some (.M, 9, sc.code)
  | .remst _ sc rel t px => some (.M, 10, mMod sc.code (relOrd rel) t.code (pathxCode px))
  | .remstL _ t px => some (.M, 10, mMod 0 0 t.code (pathxCode px) + 0x2000)
  | .rld _ acq sc t px => some (.M, 11, mMod sc.code acq.toNat t.code (pathxCode px))
  | .remred _ sc rel a t => some (.M, 12, mMod sc.code (relOrd rel) t.code a.code)
  | .tcopy _ => some (.X, 0, 0)
  | .tcopyMma _ a => some (.X, 0, 1 + 2 * a.val)
  | .wbind _ w => some (.X, 1, w.val)
  | .wdrop _ w => some (.X, 2, w.val)
  | .chain _ n => some (.X, 3, n.val)
  | .publ _ sc => some (.X, 4, sc.code)
  | .ovl _ => some (.X, 5, 0)
  | .ovrel _ => some (.X, 6, 0)
  | .launch _ => some (.X, 7, 0)
  | .dbell _ sc => some (.X, 8, sc.code)
  | .dectab _ => some (.X, 9, 0)
  | .barExp _ => some (.X, 10, 0)
  | .mma _ a s => some (.T, 0, a.val + 32 * s.toNat)
  | .mmaW _ a s => some (.T, 1, a.val + 32 * s.toNat)
  | .mmaNf _ a => some (.T, 2, a.val)
  | .accz _ a => some (.T, 3, a.val)
  | .accld _ a => some (.T, 4, a.val)
  | .accst _ a => some (.T, 5, a.val)
  | .drain _ a => some (.T, 6, a.val)
  | .drainMx _ a => some (.T, 7, a.val)
  | .agen _ => some (.A, 0, 0)
  | .aadd _ => some (.A, 1, 0)
  | .aloop _ => some (.A, 2, 0)
  | .aendl _ => some (.A, 3, 0)
  | .apush _ q => some (.A, 4, q.val)
  | .agath _ q => some (.A, 5, q.val)
  | .acmp _ c => some (.A, 6, 8 * c.code)
  | .abra _ => some (.A, 7, 0)
  | .await _ q => some (.A, 8, q.val)
  | .asig _ => some (.A, 9, 0)
  | .aend _ => some (.A, 10, 0)
  | .srdp _ r => some (.S, 0, r.code)
  | .swrp _ r => some (.S, 1, r.code)
  | .tlbinvPage _ => some (.S, 2, 0)
  | .tlbinvCtx _ => some (.S, 2, 1)
  | .tlbinvAll _ => some (.S, 2, 2)
  | .assayrd _ => some (.S, 3, 0)
  | .ctxsave _ => some (.S, 4, 0)
  | .ctxload _ => some (.S, 5, 0)
  | .haltx _ => some (.S, 6, 0)
  | _ => none

/-- `Fin n` from the low bits of a field, if in range. -/
def fin? (n c : Nat) : Option (Fin n) := if h : c < n then some ⟨c, h⟩ else none

/-- Reads MOD as a bit field (R85). -/
abbrev ModReader := Nat → X → Option Instr

def ity (m : Nat) : Option ITy := ITy.ofCode (bits m 3 0)

def rI (f : X → ITy → Instr) : ModReader := fun m x => (ity m).map (f x)
def rIS (f : X → ITy → Bool → Instr) : ModReader := fun m x => (ity m).map (f x · (bit m 4))
def rF (f : X → Rnd → Bool → Instr) : ModReader := fun m x => (Rnd.ofCode (bits m 2 0)).map (f x · (bit m 3))
def rD (f : X → Rnd → Instr) : ModReader := fun m x => (Rnd.ofCode (bits m 2 0)).map (f x)
def rPk (f : X → Bool → Rnd → Bool → Instr) : ModReader :=
  fun m x => (Rnd.ofCode (bits m 2 0)).map (f x (bit m 4) · (bit m 3))
def rZ (f : X → Bool → Instr) : ModReader := fun m x => some (f x (bit m 3))
def rBar (f : X → Level → Fin 16 → Instr) : ModReader := fun m x => do
  let l ← Level.ofCode (bits m 1 0)
  let n ← fin? 16 (bits m 5 2)
  pure (f x l n)
def r0 (f : X → Instr) : ModReader := fun _ x => some (f x)
def rFin (n hi lo : Nat) (f : X → Fin n → Instr) : ModReader := fun m x => (fin? n (bits m hi lo)).map (f x)

def mSc (m : Nat) : Option Scope := Scope.ofCode (bits m 2 0)
def mTy (m : Nat) : Option ITy := ITy.ofCode (bits m 8 5)
def mPx (m : Nat) : Option (Option (Fin 8)) := pathxOf (bits m 12 9)

/-- Class V opcodes 0x000 to 0x01F (R84). -/
def opsV0 : List (Nat × ModReader) :=
  [(0x000, r0 .nop), (0x010, rIS .iadd), (0x011, rIS .isub), (0x012, rIS .imul), (0x013, rI .imulh),
   (0x014, fun m x => (ity m).map fun t => if bit m 5 then .imadWide x t (bit m 4) else .imad x t (bit m 4)),
   (0x015, fun m x => do pure (.iadc x (← ity m) (← fin? 8 (bits m 8 6)))),
   (0x016, fun m x => do pure (.isbc x (← ity m) (← fin? 8 (bits m 8 6)))),
   (0x017, rI .imin), (0x018, rI .imax), (0x019, rI .iabs), (0x01A, rI .ineg)]

/-- Class V opcodes 0x020 to 0x03F (R84). -/
def opsV2 : List (Nat × ModReader) :=
  [(0x020, rI .and), (0x021, rI .or), (0x022, rI .xor), (0x023, rI .not),
   (0x024, fun m x => (ity m).map (.bool3 x · (BitVec.ofNat 8 (bits m 13 6)))),
   (0x028, rI .shl), (0x029, rI .shr), (0x02A, rI .sar), (0x02B, rI .rol),
   (0x02C, fun m x => some (.fsh x (bit m 6))), (0x02D, rI .bfx), (0x02E, r0 .bfi),
   (0x02F, rI .popc), (0x030, rI .clz), (0x031, rI .ctz), (0x032, rI .brev), (0x033, r0 .bperm), (0x034, rI .sel),
   (0x035, fun m x => do pure (.isetp x (← ity m) (← Cmp.ofCode (bits m 9 6)))),
   (0x036, rI .mov),
   (0x037, fun m x => do pure (.cvti x (← ity m) (← ITy.ofCode (bits m 9 6)) (bit m 4)))]

/-- Class V opcodes 0x040 to 0x05F (R84). -/
def opsV4 : List (Nat × ModReader) :=
  [(0x040, r0 .pand), (0x041, r0 .por), (0x042, r0 .pxor), (0x043, r0 .pnot), (0x044, r0 .pmov),
   (0x050, rF .fadd), (0x051, rF .fsub), (0x052, rF .fmul), (0x053, rF .ffma), (0x054, rZ .fmin), (0x055, rZ .fmax),
   (0x056, fun m x => (Cmp.ofCode (bits m 9 6)).map (.fsetp x · (bit m 3))),
   (0x057, fun m x => some (.fcls x (BitVec.ofNat 10 (bits m 13 4)) (bit m 3))),
   (0x058, rF .frnd),
   (0x059, fun m x => do
      pure (.fcvt x (← FFmt.ofCode (bits m 13 10)) (← FFmt.ofCode (bits m 9 6)) (← Rnd.ofCode (bits m 2 0)) (bit m 3))),
   (0x05A, rPk .fadd2), (0x05B, rPk .fmul2), (0x05C, rPk .ffma2), (0x05D, rD .dadd), (0x05E, rD .dmul), (0x05F, rD .dfma)]

/-- Class V opcodes 0x060 to 0x0AF (R84). -/
def opsV6 : List (Nat × ModReader) :=
  [(0x060, fun m x => do pure (.dsetp x (← Cmp.ofCode (bits m 9 6)) (← Rnd.ofCode (bits m 2 0)))),
   (0x070, fun m x => some (if bit m 4 then .rcpA x (bit m 3) else .rcp x (bit m 3))),
   (0x071, fun m x => some (if bit m 4 then .rsqA x (bit m 3) else .rsq x (bit m 3))),
   (0x072, rZ .sqrt), (0x073, rZ .ex2), (0x074, rZ .lg2), (0x075, rZ .sin), (0x076, rZ .cos), (0x077, rZ .tanh),
   (0x080, fun m x => some (.bra x (BitVec.ofNat 14 m))), (0x081, r0 .brx),
   (0x082, fun m x => some (.call x (BitVec.ofNat 14 m))), (0x083, r0 .calli), (0x084, r0 .ret), (0x085, r0 .ovcall),
   (0x086, r0 .exit), (0x087, r0 .yield),
   (0x088, fun m x => some (.trap x (BitVec.ofNat 8 (bits m 7 0)))),
   (0x089, fun m x => some (.brk x (BitVec.ofNat 8 (bits m 7 0)))),
   (0x08A, fun m x => (SReg.ofCode m).map (.srd x)),
   (0x08B, fun m x => if m = 0x010 then some (.swrKsp x) else if m = 0x013 then some (.swrRngs x)
      else if m = 0x014 then some (.swrFabst x) else none),
   (0x090, rBar .barArr), (0x091, rBar .barWait), (0x092, rBar .barSync), (0x093, rBar .barTry),
   (0x0A0, r0 .shld), (0x0A1, r0 .shst), (0x0A2, rFin 33 5 0 .shset), (0x0A3, rFin 33 5 0 .shget)]

/-- Class G opcodes (R86). -/
def opsG : List (Nat × ModReader) :=
  [(0, fun m x => (ShfMode.ofCode (bits m 1 0)).map (.shfl x · (bit m 2))),
   (1, fun m x => do
      let o ← Rop.ofCode (bits m 3 0)
      let r ← Rnd.ofCode (bits m 8 6)
      if bit m 5 then some (.vredMr x r) else some (.vred x o (bit m 4) r)),
   (2, fun m x => do pure (.vscan x (← Rop.ofCode (bits m 3 0)) (bit m 4) (← Rnd.ofCode (bits m 8 6)))),
   (3, fun m x => (PollMode.ofCode (bits m 1 0)).map (.poll x)), (4, r0 .maskof), (5, rI .matchv), (6, r0 .elect),
   (7, fun m x => (fin? 8 (bits m 10 8)).map (.vlut x (BitVec.ofNat 8 (bits m 7 0)))), (8, rFin 8 2 0 .qpop)]

/-- Class M opcodes (R87, R88). -/
def opsM : List (Nat × ModReader) :=
  [(0, fun m x => do
      if bit m 3 then some (.ldAcq x (← mSc m) (← mTy m) (← mPx m)) else some (.ld x (← mTy m) (← mPx m))),
   (1, fun m x => do
      if bit m 4 then some (.stRel x (← mSc m) (← mTy m) (← mPx m)) else some (.st x (← mTy m) (← mPx m))),
   (2, fun m x => do pure (.atom x (← mSc m) (← Ord4.ofCode (bits m 4 3)) (← Aop.ofCode (bits m 13 9)) (← mTy m))),
   (3, fun m x => do pure (.red x (← mSc m) (bit m 4) (← Aop.ofCode (bits m 13 9)) (← mTy m))),
   (4, fun m x => (mSc m).map (.redm x · (bit m 4))),
   (5, fun m x => do pure (.cas x (← mSc m) (← Ord4.ofCode (bits m 4 3)) (← mTy m))),
   (6, fun m x => do pure (.waitmem x (bit m 3) (← mSc m) (← mTy m))),
   (7, fun m x => (mSc m).map (.fence x · (BitVec.ofNat 8 (bits m 13 6)))),
   (8, fun m x => (mSc m).map (.fenceSc x)), (9, fun m x => (mSc m).map (.probe x)),
   (10, fun m x => do
      if bit m 13 then some (.remstL x (← mTy m) (← mPx m))
      else some (.remst x (← mSc m) (bit m 4) (← mTy m) (← mPx m))),
   (11, fun m x => do pure (.rld x (bit m 3) (← mSc m) (← mTy m) (← mPx m))),
   (12, fun m x => do pure (.remred x (← mSc m) (bit m 4) (← Aop.ofCode (bits m 13 9)) (← mTy m)))]

/-- Class X opcodes (R90). -/
def opsX : List (Nat × ModReader) :=
  [(0, fun m x => if bit m 0 then (fin? 32 (bits m 5 1)).map (.tcopyMma x) else some (.tcopy x)),
   (1, rFin 16 3 0 .wbind), (2, rFin 16 3 0 .wdrop), (3, rFin 8 2 0 .chain), (4, fun m x => (mSc m).map (.publ x)),
   (5, r0 .ovl), (6, r0 .ovrel), (7, r0 .launch), (8, fun m x => (mSc m).map (.dbell x)), (9, r0 .dectab), (10, r0 .barExp)]

/-- Class T opcodes (R91). -/
def opsT : List (Nat × ModReader) :=
  [(0, fun m x => (fin? 32 (bits m 4 0)).map (.mma x · (bit m 5))),
   (1, fun m x => (fin? 32 (bits m 4 0)).map (.mmaW x · (bit m 5))), (2, rFin 32 4 0 .mmaNf), (3, rFin 32 4 0 .accz),
   (4, rFin 32 4 0 .accld), (5, rFin 32 4 0 .accst), (6, rFin 32 4 0 .drain), (7, rFin 32 4 0 .drainMx)]

/-- Class A opcodes (R92). -/
def opsA : List (Nat × ModReader) :=
  [(0, r0 .agen), (1, r0 .aadd), (2, r0 .aloop), (3, r0 .aendl), (4, rFin 8 2 0 .apush), (5, rFin 8 2 0 .agath),
   (6, fun m x => (Cmp.ofCode (bits m 6 3)).map (.acmp x)), (7, r0 .abra), (8, rFin 8 2 0 .await), (9, r0 .asig),
   (10, r0 .aend)]

/-- Class S opcodes (R93). -/
def opsS : List (Nat × ModReader) :=
  [(0, fun m x => (PReg.ofCode m).map (.srdp x)), (1, fun m x => (PReg.ofCode m).map (.swrp x)),
   (2, fun m x => if m = 0 then some (.tlbinvPage x) else if m = 1 then some (.tlbinvCtx x)
      else if m = 2 then some (.tlbinvAll x) else none),
   (3, r0 .assayrd), (4, r0 .ctxsave), (5, r0 .ctxload), (6, r0 .haltx)]

/-- The reader of an opcode in a list. -/
def opLook : List (Nat × ModReader) → Nat → Option ModReader
  | [], _ => none
  | (k, r) :: l, n => if n = k then some r else opLook l n

/-- The reader of an opcode in its class's space (R80); `none` for an unassigned value. -/
def opReader : Cls → Nat → Option ModReader
  | .V, n => if n < 0x20 then opLook opsV0 n else if n < 0x40 then opLook opsV2 n
      else if n < 0x60 then opLook opsV4 n else opLook opsV6 n
  | .G, n => opLook opsG n
  | .M, n => opLook opsM n
  | .X, n => opLook opsX n
  | .T, n => opLook opsT n
  | .A, n => opLook opsA n
  | .S, n => opLook opsS n

/-- The instruction of a class, opcode and MOD over given operand fields. A MOD bit that the layout does not define, or a
reserved field value, is refused by requiring that the instruction's own encoding gives back exactly this MOD (R80). -/
def ofFields (c : Cls) (opc mod : Nat) (x : X) : Option Instr :=
  match opReader c opc with
  | none => none
  | some r => match r mod x with
    | none => none
    | some i => if codeOf i = some (c, opc, mod) then some i else none

/-! ### Words -/

/-- The fields of a word as it is laid out in R58. -/
structure WordF where
  opc : Nat
  dst : Nat
  sa : Nat
  sb : Nat
  sc : Nat
  lua : Bool
  lub : Bool
  luc : Bool
  gneg : Bool
  gpred : Nat
  fsel : Bool
  mod : Nat
  deriving DecidableEq, Repr

/-- Splits a word (R58). -/
def unpack (w : Nat) : WordF :=
  { opc := bits w 63 54, dst := bits w 53 46, sa := bits w 45 38, sb := bits w 37 30, sc := bits w 29 22,
    lua := bit w 21, lub := bit w 20, luc := bit w 19, gneg := bit w 18, gpred := bits w 17 15, fsel := bit w 14,
    mod := bits w 13 0 }

/-- Joins the fields of a word (R58). -/
def pack (f : WordF) : Nat :=
  f.mod + 2 ^ 14 * (f.fsel.toNat + 2 * (f.gpred + 8 * (f.gneg.toNat + 2 * (f.luc.toNat + 2 * (f.lub.toNat
    + 2 * (f.lua.toNat + 2 * (f.sc + 256 * (f.sb + 256 * (f.sa + 256 * (f.dst + 256 * f.opc))))))))))

/-- Why an encoding is refused, in the order of R57 within one slot. -/
inductive Illegal where
  | clause
  | instruction
  | operand
  deriving DecidableEq, Repr

/-- The four operand codes of a word. -/
def WordF.codes (f : WordF) : List Nat := [f.dst, f.sa, f.sb, f.sc]

/-- The word names a literal (R61). -/
def WordF.namesLit (f : WordF) : Bool := f.codes.any (· == 0xE0)

/-- The shared fields with every operand null: what the modifier checks see before the operands are decoded. -/
def WordF.x0 (f : WordF) : X :=
  { lua := f.lua, lub := f.lub, luc := f.luc, gneg := f.gneg, gpred := Fin.ofNat 8 f.gpred, fsel := f.fsel }

/-- The shared fields with their operands; `none` on a reserved code. -/
def WordF.xOf (f : WordF) (next : Option W64) : Option X :=
  match Opnd.ofCode next f.dst, Opnd.ofCode next f.sa, Opnd.ofCode next f.sb, Opnd.ofCode next f.sc with
  | some d, some a, some b, some c => some { f.x0 with dst := d, sa := a, sb := b, sc := c }
  | _, _, _, _ => none

/-- One instruction word of a clause of class `c`, with the clause's next slot (R57, R58, R61, R66). -/
def decodeWord (c : Cls) (w : Nat) (next : Option W64) : Except Illegal Instr :=
  let f := unpack w
  if f.namesLit && next.isNone then .error .clause
  else match ofFields c f.opc f.mod f.x0 with
    | none => .error .instruction
    | some i0 =>
      if i0.modOk && i0.fselOk then
        match f.xOf next with
        | none => .error .operand
        | some x => match ofFields c f.opc f.mod x with
          | none => .error .operand
          | some i => if i.opsOk then .ok i else .error .operand
      else .error .instruction

/-- The word of an encoded instruction (R58), zero for a step without an encoding. -/
def encodeWord (i : Instr) : Nat :=
  match codeOf i with
  | none => 0
  | some (_, opc, mod) =>
    let x := i.x
    pack { opc := opc, dst := x.dst.code, sa := x.sa.code, sb := x.sb.code, sc := x.sc.code,
           lua := x.lua, lub := x.lub, luc := x.luc, gneg := x.gneg, gpred := x.gpred.val, fsel := x.fsel, mod := mod }

/-- The slots of an encoded instruction: its word, and its literal if it names one (R54, R61). -/
def encode (i : Instr) : List W64 :=
  match codeOf i with
  | none => []
  | some _ => BitVec.ofNat 64 (encodeWord i) :: (i.literal).toList

/-- The class an instruction is encoded in. -/
def Instr.cls (i : Instr) : Option Cls := (codeOf i).map (·.1)

/-! ### Clause headers -/

/-- A clause header (R55). `seta` and `setb` are flags 0 to 11. -/
structure Header where
  cls : Cls
  count : Nat
  wait : BitVec 12
  seta : Option (Fin 12)
  setb : Option (Fin 12)
  yield : Bool
  deriving DecidableEq, Repr

/-- SETA and SETB: a flag, none, or reserved (R55). -/
def setField (c : Nat) : Option (Option (Fin 12)) :=
  if c = 15 then some none else (fin? 12 c).map some

/-- Decodes a header; `none` is an illegal clause (R55, R66). -/
def decodeHeader (w : Nat) : Option Header := do
  let c ← Cls.ofCode (bits w 63 60)
  let a ← setField (bits w 43 40)
  let b ← setField (bits w 39 36)
  if bits w 34 0 ≠ 0 then none
  pure { cls := c, count := bits w 59 56 + 1, wait := BitVec.ofNat 12 (bits w 55 44), seta := a, setb := b, yield := bit w 35 }

def setCode : Option (Fin 12) → Nat
  | some n => n.val
  | none => 15

/-- The header word (R55). -/
def encodeHeader (h : Header) : Nat :=
  2 ^ 35 * (h.yield.toNat + 2 * (setCode h.setb + 16 * (setCode h.seta + 16 * (h.wait.toNat + 4096 * ((h.count - 1)
    + 16 * h.cls.code)))))

/-- Decodes slots from index `k`: the instructions with their slots, or the first offending slot (R57). `fuel` bounds the walk
by the number of slots; `after` says that a control transfer came before. -/
def decodeSlots (c : Cls) (slots : List W64) (k : Nat) (after : Bool) : Nat → Except (Nat × Illegal) (List (Nat × Instr))
  | 0 => .ok []
  | fuel + 1 =>
    match slots[k]? with
    | none => .ok []
    | some w =>
      if after then .error (k, .clause)
      else match decodeWord c w.toNat slots[k + 1]? with
        | .error e => .error (k, e)
        | .ok i =>
          match decodeSlots c slots (k + (encode i).length) i.isTransfer fuel with
          | .error e => .error e
          | .ok r => .ok ((k, i) :: r)

/-- A whole clause's slots (R57). -/
def decodeClause (c : Cls) (slots : List W64) : Except (Nat × Illegal) (List (Nat × Instr)) :=
  decodeSlots c slots 0 false slots.length

/-- The instruction that the host's word holds: the header in the first 64 bits, the instruction's word in the next, its
literal, if it names one, in the third. -/
def decodeTableWord (_nbits w : Nat) : Option Instr :=
  match decodeHeader (bits w 63 0) with
  | none => none
  | some h =>
    match decodeWord h.cls (bits w 127 64) (if h.count ≥ 2 then some (BitVec.ofNat 64 (bits w 191 128)) else none) with
    | .ok i => some i
    | .error _ => none

end Sys2Proof
end

