-- ==== Sys2Proof/Machine/Float.lean ====
section
/-! DEFINITION. Floating point: formats (R178 to R183), rounding (R184 to R187), the arithmetic of R191 to R198 and of the
reductions, and the special-function unit (R199 to R201). Values are exact until one rounding. -/

namespace Sys2Proof.Machine

/-! ### Formats -/

/-- A format: mantissa bits, exponent bits, bias, and whether it has infinities and NaNs (R178). -/
structure Fmt where
  mb : Nat
  eb : Nat
  bias : Nat
  inf : Bool
  nan : Bool
  deriving DecidableEq, Repr

def f64 : Fmt := ⟨52, 11, 1023, true, true⟩
def f32 : Fmt := ⟨23, 8, 127, true, true⟩
def f16 : Fmt := ⟨10, 5, 15, true, true⟩
def bf16 : Fmt := ⟨7, 8, 127, true, true⟩
def e5m2 : Fmt := ⟨2, 5, 15, true, true⟩
def e4m3 : Fmt := ⟨3, 4, 7, false, true⟩
def e3m2 : Fmt := ⟨2, 3, 3, false, false⟩
def e2m3 : Fmt := ⟨3, 2, 1, false, false⟩
def e2m1 : Fmt := ⟨1, 2, 1, false, false⟩

/-- Width in bits. -/
def Fmt.bits (f : Fmt) : Nat := 1 + f.eb + f.mb

/-- The magnitude code of the largest finite value (R178). -/
def Fmt.maxCode (f : Fmt) : Nat :=
  if f.inf then (2 ^ f.eb - 1) * 2 ^ f.mb - 1
  else if f.nan then 2 ^ (f.eb + f.mb) - 2
  else 2 ^ (f.eb + f.mb) - 1

/-- The magnitude code of infinity. -/
def Fmt.infCode (f : Fmt) : Nat := (2 ^ f.eb - 1) * 2 ^ f.mb

/-- The canonical NaN (R179); zero where the format has none. -/
def Fmt.nanCode (f : Fmt) : Nat :=
  if f.inf then f.infCode + 2 ^ (f.mb - 1) else if f.nan then 2 ^ (f.eb + f.mb) - 1 else 0

/-- The least quantum: the exponent of the unit of the subnormal grid (R179). -/
def Fmt.qmin (f : Fmt) : Int := 1 - (f.bias : Int) - f.mb

/-- A decoded value; `fin` is (−1)^neg × m × 2^e. -/
inductive FV where
  | nan (signalling : Bool)
  | inf (neg : Bool)
  | fin (neg : Bool) (m : Nat) (e : Int)
  deriving DecidableEq, Repr

/-- Decoding of R179. -/
def Fmt.decode (f : Fmt) (code : Nat) : FV :=
  let m := code % 2 ^ f.mb
  let e := code / 2 ^ f.mb % 2 ^ f.eb
  let neg := code.testBit (f.eb + f.mb)
  if f.inf && e == 2 ^ f.eb - 1 then
    (if m = 0 then .inf neg else .nan (!m.testBit (f.mb - 1)))
  else if f.nan && !f.inf && e == 2 ^ f.eb - 1 && m == 2 ^ f.mb - 1 then .nan false
  else if e = 0 then .fin neg m f.qmin
  else .fin neg (2 ^ f.mb + m) (f.qmin + (e : Int) - 1)

/-- A signed code of a format. -/
def Fmt.sign (f : Fmt) (neg : Bool) (mag : Nat) : Nat := if neg then mag + 2 ^ (f.eb + f.mb) else mag

/-- A subnormal code (R183). -/
def Fmt.subnormal (f : Fmt) (code : Nat) : Bool :=
  code / 2 ^ f.mb % 2 ^ f.eb == 0 && code % 2 ^ f.mb != 0

/-- The flush of a subnormal source (R186). -/
def Fmt.flush (f : Fmt) (ftz : Bool) (code : Nat) : Nat :=
  if ftz && f.subnormal code then f.sign (code.testBit (f.eb + f.mb)) 0 else code

/-! ### Exceptions: IV, DZ, OF, UF, IX in bits 0 to 4 (R189) -/

def IV : Nat := 1
def DZ : Nat := 2
def OF : Nat := 4
def UF : Nat := 8
def IX : Nat := 16

/-! ### Rounding -/

/-- The step of the stochastic-rounding state (R187). -/
def rngStep (s : W32) : W32 :=
  let s := s ^^^ (s <<< 13)
  let s := s ^^^ (s >>> 17)
  s ^^^ (s <<< 5)

/-- floor(log2 (n ÷ d)) for positive n and d. -/
def ilog (n d : Nat) : Int :=
  let k : Int := (n.log2 : Int) - d.log2
  let ge : Bool := if 0 ≤ k then decide (d * 2 ^ k.toNat ≤ n) else decide (d ≤ n * 2 ^ (-k).toNat)
  if ge then k else k - 1

/-- (n ÷ d) × 2^e ÷ 2^q as a quotient of naturals. -/
def scaled (n d : Nat) (e q : Int) : Nat × Nat :=
  if q ≤ e then (n * 2 ^ (e - q).toNat, d) else (n, d * 2 ^ (q - e).toNat)

/-- Rounds the magnitude (n ÷ d) × 2^e to a multiple of 2^q: the multiple, and whether it is exact (R184, R187). -/
def roundAt (r : Rnd) (neg : Bool) (draw : W32) (n d : Nat) (e q : Int) : Nat × Bool :=
  let (a, b) := scaled n d e q
  let k := a / b
  let rem := a % b
  let up : Bool := match r with
    | .rne => b < 2 * rem || (2 * rem == b && k % 2 == 1)
    | .rz => false
    | .rd => neg && rem != 0
    | .ru => !neg && rem != 0
    | .sr => rem != 0 && draw.toNat < 2 ^ 32 * rem / b
  (if up then k + 1 else k, rem == 0)

/-- One rounding of a nonzero exact value to a format (R184 to R187): the code and the exceptions raised. -/
def roundTo (f : Fmt) (r : Rnd) (ftz : Bool) (draw : W32) (neg : Bool) (n d : Nat) (e : Int) : Nat × Nat :=
  let qu := ilog n d + e - f.mb
  let (ku, _) := roundAt r neg draw n d e qu
  let q := max qu f.qmin
  let (k, exact) := roundAt r neg draw n d e q
  let tiny := qu < f.qmin && decide (ku * 2 ^ (qu - (qu - 1 - f.mb)).toNat < 2 ^ (f.mb + (f.qmin - (qu - 1 - f.mb)).toNat))
  let mag := (q - f.qmin).toNat * 2 ^ f.mb + k
  if f.maxCode < mag then
    let toInf : Bool := f.inf && (match r with
      | .rne => true
      | .rz => false
      | .rd => neg
      | .ru => !neg
      | .sr => true)
    (f.sign neg (if toInf then f.infCode else f.maxCode), OF + IX)
  else if tiny && ftz then (f.sign neg 0, UF + IX)
  else (f.sign neg mag, (if exact then 0 else IX) + (if tiny && !exact then UF else 0))

/-- Rounding of an exact sum: zero takes the given sign (R185). -/
def roundSum (f : Fmt) (r : Rnd) (ftz : Bool) (draw : W32) (zneg : Bool) (x : Int) (e : Int) : Nat × Nat :=
  if x = 0 then (f.sign zneg 0, 0) else roundTo f r ftz draw (x < 0) x.natAbs 1 e

/-- Rounding of any value that is not a NaN, to a format that may lack infinities (R184, R196). -/
def roundFV (f : Fmt) (r : Rnd) (ftz : Bool) (draw : W32) (v : FV) : Nat × Nat :=
  match v with
  | .nan sg => (f.nanCode, if sg || !f.nan then IV else 0)
  | .inf neg => if f.inf then (f.sign neg f.infCode, 0) else (f.sign neg f.maxCode, OF + IX)
  | .fin neg m e => if m = 0 then (f.sign neg 0, 0) else roundTo f r ftz draw neg m 1 e

/-! ### Arithmetic (R191, R197, R198) -/

def FV.isNan : FV → Bool
  | .nan _ => true
  | _ => false
def FV.isSnan : FV → Bool
  | .nan true => true
  | _ => false
def FV.neg : FV → Bool
  | .nan _ => false
  | .inf n => n
  | .fin n _ _ => n
def FV.negate : FV → FV
  | .nan s => .nan s
  | .inf n => .inf (!n)
  | .fin n m e => .fin (!n) m e

/-- A finite value as a signed mantissa at exponent `e`. -/
def signedAt (neg : Bool) (m : Nat) (e q : Int) : Int :=
  let x : Int := m * 2 ^ (e - q).toNat
  if neg then -x else x

/-- a + b of two values that are no NaN, rounded once; infinities of opposite sign are invalid. -/
def addFV (f : Fmt) (r : Rnd) (ftz : Bool) (draw : W32) (a b : FV) : Nat × Nat :=
  match a, b with
  | .inf n, .inf k => if n = k then (f.sign n f.infCode, 0) else (f.nanCode, IV)
  | .inf n, _ => (f.sign n f.infCode, 0)
  | _, .inf n => (f.sign n f.infCode, 0)
  | .fin n1 m1 e1, .fin n2 m2 e2 =>
    let q := min e1 e2
    let z := if n1 = n2 then n1 else r == .rd
    roundSum f r ftz draw z (signedAt n1 m1 e1 q + signedAt n2 m2 e2 q) q
  | _, _ => (f.nanCode, 0)

/-- The exact product of two values; `none` for a zero with an infinity. -/
def mulFV (a b : FV) : Option FV :=
  match a, b with
  | .nan s, _ => some (.nan s)
  | _, .nan s => some (.nan s)
  | .inf n, .inf k => some (.inf (n != k))
  | .inf n, .fin k m _ => if m = 0 then none else some (.inf (n != k))
  | .fin n m _, .inf k => if m = 0 then none else some (.inf (n != k))
  | .fin n m e, .fin k m' e' => some (.fin (n != k) (m * m') (e + e'))

/-- FADD of codes (R191). -/
def fAdd (f : Fmt) (r : Rnd) (ftz : Bool) (draw : W32) (a b : Nat) : Nat × Nat :=
  let x := f.decode (f.flush ftz a)
  let y := f.decode (f.flush ftz b)
  let iv := if x.isSnan || y.isSnan then IV else 0
  if x.isNan || y.isNan then (f.nanCode, iv) else addFV f r ftz draw x y

/-- FSUB of codes (R191). -/
def fSub (f : Fmt) (r : Rnd) (ftz : Bool) (draw : W32) (a b : Nat) : Nat × Nat :=
  let x := f.decode (f.flush ftz a)
  let y := f.decode (f.flush ftz b)
  let iv := if x.isSnan || y.isSnan then IV else 0
  if x.isNan || y.isNan then (f.nanCode, iv) else addFV f r ftz draw x y.negate

/-- FMUL of codes (R191). -/
def fMul (f : Fmt) (r : Rnd) (ftz : Bool) (draw : W32) (a b : Nat) : Nat × Nat :=
  let x := f.decode (f.flush ftz a)
  let y := f.decode (f.flush ftz b)
  let iv := if x.isSnan || y.isSnan then IV else 0
  if x.isNan || y.isNan then (f.nanCode, iv)
  else match mulFV x y with
    | none => (f.nanCode, IV)
    | some p => roundFV f r ftz draw p

/-- FFMA of codes, rounded once; 0 × ∞ is invalid even beside a quiet NaN (R191). -/
def fFma (f : Fmt) (r : Rnd) (ftz : Bool) (draw : W32) (a b c : Nat) : Nat × Nat :=
  let x := f.decode (f.flush ftz a)
  let y := f.decode (f.flush ftz b)
  let z := f.decode (f.flush ftz c)
  let iv := if x.isSnan || y.isSnan || z.isSnan then IV else 0
  match mulFV x y with
  | none => (f.nanCode, IV)
  | some p => if p.isNan || z.isNan then (f.nanCode, iv) else addFV f r ftz draw p z

/-- Order of two values that are no NaN: negative, zero or positive as `a` is below, equal to or above `b`. -/
def cmpFV (a b : FV) : Int :=
  let rank : FV → Int := fun v => match v with
    | .inf n => if n then -1 else 1
    | _ => 0
  match a, b with
  | .fin n m e, .fin k m' e' =>
    let q := min e e'
    signedAt n m e q - signedAt k m' e' q
  | x, y => rank x - rank y

/-- FMIN and FMAX of codes (R192): −0 below +0, a lone NaN gives the other source. -/
def fMinMax (f : Fmt) (mx ftz : Bool) (a b : Nat) : Nat × Nat :=
  let a := f.flush ftz a
  let b := f.flush ftz b
  let x := f.decode a
  let y := f.decode b
  let iv := if x.isSnan || y.isSnan then IV else 0
  if x.isNan && y.isNan then (f.nanCode, iv)
  else if x.isNan then (b % 2 ^ f.bits, iv)
  else if y.isNan then (a % 2 ^ f.bits, iv)
  else
    let d := cmpFV x y
    let below : Bool := d < 0 || (d = 0 && x.neg && !y.neg)
    (if below != mx then a % 2 ^ f.bits else b % 2 ^ f.bits, iv)

/-- A comparison under CMP (R82): from the order, or from being unordered. -/
def cmpHolds (c : Cmp) (d : Option Int) : Bool :=
  match d with
  | none => match c with
    | .equ | .neu | .ltu | .leu | .gtu | .geu | .nan => true
    | _ => false
  | some d => match c with
    | .eq | .equ => d == 0
    | .ne | .neu => d != 0
    | .lt | .ltu => d < 0
    | .le | .leu => d ≤ 0
    | .gt | .gtu => 0 < d
    | .ge | .geu => 0 ≤ d
    | .num => true
    | .nan => false

/-- FSETP of codes (R193). -/
def fSetp (f : Fmt) (c : Cmp) (ftz : Bool) (a b : Nat) : Bool × Nat :=
  let x := f.decode (f.flush ftz a)
  let y := f.decode (f.flush ftz b)
  let iv := if x.isSnan || y.isSnan then IV else 0
  (cmpHolds c (if x.isNan || y.isNan then none else some (cmpFV x y)), iv)

/-- The class of R183. -/
def fClass (f : Fmt) (a : Nat) : Nat :=
  match f.decode a with
  | .nan true => 0
  | .nan false => 1
  | .inf true => 2
  | .inf false => 9
  | .fin neg m _ =>
    if m = 0 then (if neg then 5 else 6)
    else if f.subnormal a then (if neg then 4 else 7)
    else (if neg then 3 else 8)

/-- FRND of an .f32 code (R195). -/
def fRnd (r : Rnd) (ftz : Bool) (a : Nat) : Nat × Nat :=
  match f32.decode (f32.flush ftz a) with
  | .nan sg => (f32.nanCode, if sg then IV else 0)
  | .inf n => (f32.sign n f32.infCode, 0)
  | .fin n m e =>
    if m = 0 || 0 ≤ e then (f32.flush ftz a % 2 ^ 32, 0)
    else
      let (k, _) := roundAt r n 0 m 1 e 0
      if k = 0 then (f32.sign n 0, 0) else ((roundTo f32 .rne false 0 n k 1 0).1, 0)

/-- A value rounded to .s32 or .n32 (R196). -/
def toInt (signed : Bool) (r : Rnd) (draw : W32) (v : FV) : Nat × Nat :=
  let lo : Int := if signed then -2 ^ 31 else 0
  let hi : Int := if signed then 2 ^ 31 - 1 else 2 ^ 32 - 1
  match v with
  | .nan _ => (0, IV)
  | .inf n => (truncInt 32 (if n then lo else hi), IV)
  | .fin n m e =>
    let (k, exact) := if m = 0 then (0, true) else roundAt r n draw m 1 e 0
    let x : Int := if n then -(k : Int) else k
    if x < lo then (truncInt 32 lo, IV)
    else if hi < x then (truncInt 32 hi, IV)
    else (truncInt 32 x, if exact then 0 else IX)

/-- The format of a float code of FCVT; the integer codes have none. -/
def fmtOf : FFmt → Option Fmt
  | .f32 => some f32 | .f16 => some f16 | .bf16 => some bf16 | .e4m3 => some e4m3 | .e5m2 => some e5m2
  | .e3m2 => some e3m2 | .e2m3 => some e2m3 | .e2m1 => some e2m1 | .f64 => some f64 | .s32 | .n32 => none

/-- FCVT (R196): .ftz acts on the sides that are .f32. -/
def fCvt (d s : FFmt) (r : Rnd) (ftz : Bool) (draw : W32) (a : Nat) : Nat × Nat :=
  let v := match fmtOf s with
    | some f => f.decode (f.flush (ftz && s == .f32) (a % 2 ^ f.bits))
    | none =>
      let x := if s = .s32 then sextNat 32 a else ((a % 2 ^ 32 : Nat) : Int)
      .fin (x < 0) x.natAbs 0
  match fmtOf d with
  | some f => roundFV f r (ftz && d == .f32) draw v
  | none => toInt (d == .s32) r draw v

/-- Both halves of a packed operation (R197); a stochastic form draws for element 0 first. DEDUCED: log 54. -/
def packed (r : Rnd) (rng : W32) (op : W32 → Nat → Nat × Nat) : Nat × Nat × W32 :=
  let r0 := if r = .sr then rngStep rng else rng
  let r1 := if r = .sr then rngStep r0 else r0
  let (x0, e0) := op r0 0
  let (x1, e1) := op r1 16
  (x0 % 2 ^ 16 + 2 ^ 16 * (x1 % 2 ^ 16), e0 ||| e1, r1)

/-- (S × a) ÷ b of an .f32 code, rounded once (R210, R340); no NaN and no infinity is changed but to canonical form. -/
def rescale (r : Rnd) (code a b : Nat) : Nat × Nat :=
  match f32.decode code with
  | .nan _ => (f32.nanCode, 0)
  | .inf n => (f32.sign n f32.infCode, 0)
  | .fin n m e => if m * a = 0 then (f32.sign n 0, 0) else roundTo f32 r false 0 n (m * a) b e

/-! ### The special-function unit (R199 to R201) -/

/-- floor(√n), by bits from 2^(k − 1) down. -/
def isqrt (n : Nat) : Nat → Nat → Nat
  | 0, acc => acc
  | k + 1, acc => isqrt n k (if (acc + 2 ^ k) * (acc + 2 ^ k) ≤ n then acc + 2 ^ k else acc)

/-- A positive value with its exact root between two units in the last place: doubled with a sticky bit (R200). -/
def sticky (k : Nat) (exact : Bool) : Nat := 2 * k + (if exact then 0 else 1)

/-- √(m × 2^e) as a mantissa and exponent, with at least 60 bits and a sticky bit. -/
def sqrtFix (m : Nat) (e : Int) : Nat × Int :=
  let odd := e % 2 = 1
  let m := if odd then 2 * m else m
  let e := if odd then e - 1 else e
  let n := m * 2 ^ 120
  let k := isqrt n 90 0
  (sticky k (k * k == n), e / 2 - 61)

/-- 1 ÷ √(m × 2^e), in the same form. -/
def rsqFix (m : Nat) (e : Int) : Nat × Int :=
  let odd := e % 2 = 1
  let m := if odd then 2 * m else m
  let e := if odd then e - 1 else e
  let k := isqrt (2 ^ 180 / m) 92 0
  (sticky k (k * k * m == 2 ^ 180), -e / 2 - 91)

/-- Fixed-point constants with 96 fraction bits: π and log2 e, truncated. -/
def piFix : Nat := 0x3243F6A8885A308D313198A2E
def log2eFix : Nat := 0x171547652B82FE1777D0FFDA0

/-- The i-th root constants 2^(2^−i) with 96 fraction bits: the product over the set bits of a 64-bit fraction `f`. -/
def exp2Frac (f : Nat) : Nat → Nat → Nat → Nat
  | 0, _, acc => acc
  | k + 1, c, acc =>
    let c := isqrt (c * 2 ^ 96) 100 0
    exp2Frac f k c (if f.testBit k then acc * c / 2 ^ 96 else acc)

/-- 2^(f ÷ 2^64) for f below 2^64, with 96 fraction bits. -/
def exp2Fix (f : Nat) : Nat := exp2Frac f 64 (2 ^ 97) (2 ^ 96)

/-- log2 of x ÷ 2^96 in [1, 2), with `k` fraction bits, by squaring. -/
def log2Fix (x : Nat) : Nat → Nat → Nat
  | 0, acc => acc
  | k + 1, acc =>
    let y := x * x / 2 ^ 96
    if 2 ^ 97 ≤ y then log2Fix (y / 2) k (2 * acc + 1) else log2Fix y k (2 * acc)

/-- Σ terms of the sine (from odd) or cosine (from even) series of x ÷ 2^96, x below 2^96. -/
def trigFix (x : Nat) : Nat → Nat → Int → Int → Int
  | 0, _, _, acc => acc
  | k + 1, i, term, acc =>
    trigFix x k (i + 2) (-(term * x / 2 ^ 96 * x / 2 ^ 96 / ((i + 1) * (i + 2) : Nat))) (acc + term)

/-- sin(2π t ÷ 2^96) for t in [0, 2^94], with 96 fraction bits: a quarter turn, folded at an eighth. -/
def sinQuarter (t : Nat) : Nat :=
  let ang (t : Nat) : Nat := 2 * piFix * t / 2 ^ 96
  if t ≤ 2 ^ 93 then (trigFix (ang t) 16 1 (ang t) 0).toNat
  else (trigFix (ang (2 ^ 94 - t)) 16 0 (2 ^ 96) 0).toNat

/-- Magnitude and sign of an approximate value with an exponent, whose error is far below every bound of R200. -/
structure Approx where
  neg : Bool
  m : Nat
  e : Int
  deriving DecidableEq, Repr

/-- 2^(x ÷ 2^64) for a signed x. -/
def approxExp2 (x : Int) : Approx :=
  let n := x.fdiv (2 ^ 64)
  ⟨false, exp2Fix (x - n * 2 ^ 64).toNat, n - 96⟩

/-- m × 2^e as an integer count of 2^−64, truncated. -/
def fix64 (m : Nat) (e : Int) : Nat := if 0 ≤ e + 64 then m * 2 ^ (e + 64).toNat else m / 2 ^ (-(e + 64)).toNat

/-- The turn fraction of m × 2^e, modulo 1, as a count of 2^−96. -/
def turns (m : Nat) (e : Int) : Nat := (if 0 ≤ e + 96 then m * 2 ^ (e + 96).toNat else m / 2 ^ (-(e + 96)).toNat) % 2 ^ 96

/-- sin of a turn count of 2^−96. -/
def approxSin (neg : Bool) (t : Nat) : Approx :=
  let quad := t / 2 ^ 94
  let r := t % 2 ^ 94
  let m := if quad % 2 = 0 then sinQuarter r else sinQuarter (2 ^ 94 - r)
  ⟨if quad ≥ 2 then !neg else neg, m, -96⟩

/-- tanh of m × 2^e for 2^−12 ≤ m × 2^e: (E − 1) ÷ (E + 1) with E = 2^(2 a log2 e). -/
def approxTanh (neg : Bool) (m : Nat) (e : Int) : Approx :=
  let a := fix64 m e
  if 16 * 2 ^ 64 ≤ a then ⟨neg, 1, 0⟩
  else
    let x := approxExp2 ((2 * a * log2eFix / 2 ^ 96 : Nat) : Int)
    let v := x.m * 2 ^ (x.e + 96).toNat
    ⟨neg, (v - 2 ^ 96) * 2 ^ 96 / (v + 2 ^ 96), -96⟩

/-- |y − x| ≤ 2^b for an approximate y and a code of .f32, with a margin of 2^(b − 32) for the approximation. -/
def within (y : Approx) (code : Nat) (b : Int) : Bool :=
  match f32.decode code with
  | .fin n m e =>
    let q := min (min y.e e) (b - 32)
    let d := (signedAt y.neg y.m y.e q - signedAt n m e q).natAbs
    decide (d ≤ (2 ^ 32 - 1) * 2 ^ (b - 32 - q).toNat)
  | _ => false

/-- log2 of the ulp of R200. -/
def ulpExp (y : Approx) : Int := max (ilog y.m 1 + y.e) (-126) - 23

/-- A result within the bound: the free proposal where it meets the bound, and otherwise the nearest code. A zero is +0 (R201). DESIGN CHOICE: log 10. -/
def sfuPick (fn : Nat) (ftz : Bool) (a : Nat) (y : Approx) (b : Int) : Nat :=
  let p := (Config.sfuProposal fn ftz (BitVec.ofNat 32 a)).toNat
  let r := if within y p b then p else (if y.m = 0 then 0 else (roundTo f32 .rne false 0 y.neg y.m 1 y.e).1)
  if r % 2 ^ 31 = 0 then 0 else r

/-- EX2 of an operand whose size is below 2^-48: the codes less than 2 ulp(y) from y, which lies just above 1 or, where ulp(y) is half as
large, just below (R200). DESIGN CHOICE: log 10. -/
def nearOne (ftz neg : Bool) (a : Nat) : Nat :=
  let p := (Config.sfuProposal 5 ftz (BitVec.ofNat 32 a)).toNat
  let ok := if neg then 0x3F7FFFFE ≤ p && p ≤ 0x3F800000 else 0x3F7FFFFD ≤ p && p ≤ 0x3F800002
  if ok then p else 0x3F800000

/-- Tiny and inexact, from an approximate value that is not on the grid (R186). -/
def tinyOf (y : Approx) : Bool := y.m ≠ 0 && bit (roundTo f32 .rne false 0 y.neg y.m 1 y.e).2 3

/-- The flags and the flush of a transcendental result (R186, R201). -/
def sfuEnd (ftz : Bool) (y : Approx) (code : Nat) : Nat × Nat :=
  if tinyOf y then (if ftz then 0 else code, UF + IX) else (code, 0)

/-- OF and UF of a correctly rounded result, with IX beside them alone; a zero is +0 (R201). -/
def sfuRound (ftz neg : Bool) (n d : Nat) (e : Int) : Nat × Nat :=
  let (c, x) := roundTo f32 .rne ftz 0 neg n d e
  (if c % 2 ^ 31 = 0 then 0 else c, if x &&& (OF + UF) = 0 then 0 else x)

/-- One of the neighbours of an exact value, unless it overflows or is flushed: RCP.A (R200). -/
def sfuNear (a : Nat) (ftz neg : Bool) (n d : Nat) (e : Int) : Nat × Nat :=
  let (c, x) := sfuRound ftz neg n d e
  if bit x 2 || (ftz && bit x 3) then (c, x)
  else
    let away := Config.sfuApprox ftz (BitVec.ofNat 32 a)
    ((roundTo f32 (if away then (if neg then .rd else .ru) else .rz) false 0 neg n d e).1, x)

/-- An SFU function by its number: 0 RCP, 1 RCP.A, 2 RSQ, 3 RSQ.A, 4 SQRT, 5 EX2, 6 LG2, 7 SIN, 8 COS, 9 TANH (R200, R201). -/
def sfu (fn : Nat) (ftz : Bool) (a : Nat) : Nat × Nat :=
  match f32.decode (f32.flush ftz a) with
  | .nan sg => (f32.nanCode, if sg then IV else 0)
  | .inf neg => match fn with
    | 0 | 1 => (f32.sign neg 0, 0)
    | 2 | 3 => if neg then (f32.nanCode, IV) else (0, 0)
    | 4 => if neg then (f32.nanCode, IV) else (f32.infCode, 0)
    | 5 => (if neg then 0 else f32.infCode, 0)
    | 6 => if neg then (f32.nanCode, IV) else (f32.infCode, 0)
    | 7 | 8 => (f32.nanCode, IV)
    | _ => (f32.sign neg 0x3F800000, 0)
  | .fin neg m e =>
    if m = 0 then
      match fn with
      | 0 | 1 | 2 | 3 => (f32.sign neg f32.infCode, DZ)
      | 4 => (f32.sign neg 0, 0)
      | 5 => (0x3F800000, 0)
      | 6 => (f32.sign true f32.infCode, DZ)
      | 7 => (f32.sign neg 0, 0)
      | 8 => (0x3F800000, 0)
      | _ => (f32.sign neg 0, 0)
    else
      match fn with
      | 0 => sfuRound ftz neg 1 m (-e)
      | 1 => sfuNear a ftz neg 1 m (-e)
      | 2 => if neg then (f32.nanCode, IV) else
          let (k, x) := rsqFix m e
          sfuRound ftz false k 1 x
      | 3 => if neg then (f32.nanCode, IV) else
          let (k, x) := rsqFix m e
          let y : Approx := ⟨false, k, x⟩
          (sfuPick 3 ftz a y (ulpExp y + 1), 0)
      | 4 => if neg then (f32.nanCode, IV) else
          let (k, x) := sqrtFix m e
          sfuRound ftz false k 1 x
      | 5 =>
        let big := 7 ≤ ilog m 1 + e
        if big && !neg then (f32.infCode, OF + IX)
        else if ilog m 1 + e ≥ 9 then (if ftz then 0 else sfuPick 5 ftz a ⟨false, 1, -512⟩ (-148), UF + IX)
        else if ilog m 1 + e < -48 then (nearOne ftz neg a, 0)
        else
          let x : Int := fix64 m e
          let y := approxExp2 (if neg then -x else x)
          let isInt := 0 ≤ e || m % 2 ^ (-e).toNat = 0
          if isInt && -149 * 2 ^ 64 ≤ (if neg then -x else x) then
            let (c, fl) := roundTo f32 .rne ftz 0 false y.m 1 y.e
            (c, if fl &&& UF = 0 then 0 else fl)
          else sfuEnd ftz y (sfuPick 5 ftz a y (ulpExp y + 1))
      | 6 =>
        if neg then (f32.nanCode, IV)
        else
          let k := ilog m 1
          let n := k + e
          let frac := log2Fix (m * 2 ^ (96 - k).toNat) 60 0
          let v : Int := n * 2 ^ 60 + frac
          let y : Approx := ⟨v < 0, v.natAbs, -60⟩
          if m = 2 ^ k.toNat then ((roundFV f32 .rne false 0 (.fin (n < 0) n.natAbs 0)).1, 0)
          else sfuEnd ftz y (sfuPick 6 ftz a y (if n = 0 || n = -1 then -22 else ulpExp y + 1))
      | 7 =>
        let t := turns m e
        if 4 * m % 2 ^ (max 0 (-e)).toNat = 0 then
          (match t / 2 ^ 94 with
            | 1 => f32.sign neg 0x3F800000
            | 3 => f32.sign (!neg) 0x3F800000
            | _ => 0, 0)
        else if ilog m 1 + e < -30 then
          let y : Approx := ⟨neg, 2 * m * piFix, e - 96⟩
          sfuEnd ftz y (sfuPick 7 ftz a y (-22))
        else
          let y := approxSin neg t
          sfuEnd ftz y (sfuPick 7 ftz a y (-22))
      | 8 =>
        let t := turns m e
        if 4 * m % 2 ^ (max 0 (-e)).toNat = 0 then
          (match t / 2 ^ 94 with
            | 0 => 0x3F800000
            | 2 => 0xBF800000
            | _ => 0, 0)
        else
          let y := approxSin false ((t + 2 ^ 94) % 2 ^ 96)
          sfuEnd ftz y (sfuPick 8 ftz a y (-22))
      | _ =>
        if ilog m 1 + e < -12 then
          sfuEnd ftz ⟨neg, 2 * m * 2 ^ 40 - 1, e - 41⟩ (f32.flush ftz a % 2 ^ 32)
        else
          let y := approxTanh neg m e
          sfuEnd ftz y (sfuPick 9 ftz a y (-21))

end Sys2Proof.Machine
end

