-- ==== Sys2Proof/Machine/State.lean ====
section
/-! DEFINITION. The module's state as plain data: what the spec gives every level, from a thread to the steward complex. -/

namespace Sys2Proof.Machine

/-! ### Threads (R34 to R53) -/

/-- What a trap frame will hold (R392, R393). -/
structure TrapReq where
  cause : Nat
  code : Nat
  flags : Nat
  detail : Nat
  rpc : W32
  deriving DecidableEq, Repr

/-- The states of R34 and R409; `notStarted` waits for the entry overlay (R140), `trapWait` is trap entry waiting for SFU results (R394), `exiting` an EXIT waiting for its flags (R35). -/
inductive TState where
  | notStarted
  | ready
  | issuing
  | flagWait
  | barWait (l : Level) (n : Nat)
  | sleeping (i : Instr)
  | gangWait
  | trapWait
  | exiting
  | exited
  deriving DecidableEq, Repr

/-- A FENCE or FENCE.SC that has not completed (R342, R343): what it waits for, and its prefix with the routes that its accesses used. -/
structure Fence where
  id : Nat
  scope : Scope
  mask : Nat
  sc : Bool
  waits : List Nat
  pfx : NSet := []
  rts : NSet := []
  deriving DecidableEq, Repr

/-- A fence that stands before a plain store, or before a store that a load has read (R318): whose it is, its scope, the paths of its mask,
its prefix and the routes of that prefix, and the path of the store behind it. -/
structure Before where
  core : Nat
  blk : Nat
  gang : Nat
  scope : Scope
  mask : Nat
  path : Nat := 0
  pfx : NSet
  rts : NSet := []
  deriving DecidableEq, Repr

/-- What a read takes into its thread's observed set: accesses in flight, the routes of those and of their prefixes, and the fences that stood
before what it read (R315, R317, R318, R323). -/
structure Seen where
  ids : List Nat := []
  rts : List Nat := []
  pre : List Before := []
  deriving DecidableEq, Repr

/-- Where an access goes once it is translated. -/
inductive Loc where
  | hbm (pa : Nat)
  | device (pa mem : Nat)
  | alloc (id off : Nat)
  deriving DecidableEq, Repr

/-- A thread. `regs` lists exactly the live registers (R37). `preds` holds p0 to p6 in bits 0 to 6. -/
structure Thread where
  blk : Nat
  tid : Nat
  st : TState := .ready
  /-- The cycle at which the thread entered its state (R129). -/
  since : Nat := 0
  pc : W32 := 0
  regs : AMap W32 := []
  preds : BitVec 7 := 0
  flags : List Nat := List.replicate 12 0
  rngs : W32 := 0
  ksp : W32 := 0
  ss : Bool := false
  /-- LAST of R330, by the index of R409. -/
  last : AMap (BitVec 16) := []
  /-- The waits that BAR.WAIT and BAR.SYNC owe at the clause's end (R173). -/
  owed : List (Level × Nat) := []
  /-- A trap that is entered once what it waits for is done (R394). -/
  trap : Option TrapReq := none
  /-- Unaccepted stores in the observed set (R315). -/
  obs : NSet := []
  /-- The thread's fences whose prefix is not all performed, which its later plain stores carry, and those that stores it has read
  carried, which its next fence takes into `obs` (R318). -/
  fenced : List Before := []
  preObs : List Before := []
  /-- The next fetch is that of a trap handler's first clause (R394). -/
  entering : Bool := false
  /-- Routes used since the thread started (R323, R344), and routes that the accesses of its observed set used (R323). -/
  routes : NSet := []
  obsRoutes : NSet := []
  /-- What a remote release that waits at issue found in its prefix and on its probes (R316, R323). -/
  relWait : Option (List Nat) := none
  fences : List Fence := []
  /-- Acquires whose data has not landed (R316). -/
  acqs : NSet := []
  /-- The cycle since which the thread has waited at issue (R398). -/
  stall : Option Nat := none
  deriving DecidableEq, Repr

/-! ### Operations in flight -/

/-- One member's share of an operation in flight: its flag and the registers it will write; `want` are those not superseded (R43). -/
structure Part where
  th : Nat
  flag : Option Nat
  dst : List Nat
  want : List Nat
  deriving DecidableEq, Repr

/-- A resolved storage (R224): HBM or device memory by physical address is found at access, so path 0 keeps its context. -/
inductive Space where
  | global (ctx : Nat)
  | alloc (id : Nat)
  | weight (ctx : Nat)
  | store (core : Nat)
  deriving DecidableEq, Repr

/-- The twelve scalar operations of a point of coherence (R338, R339) and a plain store. -/
inductive Access where
  | plain (bytes : List Byte)
  | rmw (op : Aop) (t : ITy) (b : Nat)
  | cas (n : Nat) (expected new : Nat)
  deriving DecidableEq, Repr

/-- A tile copy as it was issued (R250, R255). -/
structure Copy where
  qd : Shape
  qs : Shape
  o0 : Int
  o1 : Int
  deriving DecidableEq, Repr

/-- The operation list of a CHAIN with its streams, read at acceptance (R262). -/
structure ChainOp where
  op : Nat
  src : Nat
  scalar : W32
  stream : Shape
  deriving DecidableEq, Repr

/-- What an operation in flight does when it lands or completes. -/
inductive POp where
  | ld (space : Space) (path va off : Nat) (t : ITy) (acq : Option Scope)
  | shld (q : Nat) (space : Space) (path va off : Nat) (got : AMap (List Byte))
  | atom (store : Nat) (t : ITy) (got : Option Nat) (acq : Option Scope)
  | probe (waits : List Nat) (count : Nat)
  | qpop (queue : Nat)
  | sfu (fn : Nat) (a : W32) (ftz accepted : Bool)
  | rld (domain : W16) (target va : Nat) (t : ITy) (acq : Option Scope)
  | rst (nak : Bool) (target va n : Nat) (flag : Option Nat) (rel : Option Scope) (pfx rts : NSet)
  | copy (c : Copy) (follow : Option (Nat × Shape)) (copied : Bool) (status : W32)
  | wbind (win : Nat) (c : Option Copy)
  | chain (qd qs : Shape) (ops : List ChainOp)
  | publ (buf : Nat) (before : List Nat) (scope : Scope) (pfx rts : NSet)
  /-- An answer that is known at issue: its words, and for BAR.EXP the barrier at which the arrival is to be in place (R44, R266). -/
  | answer (key : Option Nat) (vals : List W32)
  | ovl (n : Nat)
  | launch (q : Nat) (record : List Byte) (grid : Option Nat)
  | dbell (id : Nat)
  | dectab (region : Nat) (va enclen : Nat)
  | tlbinv (kind : Nat) (va : Nat) (sent : Option Nat)
  | ctxsave (ctx : Nat)
  | ctxload (ctx : Nat)
  | matrix (id : Nat)
  deriving DecidableEq, Repr

/-- An operation in flight (R44), from the instruction that issued it. -/
structure Pend where
  core : Nat
  ctx : Nat
  blk : Nat
  /-- The issue that it belongs to, and the lines for which it holds table entries (R231). -/
  issue : Nat
  lines : List Nat
  at_ : Nat
  pc : W32
  parts : List Part
  op : POp
  after : List Nat := []
  /-- Destination lines that a copy, fill or chain has written so far, and the bytes (R256). -/
  landed : NSet := []
  wrote : Nat := 0
  /-- Exceptions that the landed part of a chain has raised (R263). -/
  raised : Nat := 0
  /-- The thread's loads in flight as an engine command was accepted: what they come to read counts as observed before it (R313, R315). -/
  heard : NSet := []
  /-- What an RLD that came back through the loopback has read; it is observed when the data lands (R328, R355). -/
  seen : Seen := {}
  /-- The operation has met a fault: it stands until its context resumes (R400, R406). -/
  failed : Bool := false
  deriving DecidableEq, Repr

/-- A store, atomic or reduction that its point of coherence has not accepted (R312, R313). -/
structure Store where
  core : Nat
  ctx : Nat
  blk : Nat
  th : Option Nat
  issue : Nat
  lines : List Nat
  pc : W32
  space : Space
  path : Nat
  va : Nat
  off : Nat
  acc : Access
  /-- The pending operation that receives the old value (ATOM, CAS). -/
  ret : Option Nat
  rel : Option Scope
  /-- Unaccepted accesses in the release's prefix (R315), and the routes that its accesses used (R323). -/
  pfx : NSet
  rts : NSet := []
  /-- The thread's earlier fences over the store's path (R318). -/
  fpfx : List Before := []
  /-- What must be accepted or landed first (R225, R316). -/
  after : List Nat
  /-- A store to a device page, which its own thread alone reads before it is accepted, and which is not accepted before a system fence or
  release carries it (R324). -/
  dev : Bool := false
  held : Bool := false
  deriving DecidableEq, Repr

/-- An accepted store that a release or a fence stands behind, while its bytes may still be read (R317, R318). -/
structure Rel where
  loc : Loc
  len : Nat
  core : Nat
  blk : Nat
  gang : Nat
  rel : Option Scope
  pfx : NSet
  rts : NSet := []
  fpfx : List Before := []
  deriving DecidableEq, Repr

/-- The route by which the store that stands in some bytes reached them (R323): a load of those bytes puts it among the routes of its thread's prefix. DEDUCED: log 42. -/
structure Trace where
  loc : Loc
  len : Nat
  route : Nat
  deriving DecidableEq, Repr

/-- What a completion release passes on (R33, R326): its scope, the dies of its instance, the accesses of its prefix that are still in flight, and their
routes. DEDUCED: log 42. -/
structure Heard where
  scope : Scope
  dies : List Nat
  ids : NSet
  rts : NSet
  deriving DecidableEq, Repr

/-- A FENCE.SC that has completed (R319): the place of its thread, its scope, and the accesses of its prefix. -/
structure ScFence where
  core : Nat
  blk : Nat
  gang : Nat
  scope : Scope
  pfx : NSet
  rts : NSet := []
  deriving DecidableEq, Repr

/-! ### Cores -/

/-- A home-table entry (R138). -/
inductive HomeEnt where
  | loading (code ovl : Nat)
  | resident (code ovl len : Nat) (sperm : Bool)
  deriving DecidableEq, Repr

/-- The gathered set that is issuing (R130): members in lane order and the clause slot. -/
structure Gather where
  members : List Nat
  off : Nat
  slot : Nat
  yielded : Bool := false
  /-- Members whose X or T command of this slot has been accepted, while later members wait (R22, R271). -/
  served : List Nat := []
  deriving DecidableEq, Repr

/-- An access processor (R242). -/
structure Ap where
  running : Bool := false
  pc : W32 := 0
  a : List W64 := List.replicate 16 0
  c : BitVec 7 := 0
  loops : List (Nat × W32) := []
  queues : BitVec 8 := 0
  blk : Nat := 0
  /-- Stores that the handing thread had in flight (R244), and those that its own reads have read from (R315). -/
  obs : NSet := []
  seen : NSet := []
  deriving DecidableEq, Repr

/-- A start request (R244). -/
structure Start where
  pc : W32
  a : List W64
  queues : BitVec 8
  blk : Nat
  obs : NSet
  deriving DecidableEq, Repr

/-- An AP data-queue entry: its words once it is whole, and what is still to be read (R246). -/
structure QEntry where
  ap : Nat
  blk : Nat
  addrs : List Nat
  words : Option (List W32)
  pc : W32
  after : NSet := []
  deriving DecidableEq, Repr

/-- A held range of the scoreboard (R236), as the runs of bytes of the halves that it reaches (R264): whether reads wait too, and whether it
is the range of a Filling window, for which only the touches of its own block wait (R234). -/
structure Held where
  owner : Nat
  alloc : Nat
  runs : List (Nat × Nat)
  reads : Bool
  fill : Bool := false
  deriving DecidableEq, Repr

/-- What a matrix command does (R277). -/
inductive MKind where
  | mma (a b : Shape) (sa sb : Option Shape) (sat : Bool)
  | mmaW (a b : Shape) (r0 : Nat) (sat : Bool)
  | mmaNf (a b : Shape)
  | accz
  | accld (q : Shape)
  | accst (q : Shape)
  | drain (q : Shape)
  | drainMx (qe qs : Shape)
  deriving DecidableEq, Repr

/-- A weight region's binding (R238, R259). -/
structure Region where
  image : Nat
  enclen : Nat
  declen : Nat
  lens : List Nat
  deriving DecidableEq, Repr

/-- A matrix command (R271): its tile, its operation in flight, its rung, its attempts and the next k-block after a fault (R291). -/
structure MCmd where
  id : Nat
  acc : Nat
  kind : MKind
  pend : Option Nat
  blk : Nat
  ctx : Nat
  pc : W32
  rung : Nat := 0
  att : Nat := 1
  kblock : Nat := 0
  /-- Lines that a movement command has written so far. -/
  landed : NSet := []
  /-- The bindings of its path-0x4 operands as they stood at acceptance (R285). -/
  bound : AMap Region := []
  deriving DecidableEq, Repr

/-- One core (R13). -/
structure CoreRec where
  owner : Option Nat := none
  store : Mem := []
  home : AMap HomeEnt := []
  gather : Option Gather := none
  /-- The set that R133 keeps for the next clause. -/
  kept : Option (List Nat) := none
  aps : List Ap := List.replicate 4 {}
  startq : List Start := []
  queues : List (List QEntry) := List.replicate 8 []
  /-- Accumulator words x0 to x31 by 4096 × tile + 64 × m + n; an unlisted word is zero (R270). -/
  acc : AMap W32 := []
  /-- An A-class clause has been handed off here, and the tiles that T-class commands have named, since the partition was assigned (R414). -/
  apUsed : Bool := false
  tiles : NSet := []
  /-- Words of Loading overlays that the load engine has read, by their store offset (R143). -/
  fetched : AMap (List Byte) := []
  mcmds : List MCmd := []
  held : List Held := []
  /-- Budget in force and the value that the next window takes (R124, R431). -/
  budget : Nat := 4096
  budgetNext : Nat := 4096
  deriving DecidableEq, Repr

/-! ### Work: blocks, groups, grids, jobs -/

/-- A region-table window (R233, R257). -/
inductive WinSt where
  | unbound
  | absent
  | filling
  | present
  deriving DecidableEq, Repr

structure Window where
  st : WinSt := .unbound
  path : Nat := 0
  lo : Nat := 0
  hi : Nat := 0
  copy : Option Copy := none
  /-- The thread whose touch started the fill, for R309. -/
  th : Option Nat := none
  pc : W32 := 0
  deriving DecidableEq, Repr

/-- A barrier (R330), its recorded arrivals, those still owed their prefix (R332), its watches (R266) and what its phases carry. -/
structure Barrier where
  phase : BitVec 16 := 0
  arr : NSet := []
  owing : List (Nat × List Nat) := []
  pendb : Nat := 0
  ext : Nat := 0
  extc : Nat := 0
  watch : List (Nat × Nat × Nat) := []
  carry : NSet := []
  carried : NSet := []
  /-- The routes of those accesses (R323). -/
  carryR : NSet := []
  carriedR : NSet := []
  /-- The cycle of the last completion, the age of the threads it re-inserts (R333). -/
  doneAt : Nat := 0
  deriving DecidableEq, Repr

/-- The port of a publish buffer (R264). -/
structure Pub where
  alloc : Nat
  view : Nat
  shadow : Nat
  len : Nat
  front : Bool := false
  gen : W16 := 0
  deriving DecidableEq, Repr

/-- A scratchpad allocation (R224): its path, declared size and contents. -/
structure Alloc where
  path : Nat
  unit : Nat
  size : Nat
  mem : Mem := []
  deriving DecidableEq, Repr

structure Block where
  ctx : Nat
  job : Nat
  grid : Option Nat
  /-- Barrier and publish instance of the cluster-level group. -/
  group : Nat
  stage : Option Nat
  core : Nat
  blockId : Nat
  /-- GRIDID and NBLOCKS as a thread reads them; free values, like BLOCKID, in a block that belongs to no grid. -/
  gridId : Nat := 0
  nblocks : Nat := 1
  /-- Order of placement, for blocks that belong to no grid (R129). -/
  order : Nat
  threads : Nat
  kernel : Nat
  code : Nat
  stack : Nat
  data : Nat
  maxlive : Nat
  q : AMap Shape := []
  windows : List Window := List.replicate 16 {}
  fabst : W32 := 0
  a1 : Option Nat := none
  a2 : Option Nat := none
  a3 : Option Nat := none
  /-- The threads start only once the entry overlay is resident (R140). -/
  started : Bool := false
  entry : W32 := 0
  entryOvl : Nat := 0
  /-- Entry PC and payload per thread of a continuation block (R111). -/
  items : List (W32 × List W32) := []
  /-- Where the block's output reservation stands (R110). -/
  out : Nat := 0
  ended : Bool := false
  deriving DecidableEq, Repr

/-- A cluster-level group (R27). -/
structure Group where
  grid : Option Nat
  cluster : Nat
  blocks : List Nat
  alloc : Option Nat
  ended : Bool := false
  deriving DecidableEq, Repr

/-- The states of R117. -/
inductive GridSt where
  | waiting
  | resident
  | ended
  deriving DecidableEq, Repr

structure Grid where
  job : Nat
  gridId : Nat
  nblocks : Nat
  st : GridSt := .waiting
  bypass : Nat := 0
  blocking : Option Nat := none
  part : Option Nat := none
  alloc : Option Nat := none
  blocks : List Nat := []
  groups : List Nat := []
  /-- Routes of its threads' accesses, and the accesses of their prefixes that were in flight as they exited. -/
  routes : NSet := []
  obs : NSet := []
  /-- What the completion release waits for, with its probes, once the blocks have ended (R107, R323, R416). -/
  closing : Option (List Nat) := none
  /-- Blocks have all ended and the retirement has begun (R416). -/
  retiring : Bool := false
  deriving DecidableEq, Repr

/-- The record of a slot (R99). -/
inductive SlotSt where
  | held
  | ready
  | running
  deriving DecidableEq, Repr

/-- One stage of a pipeline (R109) with its queue, bins, estimate and counts (R121 to R128). Items are their bytes. -/
structure Stage where
  kernel : Nat
  itemsz : Nat
  depth : Nat
  next : Option Nat
  /-- 0 ordinary, 1 continuation. -/
  kind : Nat
  batch : Nat
  outmax : Nat
  queue : List (List Byte) := []
  bins : List (W32 × List (List Byte)) := []
  closed : List (List (List Byte)) := []
  est : Nat := 0
  skips : Nat := 0
  forced : Bool := false
  deriving DecidableEq, Repr

structure Job where
  ctx : Nat
  die : Nat
  queue : Nat
  slot : Nat
  seq : W32
  accepted : Nat
  record : List Byte
  code : Nat
  st : SlotSt
  count : Nat
  succ : List (Nat × W32) := []
  /-- The grid of the LAUNCH that made the job, or its pipeline job (R99, R115). -/
  parent : Option Nat := none
  parentJob : Option Nat := none
  grids : List Nat := []
  stages : List Stage := []
  fed : Nat := 0
  region : Option Nat := none
  part : Option Nat := none
  /-- Rank block of R114, empty for a job outside a process group, and the share of R113. -/
  rank : List Byte := []
  share : Nat := 0
  routes : NSet := []
  obs : NSet := []
  /-- What the completion release waits for, with its probes (R107, R323). -/
  closing : Option (List Nat) := none
  /-- What the job's threads observe as they start: the prefixes of its predecessors' completion stores, and of its parent's end (R33, R326). -/
  heard : List Heard := []
  deriving DecidableEq, Repr

/-! ### Code objects, contexts, launch queues -/

structure Overlay where
  num : Nat
  off : Nat
  len : Nat
  hash : List Byte
  sperm : Bool
  home : Nat
  deriving DecidableEq, Repr

structure Kernel where
  num : Nat
  entovl : Nat
  entoff : Nat
  threads : Nat
  maxlive : Nat
  stack : Nat
  energy : Nat
  csdata : Nat
  cldata : Nat
  clblk : Nat
  diedata : Nat
  shapes : AMap Shape
  deriving DecidableEq, Repr

/-- A KIND 1 or KIND 3 binding of R258; KIND 2 goes to the context's regions. -/
structure Binding where
  kind : Nat
  kernel : Nat
  index : Nat
  x : Nat
  y : Nat
  len : Nat
  deriving DecidableEq, Repr

/-- A code object the clerks have accepted (R75 to R79): what the steward recorded of it. -/
structure Code where
  ctx : Nat
  addr : Nat
  overlays : List Overlay
  kernels : List Kernel
  pipes : AMap (List Stage)
  bindings : List Binding
  deriving DecidableEq, Repr

/-- What a stop record says (R401). -/
structure Stop where
  engine : Nat
  cause : Nat
  unit : Nat
  sub : Nat := 0
  lane : Nat := 255
  fseq : Nat := 0
  pc : W32 := 0
  tid : Nat := 0xFFFFFFFF
  block : Nat := 0xFFFFFFFF
  grid : Nat := 0xFFFFFFFF
  va : Nat := 0
  detail : Nat := 0
  detail2 : Nat := 0
  lcyc : Nat := 0
  deriving DecidableEq, Repr

/-- The context fault that raised the halt line (R399, R403): the first cause, the members it names and what the verdict asks. -/
structure Cause where
  stop : Stop
  members : List Nat := []
  /-- Raised at issue by a V, M, X or T instruction that had no effect. -/
  eligible : Bool := false
  /-- Raised by an instruction or an AP read that page service may resume (R404). -/
  service : Bool := false
  deriving DecidableEq, Repr

/-- A halt line (R400): why it rose, when, later causes, and whether the context is quiescent. -/
structure Halt where
  cause : Cause
  at_ : Nat
  /-- The cycle since which the counts of R398 have paused for it. -/
  since : Nat := at_
  later : List Stop := []
  quiet : Bool := false
  /-- Waiting for page service since this cycle (R404). -/
  serving : Option Nat := none
  /-- The causes were recorded when tier 2 ended (R407). -/
  recorded : Bool := false
  deriving DecidableEq, Repr

/-- Pre-emption in progress (R405, R406). -/
structure Preempt where
  tier : Nat
  prio : Nat
  at_ : Nat
  /-- The waiting work for which it started (R120). -/
  work : Option (Nat × Nat) := none
  deriving DecidableEq, Repr

/-- Waiting work for which pre-emption has started (R120): a grid (0), a saved context (1) or a pipeline job (2), with its number, and the clusters that
pre-emption has freed for it so far. -/
structure Claim where
  work : Nat × Nat
  kept : NSet := []
  /-- A destination's reservation of clusters for a context that migrates here (R426): it stands until the restore. -/
  reserved : Bool := false
  deriving DecidableEq, Repr

/-- A partition (R23): whether the steward pair assigned it under R119. -/
structure Part2 where
  ctx : Nat
  clusters : List Nat
  steward : Bool
  deriving DecidableEq, Repr

/-- A save area (R408): the cores' contents by 1,024 + their old core, the partitions with the clusters that were held, and the bypass
count and the blocking order of the restore as a Waiting grid (R118, R410). -/
structure Save where
  cores : AMap CoreRec
  /-- The cycle since which the counts of R398 have paused. -/
  since : Nat := 0
  /-- When it was made, its bytes in the shadow storage of each die, its thread records (R409), and the KEYID 0 frames that hold it once
  it has been moved (R408). -/
  at_ : Nat := 0
  bytes : AMap Nat := []
  threads : AMap (List Byte) := []
  /-- The used regions of each core's block, by offset and size, and the bytes of its live-register region (R408, R414). -/
  regions : AMap (List (Nat × Nat)) := []
  live : AMap (List Byte) := []
  frames : List Nat := []
  parts : List (Nat × Part2)
  bypass : Nat := 0
  blocking : Option Nat := none
  deriving DecidableEq, Repr

/-- A usage statement (R422) as bytes, signed or not. -/
structure Statement where
  sseq : Nat
  kind : Nat
  body : List Byte
  sig : Option (List Byte)
  at_ : Nat
  /-- The KEYID 0 frames that keep it once it is signed (R424). -/
  frames : List Nat := []
  deriving DecidableEq, Repr

/-- A context (R23): privileged registers (R390), weight regions, counters (R284, R419) and statements (R421). -/
structure Context where
  fpxc : W32 := 0
  fabcfg : W32 := 0x00000E14
  trcfg : W64 := 0
  traph : W32 := 0
  stepc : W32 := 0
  wdog : W32 := 30
  fltpol : W32 := 0
  fltlog : W64 := 0
  fltcnt : W32 := 0
  domain : W16 := 0
  isbase : Nat := 0
  ispages : Nat := 0
  regions : AMap Region := []
  rplc : List W64 := List.replicate 4 0
  bytes : AMap Nat := []
  macs : AMap Nat := []
  umac : Nat := 0
  resets : Nat := 0
  thresh : Nat := 0
  kind3 : Nat := 0
  sseq : Nat := 0
  lastSigned : Nat := 0
  statements : List Statement := []
  prev : List Byte := []
  meas : List Byte := List.replicate 32 0
  forced : Bool := false
  sat : Bool := false
  gap : Bool := false
  gapmac : Nat := 0
  handin : Bool := false
  peer : List Byte := List.replicate 32 0
  lastJseq : W32 := 0
  lastQ : Nat := 0
  halt : Option Halt := none
  save : Option Save := none
  preempt : Option Preempt := none
  records : List Stop := []
  /-- Fault of tier 2 that is classified at restore (R407). -/
  deferred : Option Cause := none
  /-- The faults raised in tier 2, which are recorded all the same (R407). -/
  deferredStops : List Stop := []
  ended : Bool := false
  /-- Its work was dropped by a kill, and no job has been accepted since (R404, R433). -/
  killed : Bool := false
  /-- The cycle up to which the partitions that it last released are being zeroed (R404, R413). -/
  zeroing : Nat := 0
  deriving DecidableEq, Repr

/-- A launch queue (R95, R96, R99). -/
structure Queue where
  base : W64 := 0
  cfg : W32 := 0
  sub : W32 := 0
  ack : W32 := 0
  rbase : W64 := 0
  rseq : W32 := 0
  rack : W32 := 0
  can : W32 := 0
  stat : W32 := 0
  slots : AMap Nat := []
  /-- Slots whose job has ended and whose response is not yet written: the state that the job left, with 4 times its SEQ (R99). -/
  closing : AMap Nat := []
  /-- Responses that wait for room in the ring (R101), without their RSEQ. -/
  waiting : List (List Byte) := []
  deriving DecidableEq, Repr

/-! ### Memory system -/

/-- Frame metadata (R297): counters, key and ZP. A frame with no record has KEYID 0, ZP 0 and no owner. DEDUCED: log 14. -/
structure Frame where
  keyid : Nat := 0
  zp : Bool := false
  /-- Its owner has gone; the counters stay for the next (R297). -/
  free : Bool := false
  major : Nat := 0
  minor : AMap Nat := []
  deriving DecidableEq, Repr

/-- A line write that the array still owes (R296): of reductions, or of all 64 bytes. -/
structure LineWr where
  line : Nat
  red : Bool
  full : Bool
  /-- The 64 bytes that the array held when this write was accepted, for the bytes of a line that is pending stand in the queue (R295). -/
  old : List Byte := []
  deriving DecidableEq, Repr

/-- A sparing copy (R304). -/
structure Sparing where
  p : Nat
  spare : Nat
  deriving DecidableEq, Repr

/-- A stack's spare rows (R304, R305). -/
structure StackRec where
  used : Nat := 0
  repair : List (Nat × Nat × Nat) := []
  copying : AMap Sparing := []
  errors : AMap Nat := []
  deriving DecidableEq, Repr

/-- A cached entry (R369): a leaf, or, with the level of the table that it points to, a table pointer. `page` is the part of the address that
it covers, and 2^`bits` bytes lie under it. -/
structure Tlb where
  ctx : Nat
  page : Nat
  bits : Nat
  lvl : Nat := 0
  pte : W64
  deriving DecidableEq, Repr

/-- A window of CXL memory behind one decoder of a root port (R362, R364). -/
structure Hdm where
  port : Nat
  base : Nat
  len : Nat
  deriving DecidableEq, Repr

/-! ### Porter, notify aperture, devices, fabric -/

/-- A doorbell or path-0x6 store that the Porter holds (R373, R374). -/
structure Bell where
  die : Nat
  ctx : Nat
  core : Nat
  th : Option Nat
  /-- The issue that it belongs to, and the lines for which it holds table entries (R231). -/
  issue : Nat := 0
  lines : List Nat := []
  /-- A doorbell, or a release at cluster scope or wider: what loads in flight come to read joins what it waits for (R315). -/
  wide : Bool := false
  rel : Option Scope := none
  addr : Nat
  width : Nat
  data : Nat
  ret : Option Nat
  waits : List Nat
  deriving DecidableEq, Repr

/-- A doorbell window (R372). -/
structure Door where
  ctx : Nat
  port : Nat
  addr : Nat
  value : W32 := 0
  deriving DecidableEq, Repr

/-- A notify vector (R375 to R377): the 16 bytes of its binding entry, and the writes that a root port's posted queue holds. -/
structure Vector where
  lo : W64 := 0
  hi : W64 := 0
  queued : Nat := 0
  deriving DecidableEq, Repr

/-- A class L packet that a sending station holds for a target (R356). -/
structure Sending where
  station : Nat
  target : Nat
  packet : Packet
  deriving DecidableEq, Repr

/-- An open lossy buffer (R358), by the physical address of its header: when it opened, its window and the bytes that arrived. -/
structure Lossy where
  ctx : Nat
  va : Nat
  die : Nat
  opened : Nat
  win : Nat
  nseg : Nat
  got : AMap (BitVec 256) := []
  data : Mem := []
  deriving DecidableEq, Repr

/-- What the module sends outward in a step: to a device, a verifier, another module or the steward's log. DESIGN CHOICE: log 58. -/
inductive Msg where
  | deviceWrite (port addr : Nat) (data : Nat) (width : Nat)
  | deviceReply (ok : Bool) (data : List Byte)
  | atsReply (pa perm size : Nat)
  | atsInvalidate (fn ctx va size : Nat)
  | priReply (ok : Bool)
  | remote (station target : Nat) (r : RemReq)
  | remoteReply (id : Nat) (r : RemResp)
  | remoteAck (id : Nat) (nak : Bool)
  | lossy (station target : Nat) (p : Packet)
  | spdm (code : Nat) (body : List Byte)
  /-- SPDM to another module's steward pair, over class R (R426, R433). -/
  | peer (acc code : Nat) (body : List Byte)
  | error (code : Nat)
  | report (code a b : Nat)
  deriving DecidableEq, Repr

/-- The measurement session and the steward's own registers (R306, R307, R430 to R433). -/
structure Steward where
  step : Nat := 1
  tries : Nat := 0
  version : Bool := false
  algorithms : Bool := false
  session : Bool := false
  pendingKey : Bool := false
  lastMeas : Option (List Byte) := none
  /-- Number of changes to measured items, and the number at the last measurement (R307). -/
  changes : Nat := 0
  changesAt : Nat := 0
  firmware : List Byte := List.replicate 32 0
  accid : Nat := 0
  portCfg : W16 := 0
  nextAccid : Nat := 0
  nextPortCfg : W16 := 0
  /-- The accelerator ID has been taken since the last module reset, before which it may not change (R348). -/
  idTaken : Bool := false
  recovery : Bool := true
  /-- The clerks are out of reset (R432). -/
  clerks : Bool := false
  /-- The widths of the root ports' trained links, in BIF's code, and whether the last image came from the NVMe device on port 0 (R363, R432). -/
  ports : AMap Nat := []
  nvme : Bool := false
  /-- The firmware image in die 0's scratchpad, until the launch queues may be enabled (R432). -/
  image : List Byte := []
  resetAsked : Bool := false
  /-- THRESH of contexts that are not yet created (R433). -/
  thresh : AMap Nat := []
  deriving DecidableEq, Repr

/-- A die's thermal report (R430, R431) and its stage scheduler. -/
structure Die where
  /-- The sensors have completed a sample since module reset (R431). -/
  sampled : Bool := false
  temp : Nat := 0
  thermal : Nat := 0
  powered : Bool := true
  pass : Nat := 0
  deriving DecidableEq, Repr

/-- A migration of which this module is the source (R426); after the hand-over its context exists only at the destination. -/
structure Migration where
  ctx : Nat
  acc : Nat
  die : Nat
  queue : Nat
  /-- What step 4 has sent, once it has. -/
  sent : Option (List Byte) := none
  /-- The signature under the refusal that the destination has sent, once one has come (R425). -/
  refusal : Option (List Byte) := none
  handedOver : Bool := false
  deriving DecidableEq, Repr

/-- What a destination has received of a context (R426, step 4): `ctx` is its number at the source, `hbm` holds its tables and the frames that they map, by
the source's addresses, and `statement` and `previous` are the hand-over statement and the one before it. Numbers of blocks, jobs and other records are
those of this module already. -/
structure Incoming where
  ctx : Nat
  context : Context
  statement : List Byte
  previous : List Byte := []
  die : Nat
  queue : Nat
  /-- What step 3 has reserved: the context's number here, runs of frames (first frame at the source, length, first frame here), the frames of its tables
  (at the source, here), and for each partition its old and new clusters. -/
  own : Option Nat := none
  runs : List (Nat × Nat × Nat) := []
  tables : List (Nat × Nat) := []
  moved : List (Nat × List Nat × List Nat) := []
  jobs : AMap Job := []
  codes : AMap Code := []
  grids : AMap Grid := []
  groups : AMap Group := []
  blocks : AMap Block := []
  threads : AMap Thread := []
  bars : AMap Barrier := []
  allocs : AMap Alloc := []
  pubs : AMap Pub := []
  pend : AMap Pend := []
  hbm : Mem := []
  /-- The source's accelerator ID, and the bytes of the messages received (R426). -/
  src : Nat := 0
  received : List Byte := []
  deriving DecidableEq, Repr

/-! ### The module -/

/-- What moves next: an event, the focus core's issue, an AP's issue, or time alone. The agenda is the environment's and the
agents' interleaving as plain data. DESIGN CHOICE: log 1. -/
inductive Move where
  | event (i : Instr)
  | issue (core : Nat)
  | apIssue (core ap : Nat)
  | elapse (n : Nat)
  /-- A part of an engine command lands before the rest: one destination line of a copy, fill or chain, one k-block of a product (R256, R282). -/
  | burst (id k : Nat)
  /-- The load engine reads one word of a Loading overlay (R143). -/
  | fetchWord (core off : Nat)
  /-- The steward pair creates a context with its store partition and fabric domain, and ends one (R23, R136, R300, R348, R421). -/
  | openContext (ctx isbase ispages : Nat) (domain : W16)
  | endContext (ctx : Nat)
  /-- The next step of bring-up (R432). -/
  | bringUp
  /-- Steps 2 and 4 of a migration at its source, and step 3 at its destination (R426). -/
  | migrateSend (ctx : Nat)
  | reserve
  /-- The destination's signed refusal reaches the source (R425). -/
  | hearRefusal (ctx : Nat) (signature : List Byte)
  /-- The steward rewrites a subtree of the counter tree (R298). -/
  | mendTree (n k : Nat)
  /-- A verifier asks for a signed statement by its SSEQ (R424). -/
  | readStatement (ctx sseq : Nat)
  /-- The destination of a migration returns its digest (R426). -/
  | returnDigest
  /-- The clerks assign the windows of CXL memory at enumeration (R362, R364). -/
  | enumerate (l : List Hdm)
  /-- The clerks bind a function and PASID to a context, enable ATS for a function, or map a doorbell window (R365, R372). -/
  | bindPasid (key ctx : Nat)
  | enableAts (fn : Nat)
  | mapDoor (m : Nat) (d : Door)
  /-- A system-scope fence or release of another module carries a store of its own that is held here (R324). -/
  | carryRemote (id : Nat)
  deriving DecidableEq, Repr

/-- The whole module. -/
structure State where
  /-- Arithmetic cycles since module reset (R1, R429). -/
  clock : Nat := 0
  agenda : List Move := []
  /-- The core, and its AP, whose instruction issues. -/
  focus : Nat := 0
  focusAp : Nat := 0
  /-- A counter for fresh identifiers, and one that indexes the free values of Config. -/
  nextId : Nat := 1
  fresh : Nat := 0
  cores : AMap CoreRec := []
  threads : AMap Thread := []
  blocks : AMap Block := []
  groups : AMap Group := []
  grids : AMap Grid := []
  jobs : AMap Job := []
  codes : AMap Code := []
  ctxs : AMap Context := []
  parts : AMap Part2 := []
  queues : AMap Queue := []
  allocs : AMap Alloc := []
  /-- Gang, block and grid barriers, by the key of `barKey`. -/
  bars : AMap Barrier := []
  pubs : AMap Pub := []
  pend : AMap Pend := []
  stores : AMap Store := []
  /-- Stores that were accepted and loads that landed while other members of their instruction stand on a page that is not present: page
  service issues the instruction again for every member (R404). -/
  redoStores : List Store := []
  redoLoads : List Pend := []
  /-- Waiting work for which pre-emption has started, and to which the clusters that it frees go before other work (R120). -/
  claims : List Claim := []
  /-- Accepted stores that releases and fences stand behind (R313, R317, R318, R322). -/
  rels : List Rel := []
  /-- The routes of the accepted stores whose bytes can be read (R323). -/
  traces : List Trace := []
  /-- The completed FENCE.SCs in the order S whose prefix is not all performed yet (R319). -/
  scLog : List ScFence := []
  /-- HBM data as plaintext, and device memory, by physical address. -/
  hbm : Mem := []
  device : Mem := []
  frames : AMap Frame := []
  ver1 : AMap Nat := []
  ver2 : AMap Nat := []
  ver3 : AMap Nat := []
  root : AMap Nat := []
  poison : NSet := []
  /-- Counter lines and nodes that have failed their check, by the number of frames they cover and their place among their like; the steward
  has yet to rewrite them (R298). -/
  treeBad : List (Nat × Nat) := []
  keys : AMap (BitVec 256) := []
  metaKey : BitVec 256 := 0
  wq : List LineWr := []
  /-- What the last LINE_READ returned: the line, and its bytes or poison. -/
  lineOut : Option (Nat × Option (List Byte)) := none
  stackRecs : AMap StackRec := []
  tlb : List Tlb := []
  /-- The windows of CXL memory, up to 8 decoders to a port (R362, R364). -/
  hdm : List Hdm := []
  bells : AMap Bell := []
  doors : AMap Door := []
  notify : AMap Vector := []
  gated : Bool := false
  /-- Bindings of (function, PASID) to contexts (R365), functions with ATS enabled, and open fabric stations (R347). -/
  pasids : AMap Nat := []
  ats : NSet := []
  /-- Functions whose silence has cost them ATS (R371). -/
  atsLost : NSet := []
  lanesLost : NSet := []
  sending : List Sending := []
  /-- Class L packets in a receiving station's ingress queue, with the cycle of their arrival (R356). -/
  ingress : List (Nat × Packet) := []
  lossy : AMap Lossy := []
  out : List Msg := []
  dies : List Die := List.replicate 4 {}
  steward : Steward := {}
  migrations : AMap Migration := []
  incoming : Option Incoming := none
  deriving DecidableEq, Repr

/-- Why the machine stops. -/
inductive Fault where
  /-- Raised by `step` after a thermal trip: the dies are powered down until a module reset (R430). Safe: nothing runs. -/
  | poweredDown
  deriving DecidableEq, Repr

/-- Why a step has no meaning. -/
inductive Refusal where
  /-- Raised by an arm of `exec` that has no meaning yet. Safe. -/
  | notModelled (mnemonic : String)
  /-- Raised by `step` when the agenda names an encoded instruction as an event: only a core or an AP issues one. Safe. -/
  | notAnEvent
  deriving DecidableEq, Repr

/-- The module right after a module reset (R432, step 1): no context, no job, no partition; launch-queue registers zero (R95);
registers with no stated value zero. DESIGN CHOICE: log 7. -/
def State.reset : State := {}

end Sys2Proof.Machine
end

