-- ==== Sys2Proof/Machine/Memory.lean ====
section
/-! DEFINITION. Memory: identifiers, translation (R367 to R369), HBM lines (R294 to R303), scratchpads with publish views
(R224, R264), store forwarding and acceptance order (R225, R311 to R318). -/

namespace Sys2Proof.Machine

/-- A result of a step. -/
abbrev Res := Host.Outcome State Fault Refusal

namespace State

/-- Takes a fresh identifier; identifiers rise in issue order. -/
def newId (s : State) : Nat × State := (s.nextId, { s with nextId := s.nextId + 1 })

/-- Advances the index of the free values. -/
def draw (s : State) : Nat × State := (s.fresh, { s with fresh := s.fresh + 1 })

def core (s : State) (k : Nat) : CoreRec := s.cores.lookD k {}
def setCore (s : State) (k : Nat) (c : CoreRec) : State := { s with cores := s.cores.put k c }
def updCore (s : State) (k : Nat) (f : CoreRec → CoreRec) : State := s.setCore k (f (s.core k))
def updThr (s : State) (u : Nat) (f : Thread → Thread) : State := { s with threads := s.threads.upd u f }
def updBlk (s : State) (b : Nat) (f : Block → Block) : State := { s with blocks := s.blocks.upd b f }
def updCtx (s : State) (c : Nat) (f : Context → Context) : State := { s with ctxs := s.ctxs.upd c f }
def updJob (s : State) (j : Nat) (f : Job → Job) : State := { s with jobs := s.jobs.upd j f }
def updGrid (s : State) (g : Nat) (f : Grid → Grid) : State := { s with grids := s.grids.upd g f }
def emit (s : State) (m : Msg) : State := { s with out := s.out ++ [m] }

/-- An operation or store that has landed, completed or been accepted. -/
def isDone (s : State) (id : Nat) : Bool := !s.pend.has id && !s.stores.has id && !s.bells.has id
def allDone (s : State) (l : List Nat) : Bool := l.all s.isDone
/-- The identifiers of a list that are still in flight. -/
def live (s : State) (l : List Nat) : List Nat := l.filter fun i => !s.isDone i

end State

/-! ### HBM lines -/

/-- The frame of a physical address (R294). -/
def frameOf (pa : Nat) : Nat := pa / 4096
/-- The line of a physical address (R294). -/
def lineOf (pa : Nat) : Nat := pa / 64
/-- The stack (R294), and the near controller that owns the line (R295). -/
def stackOf (pa : Nat) : Nat := bits pa 39 36
def ownerOf (pa : Nat) : Nat := stackOf pa % 8

/-- A line write of all 64 bytes of the line waits in its queue, which serves the reads of the line (R295). -/
def fullPending (s : State) (line : Nat) : Bool := s.wq.any fun w => w.line == line && w.full

/-- A counter line or a node of the counter tree over the frame has failed its check (R298). -/
def treeFailed (s : State) (frame : Nat) : Bool := s.treeBad.any fun b => frame / b.1 == b.2

/-- A line reads as poison: a frame with no record was never handed out, so its zeroed tags do not check; a KEYID without an
installed key; a failed node above the frame; or a line of the array that is poison, with no write of all its bytes in the queue (R295, R298,
R300 to R302). DEDUCED: log 8. -/
def linePoison (s : State) (line : Nat) : Bool :=
  match s.frames.look (line / 64) with
  | none => true
  | some f =>
    if f.zp then false
    else !s.keys.has f.keyid || treeFailed s (line / 64) || (s.poison.contains line && !fullPending s line)

/-- `n` bytes of HBM, or `none` where a line reads as poison (R302, R303). -/
def hbmRead (s : State) (pa n : Nat) : Option (List Byte) :=
  if (List.range (cdiv (pa % 64 + n) 64)).any fun i => linePoison s (lineOf pa + i) then none
  else some (s.hbm.readN pa n)

/-- Makes a frame known when its first bytes are written: its lines are poison in the array. -/
def touchFrame (s : State) (line : Nat) : State :=
  if s.frames.has (line / 64) then s
  else { s with frames := s.frames.put (line / 64) {}, poison := s.poison.addAll ((List.range 64).map (line / 64 * 64 + ·)) }

/-- An accepted request for a line enters the queue, with what the line holds before it (R295, R296). -/
def enqueueLine (s : State) (line : Nat) (red full : Bool) : State :=
  { s with wq := s.wq ++ [{ line := line, red := red, full := full, old := s.hbm.readN (line * 64) 64 }] }

/-- Acceptance of bytes within one line at its controller (R295, R296): they are performed at once. Its line write decides whether they are merged
or, on a line that is poison, discarded (R301, R303). `red` marks reductions. -/
def hbmWriteLine (s : State) (pa : Nat) (bytes : List Byte) (red : Bool) : State :=
  let line := lineOf pa
  let full := bytes.length = 64
  let s := enqueueLine (if full then touchFrame s line else s) line red full
  { s with hbm := s.hbm.writeN pa bytes }

/-- A reduction that meets a poisoned line is discarded, and still makes its line write (R296, R303). -/
def discardAt (s : State) (l : Loc) : State :=
  match l with
  | .hbm pa => enqueueLine s (lineOf pa) true false
  | _ => s

/-! ### Translation -/

/-- A leaf that a walk found (R367). -/
structure Leaf where
  pa : Nat
  mem : Nat
  size : Nat
  rd : Bool
  wr : Bool
  dev : Bool
  pte : Nat
  deriving DecidableEq, Repr

/-- The tier bit agrees with the frame's stack (R294). -/
def tierOk (tier pa : Nat) : Bool := tier == (if stackOf pa ≥ 8 then 1 else 0)

/-- The physical range of a MEM type (R362). -/
def memRange (mem pa : Nat) : Bool :=
  match mem with
  | 0 => pa < 2 ^ 40
  | 1 => 2 ^ 48 ≤ pa && pa < 2 ^ 51
  | 2 => 2 ^ 51 ≤ pa && pa < 2 ^ 52
  | _ => false

/-- Checks a leaf entry at a level (R367, R368): its page's base, or the address fault. -/
def leafCheck (lvl e va : Nat) : Except Nat Leaf :=
  let size := bits e 9 6
  let okSize := match lvl with
    | 1 => size ≤ 4
    | 2 => 5 ≤ size && size ≤ 8
    | 3 => size == 9
    | _ => false
  let len := 2 ^ (12 + 2 * size)
  let base := bits e 51 12 * 4096
  let mem := bits e 11 10
  if !okSize || base % len ≠ 0 || !memRange mem base || !memRange mem (base + len - 1)
    || (if mem = 0 then !tierOk (bits e 5 5) base else bit e 5) then .error 0x23
  else .ok { pa := base + va % len, mem := mem, size := size, rd := bit e 2, wr := bit e 3, dev := bit e 4, pte := e }

/-- An entry that is no leaf is a valid pointer to a table (R367). -/
def ptrOk (e : Nat) : Bool := bits e 63 52 = 0 && bits e 11 6 = 0 && memRange 0 (bits e 51 12 * 4096) && tierOk (bits e 5 5) (bits e 51 12 * 4096)

/-- The table walk of R367 and R368 from a level's frame. A walk that reads poison has no entry and gives the address fault. DEDUCED: log 18. -/
def walkLevel (s : State) (va : Nat) : Nat → Nat → Except Nat Leaf
  | 0, _ => .error 0x23
  | lvl + 1, frame =>
    match hbmRead s (frame * 4096 + 8 * bits va (12 + 9 * lvl + 8) (12 + 9 * lvl)) 8 with
    | none => .error 0x23
    | some b =>
      let e := ofLe b
      if !bit e 0 then .error 0x35
      else if bits e 63 52 ≠ 0 then .error 0x23
      else if bit e 1 then leafCheck (lvl + 1) e va
      else if lvl = 0 || !ptrOk e then .error 0x23
      else walkLevel s va lvl (bits e 51 12)

/-- A fresh walk of a context's tables (R367). The clerks' own requests use KEYID 0 and are not walked here. -/
def walk (s : State) (ctx va : Nat) : Except Nat Leaf :=
  match s.ctxs.look ctx with
  | none => .error 0x23
  | some c => if bits va 63 48 ≠ 0 then .error 0x23 else walkLevel s va 4 (bits c.trcfg.toNat 51 12)

/-- The table pointers that a walk follows, each with the level of the table that it names (R367, R369). -/
def walkPtrs (s : State) (va : Nat) : Nat → Nat → List (Nat × Nat)
  | 0, _ => []
  | lvl + 1, frame =>
    match hbmRead s (frame * 4096 + 8 * bits va (12 + 9 * lvl + 8) (12 + 9 * lvl)) 8 with
    | none => []
    | some b =>
      let e := ofLe b
      if lvl = 0 || !bit e 0 || bit e 1 || !ptrOk e then [] else (lvl, e) :: walkPtrs s va lvl (bits e 51 12)

/-- A cached entry covers an address. -/
def Tlb.covers (t : Tlb) (ctx va : Nat) : Bool := t.ctx == ctx && t.page == va / 2 ^ t.bits

/-- Two walks find the same entry. -/
def sameLeaf (a b : Except Nat Leaf) : Bool :=
  match a, b with
  | .ok x, .ok y => x.pte == y.pte
  | .error x, .error y => x == y
  | _, _ => false

/-- What a cached entry gives for an address: its leaf, or the rest of a walk from the table that it points to (R369). -/
def Tlb.gives (s : State) (t : Tlb) (va : Nat) : Except Nat Leaf :=
  if t.lvl = 0 then leafCheck (if t.bits ≤ 20 then 1 else if t.bits ≤ 28 then 2 else 3) t.pte.toNat va
  else walkLevel s va t.lvl (Sys2Proof.bits t.pte.toNat 51 12)

/-- The first cached entry that a free choice uses, among those that give something else than a fresh walk (R369). DEDUCED: log 17. -/
def tlbChoice (s : State) (ctx va : Nat) (w : Except Nat Leaf) : List (Tlb × Nat) → Option (Except Nat Leaf)
  | [] => none
  | (t, i) :: l =>
    if t.covers ctx va && !sameLeaf w (t.gives s va) && Config.useCached (s.fresh + i) va then some (t.gives s va) else tlbChoice s ctx va w l

/-- A translation: a fresh walk; or, where they differ and the free choice says so, any leaf that is still cached or a walk from any table pointer
that is (R369). DEDUCED: log 17. -/
def translate (s : State) (ctx va : Nat) : Except Nat Leaf :=
  let w := walk s ctx va
  (tlbChoice s ctx va w s.tlb.zipIdx).getD w

/-- Records an entry as cached (R369). -/
def cacheEntry (s : State) (t : Tlb) : State := if s.tlb.contains t then s else { s with tlb := t :: s.tlb }

/-- Records a leaf as cached (R369). -/
def cache (s : State) (ctx va : Nat) (l : Leaf) : State :=
  cacheEntry s { ctx := ctx, page := va / 2 ^ (12 + 2 * l.size), bits := 12 + 2 * l.size, pte := BitVec.ofNat 64 l.pte }

/-- A walk of a context leaves its leaf and its table pointers cached (R369). -/
def cacheWalk (s : State) (ctx va : Nat) : State :=
  let s := match s.ctxs.look ctx with
    | some c => (walkPtrs s va 4 (bits c.trcfg.toNat 51 12)).foldl (fun s p =>
        cacheEntry s { ctx := ctx, page := va / 2 ^ (12 + 9 * p.1), bits := 12 + 9 * p.1, lvl := p.1, pte := BitVec.ofNat 64 p.2 }) s
    | none => s
  match walk s ctx va with
  | .ok l => cache s ctx va l
  | .error _ => s

/-- An access on path 0x0 leaves its translation cached (R369). DEDUCED: log 17. -/
def cacheUsed (s : State) (sp : Space) (va : Nat) : State :=
  match sp with
  | .global ctx => cacheWalk s ctx va
  | _ => s

/-! ### Scratchpads and publish views -/

/-- Where a VIEW byte of an allocation stands: `back` picks the back half (R264). -/
def viewOff (s : State) (alloc off : Nat) (back : Bool) : Nat :=
  match s.pubs.find? fun (_, p) => p.alloc == alloc && p.view ≤ off && off < p.view + p.len with
  | some (_, p) => if p.front != back then p.shadow + (off - p.view) else off
  | none => off

/-- The offset lies in the SHADOW range of a publish buffer (R264). -/
def inShadow (s : State) (alloc lo hi : Nat) : Bool :=
  s.pubs.any fun (_, p) => p.alloc == alloc && lo < p.shadow + p.len && p.shadow < hi

def allocRead (s : State) (alloc off n : Nat) : List Byte :=
  match s.allocs.look alloc with
  | none => List.replicate n 0
  | some a => (List.range n).map fun i => a.mem.read (viewOff s alloc (off + i) false)

def allocWrite (s : State) (alloc off : Nat) (bytes : List Byte) (back : Bool) : State :=
  match s.allocs.look alloc with
  | none => s
  | some a =>
    let m := (List.range bytes.length).foldl (fun m i => m.write (viewOff s alloc (off + i) back) (bytes.getD i 0)) a.mem
    { s with allocs := s.allocs.put alloc { a with mem := m } }

/-! ### Performing one access -/

/-- Why a performed access fails: cause of R399 and the physical line address. -/
structure Fail where
  cause : Nat
  line : Nat
  deriving DecidableEq, Repr

/-- Resolves a path-0 or scratchpad address, checking permission (R368). -/
def resolve (s : State) (sp : Space) (va off : Nat) (write : Bool) : Except Fail Loc :=
  match sp with
  | .alloc id => .ok (.alloc id off)
  | .global ctx =>
    match translate s ctx va with
    | .error c => .error ⟨c, 0⟩
    | .ok l =>
      if (if write then !l.wr else !l.rd) then .error ⟨0x26, 0⟩
      else if l.mem = 0 then .ok (.hbm l.pa) else .ok (.device l.pa l.mem)
  | _ => .error ⟨0x23, 0⟩

/-- Two resolved runs share a byte. -/
def Loc.overlap (a : Loc) (n : Nat) (b : Loc) (m : Nat) : Bool :=
  match a, b with
  | .hbm x, .hbm y => x < y + m && y < x + n
  | .device x _, .device y _ => x < y + m && y < x + n
  | .alloc i x, .alloc j y => i == j && x < y + m && y < x + n
  | _, _ => false

def Loc.addr : Loc → Nat
  | .hbm x => x
  | .device x _ => x
  | .alloc _ x => x

/-- What memory holds at a place, from accepted stores alone. A load of a device register, on which the spec is silent, is a free
value; CXL memory holds what was stored. DEDUCED: log 8. -/
def locRead (s : State) (l : Loc) (n : Nat) : Except Fail (List Byte) :=
  match l with
  | .hbm pa => match hbmRead s pa n with
    | some b => .ok b
    | none => .error ⟨0x29, pa / 64 * 64⟩
  | .device pa mem => if mem = 1 then .ok (s.device.readN pa n) else .ok ((List.range n).map fun i => Config.deviceRead s.fresh (pa + i))
  | .alloc id off => .ok (allocRead s id off n)

/-- Accepts bytes at a place (R312). A write to a BAR leaves the module (R364). -/
def locWrite (s : State) (l : Loc) (bytes : List Byte) (red : Bool) : State :=
  match l with
  | .hbm pa => hbmWriteLine s pa bytes red
  | .device pa mem =>
    if mem = 1 then { s with device := s.device.writeN pa bytes }
    else s.emit (.deviceWrite (bits pa 50 48) (bits pa 47 0) (ofLe bytes) bytes.length)
  | .alloc id off => allocWrite s id off bytes false

/-! ### Forwarding (R313) -/

def Access.len : Access → Nat
  | .plain b => b.length
  | .rmw _ t _ => t.bytes
  | .cas n _ _ => n

/-- Scopes narrower than cluster are served by the core's own forwarding (R310, R313). -/
def Scope.local (sc : Scope) : Bool := sc == .gang || sc == .block

/-- A release that waits for its prefix to be accepted (R310). -/
def Store.wide (st : Store) : Bool := st.rel.any fun sc => !Scope.local sc

/-- A load in flight: what stands behind it waits for its data. -/
def POp.isLoad : POp → Bool
  | .ld .. | .shld .. | .atom .. | .rld .. => true
  | _ => false

/-- An engine or matrix command that reads or writes memory for its thread. -/
def POp.isEngine : POp → Bool
  | .copy .. | .wbind .. | .chain .. | .publ .. | .ovl _ | .launch .. | .dectab .. | .matrix _ => true
  | _ => false

/-- A store is performed to the threads and APs of its core (R313): once what it follows is performed to them; for a release at cluster scope or
wider, once its prefix is accepted; for one at gang or block scope, once its prefix is performed to them too (R310, R314, R316). `sh` lists the older
stores that are. A store to a device page is left to its own thread, and no narrow release carries it (R324). DEDUCED: log 41. -/
def Store.shown (s : State) (sh : List Nat) (st : Store) : Bool :=
  let passed (i : Nat) : Bool := sh.contains i || !s.stores.has i && ((s.pend.look i).map fun p => !p.op.isLoad).getD true
  st.dev || if st.wide then s.allDone st.after else st.after.all passed && (st.rel.isNone || st.pfx.all passed)

/-- The pending stores of a core that are performed to its threads and APs (R313). -/
def shownOn (s : State) (core : Nat) : List Nat :=
  s.stores.foldl (fun sh e => if e.2.core == core && e.2.shown s sh then e.1 :: sh else sh) []

/-- An access in flight is performed as a scope asks (R310): at gang and block scope, to the threads and APs of its core. -/
def State.passed (s : State) (sc : Scope) (i : Nat) : Bool :=
  if Scope.local sc then match s.stores.look i with
    | some st => (shownOn s st.core).contains i
    | none => ((s.pend.look i).map fun p => !p.op.isLoad).getD true
  else s.isDone i

/-- The reader on a core sees a pending store: always its own thread's; another's, but for a store to a device page, once that is performed to the
core (R313, R324). DEDUCED: log 41. -/
def forwards (sh : List Nat) (core : Nat) (th : Option Nat) (id : Nat) (st : Store) : Bool :=
  st.core == core && st.path ≤ 3 && (th.isSome && st.th == th || !st.dev && sh.contains id)

/-- Lays a pending plain store's bytes over a run that was read. -/
def overlay (base : Nat) (bytes : List Byte) (at_ : Nat) (new : List Byte) : List Byte :=
  (List.range bytes.length).map fun i =>
    if at_ ≤ base + i && base + i < at_ + new.length then new.getD (base + i - at_) 0 else bytes.getD i 0

/-- The pending plain stores of a core older than `lim` that have bytes in a run at a place, with their own place there. -/
def storesOn (s : State) (core : Nat) (lim : Option Nat) (l : Loc) (n : Nat) : List (Nat × Store × Loc × List Byte) :=
  s.stores.filterMap fun e => match e.2.acc with
    | .plain bytes =>
      if e.2.core == core && e.2.path ≤ 3 && lim.all (e.1 < ·) then match resolve s e.2.space e.2.va e.2.off true with
        | .ok l' => if l.overlap n l' bytes.length then some (e.1, e.2, l', bytes) else none
        | .error _ => none
      else none
    | _ => none

/-- The bytes a thread or AP of a core reads, with the pending stores that it reads from (R311, R313, R315); an access in flight is given no store
issued after it (R225). DEDUCED: log 41. -/
def readFwdAt (s : State) (lim : Option Nat) (core : Nat) (th : Option Nat) (sp : Space) (va off n : Nat) : Except Fail (List Byte × List Nat) :=
  match resolve s sp va off false with
  | .error f => .error f
  | .ok l =>
    match locRead s l n with
    | .error f => .error f
    | .ok b =>
      let on := storesOn s core lim l n
      let sh := if on.isEmpty then [] else shownOn s core
      .ok (on.foldl (fun (acc : List Byte × List Nat) e =>
        if forwards sh core th e.1 e.2.1 then (overlay l.addr acc.1 e.2.2.1.addr e.2.2.2, acc.2 ++ [e.1]) else acc) (b, []))

/-- The same for a read that is made now. -/
def readFwd (s : State) (core : Nat) (th : Option Nat) (sp : Space) (va off n : Nat) : Except Fail (List Byte × List Nat) :=
  readFwdAt s none core th sp va off n

/-- The place of a run of bytes by its storage and its start there. -/
def placeAt (s : State) (sp : Space) (start : Nat) : Option Loc :=
  match sp with
  | .alloc id => some (.alloc id start)
  | .global ctx => match translate s ctx start with
    | .ok l => some (if l.mem = 0 then .hbm l.pa else .device l.pa l.mem)
    | .error _ => none
  | _ => none

def Store.start (st : Store) : Nat := if st.path = 0 then st.va else st.off
def Store.line (st : Store) : Nat := st.start / 64

/-- Two runs of bytes share one: in the same storage, or at the places that both resolve to. -/
def runsShare (s : State) (sp : Space) (start n : Nat) (sp' : Space) (start' n' : Nat) : Bool :=
  (sp == sp' && start < start' + n' && start' < start + n)
    || match placeAt s sp start, placeAt s sp' start' with
      | some a, some b => a.overlap n b n'
      | _, _ => false

/-- A pending store has a byte in common with a run of bytes. -/
def Store.shares (s : State) (st : Store) (sp : Space) (start n : Nat) : Bool := runsShare s sp start n st.space st.start st.acc.len

/-! ### Scopes (R310) -/

/-- The die of a core. -/
def dieOf (core : Nat) : Nat := core / 192
/-- The cluster of a core. -/
def clusterOf (core : Nat) : Nat := core / 8

/-- A place in the hierarchy: core, block, gang. -/
structure Place where
  core : Nat
  blk : Nat
  gang : Nat
  deriving DecidableEq, Repr

def groupOf (s : State) (blk : Nat) : Nat := ((s.blocks.look blk).map (·.group)).getD 0

/-- `y` lies in the instance of the scope for `x` (R310). -/
def inScope (s : State) (sc : Scope) (x y : Place) : Bool :=
  match sc with
  | .gang => x.blk == y.blk && x.gang == y.gang
  | .block => x.blk == y.blk
  | .cluster => groupOf s x.blk == groupOf s y.blk
  | .die => dieOf x.core == dieOf y.core
  | _ => true

def placeOf (s : State) (u : Nat) : Place :=
  match s.threads.look u with
  | some t => { core := ((s.blocks.look t.blk).map (·.core)).getD 0, blk := t.blk, gang := t.tid / 64 }
  | none => ⟨0, 0, 0⟩

/-! ### Accepted releases (R313, R317) -/

/-- What is left of an accepted release's bytes once a plain write has taken `n` bytes at a place. -/
def Rel.cut (r : Rel) (l : Loc) (n : Nat) : List Rel :=
  if !l.overlap n r.loc r.len then [r]
  else
    let a := r.loc.addr
    let at_ (x : Nat) : Loc := match r.loc with
      | .hbm _ => .hbm x
      | .device _ m => .device x m
      | .alloc i _ => .alloc i x
    (if a < l.addr then [{ r with len := l.addr - a }] else [])
      ++ (if l.addr + n < a + r.len then [{ r with loc := at_ (l.addr + n), len := a + r.len - (l.addr + n) }] else [])

/-- What is left of a noted store's bytes once another write has taken `n` bytes at a place. -/
def Trace.cut (t : Trace) (l : Loc) (n : Nat) : List Trace :=
  (Rel.cut { loc := t.loc, len := t.len, core := 0, blk := 0, gang := 0, rel := none, pfx := [] } l n).map fun r => { t with loc := r.loc, len := r.len }

/-- A plain write ends what can be read of the stores under its bytes (R317, R323). -/
def cutRels (s : State) (l : Loc) (n : Nat) : State :=
  { s with rels := s.rels.flatMap fun r => r.cut l n, traces := s.traces.flatMap fun t => t.cut l n }

/-- Notes the route by which `n` bytes at a place were stored (R323); bytes that continue the run noted last join it. -/
def noteTrace (s : State) (l : Loc) (n : Nat) (route : Option Nat) : State :=
  match route with
  | none => s
  | some r =>
    let old := s.traces.flatMap fun t => t.cut l n
    { s with traces := match old with
      | t :: rest => if t.route == r && l.overlap n t.loc (t.len + 1) && t.loc.addr + t.len == l.addr then { t with len := t.len + n } :: rest
        else { loc := l, len := n, route := r } :: old
      | [] => [{ loc := l, len := n, route := r }] }

/-- A plain write at its place (R312, R317). -/
def plainWrite (s : State) (l : Loc) (bytes : List Byte) : State := locWrite (cutRels s l bytes.length) l bytes false

/-! ### Routes (R323) -/

/-- The route of an access: its core and the unit it ends at; units 0 to 7 are controllers, 8 to 11 die-scratchpad ports, 12 to 15
Porters, 16 to 23 root ports, 32 + T the class R route to target T. -/
def routeKey (core unit : Nat) : Nat := core * 4096 + unit

/-- The unit a performed access uses, if it uses a route; CXL memory lies behind the port whose decoder covers it (R364). -/
def locUnit (s : State) (l : Loc) : Option Nat :=
  match l with
  | .hbm pa => some (ownerOf pa)
  | .device pa mem =>
    if mem = 2 then some (16 + bits pa 50 48)
    else (s.hdm.find? fun h => h.base ≤ pa && pa < h.base + h.len).map fun h => 16 + h.port
  | .alloc id _ => (s.allocs.look id).bind fun a => if a.path = 3 then some (8 + a.unit) else none

/-- The narrowest scope that covers a route (R323). -/
def routeScope (r : Nat) : Scope :=
  let core := r / 4096
  let u := r % 4096
  if u ≥ 32 then .fabric
  else
    let die := if u < 8 then u / 2 else if u < 12 then u - 8 else if u < 16 then u - 12 else (u - 16) / 2
    if die = dieOf core then .die else .module

/-- The Porter of a core's die, as a unit. -/
def porterUnit (core : Nat) : Nat := 12 + dieOf core

/-- Notes a route as used by a thread. -/
def useRoute (s : State) (u : Option Nat) (core : Nat) (unit : Option Nat) : State :=
  match u, unit with
  | some t, some k => s.updThr t fun x => { x with routes := NSet.add x.routes (routeKey core k) }
  | _, _ => s

end Sys2Proof.Machine
end

