-- ==== Sys2Proof/Machine/Shape.lean ====
section
/-! DEFINITION. Shape registers: the fields of R67, the element address of R68 and the checks of R69. -/

namespace Sys2Proof.Machine

/-- Low bit and width of a field by its index (R67). -/
def shapeField (f : Nat) : Nat × Nat :=
  match f with
  | 0 => (0, 60) | 1 => (60, 4) | 2 => (64, 4) | 3 => (68, 3) | 4 => (72, 12)
  | 5 => (88, 24) | 6 => (112, 40) | 7 => (152, 24) | 8 => (176, 40) | 9 => (216, 24)
  | 10 => (240, 40) | 11 => (280, 24) | 12 => (304, 40) | 13 => (344, 24) | 14 => (368, 40)
  | 15 => (408, 8) | 16 => (416, 8) | 17 => (424, 4) | 18 => (428, 4) | 19 => (432, 4) | 20 => (436, 4)
  | 21 => (440, 2) | 22 => (442, 2) | 23 => (444, 3) | 24 => (447, 3) | 25 => (450, 4) | 26 => (454, 4)
  | 27 => (458, 2) | 28 => (460, 2) | 29 => (462, 6) | 30 => (468, 12) | 31 => (480, 12) | 32 => (492, 12)
  | _ => (504, 8)

/-- A field's value, zero-extended. -/
def getField (q : Shape) (f : Nat) : Nat :=
  let (lo, w) := shapeField f
  q.toNat / 2 ^ lo % 2 ^ w

/-- The stride fields are sign-extended by SHGET (R175). -/
def isStride (f : Nat) : Bool := f == 6 || f == 8 || f == 10 || f == 12 || f == 14

/-- What SHGET returns (R175). -/
def shgetValue (q : Shape) (f : Nat) : Nat :=
  if isStride f then truncInt 64 (sextNat 40 (getField q f)) else getField q f

/-- SHSET stores the truncated value and leaves the other bits (R175). -/
def setFieldBits (q : Shape) (f v : Nat) : Shape :=
  let (lo, w) := shapeField f
  BitVec.ofNat 512 (q.toNat - getField q f * 2 ^ lo + v % 2 ^ w * 2 ^ lo)

namespace ShapeOf
def base (q : Shape) : Nat := getField q 0
def path (q : Shape) : Nat := getField q 1
def fmt (q : Shape) : Nat := getField q 2
def ndim (q : Shape) : Nat := getField q 3
def region (q : Shape) : Nat := getField q 4
def size (q : Shape) (k : Nat) : Nat := getField q (5 + 2 * k)
def stride (q : Shape) (k : Nat) : Int := sextNat 40 (getField q (6 + 2 * k))
def tile (q : Shape) (k : Nat) : Nat := getField q (15 + k)
def halo (q : Shape) (k : Nat) : Nat := getField q (17 + k)
def filtH (q : Shape) : Nat := getField q 19
def filtW (q : Shape) : Nat := getField q 20
def strH (q : Shape) : Nat := getField q 21 + 1
def strW (q : Shape) : Nat := getField q 22 + 1
def dilH (q : Shape) : Nat := getField q 23 + 1
def dilW (q : Shape) : Nat := getField q 24 + 1
def padH (q : Shape) : Nat := getField q 25
def padW (q : Shape) : Nat := getField q 26
end ShapeOf

/-- Element width in bits of a format code (R67). -/
def fmtBits (c : Nat) : Nat :=
  match c with
  | 0 => 32 | 1 => 16 | 2 => 16 | 3 => 8 | 4 => 8 | 5 => 6 | 6 => 6 | 7 => 4 | 8 => 8 | 9 => 4 | 10 => 64
  | 11 => 8 | 12 => 16 | 13 => 32 | _ => 0

/-- The checks that every reader of a shape register makes (R69). -/
def shapeOk (q : Shape) : Bool :=
  let n := ShapeOf.ndim q
  1 ≤ n && n ≤ 5
    && (List.range 5).all (fun k => if k < n then ShapeOf.size q k ≠ 0 else ShapeOf.size q k = 0 && ShapeOf.stride q k = 0)
    && getField q 33 = 0 && q.toNat / 2 ^ 84 % 16 = 0 && q.toNat / 2 ^ 71 % 2 = 0
    && ShapeOf.fmt q < 14 && (8 ≤ fmtBits (ShapeOf.fmt q) || ShapeOf.stride q 0 = 0)

/-- Byte offset and bit offset of the element at an index, as an exact sum from BASE (R68): dimension 0 of a format narrower than
8 bits packs densely. -/
def elemOff (q : Shape) (idx : List Int) : Int × Nat :=
  let w := fmtBits (ShapeOf.fmt q)
  let outer := (List.range 5).foldl (fun a k => if k = 0 then a else a + idx.getD k 0 * ShapeOf.stride q k) (0 : Int)
  if w < 8 then
    let b := idx.getD 0 0 * w
    (ShapeOf.base q + outer + b / 8, (b % 8).toNat)
  else (ShapeOf.base q + outer + idx.getD 0 0 * ShapeOf.stride q 0, 0)

/-- Bytes of a value in memory that an element of `w` bits at a bit offset touches. -/
def elemBytes (w bitOff : Nat) : Nat := cdiv (bitOff + w) 8

/-- The extents of a shape's own sizes. -/
def sizes (q : Shape) : List Nat := (List.range 5).map fun k => if k < ShapeOf.ndim q then ShapeOf.size q k else 1

/-- The exact byte range [lo, hi) of a shape over extents (R251). -/
def footprintOf (q : Shape) (ext : List Nat) : Int × Int :=
  let w := fmtBits (ShapeOf.fmt q)
  let span (k : Nat) : Int := ((ext.getD k 1 : Nat) - 1 : Int) * ShapeOf.stride q k
  let lo := (List.range 5).foldl (fun a k => a + min 0 (span k)) (0 : Int)
  let hi := (List.range 5).foldl (fun a k => a + max 0 (span k)) (0 : Int)
  let len : Nat := if w < 8 then cdiv (ext.getD 0 1 * w) 8 else w / 8
  (ShapeOf.base q + lo, ShapeOf.base q + hi + len)

/-- The byte range of a shape over its own sizes, which holds every element of it. -/
def footprint (q : Shape) : Int × Int := footprintOf q (sizes q)

/-- A copy's extents (R250). -/
def copyExt (qs : Shape) : List Nat :=
  (List.range 5).map fun k =>
    if k < ShapeOf.ndim qs then
      (if k < 2 && ShapeOf.tile qs k ≠ 0 then ShapeOf.tile qs k + 2 * ShapeOf.halo qs k else ShapeOf.size qs k)
    else 1

/-- Every index below the extents, dimension 0 fastest. -/
def indices : List Nat → List (List Nat)
  | [] => [[]]
  | e :: es => (indices es).flatMap fun r => (List.range e).map fun i => i :: r

/-- The wrapped offset of an element and its first bit. -/
def elemAt (q : Shape) (idx : List Int) : Nat × Nat :=
  let (a, b) := elemOff q idx
  (truncInt 60 a, b)

/-- The source index of a destination index, dimension by dimension (R250). -/
def copySrc (c : Copy) (j : List Nat) : List Int :=
  (List.range (ShapeOf.ndim c.qs)).map fun k =>
    let jk : Int := j.getD k 0
    if k < 2 && ShapeOf.tile c.qs k ≠ 0 then (if k = 0 then c.o0 else c.o1) - ShapeOf.halo c.qs k + jk else jk

/-- An index lies inside a shape. -/
def inside (q : Shape) (idx : List Int) : Bool :=
  (List.range (ShapeOf.ndim q)).all fun k => 0 ≤ idx.getD k 0 && idx.getD k 0 < ShapeOf.size q k

/-- An index as integers. -/
def ints (j : List Nat) : List Int := j.map Int.ofNat

/-- The offsets of a shape's elements. -/
def elemOffs (q : Shape) : List Nat := (indices (sizes q)).map fun j => (elemAt q (ints j)).1

/-- The offsets of the elements that a copy reads, and of those that it writes. -/
def srcOffs (c : Copy) : List Nat :=
  (((indices (copyExt c.qs)).map (copySrc c)).filter (inside c.qs)).map fun i => (elemAt c.qs i).1
def dstOffs (c : Copy) : List Nat := (indices (copyExt c.qs)).map fun j => (elemAt c.qd (ints j)).1

/-- Runs of equal numbers taken once. -/
def runsOnce : List Nat → List Nat
  | a :: b :: l => if a = b then runsOnce (b :: l) else a :: runsOnce (b :: l)
  | l => l

/-- A shape register of a block (R46). -/
def Block.shape (b : Block) (n : Nat) : Shape := b.q.lookD n 0

/-- Writes a shape register (R47). -/
def setShape (s : State) (blk n : Nat) (q : Shape) : State :=
  s.updBlk blk fun b => { b with q := b.q.put n q }

end Sys2Proof.Machine
end

