-- ==== Sys2Proof/Machine/Ops.lean ====
section
/-! DEFINITION. Named operations shared by the meanings: context faults (R399, R400), fetch (R147), thread states (R34), completion
flags (R44), stores (R225, R228), the control stack (R49), barriers (R331), trap entry and return (R392 to R395), thread and
block end (R28, R35). -/

namespace Sys2Proof.Machine

/-- A little-endian field of a record, by its first byte and its length. -/
def recNat (r : List Byte) (lo n : Nat) : Nat := ofLe ((r.drop lo).take n)

/-! ### Places of a thread -/

/-- The key of thread `tid` of a block. -/
def uid (blk tid : Nat) : Nat := blk * 4096 + tid

def Thread.lane (t : Thread) : Nat := t.tid % 64
def Thread.gang (t : Thread) : Nat := t.tid / 64
/-- Clause and Slot of a PC (R36). -/
def pcOff (pc : W32) : Nat := bits pc.toNat 17 0
def pcSlot (pc : W32) : Nat := bits pc.toNat 21 18
def mkPc (off slot : Nat) : W32 := BitVec.ofNat 32 (off % 2 ^ 18 + slot % 16 * 2 ^ 18)

/-- p0 to p7; p7 reads true (R42). -/
def Thread.pred (t : Thread) (n : Nat) : Bool := if n = 7 then true else t.preds.getLsbD n
/-- Writes a predicate; a write of p7 is discarded (R42). -/
def Thread.setPred (t : Thread) (n : Nat) (b : Bool) : Thread :=
  if n = 7 then t
  else { t with preds := BitVec.ofNat 7 ((List.range 7).foldl (fun a i => a + (if (if i = n then b else t.preds.getLsbD i) then 2 ^ i else 0)) 0) }

def State.thrCore (s : State) (u : Nat) : Nat :=
  match s.threads.look u with
  | some t => ((s.blocks.look t.blk).map (·.core)).getD 0
  | none => 0

def State.thrCtx (s : State) (u : Nat) : Nat :=
  match s.threads.look u with
  | some t => ((s.blocks.look t.blk).map (·.ctx)).getD 0
  | none => 0

def State.ctx (s : State) (c : Nat) : Context := s.ctxs.lookD c {}

/-- The count of a local cycle counter (R51, R429): zero at module reset, and from then on a free value, since nothing keeps two counters in step.
 DESIGN CHOICE: log 5. -/
def localAt (core clock : Nat) : Nat := if clock = 0 then 0 else Config.localCycles core clock

/-- LCYC of a core. DESIGN CHOICE: log 5. -/
def State.lcyc (s : State) (core : Nat) : Nat := localAt core s.clock

/-- A context whose engines stand still: its halt line is up, or it is saved or being saved (R34, R400, R406). -/
def State.stopped (s : State) (c : Nat) : Bool :=
  match s.ctxs.look c with
  | none => true
  | some k => k.halt.isSome || k.save.isSome || (k.preempt.map (·.tier)).getD 0 ≥ 2

/-! ### Fetch (R36, R54, R147) -/

def CoreRec.word (c : CoreRec) (off : Nat) : Nat := ofLe (c.store.readN off 8)

/-- The header of the clause at a store offset. -/
def CoreRec.header (c : CoreRec) (off : Nat) : Option Header := decodeHeader (c.word off)

/-- The outcomes of R147. -/
inductive Fetch where
  | ok (h : Header)
  | miss
  | fault (cause : Nat)
  deriving DecidableEq, Repr

def Code.overlay (k : Code) (n : Nat) : Option Overlay := k.overlays.find? (·.num == n)

/-- The check of every fetch against the home table (R147), with the header fault of R57 last. DESIGN CHOICE: log 64. -/
def fetchHeader (s : State) (core ctx code off : Nat) : Fetch :=
  let c := s.core core
  let k := s.ctx ctx
  let page := off / 4096
  if page < k.isbase || k.isbase + k.ispages ≤ page then .fault 0x26
  else match c.home.look page with
    | some (.resident code' ovl len sperm) =>
      if code' ≠ code then .miss
      else
        let base := (((s.codes.look code).bind fun k => k.overlay ovl).map (·.home)).getD 0 * 4096
        if base + len ≤ off then .fault 0x25
        else if base + len < off + 8 * (bits (c.word off) 59 56 + 2) then .fault 0x25
        else match c.header off with
          | none => .fault 0x20
          | some h => if h.cls = .S && !sperm then .fault 0x26 else .ok h
    | _ => .miss

/-- The slots of a clause. -/
def CoreRec.slots (c : CoreRec) (off : Nat) (h : Header) : List W64 :=
  (List.range h.count).map fun i => BitVec.ofNat 64 (c.word (off + 8 + 8 * i))

/-- A slot of a clause holds the literal of the instruction before it (R61). -/
def CoreRec.isLiteral (c : CoreRec) (off : Nat) (h : Header) : Nat → Bool
  | 0 => false
  | k + 1 => !c.isLiteral off h k && match decodeWord h.cls (c.word (off + 8 + 8 * k)) (some (BitVec.ofNat 64 (c.word (off + 16 + 8 * k)))) with
    | .ok i => i.literal.isSome
    | .error _ => false

/-- The instruction in a slot of a clause; a literal is none (R58, R61). -/
def CoreRec.instr (c : CoreRec) (off slot : Nat) : Option Instr :=
  match c.header off with
  | none => none
  | some h =>
    if slot < h.count && !c.isLiteral off h slot then
      let next := if slot + 1 < h.count then some (BitVec.ofNat 64 (c.word (off + 16 + 8 * slot))) else none
      match decodeWord h.cls (c.word (off + 8 + 8 * slot)) next with
      | .ok i => some i
      | .error _ => none
    else none

/-- The offset of the clause after the one at `off` (R54, R164). -/
def CoreRec.nxt (c : CoreRec) (off : Nat) : Nat := off + 8 * (bits (c.word off) 59 56 + 2)

/-! ### Thread states (R34, R129, R131) -/

/-- The state a thread enters when nothing holds it: Flag-wait where its clause's mask names a raised flag, the gang's wait where
the clause is class G, and Ready otherwise (R34, R45, R131). -/
def entryState (s : State) (t : Thread) : TState :=
  match s.blocks.look t.blk with
  | none => .ready
  | some b =>
    match fetchHeader s b.core b.ctx b.code (pcOff t.pc) with
    | .ok h =>
      if pcSlot t.pc = 0 && (List.range 12).any (fun f => h.wait.getLsbD f && t.flags.getD f 0 ≠ 0) then .flagWait
      else if h.cls = .G then .gangWait else .ready
    | _ => .ready

/-- The thread's last wait is satisfied (R34). -/
def becomeReady (s : State) (u : Nat) : State :=
  match s.threads.look u with
  | none => s
  | some t => { s with threads := s.threads.put u { t with st := entryState s t, since := s.clock, stall := none } }

/-- Dissolves the gathered and kept sets of a core: every member stands at an instruction boundary (R133, R400). -/
def dissolve (s : State) (core : Nat) : State :=
  let c := s.core core
  let ms := (c.gather.map (·.members)).getD []
  let s := s.setCore core { c with gather := none, kept := none }
  ms.foldl (fun s u => match s.threads.look u with
    | some t => if t.st = .issuing then becomeReady s u else s
    | none => s) s

/-! ### Context faults (R399, R400) -/

/-- Raises a context fault: the halt line rises and issue stops. A later cause is recorded; one raised during tier 2 waits for the
restore (R400, R407). -/
def raiseFault (s : State) (ctx : Nat) (c : Cause) : State :=
  match s.ctxs.look ctx with
  | none => s
  | some k =>
    if (k.preempt.map (·.tier)).getD 0 ≥ 2 || k.save.isSome then
      { s with ctxs := s.ctxs.put ctx { k with
          deferred := if k.deferred.isSome then k.deferred else some c, deferredStops := k.deferredStops ++ [c.stop] } }
    else match k.halt with
      | some h => { s with ctxs := s.ctxs.put ctx { k with halt := some { h with later := h.later ++ [c.stop] } } }
      | none =>
        let s := { s with ctxs := s.ctxs.put ctx { k with halt := some { cause := c, at_ := s.clock } } }
        (s.cores.keys.filter fun n => (s.core n).owner == some ctx).foldl dissolve s

/-- The stop record of a thread's fault (R401). -/
def threadStop (s : State) (u cause : Nat) (pc : W32) (va detail : Nat) : Stop :=
  match s.threads.look u with
  | none => { engine := 1, cause := cause, unit := 0 }
  | some t =>
    match s.blocks.look t.blk with
    | none => { engine := 1, cause := cause, unit := 0 }
    | some b =>
      { engine := 1, cause := cause, unit := b.core, lane := t.lane, pc := pc, tid := t.tid, block := b.blockId,
        grid := ((b.grid.bind s.grids.look).map (·.gridId)).getD 0xFFFFFFFF, va := va, detail := detail,
        lcyc := s.lcyc b.core }

/-- The stop record of a fault found after issue: the core is that of the operation, whose block and thread the record keeps when the thread has exited
(R230, R401). DEDUCED: log 19. -/
def lateStop (s : State) (u core cause : Nat) (pc : W32) (va detail : Nat) : Stop :=
  { threadStop s u cause pc va detail with
    unit := core, lcyc := s.lcyc core, pc := pc, va := va, detail := detail, tid := u % 4096, lane := u % 64,
    block := ((s.blocks.look (u / 4096)).map (·.blockId)).getD 0xFFFFFFFF,
    grid := ((((s.blocks.look (u / 4096)).bind (·.grid)).bind s.grids.look).map (·.gridId)).getD 0xFFFFFFFF }

/-- A context fault of a thread, at its PC. -/
def faultThread (s : State) (u cause : Nat) (va detail : Nat) (members : List Nat) (eligible service : Bool) : State :=
  let pc := ((s.threads.look u).map (·.pc)).getD 0
  raiseFault s (s.thrCtx u) { stop := threadStop s u cause pc va detail, members := members, eligible := eligible, service := service }

/-- A fault found after issue, named by the operation's PC (R230). -/
def faultLate (s : State) (u core : Nat) (pc : W32) (ctx : Nat) (f : Fail) (va : Nat) : State :=
  raiseFault s ctx { stop := lateStop s u core f.cause pc va f.line }

/-- The scope of arrivals and waits at a level (R329). -/
def levelScope (l : Level) : Scope :=
  match l with
  | .gang => .gang
  | .block => .block
  | .cluster => .cluster
  | .grid => .die

/-! ### Accesses in flight (R225, R309, R313, R315) -/

/-- A load in flight: its path, its storage, and its start and length there. -/
def POp.reads : POp → Option (Nat × Space × Nat × Nat)
  | .ld sp path va off t _ => some (path, sp, (if path = 0 then va else off), t.bytes)
  | .shld _ sp path va off _ => some (path, sp, (if path = 0 then va else off), 64)
  | _ => none

/-- The parts of an operation name a thread. -/
def Pend.of (p : Pend) (u : Nat) : Bool := p.parts.any (·.th == u)

/-- The thread's loads in flight that a later access follows (R225): on paths 1 and 6 all of them, else those of the same line or of a byte in
common. -/
def orderedLoads (s : State) (u path : Nat) (sp : Space) (start n : Nat) : List Nat :=
  AMap.sel s.pend (fun _ p => p.of u && match p.op.reads with
    | some (path', sp', start', n') => path' == path && (path == 1 || path == 6 || (sp' == sp && start' / 64 == start / 64)
        || runsShare s sp start n sp' start' n')
    | none => false)

/-- The thread's pending stores that a later store follows (R225). -/
def orderedStores (s : State) (u path : Nat) (sp : Space) (line : Nat) : List Nat :=
  AMap.sel s.stores (fun _ st => st.th == some u && st.path == path && (path == 1 || (st.space == sp && st.line == line)))

/-- Pending stores of the core to common bytes: they are accepted in issue order, so that a forwarded value agrees with coherence
order (R311, R313). DEDUCED: log 41. -/
def overlapStores (s : State) (core path : Nat) (sp : Space) (start n : Nat) : List Nat :=
  AMap.sel s.stores (fun _ st => st.core == core && st.path == path && st.shares s sp start n)

def Access.isPlain : Access → Bool
  | .plain _ => true
  | _ => false

/-- Atomics of the core that are pending on common bytes: they are performed to the core's threads from their issue, so a later read of those
bytes waits for their value (R225, R313). -/
def orderedRmw (s : State) (u path : Nat) (sp : Space) (start n : Nat) : List Nat :=
  AMap.sel s.stores (fun _ st => st.core == s.thrCore u && st.path == path && !st.acc.isPlain && st.shares s sp start n)

/-- Loads of the core in flight on common bytes: an atomic that issues after them is accepted after them. -/
def overlapLoads (s : State) (core path : Nat) (sp : Space) (start n : Nat) : List Nat :=
  AMap.sel s.pend fun _ p => p.core == core && match p.op.reads with
    | some (path', sp', start', n') => path' == path && runsShare s sp start n sp' start' n'
    | none => false

/-- Own stores that a later load of other bytes follows (R225): on path 1 the atomics; on the paths 0, 2 and 3 those of the line, unless one
covers the load, which then reads from it; a store that only a system fence carries is left (R324). -/
def lineStores (s : State) (u path : Nat) (sp : Space) (start n : Nat) : List Nat :=
  AMap.sel s.stores fun _ st => st.th == some u && st.path == path && !st.held &&
    (if path = 1 then !st.acc.isPlain
     else st.space == sp && st.line == start / 64
       && !(st.acc.isPlain && st.start ≤ start && start + n ≤ st.start + st.acc.len))

/-! ### Paths and runs of bytes (R221, R224, R238) -/

def selOf (a : Nat) : Nat := bits a 63 60
def offOf (a : Nat) : Nat := bits a 59 0

/-- The scratchpad allocation that a path reaches from a block (R224). -/
def Block.alloc (b : Block) (path : Nat) : Option Nat :=
  match path with
  | 1 => b.a1
  | 2 => b.a2
  | 3 => b.a3
  | _ => none

/-- The storage that a path reaches from a block. -/
def spaceOf (b : Block) (path : Nat) : Space :=
  match b.alloc path with
  | some i => .alloc i
  | none => if path = 4 then .weight b.ctx else if path = 7 then .store b.core else .global b.ctx

/-- Bytes that an engine reads or writes on a path. -/
structure Run where
  path : Nat
  sp : Space
  lo : Nat
  hi : Nat

/-- The bytes of a shape that a block's engine command reaches; on path 0x4, the encoded image of its region (R238). -/
def runOf (s : State) (b : Block) (q : Shape) : Run :=
  let (lo, hi) := footprint q
  match ShapeOf.path q, (s.ctx b.ctx).regions.look (ShapeOf.region q) with
  | 4, some r => ⟨0, .global b.ctx, r.image, r.image + r.enclen⟩
  | p, _ => ⟨p, spaceOf b p, lo.toNat, hi.toNat⟩

/-- Bytes of a path lie in a run: by their address there, or, on path 0x0, by their place under one of the run's pages. -/
def Run.has (s : State) (r : Run) (path : Nat) (sp : Space) (start n : Nat) : Bool :=
  (path == r.path && sp == r.sp && start < r.hi && r.lo < start + n)
    || (r.path == 0 && path == 0 && match placeAt s sp start with
      | some l => (List.range (cdiv (r.hi - r.lo) 4096 + 1)).any fun k =>
          let a := max r.lo ((r.lo / 4096 + k) * 4096)
          let e := min r.hi ((r.lo / 4096 + k + 1) * 4096)
          a < e && (placeAt s r.sp a).any fun m => m.overlap (e - a) l n
      | none => false)

/-- A pending store lies on bytes of a run. -/
def Run.meets (s : State) (r : Run) (st : Store) : Bool := r.has s st.path st.space st.start st.acc.len

/-! ### Commands in flight -/

/-- The engines of a context run: its halt line is down, or it is being saved and its accepted operations complete, and it is not
saved (R53, R400, R406). -/
def enginesRun (s : State) (ctx : Nat) : Bool :=
  match s.ctxs.look ctx with
  | none => false
  | some k => k.save.isNone && (k.halt.isNone || (k.preempt.map (·.tier)).getD 0 ≥ 2)

/-- An ACCST in flight, whose writes are stores of its thread (R288), with its shape. -/
def accstOf (s : State) (p : Pend) : Option Shape :=
  match p.op with
  | .matrix id => ((s.core p.core).mcmds.find? (·.id == id)).bind fun c => match c.kind with
    | .accst q => some q
    | _ => none
  | _ => none

/-- The ACCSTs of the core in flight on common bytes, and those of the thread that R225 keeps before the access: on path 1 all, else of its lines. Their
writes are stores, so that they are performed to the core from their issue (R288, R313). -/
def accstOn (s : State) (u : Option Nat) (core path : Nat) (sp : Space) (start n : Nat) : List Nat :=
  AMap.sel s.pend fun _ p => p.core == core && match accstOf s p, s.blocks.look p.blk with
    | some q, some b =>
      let r := runOf s b q
      r.has s path sp start n || (u.any p.of && r.path == path && (path == 1
        || (r.sp == sp && r.lo < (start + n + 63) / 64 * 64 && start / 64 * 64 < r.hi)))
    | _, _ => false

/-- The shapes that a command names, with whether it writes them. -/
def cmdShapes (s : State) (p : Pend) : List (Shape × Bool) :=
  match p.op with
  | .copy c f _ _ => [(c.qd, true), (c.qs, false)] ++ (f.map fun x => (x.2, false)).toList
  | .wbind _ (some c) => [(c.qd, true), (c.qs, false)]
  | .chain qd qs ops => [(qd, true), (qs, false)] ++ (ops.filter (·.src == 2)).map fun o => (o.stream, false)
  | .matrix id =>
    match (s.core p.core).mcmds.find? (·.id == id) with
    | none => []
    | some c => match c.kind with
      | .mma a b sa sb _ => [(a, false), (b, false)] ++ (sa.toList ++ sb.toList).map fun q => (q, false)
      | .mmaW a b _ _ => [(a, false), (b, false)]
      | .mmaNf a b => [(a, false), (b, false)]
      | .accz => []
      | .accld q => [(q, false)]
      | .accst q => [(q, true)]
      | .drain q => [(q, true)]
      | .drainMx qe qs => [(qe, true), (qs, true)]
  | _ => []

/-- The bytes that a command in flight still reads. -/
def cmdReads (s : State) (p : Pend) : List Run :=
  match s.blocks.look p.blk with
  | none => []
  | some b => match p.op with
    | .copy c f copied _ => ((if copied then c.qd else c.qs) :: f.toList.map Prod.snd).map (runOf s b)
    | .dectab _ va n => [⟨0, .global p.ctx, va, va + n⟩]
    | _ => ((cmdShapes s p).filter fun q => !q.2).map fun q => runOf s b q.1

/-- The thread's commands in flight that still read a byte of a run: a later store of the byte follows them (R225, R309, R314). -/
def readersOn (s : State) (u path : Nat) (sp : Space) (start n : Nat) : List Nat :=
  AMap.sel s.pend fun _ p => p.of u && (cmdReads s p).any fun r => r.has s path sp start n

/-- A command whose engine stands still, for a fault or a halt: what is behind it lands and is accepted all the same (R400, R406). DEDUCED: log 37. -/
def stoppedCmd (s : State) (i : Nat) : Bool :=
  (s.pend.look i).any fun p => p.op.isEngine && (p.failed || !enginesRun s p.ctx)

/-- What an access follows has landed or is accepted. -/
def State.ready (s : State) (l : List Nat) : Bool := l.all fun i => s.isDone i || stoppedCmd s i

/-- Entries of the Porter that are stores of a thread (R374). -/
def ownBells (s : State) (u : Nat) : List Nat := AMap.sel s.bells (fun _ b => b.th == some u)

/-- The bytes of a remote access in flight: its target, and a start and a length there; those of a REMST's flag are among them (R349, R353). -/
def POp.fars : POp → List (Nat × Nat × Nat)
  | .rld _ tgt va t _ => [(tgt, va, t.bytes)]
  | .rst _ tgt va n flag _ _ _ => (tgt, va, n) :: (flag.map fun f => (tgt, f, 4)).toList
  | _ => []

/-- Remote accesses of a thread to this module's own ID, in flight on bytes that an access on path 0x0 shares: they come back through the loopback, and
order holds between the two (R225, R348, R349). -/
def farOn (s : State) (u path : Nat) (sp : Space) (start n : Nat) : List Nat :=
  if path ≠ 0 then []
  else AMap.sel s.pend fun _ p => p.of u && p.op.fars.any fun f =>
    f.1 == s.steward.accid && runsShare s sp start n (.global p.ctx) f.2.1 f.2.2

/-- What a load of a thread follows (R225): its loads, atomics on common bytes, its stores of the line, and on path 0x6 its entries of the
Porter. -/
def loadAfter (s : State) (u path : Nat) (sp : Space) (start n : Nat) : List Nat :=
  orderedLoads s u path sp start n ++ orderedRmw s u path sp start n ++ lineStores s u path sp start n
    ++ accstOn s (some u) (s.thrCore u) path sp start n ++ farOn s u path sp start n
    ++ (if path = 6 then ownBells s u else [])

/-- Accesses of a thread in flight: loads that have not landed, and stores that are not accepted. -/
def ownLoads (s : State) (u : Nat) : List Nat :=
  AMap.sel s.pend (fun _ p => p.of u && match p.op with
    | .ld .. | .shld .. | .atom .. | .rld .. => true
    | _ => false)
def ownStores (s : State) (u : Nat) : List Nat :=
  AMap.sel s.stores (fun _ st => st.th == some u)
    ++ AMap.sel s.pend (fun _ p => p.of u && (match p.op with | .rst .. => true | _ => (accstOf s p).isSome))
    ++ AMap.sel s.bells (fun _ b => b.th == some u && b.ret.isNone)

/-- The prefix of a release or fence of a thread that is still in flight (R315). -/
def prefixOf (s : State) (u : Nat) : NSet :=
  NSet.addAll (NSet.addAll (NSet.addAll [] (ownLoads s u)) (ownStores s u)) (s.live (((s.threads.look u).map (·.obs)).getD []))

/-- The path of an access in flight, for a fence's mask (R342). -/
def idPath (s : State) (id : Nat) : Option Nat :=
  match s.stores.look id with
  | some st => some st.path
  | none => if s.bells.has id then some 6 else match s.pend.look id with
    | some p => match p.op with
      | .ld _ path _ _ _ _ => some path
      | .shld _ _ path _ _ _ => some path
      | .atom sid _ _ _ => (s.stores.look sid).map (·.path)
      | .rld .. => some 5
      | .rst .. => some 5
      | _ => (accstOf s p).map ShapeOf.path
    | none => none

/-- The paths of an access in flight lie in a mask; an access whose path is not known is counted. -/
def inMaskId (s : State) (mask : Nat) (id : Nat) : Bool := (idPath s id).all fun p => bit mask p

/-- A route ends within a scope (R323). -/
def routeIn (sc : Scope) (r : Nat) : Bool := (routeScope r).code ≤ sc.code

/-- The unit that an access in flight goes to. -/
def idUnit (s : State) (id : Nat) : Option Nat :=
  match s.stores.look id with
  | some st => (placeAt s st.space st.start).bind (locUnit s)
  | none => match s.bells.look id with
    | some b => some (12 + b.die)
    | none => match s.pend.look id with
      | some p => match p.op with
        | .rld _ tgt _ _ _ => some (32 + tgt)
        | .rst _ tgt .. => some (32 + tgt)
        | _ => match p.op.reads with
          | some (path, sp, start, _) => if path = 6 then some (porterUnit p.core) else (placeAt s sp start).bind (locUnit s)
          | none => none
      | none => none

/-- The core that issued an access in flight. -/
def idCore (s : State) (id : Nat) : Nat :=
  match s.stores.look id with
  | some st => st.core
  | none => match s.bells.look id with
    | some b => b.core
    | none => ((s.pend.look id).map (·.core)).getD 0

/-- The route of an access in flight (R323). -/
def idRoute (s : State) (id : Nat) : Option Nat := (idUnit s id).map (routeKey (idCore s id))

/-- A class R store that has not been acknowledged. -/
def isRemote (s : State) (id : Nat) : Bool :=
  match s.pend.look id with
  | some p => match p.op with
    | .rst .. => true
    | _ => false
  | none => false

/-- What a release or fence at a scope carries: device stores at system scope alone (R324). -/
def carriedAt (s : State) (sc : Scope) (ids : List Nat) : List Nat :=
  ids.filter fun i => sc == .system || !((s.stores.look i).map (·.held)).getD false

/-- Traffic on routes: a read in flight, or a class R request. -/
def isTraffic (p : Pend) : Bool :=
  match p.op with
  | .ld .. | .shld .. | .rld .. | .rst .. => true
  | _ => false

/-- The routes that the accesses of a thread's prefix have used: its own, and those of what it has observed (R323). -/
def routesOf (s : State) (u : Nat) : NSet :=
  match s.threads.look u with
  | some t => NSet.addAll t.routes t.obsRoutes
  | none => []

/-- All traffic in flight on routes (R323); a device store that no system-scope fence carries yet is accepted later (R324). -/
def trafficOn (s : State) (rs : NSet) : List Nat :=
  if rs.isEmpty then []
  else (AMap.sel s.stores (fun _ st => !st.held) ++ s.bells.keys ++ AMap.sel s.pend fun _ p => isTraffic p).filter fun i =>
    (idRoute s i).any rs.contains

/-- What the probes of a thread at a scope find in flight (R323): the traffic on the routes of its prefix that end within the scope. No route
ends within a scope narrower than die. -/
def probed (s : State) (u : Nat) (sc : Scope) : List Nat := trafficOn s ((routesOf s u).filter (routeIn sc))

/-- What a release at a scope waits for: the loads of the prefix at a scope that its core serves, else the prefix and the probes (R310,
R316, R323, R324). -/
def releaseWaits (s : State) (u : Nat) (sc : Scope) : List Nat :=
  if Scope.local sc then ownLoads s u else carriedAt s sc (prefixOf s u) ++ probed s u sc

/-- Releases of device stores held for a system-scope fence or release (R324). -/
def unhold (s : State) (ids : List Nat) : State :=
  { s with stores := ids.foldl (fun m i => m.upd i fun st => { st with held := false }) s.stores }

/-! ### Stores (R225, R228, R231, R313) -/

/-- The store's address lies on a device page now, so only a system-scope fence or release carries it (R324). -/
def isDeviceStore (s : State) (sp : Space) (va : Nat) : Bool :=
  match placeAt s sp va with
  | some (.device _ _) => true
  | _ => false

/-- A store record with what must be accepted or landed before it (R225, R311, R316). An atomic does not wait for a device store that only a system
scope carries: on a device page it meets its own fault (R337). -/
def storeAfter (s : State) (st : Store) : Store :=
  let len := st.acc.len
  let base := overlapStores s st.core st.path st.space st.start len ++ accstOn s st.th st.core st.path st.space st.start len
    ++ (if st.acc.isPlain then [] else overlapLoads s st.core st.path st.space st.start len)
  let due (l : List Nat) : List Nat := if st.acc.isPlain then l else l.filter fun i => !((s.stores.look i).map (·.held)).getD false
  match st.th with
  | none => { st with after := st.after ++ due base }
  | some u =>
    let own := orderedLoads s u st.path st.space st.start len ++ orderedStores s u st.path st.space st.line
      ++ readersOn s u st.path st.space st.start len ++ farOn s u st.path st.space st.start len
    let t := s.threads.lookD u { blk := 0, tid := 0 }
    let rel := match st.rel with
      | none => []
      | some sc => releaseWaits s u sc
    let dev := st.acc.isPlain && st.path == 0 && isDeviceStore s st.space st.va
    { st with
      after := st.after ++ due (base ++ own) ++ rel,
      pfx := if st.rel.isSome then prefixOf s u else [],
      rts := if st.rel.isSome then routesOf s u else [],
      fpfx := (t.fenced.filter fun f => bit f.mask st.path && !(s.live f.pfx).isEmpty).map fun f => { f with path := st.path },
      dev := dev, held := dev }

/-- Issues a store, atomic or reduction: it stands in the core's port until it is accepted (R313); a release at system scope carries
the device stores of its prefix (R324). -/
def issueStore (s : State) (st : Store) : Nat × State :=
  let st := storeAfter s st
  let s := if st.rel = some .system then unhold s st.pfx else s
  let (id, s) := s.newId
  (id, { s with stores := s.stores.put id st })

/-! ### Observed stores (R315 to R318) -/

/-- The thread or AP of a store, as a place. -/
def Store.place (s : State) (st : Store) : Place :=
  match st.th with
  | some t => placeOf s t
  | none => ⟨st.core, st.blk, 64⟩

/-- Two agents are in mutual scope (R310). -/
def inMutual (s : State) (a : Scope) (x : Place) (b : Scope) (y : Place) : Bool := inScope s a x y && inScope s b y x

/-- An acquire at a place synchronises with a release (R317). -/
def syncs (s : State) (acq : Option Scope) (me : Place) (rel : Option Scope) (it : Place) : Bool :=
  match acq, rel with
  | some a, some r => inMutual s a me r it
  | _, _ => false

/-- A pending store that was read from, laid over what accepted stores left. -/
def Store.hides (s : State) (st : Store) (l : Loc) (i : Nat) : Bool :=
  match placeAt s st.space st.start with
  | some l' => (match l with
      | .hbm a => Loc.hbm (a + i)
      | .device a m => .device (a + i) m
      | .alloc k a => .alloc k (a + i)).overlap 1 l' st.acc.len
  | none => false

/-- A read of `n` bytes at a place reads some byte of an accepted release (R317): no pending store that it reads from hides all of them. -/
def Rel.readBy (s : State) (r : Rel) (src : List Store) (l : Loc) (n : Nat) : Bool :=
  l.overlap n r.loc r.len && (List.range n).any fun i =>
    r.loc.addr ≤ l.addr + i && l.addr + i < r.loc.addr + r.len && !src.any fun st => st.hides s l i

/-- A read of `n` bytes at a place reads some byte of a noted store that no pending store hides. -/
def Trace.readBy (s : State) (t : Trace) (src : List Store) (l : Loc) (n : Nat) : Bool :=
  Rel.readBy s { loc := t.loc, len := t.len, core := 0, blk := 0, gang := 0, rel := none, pfx := [] } src l n

/-- What a read by a thread observes, by the pending stores that it reads from and its place. DEDUCED: log 42. -/
def seenBy (s : State) (u : Nat) (acq : Option Scope) (from_ : List Nat) (sp : Space) (start n : Nat) : Seen :=
  let me := placeOf s u
  let src := from_.filterMap fun i => (s.stores.look i).map fun st => (i, st)
  let a : Seen := src.foldl (fun x (i, st) =>
    let on := syncs s acq me st.rel (st.place s)
    { ids := x.ids ++ i :: (if on then st.pfx else []), rts := x.rts ++ (idRoute s i).toList ++ (if on then st.rts else []), pre := x.pre ++ st.fpfx }) {}
  match placeAt s sp start with
  | none => a
  | some l =>
    let a := { a with rts := a.rts ++ ((s.traces.filter fun t => t.readBy s (src.map (·.2)) l n).map (·.route)).eraseDups }
    (s.rels.filter fun r => r.readBy s (src.map (·.2)) l n).foldl (fun x r =>
      let on := syncs s acq me r.rel ⟨r.core, r.blk, r.gang⟩
      { ids := x.ids ++ (if on then r.pfx else []), rts := x.rts ++ (if on then r.rts else []), pre := x.pre ++ r.fpfx }) a

/-- Takes what a read has seen into its thread's observed set; what a fence carries waits for the reader's own fence. DEDUCED: log 42. -/
def observe (s : State) (u : Nat) (x : Seen) : State :=
  s.updThr u fun t => { t with
    obs := NSet.addAll t.obs (s.live x.ids),
    obsRoutes := NSet.addAll t.obsRoutes x.rts,
    preObs := t.preObs ++ x.pre.filter fun f => !(s.live f.pfx).isEmpty && !t.preObs.contains f }

/-- A list that holds an access takes what that access has come to stand for. -/
def joinIf (id : Nat) (more : List Nat) (l : List Nat) : List Nat := if l.contains id then l ++ more.filter fun i => !l.contains i else l
def joinSet (id : Nat) (more : List Nat) (l : NSet) : NSet := if l.contains id then NSet.addAll l more else l

def Before.join (id : Nat) (x : Seen) (f : Before) : Before :=
  if f.pfx.contains id then { f with pfx := NSet.addAll f.pfx x.ids, rts := NSet.addAll f.rts x.rts } else f

/-- What a release or fence at a scope, older than `lim`, waits for once its prefix has grown: the accesses, and the probes of their routes (R315,
R323). At gang and block scope the accesses alone count (R310). -/
def joined (s : State) (sc : Scope) (lim : Nat) (ids rts : List Nat) : List Nat :=
  if Scope.local sc then ids else carriedAt s sc ids ++ (trafficOn s (rts.filter (routeIn sc))).filter (· < lim)

/-- A fence of a thread whose prefix holds an access: it carries what the access has read, and what fences in mutual scope stood before that; both
fences hold the path of the store between them (R318). -/
def Fence.join (s : State) (me : Place) (id : Nat) (x : Seen) (f : Fence) : Fence :=
  if !f.pfx.contains id then f
  else
    let ids := (x.ids ++ (x.pre.filter fun b => bit f.mask b.path && inMutual s f.scope me b.scope ⟨b.core, b.blk, b.gang⟩).flatMap (·.pfx)).filter
      (inMaskId s f.mask)
    { f with pfx := NSet.addAll f.pfx ids, rts := NSet.addAll f.rts x.rts,
             waits := f.waits ++ (joined s f.scope f.id ids x.rts).filter (inMaskId s f.mask) }

/-- A doorbell or wide release of path 0x6 whose prefix holds an access. -/
def Bell.join (s : State) (k id : Nat) (ids rts : List Nat) (b : Bell) : Bell :=
  let more := match b.rel with
    | some sc => joined s sc k ids rts
    | none => ids
  { b with waits := if b.wide then joinIf id more b.waits else b.waits }

/-- The scope of a job's completion release (R107). -/
def Job.scope (j : Job) : Scope := (Scope.ofCode (recNat j.record 8 1)).getD .system

/-- Everything whose prefix holds a load that lands: releases, fences, arrivals and doorbells issued while it was in flight wait for what it has
read, and carry it, and a command waits for such stores on the bytes that it reads (R313, R315, R316, R318, R328). DEDUCED: log 42. -/
def inherit (s : State) (id : Nat) (x : Seen) : State :=
  if x.ids.isEmpty && x.rts.isEmpty && x.pre.isEmpty then s
  else
    let ids := s.live x.ids
    let sys := s.stores.any (fun e => e.2.rel == some .system && e.2.pfx.contains id)
      || s.threads.any fun e => e.2.fences.any fun f => f.scope == .system && f.pfx.contains id
    let s := if sys then unhold s ids else s
    let lev (k : Nat) : Scope := levelScope ((Level.ofCode (k / 16 % 4)).getD .gang)
    { s with
      stores := s.stores.map fun (k, st) => (k, { st with
        pfx := joinSet id ids st.pfx, rts := if st.pfx.contains id then NSet.addAll st.rts x.rts else st.rts,
        after := if st.wide && st.pfx.contains id then st.after ++ joined s (st.rel.getD .cluster) k ids x.rts else st.after,
        fpfx := st.fpfx.map (Before.join id x) }),
      threads := s.threads.map fun (k, t) => (k, { t with
        obs := joinSet id ids t.obs, obsRoutes := if t.obs.contains id then NSet.addAll t.obsRoutes x.rts else t.obsRoutes,
        fenced := t.fenced.map (Before.join id x), preObs := t.preObs.map (Before.join id x),
        fences := t.fences.map (Fence.join s (placeOf s k) id x), relWait := t.relWait.map (joinIf id (joined s .fabric s.nextId ids x.rts)) }),
      bars := s.bars.map fun (k, b) => (k, { b with
        owing := b.owing.map fun (u, w) => (u, joinIf id (joined s (lev k) s.nextId ids x.rts) w),
        carry := joinSet id ids b.carry, carried := joinSet id ids b.carried }),
      bells := s.bells.map fun (k, b) => (k, b.join s k id ids x.rts),
      pend := s.pend.map fun (k, p) => (k, match p.op with
        | .publ n before sc pfx rts =>
          if pfx.contains id then
            { p with op := .publ n before sc (NSet.addAll pfx ids) (NSet.addAll rts x.rts),
                     after := if Scope.local sc then p.after else p.after ++ joined s sc k ids x.rts }
          else p
        | .rst nak tgt va n flag rel pfx rts =>
          if pfx.contains id then { p with op := .rst nak tgt va n flag rel (NSet.addAll pfx ids) (NSet.addAll rts x.rts) } else p
        | _ =>
          if p.heard.contains id then
            let on := cmdReads s p
            { p with after := p.after ++ ids.filter fun i => (s.stores.look i).any fun st => on.any fun r => r.meets s st }
          else p),
      rels := s.rels.map fun r => { r with pfx := joinSet id ids r.pfx, fpfx := r.fpfx.map (Before.join id x) },
      scLog := s.scLog.map fun e => { e with pfx := joinSet id ids e.pfx },
      grids := s.grids.map fun (k, g) => (k, { g with
        obs := joinSet id ids g.obs, routes := if g.obs.contains id then NSet.addAll g.routes x.rts else g.routes,
        closing := g.closing.map (joinIf id (joined s (((s.jobs.look g.job).map (·.scope)).getD .system) s.nextId ids x.rts)) }),
      jobs := s.jobs.map fun (k, j) => (k, { j with
        obs := joinSet id ids j.obs, routes := if j.obs.contains id then NSet.addAll j.routes x.rts else j.routes,
        closing := j.closing.map (joinIf id (joined s j.scope s.nextId ids x.rts)) }) }

/-- An access that met a fault and stands until its context resumes: nothing that lands or is accepted before the save waits for it (R327, R400, R406).
 DEDUCED: log 37. -/
def forget (s : State) (id : Nat) : State :=
  let cut (l : List Nat) : List Nat := l.filter (· != id)
  { s with
    stores := s.stores.map fun (k, st) => (k, { st with after := cut st.after }),
    pend := s.pend.map fun (k, p) => (k, { p with after := cut p.after, op := match p.op with
      | .probe w n => .probe (cut w) n
      | o => o }),
    threads := s.threads.map fun (k, t) => (k, { t with
      fences := t.fences.map fun f => { f with waits := cut f.waits }, relWait := t.relWait.map cut, acqs := t.acqs }),
    bars := s.bars.map fun (k, b) => (k, { b with owing := b.owing.map fun (u, w) => (u, cut w) }),
    bells := s.bells.map fun (k, b) => (k, { b with waits := cut b.waits }) }

/-! ### The scoreboard and windows (R233 to R237) -/

/-- A byte range of a scratchpad path that an access reads or writes. -/
structure Acc where
  path : Nat
  lo : Nat
  hi : Nat
  write : Bool
  /-- An engine write, which reaches the back half of a publish view (R264). -/
  back : Bool := false
  deriving DecidableEq, Repr

/-- Windows of a block that a range touches. -/
def touchedWins (b : Block) (x : Acc) : List Nat :=
  (List.range 16).filter fun i => match b.windows[i]? with
    | some w => w.st != .unbound && w.path == x.path && x.lo < w.hi && w.lo < x.hi
    | none => false

/-- Cuts runs of bytes at a point. -/
def cutAt (p : Nat) (l : List (Nat × Nat)) : List (Nat × Nat) :=
  l.flatMap fun r => if r.1 < p && p < r.2 then [(r.1, p), (p, r.2)] else [r]

/-- The runs of bytes that a range of an allocation reaches: a publish view leads to a half (R264). -/
def runsOf (s : State) (alloc lo hi : Nat) (back : Bool) : List (Nat × Nat) :=
  let l := s.pubs.foldl (fun l e => if e.2.alloc = alloc then cutAt (e.2.view + e.2.len) (cutAt e.2.view l) else l) [(lo, hi)]
  l.map fun r => let a := viewOff s alloc r.1 back; (a, a + (r.2 - r.1))

/-- Two lists of runs share a byte. -/
def runsMeet (a b : List (Nat × Nat)) : Bool := a.any fun x => b.any fun y => x.1 < y.2 && y.1 < x.2

/-- A held range of the core makes the access wait (R236). The range of a Filling window makes only the touches of its block wait, which find
the window (R234). -/
def heldBy (s : State) (b : Block) (x : Acc) : Bool :=
  match b.alloc x.path with
  | none => false
  | some i =>
    let runs := runsOf s i x.lo x.hi x.back
    (s.core b.core).held.any fun h => h.alloc == i && !h.fill && (h.reads || x.write) && runsMeet runs h.runs

/-- The access waits for a window or for the scoreboard. -/
def accWaits (s : State) (b : Block) (l : List Acc) : Bool :=
  l.any fun x => heldBy s b x || (touchedWins b x).any fun i => ((b.windows[i]?).map (·.st)) != some .present

/-! ### The control stack (R48 to R50) -/

/-- The block-relative offset of a thread's stack region (R48). -/
def ksb (b : Block) (tid : Nat) : Nat := b.data + tid * b.stack

/-- The 16 bytes of a thread's control stack from a value of KSP lie in a SHADOW range (R264, R269). -/
def stackShadow (s : State) (b : Block) (tid ksp : Nat) : Bool :=
  b.a1.any fun a => inShadow s a (ksb b tid + ksp) (ksb b tid + ksp + 16)

/-- What a store on path 0x1 that no issue holds back still follows: acquires, and fences over that path (R316, R342). -/
def stackAfter (s : State) (t : Thread) : List Nat :=
  s.live t.acqs ++ (t.fences.filter fun f => bit f.mask 1).flatMap fun f => f.waits.filter fun i => !s.passed f.scope i

/-- Pushes 16 bytes as a store of the thread (R49); the caller has checked KSP against S. -/
def push (s : State) (u : Nat) (bytes : List Byte) : State :=
  match s.threads.look u with
  | none => s
  | some t =>
    match s.blocks.look t.blk with
    | none => s
    | some b =>
      match b.a1 with
      | none => s
      | some a =>
        let off := ksb b t.tid + t.ksp.toNat
        let (_, s) := issueStore s {
          core := b.core, ctx := b.ctx, blk := t.blk, th := some u, issue := 0, lines := [], pc := t.pc,
          space := .alloc a, path := 1, va := off, off := off, acc := .plain bytes, ret := none, rel := none, pfx := [],
          after := stackAfter s t }
        s.updThr u fun t => { t with ksp := t.ksp + 16 }

/-- The 16 bytes on top of a thread's control stack. -/
def topEntry (s : State) (u : Nat) : List Byte :=
  match s.threads.look u with
  | none => []
  | some t =>
    match s.blocks.look t.blk with
    | none => []
    | some b =>
      match b.a1 with
      | none => []
      | some a =>
        let off := ksb b t.tid + t.ksp.toNat - 16
        match readFwd s b.core (some u) (.alloc a) off off 16 with
        | .ok (bytes, _) => bytes
        | .error _ => []

/-! ### Trap entry (R392 to R394) -/

/-- The frame of R393. -/
def frameBytes (t : Thread) (r : TrapReq) : List Byte :=
  leBytes 4 r.rpc.toNat ++ leBytes 1 3 ++ leBytes 1 r.cause ++ leBytes 1 r.code
    ++ leBytes 1 (r.flags % 32 + (if t.ss then 32 else 0)) ++ leBytes 1 t.preds.toNat ++ leBytes 3 0 ++ leBytes 4 r.detail

/-- An SFU result that the thread owes (R394 step 2). -/
def owesSfu (s : State) (u : Nat) : Bool :=
  s.pend.any fun (_, p) => p.of u && match p.op with
    | .sfu .. => true
    | _ => false

/-- The bytes at a value of KSP of a thread's control stack, as an access. -/
def stackAcc (b : Block) (tid ksp : Nat) (write : Bool) : List Acc := [⟨1, ksb b tid + ksp, ksb b tid + ksp + 16, write, false⟩]

/-- The push of a trap entry, where there will be one: its thread's block and its bytes (R394). -/
def trapPush (s : State) (u : Nat) : Option (Block × List Acc) :=
  match s.threads.look u with
  | none => none
  | some t => match s.blocks.look t.blk with
    | none => none
    | some b =>
      if (s.ctx b.ctx).traph.getLsbD 31 && t.ksp.toNat ≠ b.stack && !stackShadow s b t.tid t.ksp.toNat then some (b, stackAcc b t.tid t.ksp.toNat true)
      else none

/-- The push waits for a window or a held range (R234, R236). -/
def pushWaits (s : State) (u : Nat) : Bool := (trapPush s u).any fun x => accWaits s x.1 x.2

/-- Steps 3 to 6 of R394, as one step. -/
def takeTrap (s : State) (u : Nat) (r : TrapReq) : State :=
  match s.threads.look u with
  | none => s
  | some t =>
    match s.blocks.look t.blk with
    | none => s
    | some b =>
      let k := s.ctx b.ctx
      let s := s.updThr u fun t => { t with trap := none }
      let stop (cause : Nat) : State :=
        let s := s.updThr u fun t => { t with st := .ready, since := s.clock }
        raiseFault s b.ctx { stop := threadStop s u cause r.rpc 0 (if cause = 0x26 then 0 else r.cause + r.detail * 2 ^ 32), members := [u] }
      if !k.traph.getLsbD 31 then stop 0x34
      else if t.ksp.toNat = b.stack then stop 0x2E
      else if stackShadow s b t.tid t.ksp.toNat then stop 0x26
      else
        let s := push s u (frameBytes t r)
        let s := s.updThr u fun t => { t with ss := false, entering := true, pc := mkPc (bits k.traph.toNat 17 3 * 8) 0 }
        becomeReady s u

/-- A thread takes a trap once its owed barrier wait and its SFU results are done (R394 steps 1 and 2), and its push need not wait. -/
def beginTrap (s : State) (u : Nat) (r : TrapReq) : State :=
  if owesSfu s u || pushWaits s u then s.updThr u fun t => { t with st := .trapWait, since := s.clock, trap := some r }
  else takeTrap s u r

/-! ### Barriers (R330 to R333) -/

/-- DEDUCED: log 55. -/
def barKey (l : Level) (inst n : Nat) : Nat := (inst * 4 + l.code) * 16 + n

/-- The group of a thread at a level; a block outside a grid has no grid level (R329, R334). -/
def barInst (s : State) (u : Nat) (l : Level) : Option Nat :=
  match s.threads.look u with
  | none => none
  | some t =>
    match s.blocks.look t.blk with
    | none => none
    | some b => match l with
      | .gang => some (t.blk * 64 + t.gang)
      | .block => some t.blk
      | .cluster => some b.group
      | .grid => b.grid

/-- The index of LAST in R409. -/
def lastIdx (l : Level) (n : Nat) : Nat :=
  match l with
  | .gang => n
  | .block => 4 + n
  | .cluster => 20 + n
  | .grid => 28 + n

/-- The resident threads of a group (R329). A block that has ended counts as exited. -/
def barMembers (s : State) (l : Level) (inst : Nat) : List Nat :=
  match l with
  | .gang => AMap.sel s.threads (fun _ t => t.blk == inst / 64 && t.gang == inst % 64)
  | .block => AMap.sel s.threads (fun _ t => t.blk == inst)
  | .cluster => AMap.sel s.threads (fun _ t => ((s.blocks.look t.blk).map (·.group)) == some inst)
  | .grid => AMap.sel s.threads (fun _ t => ((s.blocks.look t.blk).bind (·.grid)) == some inst)

/-- The thread's last arrival on a barrier has completed (R331). -/
def phaseDone (s : State) (u : Nat) (l : Level) (n : Nat) : Bool :=
  match barInst s u l, s.threads.look u with
  | some i, some t => t.last.look (lastIdx l n) != some (s.bars.lookD (barKey l i n) {}).phase
  | _, _ => false

/-- The acquire of a wait that has completed (R332). -/
def acquireBar (s : State) (u : Nat) (l : Level) (n : Nat) : State :=
  match barInst s u l with
  | none => s
  | some i =>
    let b := s.bars.lookD (barKey l i n) {}
    s.updThr u fun t => { t with obs := NSet.addAll t.obs (s.live b.carried), obsRoutes := NSet.addAll t.obsRoutes b.carriedR }

/-- Takes the waits that a thread owes, in order (R173): the first that has not completed is waited for; after the last, a trap that
waits is entered, and else the thread is Ready. -/
def takeWaits (s : State) (u : Nat) : List (Level × Nat) → State
  | [] =>
    let s := s.updThr u fun t => { t with owed := [] }
    match (s.threads.look u).bind (·.trap) with
    | some r => beginTrap s u r
    | none => becomeReady s u
  | (l, n) :: rest =>
    if phaseDone s u l n then takeWaits (acquireBar s u l n) u rest
    else s.updThr u fun t => { t with owed := (l, n) :: rest, st := .barWait l n, since := s.clock, stall := none }

/-- A thread whose phase has completed leaves Barrier-wait; its age is the cycle of completion (R333). -/
def reinsert (s : State) (u : Nat) : State :=
  match s.threads.look u with
  | none => s
  | some t => match t.st with
    | .barWait l n =>
      if phaseDone s u l n then
        let at_ := ((barInst s u l).map fun i => (s.bars.lookD (barKey l i n) {}).doneAt).getD s.clock
        (takeWaits s u t.owed).updThr u fun t => if t.st = .ready || t.st = .gangWait then { t with since := at_ } else t
      else s
    | _ => s

/-- Level, instance and number of a barrier key. -/
def keyLevel (k : Nat) : Level := (Level.ofCode (k / 16 % 4)).getD .gang
def keyInst (k : Nat) : Nat := k / 64
def keyNum (k : Nat) : Nat := k % 16

/-! ### External arrivals (R375, R376) -/

def Vector.valid (v : Vector) : Bool := v.lo.getLsbD 0
/-- Held arrivals, PEND[5:0]. -/
def Vector.held (v : Vector) : Nat := bits v.lo.toNat 21 16
def Vector.setHeld (v : Vector) (n : Nat) : Vector :=
  { v with lo := (v.lo &&& ~~~0x3F0000#64) ||| (BitVec.ofNat 64 (n % 64) <<< 16) }
/-- Sets or clears DROP (bit 22) or LATCHED (bit 23). -/
def Vector.setBit (v : Vector) (n : Nat) (b : Bool) : Vector :=
  { v with lo := if b then v.lo ||| (1#64 <<< n) else v.lo &&& ~~~(1#64 <<< n) }
def Vector.latched (v : Vector) : Bool := v.lo.getLsbD 23

/-- The group that a binding names (R376): not yet started, ended, or a barrier of a resident group. -/
inductive Named where
  | waiting
  | ended
  | group (ctx key : Nat)
  deriving DecidableEq, Repr

/-- What a binding names now. -/
def namedGroup (s : State) (v : Vector) : Named :=
  let ctx := bits v.lo.toNat 43 32
  let die := bits v.lo.toNat 55 48
  let q := bits v.lo.toNat 63 56
  let seq := BitVec.ofNat 32 (bits v.hi.toNat 31 0)
  let num := bits v.lo.toNat 15 8
  match s.jobs.find? fun (_, j) => j.ctx == ctx && j.die == die && j.queue == q && j.seq == seq with
  | none => if 0 < (seq - (s.queues.lookD (die * 16 + q) {}).ack).toInt then .waiting else .ended
  | some (i, j) =>
    if j.st ≠ .running then .waiting
    else match s.grids.find? fun (_, g) => g.job == i && g.gridId == bits v.hi.toNat 47 32 with
      | none => .ended
      | some (gid, g) => match g.st with
        | .waiting => .waiting
        | .ended => .ended
        | .resident =>
          if bits v.lo.toNat 2 1 = 3 then .group ctx (barKey .grid gid num)
          else match s.blocks.find? fun (_, b) => b.grid == some gid && b.blockId == bits v.hi.toNat 63 48 with
            | none => .ended
            | some (k, b) => if b.ended then .ended else .group ctx (barKey .block k num)

/-- A binding's LEVEL and NUM name a barrier (R375). -/
def Vector.named (v : Vector) : Bool :=
  v.valid && ((bits v.lo.toNat 2 1 = 1 && bits v.lo.toNat 15 8 < 16) || (bits v.lo.toNat 2 1 = 3 && bits v.lo.toNat 15 8 < 4))

/-- Adds a vector's held arrivals to EXTC as far as there is room (R376). -/
def feedVector (s : State) (n : Nat) : State :=
  match s.notify.look n with
  | none => s
  | some v =>
    if !v.named || v.held = 0 then s
    else match namedGroup s v with
      | .group ctx key =>
        if s.stopped ctx then s
        else
          let b := s.bars.lookD key {}
          let k := min v.held (63 - b.extc)
          { s with bars := s.bars.put key { b with extc := b.extc + k }, notify := s.notify.put n (v.setHeld (v.held - k)) }
      | _ => s

/-- Adds held arrivals of every vector: at group start, at restore and when a completion makes room. -/
def feedBars (s : State) : State := s.notify.keys.foldl feedVector s

/-- Tests the current phase of a barrier (R331): arrivals whose prefix has been performed are recorded, and a complete phase ends. -/
def phaseTest (s : State) (key : Nat) : State :=
  match s.bars.look key with
  | none => s
  | some b =>
    let sc := levelScope (keyLevel key)
    let now := b.owing.filter fun (_, w) => w.all (s.passed sc)
    let b := { b with owing := b.owing.filter (fun (_, w) => !w.all (s.passed sc)), arr := NSet.addAll b.arr (now.map (·.1)) }
    let ms := barMembers s (keyLevel key) (keyInst key)
    let full := ms.all fun u => b.arr.contains u || ((s.threads.look u).map (·.st)) == some .exited
    if full && b.owing.isEmpty && b.pendb = 0 && b.ext ≤ b.extc then
      let b := { b with phase := b.phase + 1, arr := [], extc := b.extc - b.ext, watch := [], carried := b.carry, carry := [],
                        carriedR := b.carryR, carryR := [], doneAt := s.clock }
      feedBars { s with bars := s.bars.put key b }
    else { s with bars := s.bars.put key b }

/-- Tests every barrier that has a record. -/
def testBars (s : State) : State := s.bars.keys.foldl phaseTest s

/-! ### The end of threads, blocks and groups (R28, R35, R110, R417) -/

/-- A continuation stage (R109). -/
def Stage.cont (st : Stage) : Bool := st.kind == 1

/-- Appends items to a stage's queue (R110, R121). -/
def appendItems (j : Job) (i : Nat) (items : List (List Byte)) : Job :=
  { j with stages := j.stages.modify i fun st => { st with queue := st.queue ++ items } }

/-- The output items that a stage block commits at its end (R110). DESIGN CHOICE: log 68. -/
def stageOutput (s : State) (b : Block) (i : Nat) : State :=
  match s.jobs.look b.job with
  | none => s
  | some j =>
    match j.stages[i]?, b.a1 with
    | some st, some a =>
      match readFwd s b.core none (.alloc a) 16 16 8 with
      | .error _ => s
      | .ok (nb, _) =>
        let nout := ofLe nb
        if nout > st.outmax then
          raiseFault s b.ctx { stop := { engine := 1, cause := 0x25, unit := b.core, block := b.blockId, lcyc := s.lcyc b.core } }
        else match st.next, b.a3 with
          | some n, some r =>
            let size := ((j.stages[n]?).map (·.itemsz)).getD 8
            let items := (List.range nout).map fun k =>
              match readFwd s b.core none (.alloc r) (b.out + k * size) (b.out + k * size) size with
              | .ok (x, _) => x
              | .error _ => []
            s.updJob b.job fun j => appendItems j n items
          | _, _ => s
    | _, _ => s

/-- Removes an allocation with its publish ports; a later owner finds zeros (R417, R418). -/
def freeAlloc (s : State) (a : Option Nat) : State :=
  match a with
  | none => s
  | some i => { s with allocs := s.allocs.del i, pubs := s.pubs.filter fun (_, p) => p.alloc != i }

/-- The last thread of a block has exited (R28). -/
def endBlock (s : State) (blk : Nat) : State :=
  match s.blocks.look blk with
  | none => s
  | some b =>
    let s := match b.stage with
      | some i => stageOutput s b i
      | none => s
    let s := freeAlloc s b.a1
    let s := { s with
      threads := s.threads.filter fun (_, t) => t.blk != blk,
      bars := s.bars.filter fun e => !((keyLevel e.1 == Level.block && keyInst e.1 == blk) || (keyLevel e.1 == Level.gang && keyInst e.1 / 64 == blk)),
      blocks := s.blocks.put blk { b with ended := true, q := [], windows := List.replicate 16 {}, a1 := none } }
    let gone : Nat → Bool := fun i => ((s.blocks.look i).map (·.ended)).getD true
    let s := match s.groups.look b.group with
      | some g =>
        if g.blocks.all gone then
          let s := freeAlloc s g.alloc
          { s with groups := s.groups.put b.group { g with ended := true, alloc := none },
                   bars := s.bars.filter fun e => !(keyLevel e.1 == Level.cluster && keyInst e.1 == b.group) }
        else s
      | none => s
    match b.grid with
    | some g => s.updGrid g fun x => if x.blocks.all gone then { x with retiring := true } else x
    | none => s

/-- What the completion releases of a thread's grid and job take from it: its routes, and the accesses of its prefix (R107, R323, R416). -/
def leaveBehind (s : State) (u : Nat) (t : Thread) : State :=
  match s.blocks.look t.blk with
  | none => s
  | some b =>
    let rs := routesOf s u
    let ids := prefixOf s u
    let s := match b.grid with
      | some g => s.updGrid g fun x => { x with routes := NSet.addAll x.routes rs, obs := NSet.addAll (s.live x.obs) ids }
      | none => s
    s.updJob b.job fun j => { j with routes := NSet.addAll j.routes rs, obs := NSet.addAll (s.live j.obs) ids }

/-- EXIT retires (R35): registers are freed, what is in flight writes none of them, predicates and flags cease, and every barrier counts the
thread as exited. -/
def retire (s : State) (u : Nat) : State :=
  match s.threads.look u with
  | none => s
  | some t =>
    let s := leaveBehind s u t
    let s := s.updThr u fun t => { t with st := .exited, since := s.clock, regs := [], preds := 0, flags := List.replicate 12 0,
                                          owed := [], trap := none, stall := none }
    let s := { s with pend := s.pend.map fun (i, p) => (i, { p with parts := p.parts.map fun q => if q.th = u then { q with want := [] } else q }) }
    let s := testBars s
    if s.threads.all fun (_, x) => x.blk != t.blk || x.st == .exited then endBlock s t.blk else s

/-! ### Completion flags (R43 to R45) -/

/-- An engine command that a thread issued and that has not completed (R416). -/
def POp.isCommand : POp → Bool
  | .copy .. | .wbind .. | .chain .. | .publ .. | .ovl _ | .launch .. | .dbell _ | .dectab .. | .matrix _ | .answer .. => true
  | _ => false

/-- An EXIT may retire: every flag reads zero (R35), and no engine command of the thread is in flight (R416). DEDUCED: log 32. -/
def mayRetire (s : State) (u : Nat) (t : Thread) : Bool :=
  t.flags.all (· == 0) && !s.pend.any fun (_, p) => p.of u && p.op.isCommand

/-- Lets go what a thread waited for on its flags (R34, R35, R44). -/
def settle (s : State) (u : Nat) : State :=
  match s.threads.look u with
  | none => s
  | some t =>
    match t.st with
    | .flagWait => if entryState s t = .flagWait then s else becomeReady s u
    | .exiting => if mayRetire s u t then retire s u else s
    | _ => s

/-- Lowers a flag, never below zero, and lets go what waited for it. -/
def lowerFlag (s : State) (u : Nat) (f : Option Nat) : State :=
  match f with
  | none => settle s u
  | some f => settle (s.updThr u fun t => { t with flags := t.flags.set f (t.flags.getD f 0 - 1) }) u

/-- Writes the registers of a landing that are still wanted (R43). -/
def landRegs (t : Thread) (dst want : List Nat) (vals : List W32) : Thread :=
  { t with regs := (dst.zip vals).foldl (fun m (r, v) => if want.contains r then m.put r v else m) t.regs }

/-- One member's landing: its registers are written, then its flag is lowered (R44). -/
def landPart (s : State) (p : Part) (vals : List W32) : State :=
  lowerFlag (s.updThr p.th fun t => landRegs t p.dst p.want vals) p.th p.flag

/-- An operation leaves the list of those in flight. -/
def dropPend (s : State) (id : Nat) : State := { s with pend := s.pend.del id }

/-- An operation lands with the same words for each member. -/
def landAll (s : State) (id : Nat) (vals : List W32) : State :=
  match s.pend.look id with
  | none => s
  | some p => p.parts.foldl (fun s q => landPart s q vals) (dropPend s id)

/-- An operation ends with its flag lowered and nothing written (R227). -/
def landNone (s : State) (id : Nat) : State :=
  match s.pend.look id with
  | none => s
  | some p => p.parts.foldl (fun s q => lowerFlag s q.th q.flag) (dropPend s id)

/-! ### The steward pair -/

/-- Bring-up has reached step 7 (R432): the steward answers requests, and launch queues may be enabled. -/
def Steward.up (w : Steward) : Bool := w.step = 7 && !w.recovery

end Sys2Proof.Machine
end

