-- ==== Sys2Proof/Machine/Operands.lean ====
section
/-! DEFINITION. Operand forms: inline constants (R62, R63), literals (R61), registers and pairs (R37, R151, R182), and the registers
an instruction reads, frees and writes (R38, R60). -/

namespace Sys2Proof.Machine

/-- How a source is read: an n-bit integer or raw string, a float format, or a packed pair of one (R63). -/
inductive Src where
  | int (n : Nat)
  | fp (f : Fmt)
  | packed (f : Fmt)
  deriving DecidableEq, Repr

def Src.width : Src → Nat
  | .int n => n
  | .fp f => f.bits
  | .packed _ => 32

/-- The integer an inline code stands for (R62): 0 to 15, −1 to −8, W and W − 1. -/
def constInt (k : Nat) : Option Int :=
  if k < 16 then some k
  else if k < 24 then some (-((k : Int) - 15))
  else if k = 38 then some Config.lanes
  else if k = 39 then some (Config.lanes - 1)
  else none

/-- The real value an inline code stands for (R62), as a sign, a mantissa and an exponent: ln 2, log2 e, π and 1 ÷ (2π) to 96 bits. -/
def constReal (k : Nat) : Bool × Nat × Int :=
  match k with
  | 24 => (false, 1, -2)
  | 25 => (false, 1, -1)
  | 26 => (false, 1, 0)
  | 27 => (false, 1, 1)
  | 28 => (false, 1, 2)
  | 29 => (false, 1, 3)
  | 30 => (true, 1, -1)
  | 31 => (true, 1, 0)
  | 32 => (true, 1, 1)
  | 33 => (true, 1, 2)
  | 34 => (false, 0xB17217F7D1CF79ABC9E3B398, -96)
  | 35 => (false, log2eFix, -96)
  | 36 => (false, piFix, -96)
  | _ => (false, 0x28BE60DB9391054A7F09D5F4, -96)

/-- The value of an inline code as a real. -/
def constFV (k : Nat) : FV :=
  match constInt k with
  | some x => .fin (x < 0) x.natAbs 0
  | none => .fin (constReal k).1 (constReal k).2.1 (constReal k).2.2

/-- The bits an inline constant supplies (R63); supplying one raises nothing. -/
def constBits (f : Src) (k : Nat) : Nat :=
  match f with
  | .int n =>
    match constInt k with
    | some x => truncInt n x
    | none =>
      if n = 64 then (roundFV f64 .rne false 0 (constFV k)).1
      else if n = 16 then (roundFV f16 .rne false 0 (constFV k)).1
      else (roundFV f32 .rne false 0 (constFV k)).1 % 2 ^ n
  | .fp f => (roundFV f .rne false 0 (constFV k)).1
  | .packed f => (roundFV f .rne false 0 (constFV k)).1 * (2 ^ 16 + 1)

/-- A register's word; a free register reads zero, which only FREEDRD 1 lets happen (R40). -/
def Thread.reg (t : Thread) (n : Nat) : W32 := t.regs.lookD n 0

/-- A source operand's bits (R59, R61, R63, R151, R182). -/
def Thread.val (t : Thread) (f : Src) (o : Opnd) : Nat :=
  match o with
  | .v n =>
    if f.width ≤ 32 then (t.reg n).toNat % 2 ^ f.width
    else ((t.reg n).toNat + 2 ^ 32 * (t.reg (n + 1)).toNat) % 2 ^ f.width
  | .k n => constBits f n
  | .lit w => w.toNat % 2 ^ f.width
  | .p n => if t.pred n then 1 else 0
  | .q n => n
  | .null => 0

/-- A source of an integer type. -/
def Thread.ival (t : Thread) (ty : ITy) (o : Opnd) : Nat := t.val (.int ty.width) o

/-- A predicate operand; null reads as false (the omitted carry of R152). -/
def Thread.pval (t : Thread) (o : Opnd) : Bool :=
  match o with
  | .p n => t.pred n
  | _ => false

/-- The v registers an operand field names. -/
def fieldRegs (k : Kind) (o : Opnd) : List Nat :=
  match o with
  | .v n => (List.range k.width).map (n.val + ·)
  | _ => []

/-- Registers read, field by field in the order A, B, C, with the operand code of R392. -/
def srcFields (i : Instr) : List (Nat × List Nat) :=
  let x := i.x
  let g := i.sig
  [(x.sa.code, fieldRegs g.sa x.sa), (x.sb.code, fieldRegs g.sb x.sb), (x.sc.code, fieldRegs g.sc x.sc)]
    ++ if i.dstRead then [(x.dst.code, fieldRegs g.dst x.dst)] else []

def srcRegs (i : Instr) : List Nat := ((srcFields i).map (·.2)).flatten

/-- Registers written. -/
def dstRegs (i : Instr) : List Nat := if i.dstRead then [] else fieldRegs i.sig.dst i.x.dst

/-- Registers that the last-use bits free (R37, R208). -/
def luRegs (i : Instr) : List Nat :=
  let x := i.x
  let g := i.sig
  (if x.lua then fieldRegs g.sa x.sa else []) ++ (if x.lub then fieldRegs g.sb x.sb else [])
    ++ (if x.luc then fieldRegs g.sc x.sc else [])

/-- Frees registers; freeing a free one has no effect (R39). -/
def Thread.free (t : Thread) (l : List Nat) : Thread := { t with regs := l.foldl AMap.del t.regs }

/-- Writes registers, making them live (R37). -/
def Thread.put (t : Thread) (l : List (Nat × W32)) : Thread :=
  { t with regs := l.foldl (fun m (r, v) => m.put r v) t.regs }

/-- The words a destination of one register or a pair receives (R151, R182). -/
def dstWords (k : Kind) (o : Opnd) (v : Nat) : List (Nat × W32) :=
  match o with
  | .v n =>
    if k.width = 2 then [(n.val, BitVec.ofNat 32 v), (n.val + 1, BitVec.ofNat 32 (v / 2 ^ 32))]
    else [(n.val, BitVec.ofNat 32 v)]
  | _ => []

/-- The live count after the frees and with the destination allocated (R41). -/
def liveAfter (t : Thread) (i : Instr) : Nat :=
  let r := (t.free (luRegs i)).regs
  ((dstRegs i).foldl (fun m d => if m.has d then m else m.put d 0) r).length

/-- The shape registers an instruction reads or writes, for R176. -/
def shapeRegs (i : Instr) : List Nat :=
  let base := [i.x.dst, i.x.sa, i.x.sb, i.x.sc].filterMap fun o => match o with
    | .q n => some n.val
    | _ => none
  match i with
  | .tcopyMma .. => base ++ (match i.x.sa with | .q n => [n.val + 1] | _ => [])
  | .mma .. => base ++ (match i.x.sc with | .q n => [n.val + 1] | _ => [])
  | _ => base

/-- The guard's value (R64). -/
def Thread.guard (t : Thread) (x : X) : Bool := t.pred x.gpred != x.gneg

end Sys2Proof.Machine
end

