-- ==== Sys2Proof/Machine/Flags.lean ====
section
/-! DEFINITION. Flag computations: carries and borrows (R152), saturation and reduction of integer results (R151), floating-point
exceptions (R189, R190) and completion-flag counts (R44, R45). -/

namespace Sys2Proof.Machine

/-- The value of an n-bit source under a type (R151). -/
def ITy.value (t : ITy) (x : Nat) : Int := if t.signed then sextNat t.width x else ((x % 2 ^ t.width : Nat) : Int)

/-- The limits of a type (R151). -/
def ITy.lo (t : ITy) : Int := if t.signed then -(2 ^ (t.width - 1) : Nat) else 0
def ITy.hi (t : ITy) : Int := if t.signed then (2 ^ (t.width - 1) : Nat) - 1 else (2 ^ t.width : Nat) - 1

/-- A reduced result as it is written: narrow results are extended to 32 bits (R151). -/
def ITy.write (t : ITy) (x : Int) : Nat :=
  if t.width < 32 then (if t.signed then truncInt 32 (sextNat t.width (truncInt t.width x)) else truncInt t.width x)
  else truncInt t.width x

/-- Reduction to the type, clamped under .sat (R151). -/
def reduce (t : ITy) (sat : Bool) (res : Int) : Nat :=
  ITy.write t (if sat then min (max res (ITy.lo t)) (ITy.hi t) else res)

/-- The carry-out of IADC and the borrow-out of ISBC (R152). -/
def carryOut (n ua ub : Nat) (cin : Bool) : Bool := 2 ^ n ≤ ua + ub + cin.toNat
def borrowOut (ua ub : Nat) (cin : Bool) : Bool := ua < ub + cin.toNat

/-- The set meets an enabled bit of FPXC (R190). -/
def fpTraps (k : Context) (raised : Nat) : Bool := raised &&& (k.fpxc.toNat % 32) ≠ 0

/-- ORs a raised set into the sticky bits (R189). -/
def stick (s : State) (ctx raised : Nat) : State :=
  if raised = 0 then s
  else s.updCtx ctx fun k => { k with fpxc := k.fpxc ||| BitVec.ofNat 32 (raised % 32 * 256) }

/-- Raises a completion flag (R44). -/
def Thread.raiseFlag (t : Thread) (f : Option Nat) : Thread :=
  match f with
  | none => t
  | some f => { t with flags := t.flags.set f (t.flags.getD f 0 + 1) }

/-- A raise would pass 63 (R45). -/
def Thread.flagFull (t : Thread) (f : Option Nat) : Bool :=
  match f with
  | none => false
  | some f => 63 ≤ t.flags.getD f 0

/-- The flag that FSEL picks from the clause's header (R44, R65). -/
def pickFlag (h : Header) (fsel : Bool) : Option Nat := ((if fsel then h.setb else h.seta).map (·.val))

end Sys2Proof.Machine
end

