-- ==== Sys2Proof/Machine/Issue.lean ====
section
/-! DEFINITION. Issue of one instruction by the gathered set of the focus core: waits (R43, R45), freed-register traps (R40), the
live-count check (R41), run-time faults (R57, R396), the order read, free, write (R38), and the clause's end (R133, R167, R173). -/

namespace Sys2Proof.Machine

/-- A member of the gathered set, as it stands when the instruction issues. -/
structure Mb where
  u : Nat
  t : Thread
  b : Block
  deriving DecidableEq, Repr

/-- A shape operand of a member. -/
def Mb.shape (m : Mb) (o : Opnd) : Shape :=
  match o with
  | .q n => m.b.shape n
  | _ => 0

def membersOf (s : State) (g : Gather) : List Mb :=
  g.members.filterMap fun u => (s.threads.look u).bind fun t => (s.blocks.look t.blk).map fun b => ⟨u, t, b⟩

/-- A run-time fault of a member: cause, effective address and detail. -/
structure Flt where
  cause : Nat
  va : Nat := 0
  detail : Nat := 0
  deriving DecidableEq, Repr

/-- What an instruction adds to the common issue: its own waits, each member's run-time check, what page service may resume, its
effect on the active members after the frees, a floating-point trap set, and the PC it gives a member. -/
structure Spec where
  wait : State → List Mb → Bool := fun _ _ => false
  /-- What the wait itself does: a touch starts the fill of an Absent window (R234). -/
  onWait : State → List Mb → State := fun s _ => s
  /-- Members that sleep at the instruction: they leave the set with nothing freed (R232). -/
  sleeps : State → Mb → Bool := fun _ _ => false
  check : State → Mb → Option Flt := fun _ _ => none
  service : Bool := false
  /-- A trap that the instruction itself takes, before its run-time faults: an overlay miss, TRAP or BRK (R396). -/
  trap : State → Mb → Option TrapReq := fun _ _ => none
  raised : State → Mb → Nat := fun _ _ => 0
  effect : State → List Mb → State := fun s _ => s
  target : State → Mb → Option W32 := fun _ _ => none

/-- The active members: guard true (R39). -/
def active (i : Instr) (ms : List Mb) : List Mb := ms.filter fun m => m.t.guard i.x

/-- A pending variable-latency write to one of the registers (R43). -/
def owesReg (s : State) (u : Nat) (regs : List Nat) : Bool :=
  s.pend.any fun (_, p) => p.parts.any fun q => q.th == u && q.want.any regs.contains

/-- A pending SHLD into one of the block's shape registers (R176). -/
def owesShape (s : State) (blk : Nat) (qs : List Nat) : Bool :=
  s.pend.any fun (_, p) => p.blk == blk && match p.op with
    | .shld q .. => qs.contains q
    | _ => false

/-- The header of the clause that a core's gathered set issues. -/
def curHeader (s : State) (g : Gather) : Header :=
  ((s.core s.focus).header g.off).getD { cls := .V, count := 1, wait := 0, seta := none, setb := none, yield := false }

/-- The flag that an instruction of the gathered set raises (R44). -/
def flagOf (s : State) (i : Instr) : Option Nat :=
  match (s.core s.focus).gather with
  | none => none
  | some g => if i.isVL then pickFlag (curHeader s g) i.x.fsel else none

/-- The common waits at issue: a source that is owed, a full flag, a shape register that is owed. -/
def mustWait (s : State) (i : Instr) (ms : List Mb) : Bool :=
  ms.any fun m => owesReg s m.u (srcRegs i) || m.t.flagFull (flagOf s i) || owesShape s m.t.blk (shapeRegs i)

/-- FREEDRD of a thread: the FRD bit of its job's record (R40, R108). DEDUCED: log 35. -/
def freedrd (s : State) (b : Block) : Bool :=
  ((s.jobs.look b.job).map fun j => ((j.record.getD 7 0).getLsbD 0)).getD false

/-- The freed-register trap of a member (R40, R392). -/
def freedTrap (s : State) (i : Instr) (m : Mb) : Option TrapReq :=
  if freedrd s m.b then none
  else (firstSome (fun (code, regs) => if regs.any (fun r => !m.t.regs.has r) then some code else none) (srcFields i)).map fun code =>
    { cause := 5, code := 0, flags := 0, detail := code, rpc := m.t.pc }

/-- The set waits at issue (R43); the watchdog counts it (R398). -/
def stallSet (s : State) (ms : List Mb) : State :=
  ms.foldl (fun s m => s.updThr m.u fun t => { t with stall := some (t.stall.getD s.clock) }) s

/-- A member leaves the gathered set for a trap (R394): the barrier waits it owes are taken first. -/
def leaveFor (s : State) (u : Nat) (r : TrapReq) : State :=
  let s := s.updCore s.focus fun c => { c with gather := c.gather.map fun g => { g with members := g.members.filter (· != u) } }
  let owed := ((s.threads.look u).map (·.owed)).getD []
  takeWaits (s.updThr u fun t => { t with trap := some r, stall := none }) u owed

/-- A thread of the core outside a set is Ready, or a gang is complete (R131, R133). -/
def othersReady (s : State) (core : Nat) (ms : List Nat) : Bool :=
  s.threads.any fun (u, t) =>
    ((s.blocks.look t.blk).map (·.core)) == some core && !ms.contains u &&
      (t.st == .ready || (t.st == .gangWait && s.threads.all fun (_, t') =>
        t'.blk != t.blk || t'.gang != t.gang || t'.st == .exited || (t'.st == .gangWait && t'.pc == t.pc)))

/-- The end of a clause (R133, R167, R173): owed waits are taken, the rest become Ready, and the set is kept where R133 lets it. -/
def endClause (s : State) (g : Gather) (h : Header) : State :=
  let core := s.focus
  let s := s.updCore core fun c => { c with gather := none }
  let owedOf (u : Nat) : List (Level × Nat) := ((s.threads.look u).map (·.owed)).getD []
  let owedAny := g.members.any fun u => !(owedOf u).isEmpty
  let s := g.members.foldl (fun s u => takeWaits s u (owedOf u)) s
  let first := (g.members.head?.bind s.threads.look).map (·.pc)
  let same := g.members.all fun u => match s.threads.look u with
    | some t => t.st == .ready && some t.pc == first
    | none => false
  if !h.yield && !g.yielded && !owedAny && same && !g.members.isEmpty && !othersReady s core g.members then
    s.updCore core fun c => { c with kept := some g.members }
  else s

/-- The slot after an instruction and its literal (R61). -/
def slotsOf (i : Instr) : Nat := 1 + i.literal.toList.length

/-- The PC of the instruction after one at a slot of a clause: the next slot, or the next clause. -/
def afterPc (c : CoreRec) (h : Header) (off slot : Nat) : W32 :=
  if slot < h.count then mkPc off slot else mkPc (c.nxt off) 0

/-- Single-step traps of the members that stepped (R397), and the rest of the gang stopped at the next slot (R218). -/
def stepTraps (s : State) (h : Header) (ms : List Mb) : State :=
  let st := ms.filter fun m => m.t.ss && (((s.core s.focus).gather.map fun g => g.members.contains m.u)).getD false
  let s := st.foldl (fun s m =>
    let pc := ((s.threads.look m.u).map (·.pc)).getD 0
    leaveFor s m.u { cause := 3, code := 0, flags := 0, detail := m.t.pc.toNat, rpc := pc }) s
  if h.cls = .G && !st.isEmpty then dissolve s s.focus else s

/-- After an instruction: the members' PCs, single-step, and the next slot or the end of the clause. `targets` are the PCs that a
control transfer gives. -/
def advance (s : State) (i : Instr) (g : Gather) (ms : List Mb) (targets : List (Nat × W32)) : State :=
  let c := s.core s.focus
  let h := curHeader s g
  let slot := g.slot + slotsOf i
  let dflt := afterPc c h g.off slot
  let here := ((c.gather).map (·.members)).getD []
  let s := here.foldl (fun s u => s.updThr u fun t =>
    { t with pc := ((targets.find? (·.1 == u)).map (·.2)).getD dflt, stall := none, relWait := none }) s
  let s := stepTraps s h ms
  match (s.core s.focus).gather with
  | none => s
  | some g' =>
    if g'.members.isEmpty then s.updCore s.focus fun c => { c with gather := none }
    else if slot < h.count then s.updCore s.focus fun c => { c with gather := some { g' with slot := slot, served := [] } }
    else endClause s g' h

/-- The last-use frees of members (R38, R39): a pending result to a freed register is discarded on landing (R43). -/
def freeRegs (s : State) (i : Instr) (ms : List Mb) : State :=
  let l := luRegs i
  if l.isEmpty then s
  else ms.foldl (fun s m =>
    let s := s.updThr m.u fun t => t.free l
    { s with pend := s.pend.map fun (id, p) =>
        (id, { p with parts := p.parts.map fun q => if q.th = m.u then { q with want := q.want.filter fun r => !l.contains r } else q }) }) s

/-- A write supersedes a pending result (R43). -/
def supersede (s : State) (u : Nat) (l : List Nat) : State :=
  if l.isEmpty then s
  else { s with pend := s.pend.map fun (id, p) =>
    (id, { p with parts := p.parts.map fun q => if q.th = u then { q with want := q.want.filter fun r => !l.contains r } else q }) }

/-- Writes registers of a thread at issue. -/
def writeRegs (s : State) (u : Nat) (l : List (Nat × W32)) : State :=
  (supersede s u (l.map (·.1))).updThr u fun t => t.put l

/-- The faults of members: the first in lane order is named, and every faulting member is listed (R57, R396). DEDUCED: log 36. -/
def faultSet (s : State) (i : Instr) (sp : Spec) (ms : List Mb) (f : Mb → Option Flt) : Option State :=
  let bad := ms.filterMap fun m => (f m).map fun x => (m, x)
  match bad with
  | [] => none
  | (m, x) :: _ =>
    let elig := !i.isA && (match i.cls with | some .V | some .M | some .X | some .T => true | _ => false)
      && ((0x21 ≤ x.cause && x.cause ≤ 0x27) || x.cause = 0x29 || (0x2D ≤ x.cause && x.cause ≤ 0x2F) || x.cause = 0x35)
    some (faultThread s m.u x.cause x.va x.detail (bad.map (·.1.u)) elig sp.service)

/-- A member sleeps at its WAITMEM (R232). -/
def sleepAt (s : State) (u : Nat) (i : Instr) : State :=
  let s := s.updCore s.focus fun c => { c with gather := c.gather.map fun g => { g with members := g.members.filter (· != u) } }
  s.updThr u fun t => { t with st := .sleeping i, since := s.clock, stall := none }

/-- The effect of an instruction on the members that take no trap: frees, then its own effect, then the next PC. -/
def commit (i : Instr) (sp : Spec) (s : State) (g : Gather) (ms act : List Mb) (traps : List (Nat × TrapReq)) : State :=
  let asleep := act.filter fun m => !(traps.map (·.1)).contains m.u && sp.sleeps s m
  let gone := traps.map (·.1) ++ asleep.map (·.u)
  let stay := ms.filter fun m => !gone.contains m.u
  let act := act.filter fun m => !gone.contains m.u
  let targets := act.filterMap fun m => (sp.target s m).map fun p => (m.u, p)
  let s := freeRegs s i stay
  let s := sp.effect s act
  let s := traps.foldl (fun s (u, r) => leaveFor s u r) s
  let s := asleep.foldl (fun s m => sleepAt s m.u i) s
  advance s i g stay targets

/-- The common issue of an instruction by the focus core's gathered set. -/
def issueS (i : Instr) (sp : Spec) (s : State) : State :=
  match (s.core s.focus).gather with
  | none => s
  | some g =>
    let ms := membersOf s g
    let act := active i ms
    if mustWait s i act then stallSet s ms
    else
      let freed := act.filterMap fun m => ((freedTrap s i m).or (sp.trap s m)).map fun r => (m.u, r)
      let act' := act.filter fun m => !(freed.map (·.1)).contains m.u
      match faultSet s i sp act' (fun m => if liveAfter m.t i > m.b.maxlive then some ⟨0x2D, 0, 0⟩ else none) with
      | some s' => s'
      | none =>
        if sp.wait s act' then stallSet (sp.onWait s act') ms
        else match faultSet s i sp act' (sp.check s) with
        | some s' => s'
        | none =>
          let fp := act'.filterMap fun m =>
            let r := sp.raised s m
            if fpTraps (s.ctx m.b.ctx) r then
              some (m.u, ({ cause := 6, code := 0, flags := r, detail := 0, rpc := m.t.pc } : TrapReq)) else none
          commit i sp s g ms act (freed ++ fp)

/-- An instruction issues and the machine goes on. -/
def issue (i : Instr) (sp : Spec) (s : State) : Res := .next (issueS i sp s)

/-! ### Instructions that only compute -/

/-- What one member computes: registers and predicates written, exceptions raised and the new RNGS. -/
structure Eff where
  regs : List (Nat × W32) := []
  preds : List (Nat × Bool) := []
  raised : Nat := 0
  rng : Option W32 := none
  deriving DecidableEq, Repr

/-- Applies an effect to a thread (R37, R42). -/
def applyEff (s : State) (m : Mb) (e : Eff) : State :=
  let s := writeRegs s m.u e.regs
  let s := s.updThr m.u fun t =>
    let t := e.preds.foldl (fun t (n, b) => t.setPred n b) t
    { t with rngs := e.rng.getD t.rngs }
  stick s m.b.ctx e.raised

/-- Issue of an instruction that reads operands and writes registers and predicates of its own thread. -/
def compute (i : Instr) (f : Mb → Eff) (s : State) : Res :=
  issue i { raised := fun _ m => (f m).raised, effect := fun s ms => ms.foldl (fun s m => applyEff s m (f m)) s } s

/-- A result for the destination register or pair (R151). -/
def toDst (i : Instr) (v : Nat) : Eff := { regs := dstWords i.sig.dst i.x.dst v }

/-- A result for the destination predicate (R42). -/
def toPred (i : Instr) (b : Bool) : Eff :=
  match i.x.dst with
  | .p n => { preds := [(n.val, b)] }
  | _ => {}

/-! ### Variable-latency issue (R41, R43, R44) -/

/-- A member's share of an operation that this instruction starts. -/
def partOf (s : State) (i : Instr) (u : Nat) : Part :=
  { th := u, flag := flagOf s i, dst := dstRegs i, want := dstRegs i }

/-- The member's side of a variable-latency issue: its flag is raised, its destination becomes live, and results still owed to the
destination are superseded. -/
def beginVL (s : State) (i : Instr) (u : Nat) : State :=
  let f := flagOf s i
  (supersede s u (dstRegs i)).updThr u fun t =>
    { t.raiseFlag f with regs := (dstRegs i).foldl (fun m r => if m.has r then m else m.put r 0) t.regs }

/-- Starts an operation of one member. -/
def startOp (s : State) (i : Instr) (m : Mb) (issue : Nat) (lines : List Nat) (op : POp) (after : List Nat) : Nat × State :=
  let part := partOf s i m.u
  let s := beginVL s i m.u
  let (id, s) := s.newId
  (id, { s with pend := s.pend.put id { core := m.b.core, ctx := m.b.ctx, blk := m.t.blk, issue := issue, lines := lines,
                                        at_ := s.clock, pc := m.t.pc, parts := [part], op := op, after := after } })

end Sys2Proof.Machine
end

