-- ==== Sys2Proof/Machine/Weight.lean ====
section
/-! DEFINITION. Weight images (R259, R260) and reads by engines, which no store is forwarded to (R313). -/

namespace Sys2Proof.Machine

/-- Bytes at a run of addresses as an engine reads them, line by line: accepted stores only. -/
def engineRead (s : State) (sp : Space) : Nat → Nat → Nat → Except Fail (List Byte)
  | 0, _, _ => .ok []
  | fuel + 1, a, n =>
    if n = 0 then .ok []
    else
      let k := min n (64 - a % 64)
      match resolve s sp a a false with
      | .error f => .error f
      | .ok l => match locRead s l k with
        | .error f => .error f
        | .ok b => match engineRead s sp fuel (a + k) (n - k) with
          | .error f => .error f
          | .ok r => .ok (b ++ r)

/-- An engine read of a run of bytes. -/
def engineBytes (s : State) (sp : Space) (a n : Nat) : Except Fail (List Byte) := engineRead s sp (n / 64 + 2) a n

/-- The first code of each length by the canonical rule of RFC 1951, section 3.2.2, from length `l` up. -/
def firstCodes (lens : List Nat) (code l : Nat) : Nat → List Nat
  | 0 => []
  | n + 1 =>
    let code := (code + (if l = 0 then 0 else lens.count l)) * 2
    code :: firstCodes lens code (l + 1) n

/-- The symbol that a code of a length stands for (R260): `firsts` holds the first code of lengths 1 to 15. -/
def symbolOf (lens : List Nat) (firsts : List Nat) (len code : Nat) : Option Nat :=
  let f := firsts.getD (len - 1) 0
  if code < f then none
  else ((lens.zipIdx.filter fun (l, _) => l == len)[code - f]?).map (·.2)

/-- Bit `i` of a run of bytes, from bit 0 of each (R260). -/
def bitAt (b : List Byte) (i : Nat) : Option Nat := (b[i / 8]?).map fun x => (bit x.toNat (i % 8)).toNat

/-- Reads one code, most significant bit first: the symbol and the next bit; `none` where LENS assigns no code or bits run out. -/
def readCode (lens firsts : List Nat) (b : List Byte) (pos code len : Nat) : Nat → Option (Nat × Nat)
  | 0 => none
  | fuel + 1 =>
    match bitAt b pos with
    | none => none
    | some x =>
      let code := 2 * code + x
      let len := len + 1
      match symbolOf lens firsts len code with
      | some y => some (y, pos + 1)
      | none => readCode lens firsts b (pos + 1) code len fuel

/-- Decodes `n` symbols (R260). -/
def readCodes (lens firsts : List Nat) (b : List Byte) : Nat → Nat → Option (List Byte)
  | _, 0 => some []
  | pos, n + 1 =>
    match readCode lens firsts b pos 0 0 15 with
    | none => none
    | some (y, p) => (readCodes lens firsts b p n).map (BitVec.ofNat 8 y :: ·)

/-- Decodes a chunk to `n` bytes; `none` is the weight-decode fault (R260). -/
def decodeChunk (lens : List Nat) (b : List Byte) (n : Nat) : Option (List Byte) :=
  match b with
  | [] => none
  | m :: rest =>
    if m = 1 then (if rest.length = n then some rest else none)
    else if m = 0 then readCodes lens (firstCodes lens 0 0 15) rest 0 n
    else none

/-- The decoded length of a chunk (R259). -/
def chunkLen (r : Region) (c : Nat) : Nat := min 4096 (r.declen - 4096 * c)

/-- Where a chunk stands in its image, by the offset table (R259). -/
def chunkSpan (s : State) (ctx : Nat) (r : Region) (c : Nat) : Except Fail (Nat × Nat) :=
  let n := cdiv r.declen 4096
  match engineBytes s (.global ctx) (r.image + 264 + 4 * c) (if c + 1 < n then 8 else 4) with
  | .error f => .error f
  | .ok o => .ok (ofLe (o.take 4), if c + 1 < n then ofLe (o.drop 4) else r.enclen)

/-- One chunk of a region's decoded view, or the cause of its fault (R238, R260). -/
def readChunk (s : State) (ctx : Nat) (r : Region) (c : Nat) : Except Fail (List Byte) :=
  match chunkSpan s ctx r c with
  | .error f => .error f
  | .ok (lo, hi) =>
    match engineBytes s (.global ctx) (r.image + lo) (hi - lo) with
    | .error f => .error f
    | .ok b => match decodeChunk r.lens b (chunkLen r c) with
      | none => .error ⟨0x32, 0⟩
      | some d => .ok d

/-- Bytes of a region's decoded view (R238), chunk by chunk. -/
def weightRead (s : State) (ctx : Nat) (r : Region) : Nat → Nat → Nat → Except Fail (List Byte)
  | 0, _, _ => .ok []
  | fuel + 1, off, n =>
    if n = 0 then .ok []
    else
      let k := min n (4096 - off % 4096)
      match readChunk s ctx r (off / 4096) with
      | .error f => .error f
      | .ok d => match weightRead s ctx r fuel (off + k) (n - k) with
        | .error f => .error f
        | .ok rest => .ok ((d.drop (off % 4096)).take k ++ rest)

/-- Bytes of region `id` as the context's binding has them. -/
def weightBytes (s : State) (ctx id off n : Nat) : Except Fail (List Byte) :=
  match (s.ctx ctx).regions.look id with
  | none => .error ⟨0x23, 0⟩
  | some r => weightRead s ctx r (n / 4096 + 2) off n

/-- A 64-bit counter never passes its largest value (R419). -/
def counterMax : Nat := 2 ^ 64 - 1

/-- Counts delivered weight bytes against their region (R240, R419). -/
def countWeight (s : State) (ctx id n : Nat) : State :=
  s.updCtx ctx fun k =>
    let v := k.bytes.lookD id 0 + n
    { k with bytes := k.bytes.put id (min v counterMax), sat := k.sat || counterMax < v }

end Sys2Proof.Machine
end

