-- ==== Sys2Proof/Machine/Access.lean ====
section
/-! DEFINITION. Accesses of a thread at issue: the address checks of R222, path 0x6 (R95, R372), windows (R233, R234), the range
scoreboard (R236), the outstanding-transaction table (R231), and the waits of fences and acquires (R316, R342). -/

namespace Sys2Proof.Machine

/-! ### Path 0x6 (R372) -/

/-- What a path-0x6 offset names. -/
inductive Porter where
  | binding (vec off : Nat)
  | queue (die q off : Nat)
  | door (m : Nat)
  deriving DecidableEq, Repr

/-- The width of a launch-queue register (R95). -/
def lqWidth (off : Nat) : Option Nat :=
  match off with
  | 0x00 | 0x20 => some 8
  | 0x08 | 0x10 | 0x18 | 0x28 | 0x2C | 0x30 | 0x34 => some 4
  | _ => none

/-- What an access of `n` bytes at an offset of path 0x6 reaches; `none` raises the address fault (R95, R372). -/
def porterAt (a n : Nat) : Option Porter :=
  if a < 0x10000 then (if n = 4 || n = 8 then some (.binding (a / 16) (a % 16)) else none)
  else if 0x01000000 ≤ a && a < 0x01040000 then
    let off := a % 256
    let q := a / 256 % 256
    if q < 16 && lqWidth off = some n then some (.queue (a / 0x10000 % 4) q off) else none
  else if 0x100000000 ≤ a && a < 0x100000000 + 0x1000 * 4096 then
    if a % 0x1000 = 0 && n = 4 then some (.door ((a - 0x100000000) / 0x1000)) else none
  else none

def queueKey (die q : Nat) : Nat := die * 16 + q
def State.queue (s : State) (die q : Nat) : Queue := s.queues.lookD (queueKey die q) {}
def State.setQueue (s : State) (die q : Nat) (x : Queue) : State := { s with queues := s.queues.put (queueKey die q) x }

/-- OWNER, DEVQ, EN, LGNR, LGN and PRIO (R96). -/
def Queue.owner (q : Queue) : Nat := bits q.cfg.toNat 31 20
def Queue.devq (q : Queue) : Bool := bit q.cfg.toNat 17
def Queue.en (q : Queue) : Bool := bit q.cfg.toNat 16
def Queue.lgnr (q : Queue) : Nat := bits q.cfg.toNat 15 11
def Queue.lgn (q : Queue) : Nat := bits q.cfg.toNat 10 6
def Queue.prio (q : Queue) : Nat := bits q.cfg.toNat 2 0

/-- A load from, or a store to, path 0x6 by a context: the fault it meets (R95, R372). -/
def porterFault (s : State) (ctx a n : Nat) (write : Bool) : Option Nat :=
  match porterAt a n with
  | none => some 0x23
  | some (.binding _ _) => if write then some 0x26 else none
  | some (.queue d q _) => if (s.queue d q).owner = ctx then none else some 0x26
  | some (.door m) => match s.doors.look m with
    | some x => if x.ctx = ctx then none else some 0x26
    | none => some 0x26

/-- The value of a launch-queue register (R95). -/
def lqRead (q : Queue) (off : Nat) : Nat :=
  match off with
  | 0x00 => q.base.toNat
  | 0x08 => q.cfg.toNat
  | 0x10 => q.sub.toNat
  | 0x18 => q.ack.toNat
  | 0x20 => q.rbase.toNat
  | 0x28 => q.rseq.toNat
  | 0x2C => q.rack.toNat
  | 0x30 => q.can.toNat
  | _ => q.stat.toNat

/-- The value a load of path 0x6 returns. -/
def porterRead (s : State) (a n : Nat) : Nat :=
  match porterAt a n with
  | some (.binding v off) =>
    let x := s.notify.lookD v {}
    (x.lo.toNat + 2 ^ 64 * x.hi.toNat) / 2 ^ (8 * off) % 2 ^ (8 * n)
  | some (.queue d q off) => lqRead (s.queue d q) off
  | some (.door m) => ((s.doors.look m).map fun x => x.value.toNat).getD 0
  | none => 0

/-! ### The store read view (R149) -/

def istoreFault (s : State) (ctx a : Nat) : Option Nat :=
  let k := s.ctx ctx
  if bits a 59 18 ≠ 0 then some 0x23
  else if a / 4096 < k.isbase || k.isbase + k.ispages ≤ a / 4096 then some 0x26
  else none

/-! ### Addresses (R221, R222, R226) -/

/-- The effective address of R226. -/
def Mb.addr (m : Mb) (base off : Opnd) : Nat :=
  truncInt 64 ((m.t.val (.int 64) base : Int) + sextNat 32 (m.t.val (.int 32) off))

/-- Bounds and SHADOW of a scratchpad range (R222, R264). -/
def padFault (s : State) (b : Block) (path off n : Nat) : Option Nat :=
  match (b.alloc path).bind fun i => (s.allocs.look i).map fun a => (i, a) with
  | none => some 0x25
  | some (i, a) =>
    if a.size < off + n then some 0x25
    else if inShadow s i off (off + n) then some 0x26
    else none

/-- The checks of R222 in order, for a block. A reserved selector raises the address fault of LD, ST and WAITMEM. -/
def addrCheck (s : State) (b : Block) (a n : Nat) (px : Option (Fin 8)) (paths : List Nat) (write : Bool) : Option Flt :=
  let sel := selOf a
  let off := offOf a
  let mk (c : Option Nat) : Option Flt := c.map fun c => ⟨c, a, 0⟩
  if 8 ≤ sel then some ⟨0x23, a, 0⟩
  else if (px.map (·.val)).getD sel ≠ sel then some ⟨0x24, a, 0⟩
  else if !paths.contains sel then some ⟨0x24, a, 0⟩
  else if a % n ≠ 0 then some ⟨0x23, a, 0⟩
  else match sel with
    | 0 => none
    | 1 | 2 | 3 => mk (padFault s b sel off n)
    | 4 => match (s.ctx b.ctx).regions.look (bits a 59 48) with
      | none => some ⟨0x23, a, 0⟩
      | some r => if r.declen < bits a 47 0 + n then some ⟨0x25, a, 0⟩ else none
    | 6 => mk (porterFault s b.ctx off n write)
    | 7 => mk (istoreFault s b.ctx off)
    | _ => none

/-- The same for an instruction whose own rule names the paths that it accepts, and the path fault for every other selector, reserved or not
(R174, R337, R346, R353). -/
def pathCheck (s : State) (b : Block) (a n : Nat) (px : Option (Fin 8)) (paths : List Nat) (write : Bool) : Option Flt :=
  if 8 ≤ selOf a then some ⟨0x24, a, 0⟩ else addrCheck s b a n px paths write

/-! ### The scoreboard and windows (R233 to R237) -/

/-- A command occupies the engine of its core's cluster (R256). -/
def POp.onEngine : POp → Bool
  | .copy _ _ copied _ => !copied
  | .wbind .. | .chain .. => true
  | _ => false

/-- Room in a cluster's copy engine. -/
def engineRoom (s : State) (core : Nat) : Bool :=
  (AMap.sel s.pend fun _ p => clusterOf p.core == clusterOf core && p.op.onEngine).length < Config.copyQueue

/-- Free entries of a core's scoreboard. -/
def holdRoom (s : State) (core n : Nat) : Bool := (s.core core).held.length + n ≤ Config.scoreboard

/-- Holds a range for an owner. -/
def hold (s : State) (core owner : Nat) (h : Option Held) : State :=
  match h with
  | none => s
  | some h => s.updCore core fun c => { c with held := c.held ++ [{ h with owner := owner }] }

/-- Releases the ranges of an owner. -/
def unheldCore (s : State) (core owner : Nat) : State :=
  s.updCore core fun c => { c with held := c.held.filter fun h => h.owner != owner }

/-- The range that a shape covers on a scratchpad path, as a scoreboard entry. -/
def rangeOf (s : State) (b : Block) (q : Shape) (back reads : Bool) : Option Held :=
  match b.alloc (ShapeOf.path q) with
  | none => none
  | some i =>
    let (lo, hi) := footprint q
    some { owner := 0, alloc := i, runs := runsOf s i lo.toNat hi.toNat back, reads := reads }

/-- The scratchpad range of a shape as an access. -/
def accOf (q : Shape) (write back : Bool) : List Acc :=
  let p := ShapeOf.path q
  if 1 ≤ p && p ≤ 3 then
    let (lo, hi) := footprint q
    [⟨p, lo.toNat, hi.toNat, write, back⟩]
  else []

/-- Two runs share a byte. -/
def Run.overlaps (r t : Run) : Bool := r.path == t.path && r.sp == t.sp && r.lo < t.hi && t.lo < r.hi

/-- What an engine command of a thread follows: the thread's stores in flight and those that it has observed on the bytes that the command reads, its
loads in flight on bytes that the command reads or writes, and its commands that still read bytes that this one writes. A device store waits for a
system-scope fence or release; the command reads through it (R225, R256, R313, R324). DEDUCED: log 41. -/
def engineAfter (s : State) (u : Nat) (reads writes : List Run) : List Nat :=
  let free (i : Nat) : Bool := !((s.stores.look i).map (·.held)).getD false
  let on (i : Nat) : Bool := (s.stores.look i).any fun st => reads.any fun r => r.meets s st
  (ownStores s u).filter free
    ++ (s.live (((s.threads.look u).map (·.obs)).getD [])).filter (fun i => free i && on i)
    ++ AMap.sel s.pend fun _ p => p.of u && ((match p.op.reads with
        | some (path, sp, start, n) => (reads ++ writes).any fun r => r.has s path sp start n
        | none => false)
      || (cmdReads s p).any (fun r => writes.any r.overlaps)
      || p.op.fars.any fun f => f.1 == s.steward.accid && (reads ++ writes).any fun r => r.has s 0 (.global p.ctx) f.2.1 f.2.2)

/-- A command listens to the loads that its thread has in flight: what they come to read counts as observed before it (R315). -/
def State.listen (s : State) (id u : Nat) : State :=
  { s with pend := s.pend.upd id fun p => { p with heard := (ownLoads s u).foldl NSet.add [] } }

/-- Memory as an engine reads it for a thread: a store to device memory is performed to its own thread before the device accepts it (R324). -/
def ownView (s : State) (th : Option Nat) : State :=
  if th.isNone || !s.stores.any (fun e => e.2.dev && e.2.th == th) then s
  else s.stores.foldl (fun v e =>
    if e.2.dev && e.2.th == th then match e.2.acc, resolve s e.2.space e.2.va e.2.off true with
      | .plain b, .ok (.device pa 1) => { v with device := v.device.writeN pa b }
      | _, _ => v
    else v) s

/-- Notes the route of an access as its thread issues it (R323), and what its walk leaves cached (R369). -/
def noteRoute (s : State) (u core : Nat) (sp : Space) (va off : Nat) (write : Bool) : State :=
  match resolve s sp va off write with
  | .ok l => useRoute (cacheUsed s sp va) (some u) core (locUnit s l)
  | .error _ => s

/-- Notes the route of a scalar access: path 0x6 leads to the Porter of the die (R323). -/
def noteAccess (s : State) (u : Nat) (b : Block) (a : Nat) (write : Bool) : State :=
  if selOf a = 6 then useRoute s (some u) b.core (some (porterUnit b.core))
  else noteRoute s u b.core (spaceOf b (selOf a)) a (offOf a) write

/-- Notes the routes of a run of lines of path 0x0, up to one that cannot be reached. -/
def noteSpan (s : State) (u core ctx : Nat) : Nat → Nat → State
  | 0, _ => s
  | k + 1, a => match resolve s (.global ctx) a a false with
    | .error _ => s
    | .ok l => noteSpan (useRoute (cacheUsed s (.global ctx) a) (some u) core (locUnit s l)) u core ctx k (a + 64)

/-- Notes the routes of `n` bytes of path 0x0. -/
def noteBytes (s : State) (u core ctx a n : Nat) : State := noteSpan s u core ctx (cdiv (a % 64 + n) 64) (a / 64 * 64)

/-- Notes the routes of the elements of a shape for a thread whose command is accepted (R323, R344): on path 0x0 their lines, on path 0x3 the
port, and on path 0x4 the lines of the image that hold them (R259). -/
def noteElems (s : State) (u : Nat) (b : Block) (q : Shape) (offs : List Nat) : State :=
  match ShapeOf.path q with
  | 0 => (runsOnce (offs.map (· / 64))).foldl (fun s l => noteRoute s u b.core (.global b.ctx) (l * 64) (l * 64) false) s
  | 3 => (offs.take 1).foldl (fun s o => noteRoute s u b.core (spaceOf b 3) o o false) s
  | 4 => match (s.ctx b.ctx).regions.look (ShapeOf.region q) with
    | none => s
    | some r => (runsOnce (offs.map (· % 2 ^ 48 / 4096))).foldl (fun s c =>
        let s := noteBytes s u b.core b.ctx (r.image + 264 + 4 * c) 8
        match chunkSpan s b.ctx r c with
        | .ok (lo, hi) => noteBytes s u b.core b.ctx (r.image + lo) (hi - lo)
        | .error _ => s) s
  | _ => s

/-- Notes the routes of every element of shapes. -/
def noteShapes (s : State) (u : Nat) (b : Block) (l : List Shape) : State :=
  l.foldl (fun s q => if (b.alloc (ShapeOf.path q)).isSome && ShapeOf.path q ≠ 3 then s else noteElems s u b q (elemOffs q)) s

/-- Notes the routes of a copy. -/
def noteCopy (s : State) (u : Nat) (b : Block) (c : Copy) : State :=
  let far (q : Shape) : Bool := (b.alloc (ShapeOf.path q)).isNone || ShapeOf.path q = 3
  let s := if far c.qs then noteElems s u b c.qs (srcOffs c) else s
  if far c.qd then noteElems s u b c.qd (dstOffs c) else s

/-- A shape of a block touches a publish buffer's VIEW. -/
def onView (b : Block) (p : Pub) (q : Shape) : Bool :=
  b.alloc (ShapeOf.path q) == some p.alloc && (let (lo, hi) := footprint q
    lo < (p.view + p.len : Nat) && (p.view : Nat) < hi)

/-- A PUBL in flight on a buffer that a shape touches: a command accepted after it waits for the swap (R265). -/
def swapDue (s : State) (b : Block) (q : Shape) : Bool :=
  s.pend.any fun (_, p) => match p.op with
    | .publ k .. => ((s.pubs.look k).map fun x => onView b x q).getD false
    | _ => false

/-- A fence of the thread holds back a later access on one of the paths, or an acquire has not completed (R316, R342). -/
def thrWaits (s : State) (t : Thread) (paths : List Nat) : Bool :=
  !(s.live t.acqs).isEmpty || t.fences.any fun f => paths.any fun p => bit f.mask p

/-- A fill waits to start: for a range that is held over what it reads or writes, a window over its source, a swap that is due on its shapes, a fence or
acquire of the touching thread, and room (R234, R236, R256, R265, R342). DEDUCED: log 41. -/
def fillWaits (s : State) (b : Block) (th : Option Nat) (c : Copy) (n : Nat) : Bool :=
  accWaits s b (accOf c.qs false false) || (accOf c.qd true true).any (heldBy s b) || swapDue s b c.qs || swapDue s b c.qd
    || ((th.bind s.threads.look).any fun t => thrWaits s t [ShapeOf.path c.qs, ShapeOf.path c.qd])
    || !engineRoom s b.core || !holdRoom s b.core n

/-- Starts the fill of an Absent window (R234), when nothing holds it back. Its accesses are those of the touching thread (R309). -/
def startFill (s : State) (blk win : Nat) (th : Option Nat) (pc : W32) : State :=
  match s.blocks.look blk with
  | none => s
  | some b => match b.windows[win]? with
    | none => s
    | some w => match w.copy with
      | none => s
      | some c =>
        let src := rangeOf s b c.qs false false
        let dst := (rangeOf s b c.qd true true).map fun h => { h with fill := true }
        let n := src.toList.length + dst.toList.length
        if w.st ≠ .absent || fillWaits s b th c n then s
        else
          let rd := [runOf s b c.qs]
          let wr := [runOf s b c.qd]
          let after := (th.map fun u => engineAfter s u rd wr).getD []
          let s := match th with
            | some u => noteCopy s u b c
            | none => s
          let (id, s) := s.newId
          let parts := th.toList.map fun u => { th := u, flag := none, dst := [], want := [] }
          let s := { s with pend := s.pend.put id { core := b.core, ctx := b.ctx, blk := blk, issue := id, lines := [],
                                                    at_ := s.clock, pc := pc, parts := parts, op := .wbind win (some c), after := after } }
          let s := match th with
            | some u => s.listen id u
            | none => s
          let s := hold (hold s b.core id src) b.core id dst
          s.updBlk blk fun b => { b with windows := b.windows.set win { w with st := .filling, th := th, pc := pc } }

/-- Touches: every Absent window that the ranges meet starts its fill, after the windows that its own source meets (R234, R268). -/
def touch (s : State) (blk : Nat) (th : Option Nat) (pc : W32) : Nat → List Acc → State
  | 0, _ => s
  | fuel + 1, l =>
    l.foldl (fun s x =>
      match s.blocks.look blk with
      | none => s
      | some b => (touchedWins b x).foldl (fun s i =>
        match (b.windows[i]?).bind (·.copy) with
        | some c => startFill (touch s blk th pc fuel (accOf c.qs false false)) blk i th pc
        | none => s) s) s

/-- The set waits only where it issues: no member that will issue fails its check. A member that takes the freed-register trap leaves the set
and is not checked (R40, R222). -/
def checksPass (i : Instr) (check : State → Mb → Option Flt) (s : State) (ms : List Mb) : Bool :=
  ms.all fun m => (freedTrap s i m).isSome || (check s m).isNone

/-! ### The outstanding-transaction table (R231) -/

/-- Entries in use on a core. -/
def tableUsed (s : State) (core : Nat) : Nat :=
  let a := (s.pend.filter fun e => e.2.core == core).flatMap fun e => e.2.lines.map fun l => (e.2.issue, l)
  let b := (s.stores.filter fun e => e.2.core == core).flatMap fun e => e.2.lines.map fun l => (e.2.issue, l)
  let c := (s.bells.filter fun e => e.2.core == core).flatMap fun e => e.2.lines.map fun l => (e.2.issue, l)
  (a ++ b ++ c).eraseDups.length

/-- The table lacks entries for an instruction's lines. -/
def tableFull (s : State) (core : Nat) (lines : List Nat) : Bool :=
  !lines.isEmpty && Config.tableEntries < tableUsed s core + lines.eraseDups.length

/-- The table line of an access, on the paths that take entries. -/
def tableLine (b : Block) (a : Nat) : List Nat :=
  match selOf a with
  | 0 | 4 | 5 | 6 => [a / 64]
  | 3 => [(b.a3.getD 0 + 1) * 2 ^ 64 + a / 64]
  | _ => []

/-! ### Waits for fences and acquires -/

/-- A member waits for its fences and acquires. -/
def memWaits (s : State) (m : Mb) (paths : List Nat) : Bool := thrWaits s m.t paths

/-- One scalar access of a member. -/
structure Req where
  addr : Nat
  n : Nat
  write : Bool
  deriving DecidableEq, Repr

/-- The scratchpad ranges of an access. -/
def Req.accs (r : Req) : List Acc :=
  let p := selOf r.addr
  if 1 ≤ p && p ≤ 3 then [⟨p, offOf r.addr, offOf r.addr + r.n, r.write, false⟩] else []

/-- The waits of a set of accesses: fences and acquires, the table, windows and the scoreboard. -/
def reqWaits (s : State) (f : Mb → Option Req) (ms : List Mb) : Bool :=
  let l := ms.filterMap fun m => (f m).map fun r => (m, r)
  l.any (fun (m, r) => memWaits s m [selOf r.addr] || accWaits s m.b r.accs)
    || tableFull s s.focus (l.flatMap fun (m, r) => tableLine m.b r.addr)

/-- The touches of a set of accesses. -/
def reqTouch (s : State) (f : Mb → Option Req) (ms : List Mb) : State :=
  ms.foldl (fun s m => match f m with
    | some r => touch s m.t.blk (some m.u) m.t.pc 16 r.accs
    | none => s) s

end Sys2Proof.Machine
end

