-- ==== Sys2Proof/Machine/MClass.lean ====
section
/-! DEFINITION. Class M on paths 0x0 to 0x4, 0x6 and 0x7, with SHLD and SHST: loads and stores (R226 to R231), waits on memory (R232),
atomics (R336 to R340), fences and probes (R342 to R344). -/

namespace Sys2Proof.Machine

/-! ### Shared shapes -/

/-- A member's access for an instruction with the operand layout of LD. -/
def reqOf (x : X) (n : Nat) (write : Bool) (m : Mb) : Req := { addr := m.addr x.sa x.sb, n := n, write := write }

/-- The address check of an instruction over the paths it accepts. -/
def reqCheck (x : X) (n : Nat) (px : Option (Fin 8)) (paths : List Nat) (write : Bool) (s : State) (m : Mb) : Option Flt :=
  addrCheck s m.b (m.addr x.sa x.sb) n px paths write

/-- The same for an instruction that gives every other selector the path fault. -/
def atomCheck (x : X) (n : Nat) (s : State) (m : Mb) : Option Flt :=
  pathCheck s m.b (m.addr x.sa x.sb) n none [0, 1, 2, 3] true

/-- An instruction whose active members each make one access: no member's check fails before any waits or touches. -/
def accessOp (i : Instr) (req : Mb → Option Req) (check : State → Mb → Option Flt) (more : State → List Mb → Bool)
    (effect : State → List Mb → State) (s : State) : Res :=
  issue i {
    wait := fun s ms => checksPass i check s ms && (reqWaits s req ms || more s ms),
    onWait := fun s ms => reqTouch s req ms,
    check := check,
    service := true,
    effect := effect } s

def noWait : State → List Mb → Bool := fun _ _ => false

/-! ### Loads (R227, R229) -/

/-- The offset that an access counts from its storage's start. -/
def storageOff (a : Nat) : Nat := if selOf a = 4 then bits a 47 0 else offOf a

/-- Issues one member's load; an acquire holds back the thread's later accesses until it lands. -/
def issueLoad (i : Instr) (t : ITy) (acq : Option Scope) (issue : Nat) (s : State) (m : Mb) (a : Nat) : State :=
  let path := selOf a
  let sp := spaceOf m.b path
  let off := storageOff a
  let start := if path = 0 then a else off
  let after := loadAfter s m.u path sp start t.bytes
  let s := noteAccess s m.u m.b a false
  let (id, s) := startOp s i m issue (tableLine m.b a) (.ld sp path a off t acq) after
  if acq.isSome then s.updThr m.u fun t => { t with acqs := NSet.add (s.live t.acqs) id } else s

/-- LD and LD.ACQ. -/
def loadOp (i : Instr) (x : X) (t : ITy) (px : Option (Fin 8)) (acq : Option Scope) (s : State) : Res :=
  accessOp i (fun m => some (reqOf x t.bytes false m)) (reqCheck x t.bytes px [0, 1, 2, 3, 4, 6, 7] false) noWait
    (fun s ms =>
      let (n, s) := s.newId
      ms.foldl (fun s m => issueLoad i t acq n s m (m.addr x.sa x.sb)) s) s

def execLd (x : X) (t : ITy) (px : Option (Fin 8)) (s : State) : Res := loadOp (.ld x t px) x t px none s
def execLdAcq (x : X) (sc : Scope) (t : ITy) (px : Option (Fin 8)) (s : State) : Res :=
  loadOp (.ldAcq x sc t px) x t px (some sc) s

/-! ### Stores (R228, R229) -/

/-- The Porter of a core's die has no room (R374). -/
def porterFull (s : State) (core n : Nat) : Bool :=
  Config.porterSlots < (AMap.sel s.bells fun _ b => b.die == dieOf core).length + n

/-- One member's store on paths 0x0 to 0x3. -/
def memStore (m : Mb) (issue : Nat) (a : Nat) (acc : Access) (rel : Option Scope) : Store :=
  { core := m.b.core, ctx := m.b.ctx, blk := m.t.blk, th := some m.u, issue := issue, lines := tableLine m.b a, pc := m.t.pc,
    space := spaceOf m.b (selOf a), path := selOf a, va := a, off := offOf a, acc := acc, ret := none, rel := rel, pfx := [],
    after := [] }

/-- Issues a store of any path: a store on path 0x6 goes to the Porter (R374), which keeps the issue order of a thread's stores (R225). -/
def storeTo (issue : Nat) (rel : Option Scope) (n : Nat) (s : State) (m : Mb) (a v : Nat) : State :=
  let s := noteAccess s m.u m.b a true
  if selOf a = 6 then
    let pfx := (rel.map (releaseWaits s m.u)).getD []
    let before := AMap.sel s.bells fun _ b => b.th == some m.u && b.ret.isNone
    let s := if rel = some .system then unhold s pfx else s
    let (id, s) := s.newId
    { s with bells := s.bells.put id { die := dieOf m.b.core, ctx := m.b.ctx, core := m.b.core, th := some m.u, issue := issue,
                                       lines := tableLine m.b a, wide := rel.any fun sc => !Scope.local sc, rel := rel, addr := offOf a,
                                       width := n, data := v % 2 ^ (8 * n), ret := none,
                                       waits := pfx ++ before ++ orderedLoads s m.u 6 (spaceOf m.b 6) (offOf a) n } }
  else (issueStore s (memStore m issue a (.plain (leBytes n v)) rel)).2

/-- ST and ST.REL. -/
def stOp (i : Instr) (x : X) (t : ITy) (px : Option (Fin 8)) (rel : Option Scope) (s : State) : Res :=
  accessOp i (fun m => some (reqOf x t.bytes true m)) (reqCheck x t.bytes px [0, 1, 2, 3, 6] true)
    (fun s ms => porterFull s s.focus (ms.filter fun m => selOf (m.addr x.sa x.sb) == 6).length)
    (fun s ms =>
      let (n, s) := s.newId
      ms.foldl (fun s m => storeTo n rel t.bytes s m (m.addr x.sa x.sb) (m.t.ival t x.sc)) s) s

def execSt (x : X) (t : ITy) (px : Option (Fin 8)) (s : State) : Res := stOp (.st x t px) x t px none s
def execStRel (x : X) (sc : Scope) (t : ITy) (px : Option (Fin 8)) (s : State) : Res :=
  stOp (.stRel x sc t px) x t px (some sc) s

/-! ### Shape registers in memory (R174, R176) -/

def shapeReq (x : X) (write : Bool) (m : Mb) : Req := { addr := m.addr x.sa .null, n := 64, write := write }

def shapeCheck (x : X) (write : Bool) (s : State) (m : Mb) : Option Flt :=
  pathCheck s m.b (m.addr x.sa .null) 64 none [0, 1, 2, 3] write

/-- SHLDs of one set to one register land in ascending lane order (R176). -/
def earlierShld (s : State) (blk q : Nat) : List Nat :=
  AMap.sel s.pend (fun _ p => p.blk == blk && match p.op with
    | .shld q' .. => q' == q
    | _ => false)

def execShld (x : X) (s : State) : Res :=
  accessOp (.shld x) (fun m => some (shapeReq x false m)) (shapeCheck x false) noWait
    (fun s ms =>
      let (n, s) := s.newId
      ms.foldl (fun s m =>
        let a := m.addr x.sa .null
        let path := selOf a
        let sp := spaceOf m.b path
        let off := offOf a
        let q := match x.dst with
          | .q k => k.val
          | _ => 0
        let after := loadAfter s m.u path sp (if path = 0 then a else off) 64 ++ earlierShld s m.t.blk q
        let s := noteAccess s m.u m.b a false
        (startOp s (.shld x) m n (tableLine m.b a) (.shld q sp path a off []) after).2) s) s

/-- SHST: eight stores of 8 bytes with no order among them. DEDUCED: log 43. -/
def execShst (x : X) (s : State) : Res :=
  accessOp (.shst x) (fun m => some (shapeReq x true m)) (shapeCheck x true) noWait
    (fun s ms =>
      let (n, s) := s.newId
      ms.foldl (fun s m =>
        let a := m.addr x.sa .null
        let v := (m.shape x.sb).toNat
        let s := noteAccess s m.u m.b a true
        let recs := (List.range 8).map fun k =>
          storeAfter s (memStore m n (a + 8 * k) (.plain (leBytes 8 (v / 2 ^ (64 * k)))) none)
        recs.foldl (fun s r =>
          let (id, s) := s.newId
          { s with stores := s.stores.put id r }) s) s) s

/-! ### Atomics (R336 to R340) -/

/-- How an atomic's operand is read (R336): as the MTYPE, but for the float adds. -/
def aopSrc (a : Aop) (t : ITy) : Src :=
  match a with
  | .fadd => .fp f32
  | .fadd2h => .packed f16
  | .fadd2b => .packed bf16
  | _ => .int t.width

/-- Order of an atomic: its release and acquire sides (R316). -/
def relOf (o : Ord4) (sc : Scope) : Option Scope := if o = .rel || o = .ar then some sc else none
def acqOf (o : Ord4) (sc : Scope) : Option Scope := if o = .acq || o = .ar then some sc else none

/-- Issues one member's ATOM or CAS: the operation at the point of coherence, and the old value it owes. -/
def issueAtomic (i : Instr) (t : ITy) (rel acq : Option Scope) (issue : Nat) (s : State) (m : Mb) (a : Nat) (acc : Access) : State :=
  let s := noteAccess s m.u m.b a true
  let (sid, s) := issueStore s (memStore m issue a acc rel)
  let (id, s) := startOp s i m issue (tableLine m.b a) (.atom sid t none acq) []
  let s := { s with stores := s.stores.upd sid fun st => { st with ret := some id } }
  if acq.isSome then s.updThr m.u fun t => { t with acqs := NSet.add (s.live t.acqs) id } else s

def execAtom (x : X) (sc : Scope) (o : Ord4) (a : Aop) (t : ITy) (s : State) : Res :=
  accessOp (.atom x sc o a t) (fun m => some (reqOf x t.bytes true m)) (atomCheck x t.bytes) noWait
    (fun s ms =>
      let (n, s) := s.newId
      ms.foldl (fun s m => issueAtomic (.atom x sc o a t) t (relOf o sc) (acqOf o sc) n s m (m.addr x.sa x.sb)
        (.rmw a t (m.t.val (aopSrc a t) x.sc))) s) s

def execRed (x : X) (sc : Scope) (rel : Bool) (a : Aop) (t : ITy) (s : State) : Res :=
  accessOp (.red x sc rel a t) (fun m => some (reqOf x t.bytes true m)) (atomCheck x t.bytes) noWait
    (fun s ms =>
      let (n, s) := s.newId
      ms.foldl (fun s m =>
        let ad := m.addr x.sa x.sb
        let s := noteAccess s m.u m.b ad true
        (issueStore s (memStore m n ad (.rmw a t (m.t.val (aopSrc a t) x.sc)) (if rel then some sc else none))).2) s) s

/-- The set bits of the low 64 bits of a mask. -/
def popMask (v : Nat) : Nat := ((List.range 64).filter fun i => bit v i).length

/-- REDM's member takes part: its bit of V is set (R340). -/
def redmIn (x : X) (m : Mb) : Bool := bit (m.t.val (.int 64) x.dst) m.t.lane

/-- REDM's rescaled operand (R340). -/
def redmValue (x : X) (m : Mb) : Nat :=
  (rescale .rne (m.t.val (.fp f32) x.sc) Config.lanes (popMask (m.t.val (.int 64) x.dst))).1

def execRedm (x : X) (sc : Scope) (rel : Bool) (s : State) : Res :=
  accessOp (.redm x sc rel) (fun m => if redmIn x m then some (reqOf x 4 true m) else none)
    (atomCheck x 4) noWait
    (fun s ms =>
      let (n, s) := s.newId
      ms.foldl (fun s m =>
        if redmIn x m then
          let ad := m.addr x.sa x.sb
          let s := noteAccess s m.u m.b ad true
          (issueStore s (memStore m n ad (.rmw .fadd .b32 (redmValue x m)) (if rel then some sc else none))).2
        else s) s) s

/-- CAS's address is the pair alone (R339). -/
def casReq (x : X) (t : ITy) (m : Mb) : Req := { addr := m.addr x.sa .null, n := t.bytes, write := true }

def execCas (x : X) (sc : Scope) (o : Ord4) (t : ITy) (s : State) : Res :=
  accessOp (.cas x sc o t) (fun m => some (casReq x t m))
    (fun s m => pathCheck s m.b (m.addr x.sa .null) t.bytes none [0, 1, 2, 3] true) noWait
    (fun s ms =>
      let (n, s) := s.newId
      ms.foldl (fun s m => issueAtomic (.cas x sc o t) t (relOf o sc) (acqOf o sc) n s m (m.addr x.sa .null)
        (.cas t.bytes (m.t.ival t x.sb) (m.t.ival t x.sc))) s) s

/-! ### WAITMEM (R232) -/

/-- The value WAITMEM reads, with the stores it reads from. -/
def waitRead (s : State) (x : X) (t : ITy) (m : Mb) : Except Fail (List Byte × List Nat) :=
  let a := m.addr x.sa x.sb
  readFwd s m.b.core (some m.u) (spaceOf m.b (selOf a)) a (offOf a) t.bytes

/-- The word still equals the expected value; a read that fails is left to the re-read (R230, R232). -/
def waitSleeps (s : State) (x : X) (t : ITy) (m : Mb) : Bool :=
  match waitRead s x t m with
  | .ok (b, _) => ofLe b == m.t.ival t x.sc
  | .error _ => true

/-- WAITMEM completes: the acquire, then the destination (R232). DEDUCED: log 33. -/
def waitDone (s : State) (i : Instr) (x : X) (acq : Bool) (sc : Scope) (t : ITy) (m : Mb) : State :=
  match waitRead s x t m with
  | .ok (b, from_) =>
    let a := m.addr x.sa x.sb
    let sp := spaceOf m.b (selOf a)
    let s := noteAccess s m.u m.b a false
    let s := observe s m.u (seenBy s m.u (if acq then some sc else none) from_ sp (if selOf a = 0 then a else offOf a) t.bytes)
    writeRegs s m.u (dstWords i.sig.dst x.dst (ITy.write t (ITy.value t (ofLe b))))
  | .error _ => s

def execWaitmem (x : X) (acq : Bool) (sc : Scope) (t : ITy) (s : State) : Res :=
  let i : Instr := .waitmem x acq sc t
  let req := fun m => some (reqOf x t.bytes false m)
  let check := reqCheck x t.bytes none [0, 1, 2, 3] false
  issue i {
    wait := fun s ms => checksPass i check s ms && (reqWaits s req ms || ms.any fun m =>
      let a := m.addr x.sa x.sb
      let start := if selOf a = 0 then a else offOf a
      !(loadAfter s m.u (selOf a) (spaceOf m.b (selOf a)) start t.bytes).isEmpty),
    onWait := fun s ms => reqTouch s req ms,
    check := check,
    service := true,
    sleeps := fun s m => waitSleeps s x t m,
    effect := fun s ms => ms.foldl (fun s m => waitDone s i x acq sc t m) s } s

/-! ### Fences and probes (R318, R319, R342 to R344) -/

/-- The fences that stood before what a thread has read, which a fence of it takes up: its mask holds the path of the store that was read, and the
scopes of the two fences are mutual (R318). -/
def takenBy (s : State) (u : Nat) (sc : Scope) (mask : Nat) : List Before :=
  (((s.threads.look u).map (·.preObs)).getD []).filter fun b =>
    bit mask b.path && inMutual s sc (placeOf s u) b.scope ⟨b.core, b.blk, b.gang⟩

/-- A fence of a thread: what it waits for at its scope (R310, R342); at gang and block scope its prefix, until it is performed to the core. -/
def addFence (s : State) (u : Nat) (sc : Scope) (mask : Nat) (isSc : Bool) : State :=
  let pre := takenBy s u sc mask
  let s := s.updThr u fun t => { t with
    obs := NSet.addAll (s.live t.obs) (s.live (pre.flatMap (·.pfx))),
    obsRoutes := NSet.addAll t.obsRoutes (pre.flatMap (·.rts)),
    preObs := t.preObs.filter fun b => !(s.live b.pfx).isEmpty }
  let pfx := (prefixOf s u).filter (inMaskId s mask)
  let rts := routesOf s u
  let s := if sc = .system then unhold s pfx else s
  let waits := if Scope.local sc then pfx else carriedAt s sc pfx ++ (probed s u sc).filter (inMaskId s mask)
  let (id, s) := s.newId
  let me := placeOf s u
  s.updThr u fun t => { t with
    fences := t.fences ++ [{ id := id, scope := sc, mask := mask, sc := isSc, waits := waits, pfx := pfx, rts := rts }],
    fenced := (t.fenced.filter fun b => !(s.live b.pfx).isEmpty) ++
      (if pfx.isEmpty then [] else [{ core := me.core, blk := me.blk, gang := me.gang, scope := sc, mask := mask, pfx := pfx, rts := rts }]) }

/-- FENCE and FENCE.SC: a later fence waits at issue for an earlier one (R342). -/
def fenceOp (i : Instr) (sc : Scope) (mask : Nat) (isSc : Bool) (s : State) : Res :=
  issue i {
    wait := fun _ ms => ms.any fun m => !m.t.fences.isEmpty,
    effect := fun s ms => ms.foldl (fun s m => addFence s m.u sc mask isSc) s } s

def execFence (x : X) (sc : Scope) (mask : Byte) (s : State) : Res := fenceOp (.fence x sc mask) sc mask.toNat false s
def execFenceSc (x : X) (sc : Scope) (s : State) : Res := fenceOp (.fenceSc x sc) sc 0xFF true s

/-- What a PROBE waits for: the traffic in flight on the routes that the thread and its commands have used and that end within the scope (R323,
R344). -/
def probeWaits (s : State) (u : Nat) (sc : Scope) : List Nat :=
  trafficOn s ((((s.threads.look u).map (·.routes)).getD []).filter (routeIn sc))

def execProbe (x : X) (sc : Scope) (s : State) : Res :=
  issue (.probe x sc) {
    effect := fun s ms =>
      let (n, s) := s.newId
      ms.foldl (fun s m =>
        let count := min 255 ((((s.threads.look m.u).map (·.routes)).getD []).filter (routeIn sc)).length
        let waits := probeWaits s m.u sc
        let (id, s) := startOp s (.probe x sc) m n [] (.probe waits count) []
        if count = 0 then landAll s id [0] else s) s } s

end Sys2Proof.Machine
end

