-- ==== Sys2Proof/Machine/Line.lean ====
section
/-! DEFINITION. The memory-side write queue and its line writes (R295, R296, R301, R308), with the counters and the versions of the counter
tree (R297, R298). -/

namespace Sys2Proof.Machine

def Frame.minorOf (f : Frame) (i : Nat) : Nat := f.minor.lookD i 0

/-- One line write of a frame: the four versions of its tree path rise, modulo their widths (R298). -/
def bumpTree (s : State) (frame : Nat) : State :=
  let up (m : AMap Nat) (k w : Nat) : AMap Nat := m.put k ((m.lookD k 0 + 1) % 2 ^ w)
  { s with ver1 := up s.ver1 frame 40, ver2 := up s.ver2 (frame / 8) 56, ver3 := up s.ver3 (frame / 64) 56,
           root := up s.root (frame / 512) 64 }

def linesOf (frame : Nat) : List Nat := (List.range 64).map (frame * 64 + ·)

/-- MAJOR would pass its largest value: the frame is poisoned whole (R301). -/
def poisonFrame (s : State) (frame : Nat) : State :=
  { s with poison := NSet.addAll s.poison (linesOf frame), frames := s.frames.upd frame fun f => { f with zp := false } }

/-- MAJOR can still rise. -/
def Frame.fresh (f : Frame) : Bool := f.major + 1 < 2 ^ 64

/-- The ZP initialisation of a frame (R301): lines that reads returned as zero, or as what was accepted since, stand encrypted. -/
def initFrame (s : State) (frame : Nat) (f : Frame) : State :=
  bumpTree { s with
    frames := s.frames.put frame { f with zp := false, major := f.major + 1, minor := [] },
    poison := s.poison.filter fun l => l / 64 != frame } frame

/-- The ordinary line write, or the forced re-encryption where the minor counter stands at 127 (R301). -/
def countLine (s : State) (line : Nat) : State :=
  let frame := line / 64
  let i := line % 64
  let f := s.frames.lookD frame {}
  if f.minorOf i = 127 then
    if f.fresh then bumpTree { s with frames := s.frames.put frame { f with major := f.major + 1, minor := [(i, 1)] } } frame
    else poisonFrame s frame
  else bumpTree { s with frames := s.frames.put frame { f with minor := f.minor.put i (f.minorOf i + 1) } } frame

/-- The first pending entry of a line leaves the queue. -/
def popLine (l : List LineWr) (line : Nat) : Option (LineWr × List LineWr) :=
  match l with
  | [] => none
  | w :: rest => if w.line = line then some (w, rest) else (popLine rest line).map fun (x, r) => (x, w :: r)

/-- A partial write of a line that does not check is discarded, and the line's tag is stored inverted: it stays poison, with the content that it
had (R301, R303). DESIGN CHOICE: log 15. -/
def discardLine (s : State) (line : Nat) (old : List Byte) : State :=
  let s := { s with poison := NSet.add s.poison line }
  match popLine s.wq line with
  | some _ => { s with wq := s.wq.modify (s.wq.findIdx (·.line == line)) fun w => { w with old := old } }
  | none => { s with hbm := s.hbm.writeN (line * 64) old }

/-- The reductions pending to a line whose line write forces a re-encryption are part of that step (R308). -/
def mergePending (s : State) (line : Nat) (f : Frame) : State :=
  if f.minorOf (line % 64) = 127 then { s with wq := s.wq.filter fun w => !(w.line == line && w.red) } else s

/-- The line as the array holds it does not check (R300 to R302). -/
def arrayPoison (s : State) (line : Nat) (f : Frame) : Bool :=
  !s.frames.has (line / 64) || !s.keys.has f.keyid || treeFailed s (line / 64) || s.poison.contains line

/-- The line write of the first entry of a line (R301): all 64 bytes replace what stands there; other bytes are merged with what checks, and
a line that does not check stays poison and touches no counter. -/
def lineWrite (s : State) (line : Nat) : State :=
  match popLine s.wq line with
  | none => s
  | some (w, rest) =>
    let s := { s with wq := rest }
    let frame := line / 64
    let f := s.frames.lookD frame {}
    if f.zp && !f.fresh then poisonFrame s frame
    else
      let s := if f.zp then initFrame s frame f else s
      let f := s.frames.lookD frame {}
      if w.full then countLine { mergePending s line f with poison := s.poison.filter (· != line) } line
      else if arrayPoison s line f then discardLine s line w.old
      else countLine (mergePending s line f) line

/-! ### Room in the queue (R295) -/

/-- Lines that wait in a controller's write queue (R295). -/
def queued (s : State) (ctrl : Nat) : Nat := (s.wq.filter fun w => ownerOf (w.line * 64) == ctrl).length

/-- The controller has room. DEDUCED: log 46. -/
def queueRoom (s : State) (l : Loc) : Bool :=
  match l with
  | .hbm pa => queued s (ownerOf pa) < Config.writeQueue
  | _ => true

/-- A requester that is not an instruction waits for room: the controller's oldest entry is written first. DEDUCED: log 46. -/
def makeRoom (s : State) (l : Loc) : State :=
  match l with
  | .hbm pa =>
    if queueRoom s l then s
    else match s.wq.find? fun w => ownerOf (w.line * 64) == ownerOf pa with
      | some w => lineWrite s w.line
      | none => s
  | _ => s

/-- Every line write that a frame still owes. -/
def drainFrame (s : State) (frame : Nat) : State :=
  (s.wq.filter fun w => w.line / 64 == frame).foldl (fun s w => lineWrite s w.line) s

end Sys2Proof.Machine
end

