-- ==== Sys2Proof/Machine/Engine.lean ====
section
/-! DEFINITION. Commands of X and T instructions: members are served one by one in lane order, so that a member whose command
finds no room waits while the earlier ones stand accepted (R22, R255, R271); and engine reads and writes of shapes (R68, R250,
R264, R266, R296). -/

namespace Sys2Proof.Machine

/-- What a command instruction adds to the common issue, for one member at a time. -/
structure Seq where
  wait : State → Mb → Bool := fun _ _ => false
  onWait : State → Mb → State := fun s _ => s
  check : State → Mb → Option Flt := fun _ _ => none
  service : Bool := false
  effect : State → Mb → State

/-- A member with its block as it stands now. -/
def refresh (s : State) (m : Mb) : Mb :=
  match s.threads.look m.u, s.blocks.look m.t.blk with
  | some t, some b => { m with t := t, b := b }
  | _, _ => m

/-- The PC after the instruction at the gathered set's slot. -/
def setNext (s : State) (i : Instr) (g : Gather) : W32 :=
  afterPc (s.core s.focus) (curHeader s g) g.off (g.slot + slotsOf i)

/-- Marks a member as served; it stands at the next instruction (R22). -/
def markServed (s : State) (next : W32) (u : Nat) : State :=
  (s.updCore s.focus fun c => { c with gather := c.gather.map fun g => { g with served := g.served ++ [u] } }).updThr u
    fun t => { t with pc := next, stall := none }

/-- A member that single-steps leaves once its command is accepted: it has retired the instruction (R392, R397). -/
def stepServed (s : State) (next : W32) (m : Mb) : State :=
  if m.t.ss then leaveFor s m.u { cause := 3, code := 0, flags := 0, detail := m.t.pc.toNat, rpc := next } else s

/-- Serves members in lane order until one must wait; true when all are served. DESIGN CHOICE: log 23. -/
def serveAll (i : Instr) (sp : Seq) (next : W32) : List Mb → State → State × Bool
  | [], s => (s, true)
  | m :: ms, s =>
    let m := refresh s m
    if sp.wait s m then (sp.onWait s m, false)
    else serveAll i sp next ms (stepServed (markServed (sp.effect (freeRegs s i [m]) m) next m.u) next m)

/-- The common issue of an instruction that hands one command per member to an engine. -/
def issueSeqS (i : Instr) (sp : Seq) (s : State) : State :=
  match (s.core s.focus).gather with
  | none => s
  | some g =>
    let ms := membersOf s g
    let act := (active i ms).filter fun m => !g.served.contains m.u
    if mustWait s i act then stallSet s (ms.filter fun m => !g.served.contains m.u)
    else
      let traps := act.filterMap fun m => (freedTrap s i m).map fun r => (m.u, r)
      let act := act.filter fun m => !(traps.map (·.1)).contains m.u
      let dry : Spec := { service := sp.service }
      match faultSet s i dry act (fun m => if liveAfter m.t i > m.b.maxlive then some ⟨0x2D, 0, 0⟩ else none) with
      | some s' => s'
      | none =>
        match faultSet s i dry act (sp.check s) with
        | some s' => s'
        | none =>
          match serveAll i sp (setNext s i g) act s with
          | (s, false) => stallSet s (ms.filter fun m => !g.served.contains m.u)
          | (s, true) =>
            let served := g.served ++ act.map (·.u)
            let idle := ms.filter fun m => !served.contains m.u && !(traps.map (·.1)).contains m.u
            let s := freeRegs s i idle
            let s := traps.foldl (fun s (u, r) => leaveFor s u r) s
            advance s i g (ms.filter fun m => !(traps.map (·.1)).contains m.u) []

def issueSeq (i : Instr) (sp : Seq) (s : State) : Res := .next (issueSeqS i sp s)

/-- A result that is known at issue and owes no flag is written at once (R37). -/
def writeNow (s : State) (i : Instr) (m : Mb) (v : Nat) : State := writeRegs s m.u (dstWords i.sig.dst i.x.dst v)

/-- A variable-latency instruction whose result is known at issue raises its flag, and lowers it when the result lands (R44). DESIGN CHOICE: log 24. -/
def answerAt (s : State) (i : Instr) (m : Mb) (key : Option Nat) (v : Nat) : State :=
  let (n, s) := s.newId
  (startOp s i m n [] (.answer key ((dstWords i.sig.dst i.x.dst v).map (·.2))) []).2

/-- DESIGN CHOICE: log 24. -/
def answer (s : State) (i : Instr) (m : Mb) (v : Nat) : State := answerAt s i m none v

/-- The answer's flag may fall: for BAR.EXP, once the arrival no longer owes its prefix (R266, R332). -/
def answerDue (s : State) (p : Pend) (key : Option Nat) : Bool :=
  key.all fun k => !(s.bars.lookD k {}).owing.any fun w => p.of w.1

/-- An answer lands, at a free moment (R44). DESIGN CHOICE: log 24. -/
def landAnswer (s : State) (id : Nat) : State :=
  match s.pend.look id with
  | none => s
  | some p => match p.op with
    | .answer key vals => if answerDue s p key then landAll s id vals else s
    | _ => s

/-! ### Elements (R68, R250) -/

/-- A path-0 fault met by an engine is the copy fault; poison keeps its own cause (R251, R303), and so does a page that is not present, which
page service may map for a TCOPY (R404). DEDUCED: log 21. -/
def engineFail (path : Nat) (f : Fail) : Fail := if path = 0 && f.cause ≠ 0x29 && f.cause ≠ 0x35 then ⟨0x28, 0⟩ else f

/-- The same for a command that page service does not resume. -/
def Fail.unserved (f : Fail) : Fail := if f.cause = 0x35 then ⟨0x28, 0⟩ else f

/-- Bytes that an engine reads at an offset of a shape's path: accepted stores only, the front half of a publish view. -/
def engineAt (s : State) (b : Block) (q : Shape) (off n : Nat) : Except Fail (List Byte) :=
  let path := ShapeOf.path q
  match b.alloc path with
  | some i => match s.allocs.look i with
    | none => .error ⟨0x25, 0⟩
    | some a => if a.size < off + n then .error ⟨0x25, 0⟩ else .ok (allocRead s i off n)
  | none =>
    if path = 4 then weightBytes s b.ctx (ShapeOf.region q) (off % 2 ^ 48) n
    else match engineBytes s (.global b.ctx) off n with
      | .ok x => .ok x
      | .error f => .error (engineFail path f)

/-- An element as raw bits. -/
def elemRead (s : State) (b : Block) (q : Shape) (idx : List Int) : Except Fail Nat :=
  let w := fmtBits (ShapeOf.fmt q)
  let (off, sh) := elemAt q idx
  match engineAt s b q off (elemBytes w sh) with
  | .ok x => .ok (ofLe x / 2 ^ sh % 2 ^ w)
  | .error f => .error f

/-- Bytes still to be written by offset: value and mask (R68). -/
abbrev Cells := AMap (Nat × Nat)

/-- Lays `n` bits of a value at a bit of an offset. -/
def layBits (m : Cells) (off sh n v : Nat) : Cells :=
  let x := v % 2 ^ n * 2 ^ sh
  let k := (2 ^ n - 1) * 2 ^ sh
  (List.range (cdiv (sh + n) 8)).foldl (fun m i =>
    let (v0, k0) := m.lookD (off + i) (0, 0)
    let kb := k / 2 ^ (8 * i) % 256
    m.put (off + i) ((v0 &&& (255 - kb)) + x / 2 ^ (8 * i) % 256, k0 ||| kb)) m

/-- Lays an element. -/
def layElem (m : Cells) (q : Shape) (idx : List Int) (v : Nat) : Cells :=
  let (off, sh) := elemAt q idx
  layBits m off sh (fmtBits (ShapeOf.fmt q)) v

/-- A byte merged under its mask. -/
def mergeByte (old : Byte) (v k : Nat) : Byte := BitVec.ofNat 8 ((old.toNat &&& (255 - k)) + v % 256)

/-- The bytes that one engine command writes to one line make one line write (R296). -/
def hbmWriteCells (s : State) (line : Nat) (cs : Cells) : State :=
  if cs.length = 64 && cs.all (fun c => c.2.2 == 255) then
    hbmWriteLine s (line * 64) (cs.map fun c => BitVec.ofNat 8 c.2.1) false
  else
    let s := enqueueLine s line false false
    { s with hbm := cs.foldl (fun m c => m.write c.1 (mergeByte (m.read c.1) c.2.1 c.2.2)) s.hbm }

/-- Who an engine writes for: the operation in flight, with its thread. -/
structure Writer where
  core : Nat
  ctx : Nat
  blk : Nat
  th : Option Nat
  pc : W32
  /-- DETAIL and DETAIL2 of a record that names it (R401). -/
  detail : Nat := 0
  detail2 : Nat := 0
  deriving DecidableEq, Repr

def Pend.writer (p : Pend) : Writer :=
  { core := p.core, ctx := p.ctx, blk := p.blk, th := (p.parts.head?).map (·.th), pc := p.pc, detail2 := p.wrote }

/-- The stop record of an engine of a core or cluster (R401), at the command's PC. -/
def engineStop (s : State) (w : Writer) (engine unit cause va detail detail2 : Nat) : Stop :=
  let t := w.th.bind s.threads.look
  let b := s.blocks.look w.blk
  { engine := engine, cause := cause, unit := unit, pc := w.pc, va := va, detail := detail, detail2 := detail2,
    lane := (t.map (·.lane)).getD 255, tid := (t.map (·.tid)).getD 0xFFFFFFFF, block := (b.map (·.blockId)).getD 0xFFFFFFFF,
    grid := (((b.bind (·.grid)).bind s.grids.look).map (·.gridId)).getD 0xFFFFFFFF, lcyc := s.lcyc w.core }

/-- An engine's byte for device memory, or for a BAR, is a store of the thread that a system-scope fence or release carries (R256, R324). -/
def deviceCell (s : State) (w : Writer) (va v k : Nat) : State :=
  let old := match readFwd s w.core w.th (.global w.ctx) va va 1 with
    | .ok (b, _) => b.getD 0 0
    | .error _ => 0
  (issueStore s { core := w.core, ctx := w.ctx, blk := w.blk, th := w.th, issue := 0, lines := [], pc := w.pc, space := .global w.ctx,
                  path := 0, va := va, off := va, acc := .plain [if k = 255 then BitVec.ofNat 8 v else mergeByte old v k], ret := none, rel := none,
                  pfx := [], after := [] }).2

/-- What an engine's write to one line came to. -/
inductive LineEnd where
  | ok (s : State)
  | full
  | fail (f : Fail)
  deriving DecidableEq, Repr

/-- One line of an engine's global write, by its virtual line address: written, stopped by a full queue (R295), or the fault. -/
def globalLine (s : State) (w : Writer) (va : Nat) (cs : Cells) : LineEnd :=
  match resolve s (.global w.ctx) va va true with
  | .error f => .fail (engineFail 0 f)
  | .ok (.hbm pa) =>
    if !queueRoom s (.hbm pa) then .full
    else
      let at_ (c : Nat × Nat × Nat) : Nat := pa / 64 * 64 + c.1 % 64
      let route := (locUnit s (.hbm pa)).map (routeKey w.core)
      .ok (hbmWriteCells (cs.foldl (fun s c => noteTrace (cutRels s (.hbm (at_ c)) 1) (.hbm (at_ c)) 1 route) s) (pa / 64)
        (cs.map fun c => (at_ c, c.2)))
  | .ok (.device _ _) => .ok (cs.foldl (fun s c => deviceCell s w c.1 c.2.1 c.2.2) s)
  | .ok _ => .ok s

/-- What an engine's writes came to: the state, bytes written, whether a full queue stopped them, and the fault that did, with its address. -/
structure Wrote where
  s : State
  bytes : Nat := 0
  full : Bool := false
  fail : Option (Fail × Nat) := none
  deriving DecidableEq, Repr

/-- Lowers the pending-byte counters of the barriers whose watches hold an offset (R266). The flag is set where a counter would
fall below zero, which is barrier misuse (R267). -/
def watchByte (acc : AMap Barrier × Bool) (alloc off : Nat) : AMap Barrier × Bool :=
  acc.1.foldl (fun acc e =>
    let n := (e.2.watch.filter fun w => w.1 == alloc && w.2.1 ≤ off && off < w.2.2).length
    if n = 0 then acc
    else (acc.1.put e.1 { e.2 with pendb := e.2.pendb - n }, acc.2 || e.2.pendb < n)) acc

/-- Counts the bytes that an engine wrote against watches, and tests the phases; the misuse is recorded for that engine, with the details of its command
(R267, R401). -/
def watchBytes (s : State) (w : Writer) (engine : Nat) (alloc : Nat) (offs : List Nat) : State :=
  let (bars, bad) := offs.foldl (fun acc o => watchByte acc alloc o) (s.bars, false)
  let s := testBars { s with bars := bars }
  if bad then raiseFault s w.ctx { stop := engineStop s w engine (if engine = 3 then clusterOf w.core else w.core) 0x2B 0 w.detail (w.detail2 + if engine = 3 then offs.length else 0) }
  else s

/-- Inserts by a number. -/
def insertNum {α : Type} (x : Nat × α) : List (Nat × α) → List (Nat × α)
  | [] => [x]
  | y :: l => if x.1 ≤ y.1 then x :: y :: l else y :: insertNum x l

/-- The elements of a command in a free order, since none is defined (R250). DEDUCED: log 20. -/
def shuffled {α : Type} (s : State) (l : List α) : List α :=
  ((l.zipIdx.map fun e => (Config.place s.fresh e.2, e.1)).foldr insertNum []).map (·.2)

/-- Elements that share no byte may be taken as they stand; others come in a free order (R250). DEDUCED: log 20. -/
def inSomeOrder {α : Type} (s : State) (apart : Bool) (l : List α) : List α :=
  if apart then l else shuffled s l

/-- Writes global lines one after another, up to one that faults or finds its queue full. -/
def writeLines (s : State) (wr : Writer) (cells : Cells) (lines : List Nat) : Wrote :=
  lines.foldl (fun w l =>
    if w.fail.isSome || w.full then w
    else
      let cs := cells.filter fun c => c.1 / 64 == l
      match globalLine w.s wr (l * 64) cs with
      | .ok s => { w with s := s, bytes := w.bytes + cs.length }
      | .full => { w with full := true }
      | .fail f => { w with fail := some (f, (cs.head?.map (·.1)).getD 0) }) { s := s }

/-- A byte of an engine's write to a scratchpad, in the half of a publish view that it reaches (R264). -/
def padCell (s : State) (alloc : Nat) (own : Bool) (route : Option Nat) (c : Nat × Nat × Nat) : State :=
  let at_ := viewOff s alloc c.1 (!own)
  let old := ((s.allocs.look alloc).map fun a => a.mem.read at_).getD 0
  let s := if at_ = viewOff s alloc c.1 false then cutRels s (.alloc alloc c.1) 1 else s
  let s := noteTrace s (.alloc alloc at_) 1 route
  allocWrite s alloc c.1 [mergeByte old c.2.1 c.2.2] (!own)

/-- An engine writes bytes of a shape's path: the back half of a publish view, counted by watches, unless the writes are a thread's
own stores (ACCST, R288). Where a global line faults, a free order says which lines were written before it (R251); where a queue is full, the
engine waits with the rest (R295). -/
def engineWrite (s : State) (b : Block) (wr : Writer) (engine path : Nat) (cells : Cells) (own : Bool) : Wrote :=
  match b.alloc path with
  | some i =>
    let route := (locUnit s (.alloc i 0)).map (routeKey wr.core)
    let s' := cells.foldl (fun s c => padCell s i own route c) s
    { s := if own then s' else watchBytes s' wr engine i cells.keys, bytes := cells.length }
  | none =>
    let lines := (cells.map fun c => c.1 / 64).eraseDups
    let w := writeLines s wr cells lines
    if w.full then { s := s, full := true }
    else if w.fail.isSome then writeLines s wr cells (shuffled s lines) else w

/-! ### Commands in flight -/

def pubKey (alloc n : Nat) : Nat := alloc * 16 + n

/-- Commands in flight on a publish buffer (R265). -/
def cmdsOn (s : State) (p : Pub) : List Nat :=
  AMap.sel s.pend fun _ x => match s.blocks.look x.blk with
    | none => false
    | some b => (cmdShapes s x).any fun (q, _) => onView b p q

/-! ### Common checks of shapes (R69, R222, R239, R251) -/

/-- PATH is 0x4 and REGION differs from BASE[59:48] (R239). -/
def regionOk (q : Shape) : Bool := ShapeOf.path q ≠ 4 || ShapeOf.region q == bits (ShapeOf.base q) 59 48

/-- A byte of some elements of a shape lies in a SHADOW range (R264). -/
def elemsShadow (s : State) (alloc : Nat) (q : Shape) (l : List (List Int)) : Bool :=
  s.pubs.any (fun e => e.2.alloc == alloc) && l.any fun i =>
    let (o, sh) := elemOff q i
    inShadow s alloc o.toNat (o.toNat + elemBytes (fmtBits (ShapeOf.fmt q)) sh)

/-- A shape over extents reaches a byte of a SHADOW range: by its elements, where its footprint meets one (R264). -/
def shadowHit (s : State) (alloc : Nat) (q : Shape) (ext : List Nat) : Bool :=
  let (lo, hi) := footprintOf q ext
  inShadow s alloc lo.toNat hi.toNat && elemsShadow s alloc q ((indices ext).map (·.map Int.ofNat))

/-- The address and bounds checks of R251 on a shape's footprint over extents, and whether it reaches a SHADOW range. DEDUCED: log 19. -/
def footFaultBy (s : State) (b : Block) (q : Shape) (ext : List Nat) (shadow : Nat → Bool) : Option Flt :=
  let path := ShapeOf.path q
  let (lo, hi) := footprintOf q ext
  let va := path * 2 ^ 60 + ShapeOf.base q
  if path = 4 then
    match (s.ctx b.ctx).regions.look (ShapeOf.region q) with
    | none => some ⟨0x23, va, 0⟩
    | some r =>
      let base : Int := bits (ShapeOf.base q) 59 48 * 2 ^ 48
      if lo < base || base + r.declen < hi then some ⟨0x25, va, 0⟩ else none
  else if 1 ≤ path && path ≤ 3 then
    match (b.alloc path).bind s.allocs.look with
    | none => some ⟨0x25, va, 0⟩
    | some a =>
      if lo < 0 || (a.size : Int) < hi then some ⟨0x25, va, 0⟩
      else if shadow ((b.alloc path).getD 0) then some ⟨0x26, va, 0⟩ else none
  else none

/-- The same for every element of the extents. DEDUCED: log 19. -/
def footFaultOf (s : State) (b : Block) (q : Shape) (ext : List Nat) : Option Flt :=
  footFaultBy s b q ext fun i => shadowHit s i q ext

/-- The same over the shape's own sizes. -/
def footFault (s : State) (b : Block) (q : Shape) : Option Flt := footFaultOf s b q (sizes q)

end Sys2Proof.Machine
end

