-- ==== Sys2Proof/Machine/Copy.lean ====
section
/-! DEFINITION. Tile copies (R250, R251, R254 to R256), window fills (R234, R257), chains (R262, R263), publish swaps (R265) and code
tables (R261): what each command does when it completes. -/

namespace Sys2Proof.Machine

/-! ### Checks at issue -/

/-- The elements that a copy reads. -/
def copySources (c : Copy) : List (List Int) := ((indices (copyExt c.qs)).map (copySrc c)).filter (inside c.qs)

/-- A copy reads a byte of a SHADOW range: by the elements of its tile, which stands at its origin (R250, R264). -/
def copyShadow (s : State) (alloc : Nat) (c : Copy) : Bool := elemsShadow s alloc c.qs (copySources c)

/-- R69, and R251 in the order of its table, for a copy whose destination lies on a path from `low` up. DEDUCED: log 22. -/
def copyCheck (s : State) (b : Block) (low : Nat) (c : Copy) : Option Flt :=
  let qd := c.qd
  let qs := c.qs
  let e := copyExt qs
  let n := ShapeOf.ndim qs
  let narrow := fmtBits (ShapeOf.fmt qs) < 8
  if !shapeOk qd || !shapeOk qs || !regionOk qd || !regionOk qs then some ⟨0x27, 0, 0⟩
  else if ShapeOf.fmt qd ≠ ShapeOf.fmt qs || ShapeOf.ndim qd ≠ n
    || (List.range n).any (fun k => ShapeOf.size qd k ≠ e.getD k 1)
    || (List.range 2).any (fun k => ShapeOf.halo qs k ≠ 0 && ShapeOf.tile qs k = 0)
    || (List.range n).any (fun k => ShapeOf.stride qd k = 0 && 1 < e.getD k 1 && !(k = 0 && narrow))
  then some ⟨0x27, 0, 0⟩
  else if ShapeOf.path qd < low || 3 < ShapeOf.path qd || 4 < ShapeOf.path qs then some ⟨0x24, 0, 0⟩
  else if ShapeOf.path qs = 4 && !(s.ctx b.ctx).regions.has (ShapeOf.region qs) then footFault s b qs
  else (footFault s b qd).or (footFaultBy s b qs e fun i => copyShadow s i c)

/-! ### The copy (R250) -/

/-- A copy as it gathers its elements: the bytes to write, or the fault. -/
structure Gathered where
  cells : Cells := []
  fail : Option (Fail × Nat) := none
  deriving DecidableEq, Repr

/-- A command may read bytes that it has written: its shapes share storage, and no publish view keeps their halves apart. -/
def onItself (s : State) (b : Block) (qd qs : Shape) : Bool :=
  ShapeOf.path qd = ShapeOf.path qs && (footprint qd).1 < (footprint qs).2 && (footprint qs).1 < (footprint qd).2
    && !(s.pubs.any fun (_, p) => onView b p qd)

/-- An element as the bytes that a command has laid so far leave it. -/
def elemOver (s : State) (b : Block) (m : Cells) (q : Shape) (idx : List Int) : Except Fail Nat :=
  let w := fmtBits (ShapeOf.fmt q)
  let (off, sh) := elemAt q idx
  match engineAt s b q off (elemBytes w sh) with
  | .ok x => .ok (ofLe (x.zipIdx.map fun e => let c := m.lookD (off + e.2) (0, 0); mergeByte e.1 c.1 c.2) / 2 ^ sh % 2 ^ w)
  | .error f => .error f

/-- Moves one element of a copy; a copy onto itself reads what it has laid (R250). -/
def copyElem (s : State) (b : Block) (c : Copy) (self : Bool) (g : Gathered) (j : List Nat) : Gathered :=
  if g.fail.isSome then g
  else
    let i := copySrc c j
    if inside c.qs i then
      match if self then elemOver s b g.cells c.qs i else elemRead s b c.qs i with
      | .error f => { g with fail := some (f, ShapeOf.path c.qs * 2 ^ 60 + (elemAt c.qs i).1) }
      | .ok v => { g with cells := layElem g.cells c.qd (ints j) v }
    else { g with cells := layElem g.cells c.qd (ints j) 0 }

/-- Some element of a copy is zero-filled (R254). -/
def copyClips (c : Copy) : Bool := (indices (copyExt c.qs)).any fun j => !inside c.qs (copySrc c j)

/-- The bytes of the decoded view under some elements of a shape on path 0x4, each once (R240). -/
def viewBytes (q : Shape) (l : List (List Int)) : NSet :=
  if ShapeOf.path q ≠ 4 then []
  else l.foldl (fun m i =>
    let (off, sh) := elemAt q i
    m.addAll ((List.range (elemBytes (fmtBits (ShapeOf.fmt q)) sh)).map (off + ·))) []

/-- Those that a copy reads. -/
def copyReads (c : Copy) : NSet := viewBytes c.qs (copySources c)

/-- The destination line of an element. -/
def lineOfElem (qd : Shape) (j : List Nat) : Nat := (elemAt qd (ints j)).1 / 64

/-- The elements of a command that are still to be moved. -/
def remaining (qd : Shape) (ext : List Nat) (landed : NSet) : List (List Nat) :=
  if landed.isEmpty then indices ext else (indices ext).filter fun j => !landed.contains (lineOfElem qd j)

/-- Every element of the destination has bytes of its own. -/
def apart (q : Shape) : Bool :=
  let w := fmtBits (ShapeOf.fmt q)
  let offs := (indices (sizes q)).map fun j => elemAt q (ints j)
  w < 8 || (offs.foldl (fun (m : NSet) (o, _) => m.addAll ((List.range (w / 8)).map (o + ·))) []).length = offs.length * (w / 8)

/-- Moves elements of a copy in no defined order (R250). Where one faults, those before it in a free order stay written (R251).
 DEDUCED: log 20. -/
def copyRun (s : State) (b : Block) (w : Writer) (c : Copy) (l : List (List Nat)) : Wrote :=
  let self := onItself s b c.qd c.qs
  let v := ownView s w.th
  let g := (inSomeOrder s (apart c.qd && !self) l).foldl (copyElem v b c self) {}
  match g.fail with
  | some _ =>
    let g := (shuffled s l).foldl (copyElem v b c self) {}
    let r := engineWrite s b w 3 (ShapeOf.path c.qd) g.cells false
    { r with fail := r.fail.or g.fail }
  | none => engineWrite s b w 3 (ShapeOf.path c.qd) g.cells false

/-- The status word of R254. -/
def copyStatus (state : Nat) (clip : Bool) (bytes : Nat) : W32 :=
  BitVec.ofNat 32 (state * 2 ^ 30 + (if clip then 2 ^ 29 else 0) + min bytes 0xFFFFFF)

/-- An operation that has met a fault stands until its context resumes, and nothing waits for it (R400, R406). -/
def failPend (s : State) (id : Nat) : State :=
  let s := forget s id
  { s with pend := s.pend.upd id fun p => { p with failed := true } }

/-- A fault that an engine meets (R401), at the command's PC; page service may resume a TCOPY or a fill (R404). -/
def engineFault (s : State) (id : Nat) (p : Pend) (engine unit : Nat) (f : Fail) (va bytes : Nat) (service : Bool) : State :=
  raiseFault (failPend s id) p.ctx { stop := engineStop s p.writer engine unit f.cause va f.line bytes, service := service }

/-- The part of a copy that has not landed: what it came to, counting what landed before. -/
def copyRest (s : State) (p : Pend) (b : Block) (c : Copy) : Wrote :=
  let w := copyRun s b p.writer c (remaining c.qd (copyExt c.qs) p.landed)
  { w with bytes := w.bytes + p.wrote }

/-- A copy has delivered its last byte: its weight bytes are counted (R240) and its ranges released. -/
def copyEnd (s : State) (id : Nat) (p : Pend) (c : Copy) : State :=
  let r := copyReads c
  let s := if r.isEmpty then s else countWeight s p.ctx (ShapeOf.region c.qs) r.length
  unheldCore s p.core id

/-- Another access of an instruction is in flight. -/
def othersOut (s : State) (issue id : Nat) : Bool :=
  issue ≠ 0 && (s.pend.any (fun e => e.1 != id && e.2.issue == issue) || s.stores.any fun e => e.1 != id && e.2.issue == issue)

/-- A load that lands while others of its instruction are in flight is kept, with its value: page service issues the instruction again for every
member (R404). -/
def keepLoad (s : State) (id : Nat) (p : Pend) (v : Nat) : State :=
  if othersOut s p.issue id then { s with redoLoads := s.redoLoads ++ [{ p with wrote := v }] }
  else { s with redoLoads := s.redoLoads.filter (·.issue != p.issue), redoStores := s.redoStores.filter (·.issue != p.issue) }

/-- A copy that completes is kept likewise, while other members of its TCOPY are in flight or have still to hand theirs over. -/
def keepCopy (s : State) (id : Nat) (p : Pend) (st : W32) : State :=
  if (s.core p.core).gather.any (fun g => p.parts.any fun q => g.served.contains q.th) then { s with redoLoads := s.redoLoads ++ [{ p with wrote := st.toNat }] }
  else keepLoad s id p st.toNat

/-- A TCOPY writes its last byte: unless a follow-on MMA is still to come, its status lands (R255). -/
def copyDone (s : State) (id : Nat) (p : Pend) (b : Block) (c : Copy) (follow : Option (Nat × Shape)) : State :=
  let w := copyRest s p b c
  if w.full then s
  else match w.fail with
  | some (f, va) => engineFault w.s id p 3 (clusterOf p.core) f va w.bytes true
  | none =>
    let s := copyEnd w.s id p c
    let st := copyStatus 0 (copyClips c) w.bytes
    match follow with
    | none => landAll (keepCopy s id p st) id [st]
    | some _ => { s with pend := s.pend.upd id fun p => { p with op := .copy c follow true st } }

/-- A command waits for what it follows: the accesses of its `after` list, and commands of its core on ranges it shares are kept
apart at issue (R236, R256). -/
def cmdReady (s : State) (p : Pend) : Bool := !p.failed && s.allDone p.after && enginesRun s p.ctx

/-- COPY_COMMAND_COMPLETE. -/
def execCopyCommandComplete (id : Nat) (s : State) : Res :=
  .next (match s.pend.look id with
    | some p => match p.op, s.blocks.look p.blk with
      | .copy c follow false _, some b => if cmdReady s p then copyDone s id p b c follow else s
      | _, _ => s
    | none => s)

/-- A fill whose source has come to lie in a SHADOW range, which a KIND 1 window can do (R257, R264). -/
def fillShadow (s : State) (b : Block) (c : Copy) : Bool := (b.alloc (ShapeOf.path c.qs)).any fun i => copyShadow s i c

/-- WINDOW_FILL_COMPLETE (R234): the window becomes Present and its range is released. -/
def execWindowFillComplete (blk win : Nat) (s : State) : Res :=
  .next (match (s.pend.find? fun (_, p) => p.blk == blk && (match p.op with | .wbind w _ => w == win | _ => false)), s.blocks.look blk with
    | some (id, p), some b => match p.op with
      | .wbind _ (some c) =>
        if !cmdReady s p then s
        else if fillShadow s b c then engineFault s id p 3 (clusterOf p.core) ⟨0x26, 0⟩ (ShapeOf.path c.qs * 2 ^ 60 + ShapeOf.base c.qs) p.wrote false
        else
          let w := copyRest s p b c
          if w.full then s
          else match w.fail with
          | some (f, va) => engineFault w.s id p 3 (clusterOf p.core) f va w.bytes true
          | none =>
            let s := dropPend (copyEnd w.s id p c) id
            s.updBlk blk fun b => { b with windows := b.windows.modify win fun w => { w with st := .present } }
      | _ => s
    | _, _ => s)

/-! ### Chains (R262, R263) -/

/-- The float format of a FMT code (R67). -/
def shapeFmt (c : Nat) : Option Fmt :=
  match c with
  | 0 => some f32 | 1 => some f16 | 2 => some bf16 | 3 => some e4m3 | 4 => some e5m2 | 5 => some e3m2
  | 6 => some e2m3 | 7 => some e2m1 | _ => none

/-- A source element converted exactly to .f32, and the exceptions that a signalling NaN raises. -/
def toF32 (c v : Nat) : Nat × Nat :=
  match shapeFmt c with
  | some f => roundFV f32 .rne false 0 (f.decode v)
  | none => roundSum f32 .rne false 0 false (sextNat (fmtBits c) v) 0

/-- A signed integer of n bits from an .f32 code: RNE, saturated (R263). -/
def f32ToSint (n v : Nat) : Nat × Nat :=
  let hi : Int := (2 ^ (n - 1) : Nat) - 1
  let lo : Int := -(2 ^ (n - 1) : Nat)
  match f32.decode v with
  | .nan _ => (0, IV)
  | .inf neg => (truncInt n (if neg then lo else hi), IV)
  | .fin neg m e =>
    let (k, exact) := roundAt .rne neg 0 m 1 e 0
    let x : Int := if neg then -(k : Int) else k
    if x < lo then (truncInt n lo, IV) else if hi < x then (truncInt n hi, IV)
    else (truncInt n x, if exact then 0 else IX)

/-- An .f32 code written to a destination format (R263). -/
def fromF32 (c v : Nat) : Nat × Nat :=
  match shapeFmt c with
  | some f => roundFV f .rne false 0 (f32.decode v)
  | none => f32ToSint (fmtBits c) v

/-- One operation of a chain (R262, R263). -/
def chainStep (op x b : Nat) : Nat × Nat :=
  match op with
  | 1 => fAdd f32 .rne false 0 x b
  | 2 => fSub f32 .rne false 0 x b
  | 3 => fSub f32 .rne false 0 b x
  | 4 => fMul f32 .rne false 0 x b
  | 5 => fMinMax f32 false false x b
  | 6 => fMinMax f32 true false x b
  | 7 => (x % 2 ^ 31, 0)
  | 8 => (x ^^^ 2 ^ 31, 0)
  | 9 => sfu 5 false x
  | 10 => sfu 9 false x
  | 11 => sfu 0 false x
  | 12 => sfu 2 false x
  | _ => fRnd .rne false x

/-- An operation of the list as its 8 bytes give it. -/
def chainOp (b : Block) (w : Nat) : ChainOp :=
  { op := bits w 7 0, src := bits w 11 8, scalar := BitVec.ofNat 32 (bits w 63 32), stream := b.shape (bits w 15 12) }

/-- The checks of the operation list (R262, R263). -/
def chainListOk (ws : List Nat) : Bool :=
  let bq := ((ws.filter fun w => bits w 11 8 = 2).map fun w => bits w 15 12).eraseDups
  ws.all (fun w => bits w 31 16 = 0 && 1 ≤ bits w 7 0 && bits w 7 0 ≤ 13
    && (if bits w 7 0 ≤ 6 then bits w 11 8 = 1 || bits w 11 8 = 2 else bits w 11 8 = 0)) && bq.length ≤ 2

/-- A check of R251 that fails for a chain raises the shape fault (R263); a SHADOW range keeps its own (R264). DEDUCED: log 22. -/
def chainFoot (s : State) (b : Block) (q : Shape) : Option Flt :=
  (footFault s b q).map fun f => if f.cause = 0x26 then f else ⟨0x27, 0, 0⟩

/-- The checks of R251 and R263 on a chain's shapes. -/
def chainCheck (s : State) (b : Block) (qd qs : Shape) (streams : List Shape) : Option Flt :=
  let n := ShapeOf.ndim qs
  let narrow := fmtBits (ShapeOf.fmt qd) < 8
  let same (q : Shape) : Bool := ShapeOf.ndim q = n && (List.range n).all fun k => ShapeOf.size q k = ShapeOf.size qs k
  if !(qd :: qs :: streams).all (fun q => shapeOk q && regionOk q && ShapeOf.fmt q ≤ 9)
    || !(qd :: streams).all same
    || (List.range n).any (fun k => ShapeOf.stride qd k = 0 && 1 < ShapeOf.size qd k && !(k = 0 && narrow))
    || 3 < ShapeOf.path qd || (qs :: streams).any (fun q => 4 < ShapeOf.path q)
  then some ⟨0x27, 0, 0⟩
  else firstSome (chainFoot s b) (qd :: qs :: streams)

/-- A chain as it gathers its elements. -/
structure Chained where
  cells : Cells := []
  raised : Nat := 0
  fail : Option (Fail × Nat) := none
  deriving DecidableEq, Repr

/-- Applies the operations to one element; a stream is read at the element's index. -/
def chainApply (s : State) (b : Block) (idx : List Int) : List ChainOp → Nat × Nat → Except (Fail × Nat) (Nat × Nat)
  | [], acc => .ok acc
  | o :: os, (x, e) =>
    let step (v e' : Nat) : Except (Fail × Nat) (Nat × Nat) :=
      let (y, e'') := chainStep o.op x v
      chainApply s b idx os (y, e ||| e' ||| e'')
    if o.src = 1 then step o.scalar.toNat 0
    else if o.src = 2 then
      match elemRead s b o.stream idx with
      | .error f => .error (f, ShapeOf.path o.stream * 2 ^ 60 + (elemAt o.stream idx).1)
      | .ok v => let (y, e') := toF32 (ShapeOf.fmt o.stream) v
        step y e'
    else step 0 0

/-- A destination that partly overlaps the source; one of the same footprint and strides is updated in place (R263). -/
def partOverlap (s : State) (b : Block) (qd qs : Shape) : Bool :=
  onItself s b qd qs && !(footprint qd == footprint qs && (List.range (ShapeOf.ndim qs)).all fun k => ShapeOf.stride qd k == ShapeOf.stride qs k)

/-- An overlapped element that keeps its old value, by a free choice (R263). DEDUCED: log 20. -/
def chainKeeps (s : State) (b : Block) (qd qs : Shape) (j : List Nat) : Option Nat :=
  if !partOverlap s b qd qs then none
  else
    let (off, sh) := elemAt qd (ints j)
    let hi := off + elemBytes (fmtBits (ShapeOf.fmt qd)) sh
    if (footprint qs).1 < hi && off < (footprint qs).2 && Config.place s.fresh off % 2 = 1 then
      match elemRead s b qd (ints j) with
      | .ok v => some v
      | .error _ => none
    else none

def chainElem (s : State) (b : Block) (qd qs : Shape) (ops : List ChainOp) (g : Chained) (j : List Nat) : Chained :=
  if g.fail.isSome then g
  else
    let idx := ints j
    match elemRead s b qs idx with
    | .error f => { g with fail := some (f, ShapeOf.path qs * 2 ^ 60 + (elemAt qs idx).1) }
    | .ok v => match chainApply s b idx ops (toF32 (ShapeOf.fmt qs) v) with
      | .error f => { g with fail := some f }
      | .ok (y, e) =>
        let (z, e') := fromF32 (ShapeOf.fmt qd) y
        { g with cells := layElem g.cells qd idx ((chainKeeps s b qd qs j).getD z), raised := g.raised ||| e ||| e' }

/-- Runs a chain over elements; where one faults, those before it in a free order stay written. -/
def chainRun (s : State) (b : Block) (w : Writer) (qd qs : Shape) (ops : List ChainOp) (l : List (List Nat)) : Wrote × Nat :=
  let v := ownView s w.th
  let g := (inSomeOrder s (apart qd) l).foldl (chainElem v b qd qs ops) {}
  match g.fail with
  | some _ =>
    let g := (shuffled s l).foldl (chainElem v b qd qs ops) {}
    let r := engineWrite s b w 3 (ShapeOf.path qd) g.cells false
    ({ r with fail := r.fail.or g.fail }, 0)
  | none => (engineWrite s b w 3 (ShapeOf.path qd) g.cells false, g.raised)

/-- The shapes of a chain. -/
def chainShapes (qd qs : Shape) (ops : List ChainOp) : List Shape := qd :: qs :: (ops.filter (·.src == 2)).map (·.stream)

/-- CHAIN_COMPLETE: the command's exceptions are ORed once into the sticky bits (R263), and its weight bytes are counted (R240). -/
def execChainComplete (id : Nat) (s : State) : Res :=
  .next (match s.pend.look id with
    | some p => match p.op, s.blocks.look p.blk with
      | .chain qd qs ops, some b =>
        if !cmdReady s p then s
        else
          let (w, raised) := chainRun s b p.writer qd qs ops (remaining qd (sizes qs) p.landed)
          if w.full then s
          else match w.fail with
          | some (f, va) => engineFault w.s id p 3 (clusterOf p.core) f.unserved va (w.bytes + p.wrote) false
          | none =>
            let s := ((chainShapes qd qs ops).filter fun q => ShapeOf.path q = 4).foldl (fun s q =>
              countWeight s b.ctx (ShapeOf.region q) (viewBytes q ((indices (sizes q)).map ints)).length) w.s
            let s := stick (unheldCore s p.core id) p.ctx (raised ||| p.raised)
            landAll s id [copyStatus 0 false (w.bytes + p.wrote)]
      | _, _ => s
    | none => s)

/-! ### Bursts (R256, R321) -/

/-- The first and the last line that an element reaches. -/
def linesOfElem (qd : Shape) (j : List Nat) : Nat × Nat :=
  let (off, sh) := elemAt qd (ints j)
  (off / 64, (off + elemBytes (fmtBits (ShapeOf.fmt qd)) sh - 1) / 64)

/-- Lines that must land together, since an element reaches from one into another: all that a command writes to a line makes one line write (R296). -/
def joinLines (l : List (Nat × Nat)) : Nat → NSet → NSet
  | 0, m => m
  | n + 1, m => joinLines l n (l.foldl (fun m e => if m.contains e.1 || m.contains e.2 then NSet.add (NSet.add m e.1) e.2 else m) m)

/-- The lines that land with line `k`. DEDUCED: log 20. -/
def burstLines (qd : Shape) (l : List (List Nat)) (k : Nat) : NSet :=
  let across := (l.map (linesOfElem qd)).filter fun e => e.1 != e.2
  joinLines across across.length [k]

/-- A burst of an engine's command lands: bytes, exceptions and the lines are kept with the command; a fault stops it. -/
def burstEnd (s : State) (id : Nat) (lines : NSet) (p : Pend) (w : Wrote) (raised : Nat) (service : Bool) : State :=
  if w.full then s
  else match w.fail with
  | some (f, va) => engineFault w.s id p 3 (clusterOf p.core) (if service then f else f.unserved) va (w.bytes + p.wrote) service
  | none => { w.s with pend := w.s.pend.upd id fun p =>
      { p with landed := NSet.addAll p.landed lines, wrote := p.wrote + w.bytes, raised := p.raised ||| raised } }

/-- The elements on one destination line land before the others: a copy's and a chain's bytes land in no defined order (R256). DEDUCED: log 20. -/
def copyBurst (s : State) (id k : Nat) : State :=
  match s.pend.look id with
  | some p => match s.blocks.look p.blk with
    | some b =>
      let mine (qd : Shape) (ext : List Nat) : NSet × List (List Nat) :=
        let l := remaining qd ext p.landed
        let lines := burstLines qd l k
        (lines, l.filter fun j => lines.contains (lineOfElem qd j))
      if !cmdReady s p then s
      else match p.op with
        | .copy c _ false _ =>
          let l := mine c.qd (copyExt c.qs)
          burstEnd s id l.1 p (copyRun s b p.writer c l.2) 0 true
        | .wbind _ (some c) =>
          if fillShadow s b c then s
          else
            let l := mine c.qd (copyExt c.qs)
            burstEnd s id l.1 p (copyRun s b p.writer c l.2) 0 true
        | .chain qd qs ops =>
          let l := mine qd (sizes qs)
          let (w, raised) := chainRun s b p.writer qd qs ops l.2
          burstEnd s id l.1 p w raised false
        | _ => s
    | none => s
  | none => s

/-! ### PUBL_SWAP (R265) -/

/-- The swap waits for the release's prefix, for the commands accepted before it, and for the earlier PUBLs of its buffer; what the
release carries is then seen through the front half (R322). -/
def execPublSwap (id : Nat) (s : State) : Res :=
  .next (match s.pend.look id with
    | some p => match p.op with
      | .publ k before sc pfx rts =>
        let first := s.pend.all fun (i, x) => id ≤ i || (match x.op with | .publ k' .. => k' != k | _ => true)
        let held := Scope.local sc && !pfx.all fun i => i == id || s.passed sc i
        if !(first && s.allDone (before ++ p.after) && enginesRun s p.ctx) || held then s
        else match s.pubs.look k with
          | none => s
          | some b =>
            let me := placeOf s ((p.parts.head?.map (·.th)).getD 0)
            let s := cutRels s (.alloc b.alloc b.view) b.len
            let rel : Rel := { loc := .alloc b.alloc b.view, len := b.len, core := me.core, blk := me.blk, gang := me.gang, rel := some sc,
                               pfx := s.live (pfx.filter (· != id)), rts := rts }
            let b := { b with front := !b.front, gen := b.gen + 1 }
            landAll { s with pubs := s.pubs.put k b, rels := s.rels ++ [rel] } id [BitVec.ofNat 32 (b.gen.toNat * 2 ^ 16 + b.front.toNat)]
      | _ => s
    | none => s)

/-! ### DECTAB (R259, R261) -/

/-- The Kraft sum of a code table over 2^15. -/
def kraft (lens : List Nat) : Nat := ((lens.filter (· ≠ 0)).map fun l => 2 ^ (15 - l)).foldl (· + ·) 0

/-- The offsets of an image rise and stay below ENCLEN (R259). -/
def offsOk (enclen : Nat) : List Nat → Bool
  | [] => true
  | [a] => a < enclen
  | a :: b :: l => a < b && offsOk enclen (b :: l)

/-- The outcome of a binding: its status, or the region. -/
def regionOf (s : State) (ctx image enclen : Nat) : Except Fail (Nat × Region) :=
  let none' : Region := { image := 0, enclen := 0, declen := 0, lens := [] }
  match engineBytes s (.global ctx) image 264 with
  | .error f => .error f
  | .ok h =>
    let dec := recNat h 0 6
    let lens := (h.drop 8).map (·.toNat)
    let n := cdiv dec 4096
    if dec = 0 || recNat h 6 2 ≠ 0 || enclen < 264 + 4 * n then .ok (2, none')
    else match engineBytes s (.global ctx) (image + 264) (4 * n) with
      | .error f => .error f
      | .ok o =>
        let offs := (List.range n).map fun i => recNat o (4 * i) 4
        if !offsOk enclen offs then .ok (2, none')
        else if lens.all (· = 0) || lens.any (15 < ·) || 2 ^ 15 < kraft lens then .ok (1, none')
        else .ok (0, { image := image, enclen := enclen, declen := dec, lens := lens })

/-- The command is an MMA.NF. -/
def isNf (c : MCmd) : Bool :=
  match c.kind with
  | .mmaNf .. => true
  | _ => false

/-- The operation is an MMA.NF's, which keeps its binding itself (R285). -/
def keepsBinding (s : State) (p : Pend) : Bool :=
  match p.op with
  | .matrix id => ((s.core p.core).mcmds.find? (·.id == id)).any isNf
  | _ => false

/-- A read on path 0x4 of a region that has been accepted and not performed: it decodes under the binding that stands, so a new one waits
for it (R261, R268). An MMA.NF keeps its own (R285). DEDUCED: log 25. -/
def regionBusy (s : State) (ctx region : Nat) : Bool :=
  (s.pend.any fun (_, p) => p.ctx == ctx && ((match p.op with
      | .ld _ 4 va _ _ _ => bits va 59 48 == region
      | _ => false)
    || !keepsBinding s p && (cmdShapes s p).any fun (q, _) => ShapeOf.path q == 4 && ShapeOf.region q == region))
  || s.cores.any fun (_, k) => k.owner == some ctx && k.queues.any fun q => q.any fun e =>
      e.words.isNone && e.addrs.any fun a => a / 2 ^ 60 == 4 && bits a 59 48 == region

/-- DECTAB_COMPLETE. -/
def execDectabComplete (id : Nat) (s : State) : Res :=
  .next (match s.pend.look id with
    | some p => match p.op with
      | .dectab region va enclen =>
        if !cmdReady s p || regionBusy s p.ctx region then s
        else if 4095 < region then landAll s id [3]
        else match regionOf (ownView s p.writer.th) p.ctx va enclen with
          | .error f => engineFault s id p 1 p.core f va 0 false
          | .ok (st, r) =>
            let s := if st = 0 then s.updCtx p.ctx fun k => { k with regions := k.regions.put region r } else s
            landAll s id [BitVec.ofNat 32 st]
      | _ => s
    | none => s)

end Sys2Proof.Machine
end

