-- ==== Sys2Proof/Machine/Crypto.lean ====
section
/-! DEFINITION. The functions that the spec names by their standards: CRC-32C (R356), SHA-256 (R78, R143, R422), AES-256 and GHASH
(R299). -/

namespace Sys2Proof.Machine

/-! ### CRC-32C -/

/-- Eight steps of the reflected CRC-32C polynomial. -/
def crcStep (c : W32) : Nat → W32
  | 0 => c
  | n + 1 => crcStep (if c.getLsbD 0 then (c >>> 1) ^^^ 0x82F63B78 else c >>> 1) n

/-- CRC-32C of bytes. -/
def crc32c (b : List Byte) : W32 :=
  ~~~(b.foldl (fun c x => crcStep (c ^^^ x.setWidth 32) 8) 0xFFFFFFFF)

/-! ### SHA-256 -/

/-- The largest `x` below 2^`n` with `x ^ k ≤ v`, found bit by bit from `acc`. -/
def rootBits (k v acc : Nat) : Nat → Nat
  | 0 => acc
  | n + 1 => rootBits k v (if (acc + 2 ^ n) ^ k ≤ v then acc + 2 ^ n else acc) n

/-- The first 32 bits of the fraction of the `k`-th root of `p`. -/
def rootFraction (k p : Nat) : Nat := rootBits k (p * 2 ^ (32 * k)) 0 37 % 2 ^ 32

/-- The primes below 312, of which there are 64. -/
def shaPrimes : List Nat := (List.range 312).filter fun p => 2 ≤ p && (List.range 18).all fun d => d < 2 || p ≤ d || p % d != 0

/-- A big-endian number of bytes. -/
def ofBe (b : List Byte) : Nat := b.foldl (fun a x => 256 * a + x.toNat) 0

/-- The `n` big-endian bytes of a number. -/
def beBytes (n x : Nat) : List Byte := (leBytes n x).reverse

/-- A 32-bit word turned right by `n` places. -/
def turn (x n : Nat) : Nat := x * (2 ^ 32 + 1) / 2 ^ n % 2 ^ 32

/-- The working words of a block, with the sixteen schedule words that come next. -/
structure ShaWork where
  top : Nat × Nat × Nat × Nat
  low : Nat × Nat × Nat × Nat
  next : List Nat

/-- One round with constant `k`: the first schedule word is used up, and the one sixteen places on is added. -/
def ShaWork.round (x : ShaWork) (k : Nat) : ShaWork :=
  match x.top, x.low, x.next with
  | (a, b, c, d), (e, f, g, h), w :: ws =>
    let near := ws.getD 0 0
    let far := ws.getD 13 0
    let added := (w + ws.getD 8 0 + (turn near 7 ^^^ turn near 18 ^^^ near / 8) + (turn far 17 ^^^ turn far 19 ^^^ far / 1024)) % 2 ^ 32
    let mix := h + k + w + (turn e 6 ^^^ turn e 11 ^^^ turn e 25) + (g ^^^ (e &&& (f ^^^ g)))
    let head := (mix + (turn a 2 ^^^ turn a 13 ^^^ turn a 22) + ((a &&& b) ||| (c &&& (a ||| b)))) % 2 ^ 32
    { top := (head, a, b, c), low := ((d + mix) % 2 ^ 32, e, f, g), next := ws ++ [added] }
  | _, _, [] => x

/-- Adds two quadruples of words. -/
def addQuad (p q : Nat × Nat × Nat × Nat) : Nat × Nat × Nat × Nat :=
  ((p.1 + q.1) % 2 ^ 32, (p.2.1 + q.2.1) % 2 ^ 32, (p.2.2.1 + q.2.2.1) % 2 ^ 32, (p.2.2.2 + q.2.2.2) % 2 ^ 32)

/-- A number cut into `n` words of 32 bits, the most significant first. -/
def beWords (n v : Nat) : List Nat := (List.range n).map fun i => v / 2 ^ (32 * (n - 1 - i)) % 2 ^ 32

/-- The message as a number, closed by a 1 bit, zeros and its length in 64 bits: the blocks of 512 bits it has, and its value. -/
def shaPadded (b : List Byte) : Nat × Nat :=
  let n := b.length / 64 + (if b.length % 64 < 56 then 1 else 2)
  (n, ((2 * ofBe b + 1) * 2 ^ (512 * n - 8 * b.length - 1)) + 8 * b.length)

/-- SHA-256 (FIPS 180-4): the fractions of the roots of the first primes are its constants. -/
def sha256 (b : List Byte) : List Byte :=
  let (n, v) := shaPadded b
  let ks := shaPrimes.map (rootFraction 3)
  let start := (shaPrimes.take 8).map (rootFraction 2)
  let quad := fun l : List Nat => (l.getD 0 0, l.getD 1 0, l.getD 2 0, l.getD 3 0)
  let last := (List.range n).foldl (fun (t, l) i =>
    let x := ks.foldl ShaWork.round ⟨t, l, beWords 16 (v / 2 ^ (512 * (n - 1 - i)))⟩
    (addQuad t x.top, addQuad l x.low)) (quad start, quad (start.drop 4))
  [last.1.1, last.1.2.1, last.1.2.2.1, last.1.2.2.2, last.2.1, last.2.2.1, last.2.2.2.1, last.2.2.2.2].flatMap (beBytes 4)

/-! ### AES-256 -/

/-- Multiplication in GF(2^8) of AES. -/
def gfMul (a b : Nat) : Nat → Nat
  | 0 => 0
  | n + 1 =>
    let a' := if 128 ≤ a then (2 * a ^^^ 0x11B) else 2 * a
    (if b % 2 = 1 then a else 0) ^^^ gfMul a' (b / 2) n

/-- a^254, the inverse, by square and multiply. -/
def gfInv (a : Nat) : Nat :=
  let sq := fun x => gfMul x x 8
  let a2 := sq a
  let a4 := sq a2
  let a8 := sq a4
  let a16 := sq a8
  let a32 := sq a16
  let a64 := sq a32
  let a128 := sq a64
  [a4, a8, a16, a32, a64, a128].foldl (fun x y => gfMul x y 8) a2

/-- The S-box. -/
def sbox (x : Nat) : Nat :=
  let y := gfInv x
  let rot := fun n => (y * 2 ^ n % 256) + y * 2 ^ n / 256
  y ^^^ rot 1 ^^^ rot 2 ^^^ rot 3 ^^^ rot 4 ^^^ 0x63

def subWord (w : List Nat) : List Nat := w.map sbox
def xorWords (a b : List Nat) : List Nat := (a.zip b).map fun (x, y) => x ^^^ y

/-- The key schedule: words newest first, `i` the index of the next word. -/
def aesExpand (w : List (List Nat)) (i rcon : Nat) : Nat → List (List Nat)
  | 0 => w
  | n + 1 =>
    let t := w.headD []
    let (t, rcon) :=
      if i % 8 = 0 then (xorWords (subWord (t.drop 1 ++ t.take 1)) [rcon, 0, 0, 0], gfMul rcon 2 8)
      else if i % 8 = 4 then (subWord t, rcon)
      else (t, rcon)
    aesExpand (xorWords (w.getD 7 []) t :: w) (i + 1) rcon n

/-- ShiftRows over the sixteen bytes in column order. -/
def shiftRows (b : List Nat) : List Nat := (List.range 16).map fun i => b.getD ((i + 4 * (i % 4)) % 16) 0

/-- MixColumns of one column. -/
def mixCol (c : List Nat) : List Nat :=
  (List.range 4).map fun i =>
    gfMul (c.getD i 0) 2 8 ^^^ gfMul (c.getD ((i + 1) % 4) 0) 3 8 ^^^ c.getD ((i + 2) % 4) 0 ^^^ c.getD ((i + 3) % 4) 0

def mixColumns (b : List Nat) : List Nat := (List.range 4).flatMap fun k => mixCol ((b.drop (4 * k)).take 4)

/-- Rounds 1 to 14 over the round keys. -/
def aesRounds (b : List Nat) : List (List Nat) → List Nat
  | [] => b
  | [k] => xorWords (shiftRows (subWord b)) k
  | k :: ks => aesRounds (xorWords (mixColumns (shiftRows (subWord b))) k) ks

/-- The round keys of a 32-byte key. -/
def aesKeys (key : List Nat) : List (List Nat) :=
  let w := (List.range 8).map fun i => (key.drop (4 * i)).take 4
  let all := (aesExpand w.reverse 8 1 52).reverse
  (List.range 15).map fun r => ((all.drop (4 * r)).take 4).flatten

/-- AES-256 of one block. -/
def aes256 (key block : List Nat) : List Nat :=
  match aesKeys key with
  | [] => block
  | k0 :: ks => aesRounds (xorWords block k0) ks

/-! ### GHASH -/

/-- Multiplication in GHASH's field: `x` from its most significant bit down, `v` the other factor so far. -/
def ghashMul (x v : Nat) : Nat → Nat
  | 0 => 0
  | n + 1 =>
    (if x.testBit n then v else 0) ^^^ ghashMul x (if v % 2 = 1 then v / 2 ^^^ 0xE1000000000000000000000000000000 else v / 2) n

/-- GHASH of 128-bit blocks under H. -/
def ghash (h : Nat) (blocks : List Nat) : Nat := blocks.foldl (fun y b => ghashMul (y ^^^ b) h 128) 0

/-- A key as AES input bytes, byte 0 first. -/
def keyBytes (k : BitVec 256) : List Nat := (leBytes 32 k.toNat).map (·.toNat)
/-- A 128-bit block as AES input bytes, most significant first. DEDUCED: log 62. -/
def blockBytes (b : Nat) : List Nat := (beBytes 16 b).map (·.toNat)
def bytesBlock (b : List Nat) : Nat := b.foldl (fun a x => 256 * a + x) 0

/-- The counter block of R299. -/
def counterBlock (pa major minor : Nat) (tag : Bool) (j : Nat) : Nat :=
  bits pa 39 6 * 2 ^ 94 + major % 2 ^ 64 * 2 ^ 30 + minor % 2 ^ 7 * 2 ^ 23 + tag.toNat * 2 ^ 22 + j % 4 * 2 ^ 20

/-- The ciphertext of a line's 64 bytes (R299). -/
def lineCipher (k : BitVec 256) (pa major minor : Nat) (plain : List Byte) : List Byte :=
  let ks := (List.range 4).flatMap fun j => aes256 (keyBytes k) (blockBytes (counterBlock pa major minor false j))
  (plain.zip ks).map fun (p, x) => p ^^^ BitVec.ofNat 8 x

/-- The tag of a line's ciphertext, its `n` most significant bits (R299). -/
def lineTag (n : Nat) (k : BitVec 256) (pa major minor : Nat) (cipher : List Byte) : Nat :=
  let h := bytesBlock (aes256 (keyBytes k) (List.replicate 16 0))
  let blocks := (List.range 4).map fun j => ofBe ((cipher.drop (16 * j)).take 16)
  let s := ghash h (blocks ++ [0x200])
  (s ^^^ bytesBlock (aes256 (keyBytes k) (blockBytes (counterBlock pa major minor true 0)))) / 2 ^ (128 - n)

end Sys2Proof.Machine
end

