-- ==== Sys2Proof/Machine/Overlay.lean ====
section
/-! DEFINITION. The instruction store: homes and busy overlays (R136 to R139), eviction and loading (R142 to R145, R150). -/

namespace Sys2Proof.Machine

/-- The home pages of an overlay. -/
def Overlay.pages (o : Overlay) : List Nat := (List.range (cdiv o.len 4096)).map (o.home + ·)

/-- A residency token (R141). -/
def token (o : Overlay) : W32 := BitVec.ofNat 32 (o.home * 2 ^ 26 + (cdiv o.len 4096 - 1) * 2 ^ 20 + o.num * 2 ^ 10 + 1)

/-- The saved PCs on a thread's control stack (R139). -/
def savedPcs (s : State) (u : Nat) : List Nat :=
  match s.threads.look u with
  | none => []
  | some t => match s.blocks.look t.blk with
    | none => []
    | some b => match b.a1 with
      | none => []
      | some a => (List.range (t.ksp.toNat / 16)).map fun i =>
          let off := ksb b t.tid + 16 * i
          match readFwd s b.core (some u) (.alloc a) off off 4 with
          | .ok (x, _) => ofLe x
          | .error _ => 0

/-- A Resident overlay is busy on a core (R139). -/
def overlayBusy (s : State) (core code : Nat) (o : Overlay) : Bool :=
  let inside (pc : Nat) : Bool := o.pages.contains (bits pc 17 12)
  (s.threads.any fun (u, t) => t.st != .exited && s.thrCore u == core && (inside t.pc.toNat || (savedPcs s u).any inside))
    || s.blocks.any fun (_, b) => b.core == core && b.code == code && !b.started && !b.ended && b.entryOvl == o.num

/-- The overlays that stand on some pages of a core, with their code objects, and whether one is Loading. -/
def onPages (s : State) (core : Nat) (pages : List Nat) : List (Nat × Nat) × Bool :=
  let es := pages.filterMap fun p => (s.core core).home.look p
  ((es.filterMap fun e => match e with
      | .resident c o _ _ => some (c, o)
      | _ => none).eraseDups,
   es.any fun e => match e with
      | .loading .. => true
      | _ => false)

def overlayOf (s : State) (code n : Nat) : Option Overlay := (s.codes.look code).bind fun k => k.overlay n

/-- A busy overlay, or one that is Loading, stands on the home pages (R140, R142). -/
def homeTaken (s : State) (core : Nat) (o : Overlay) : Bool :=
  let (l, loading) := onPages s core o.pages
  loading || l.any fun (c, n) => match overlayOf s c n with
    | some x => overlayBusy s core c x
    | none => false

/-- Frees and zeroes pages (R145, R150). -/
def freePages (s : State) (core : Nat) (pages : List Nat) : State :=
  s.updCore core fun k => { k with
    home := pages.foldl AMap.del k.home,
    fetched := k.fetched.filter fun e => !pages.contains (e.1 / 4096),
    store := pages.foldl (fun m p => m.clear (p * 4096) (p * 4096 + 4096)) k.store }

/-- Starts a load: the other overlays on the home pages are evicted and the pages are Loading (R142, R143 step 1). Loading pages read
as zero. -/
def startLoad (s : State) (core code : Nat) (o : Overlay) : State :=
  let (l, _) := onPages s core o.pages
  let s := l.foldl (fun s (c, n) => freePages s core (((overlayOf s c n).map (·.pages)).getD [])) s
  (freePages s core o.pages).updCore core fun k => { k with
    home := o.pages.foldl (fun h p => h.put p (.loading code o.num)) k.home }

/-- The state of an overlay on a core by its first home page. -/
def isResident (s : State) (core code : Nat) (o : Overlay) : Bool :=
  match (s.core core).home.look o.home with
  | some (.resident c n _ _) => c = code && n = o.num
  | _ => false
def isLoading (s : State) (core code : Nat) (o : Overlay) : Bool :=
  match (s.core core).home.look o.home with
  | some (.loading c n) => c = code && n = o.num
  | _ => false

/-- The threads of blocks that waited for their entry overlay start (R140). -/
def startBlocks (s : State) (core code n : Nat) : State :=
  let bs := AMap.sel s.blocks fun _ b => b.core == core && b.code == code && b.entryOvl == n && !b.started && !b.ended
  bs.foldl (fun s k =>
    let s := s.updBlk k fun b => { b with started := true }
    let ss := ((s.blocks.look k).map fun b => (s.ctx b.ctx).stepc.getLsbD 0).getD false
    let s := { s with threads := s.threads.map fun (u, t) => (u, if t.blk = k then { t with ss := ss } else t) }
    (AMap.sel s.threads fun _ t => t.blk == k && t.st != .exited).foldl becomeReady s) s

/-- The word of a Loading overlay at a store offset, as global memory holds it; past the length it is filled with zeros. -/
def imageWord (s : State) (ctx : Nat) (k : Code) (o : Overlay) (off : Nat) : Except Fail (List Byte) :=
  let r := off - o.home * 4096
  let n := min 8 (o.len - r)
  match engineBytes s (.global ctx) (k.addr + o.off + r) n with
  | .ok b => .ok (b ++ List.replicate (8 - n) 0)
  | .error f => .error f

/-- The load engine reads one word of a Loading overlay before the others (R143). -/
def fetchWord (s : State) (core off : Nat) : State :=
  match (s.core core).home.look (off / 4096), (s.core core).owner with
  | some (.loading code n), some ctx => match s.codes.look code, overlayOf s code n with
    | some k, some o =>
      if off % 8 ≠ 0 || (s.core core).fetched.has off || o.home * 4096 + o.len ≤ off then s
      else match imageWord s ctx k o off with
        | .ok w => s.updCore core fun c => { c with fetched := c.fetched.put off w }
        | .error _ => s
    | _, _ => s
  | _, _ => s

/-- The words of an overlay from an offset: those that the engine has read stand as it read them. -/
def ovlWords (s : State) (core ctx : Nat) (k : Code) (o : Overlay) (off : Nat) : Nat → Except Fail (List Byte)
  | 0 => .ok []
  | n + 1 =>
    match (s.core core).fetched.look off with
    | some w => (ovlWords s core ctx k o (off + 8) n).map (w ++ ·)
    | none => match imageWord s ctx k o off with
      | .error f => .error f
      | .ok w => (ovlWords s core ctx k o (off + 8) n).map (w ++ ·)

/-- The bytes of an overlay as the load engine has read them. DEDUCED: log 44. -/
def ovlBytes (s : State) (core ctx : Nat) (k : Code) (o : Overlay) : Except Fail (List Byte) :=
  if (s.core core).fetched.any fun e => o.pages.contains (e.1 / 4096) then
    (ovlWords s core ctx k o (o.home * 4096) (cdiv o.len 8)).map (·.take o.len)
  else engineBytes s (.global ctx) (k.addr + o.off) o.len

/-- The OVLs of a core that wait for an overlay. -/
def ovlWaiters (s : State) (core code n : Nat) : List Nat :=
  AMap.sel s.pend fun _ p => p.core == core && (match p.op with | .ovl m => m == n | _ => false)
    && ((s.blocks.look p.blk).map (·.code)) == some code

/-- A load that fails frees its pages and its OVLs, and faults its context (R143). -/
def ovlFails (s : State) (core ctx code : Nat) (o : Overlay) (cause line va : Nat) : State :=
  let s := (ovlWaiters s core code o.num).foldl dropPend (freePages s core o.pages)
  raiseFault s ctx { stop := { engine := 5, cause := cause, unit := core, va := va, detail := line, pc := mkPc (o.home * 4096) 0, lcyc := s.lcyc core } }

/-- OVERLAY_LOAD_COMPLETE (R143): the bytes are read and hashed, and the pages become Resident, or Free with the context fault. -/
def execOverlayLoadComplete (core page : Nat) (s : State) : Res :=
  .next (match (s.core core).home.look page, (s.core core).owner with
    | some (.loading code n), some ctx => match s.codes.look code, overlayOf s code n with
      | some k, some o =>
        if o.home ≠ page || ((s.ctxs.look ctx).map (·.save.isSome)).getD true then s
        else match ovlBytes s core ctx k o with
          | .error f => ovlFails s core ctx code o f.cause f.line (k.addr + o.off)
          | .ok bytes =>
            if sha256 bytes ≠ o.hash then ovlFails s core ctx code o 0x31 0 0
            else
              let s := s.updCore core fun c => { c with
                store := c.store.writeN (page * 4096) bytes,
                fetched := c.fetched.filter fun e => !o.pages.contains (e.1 / 4096),
                home := o.pages.foldl (fun h p => h.put p (.resident code n o.len o.sperm)) c.home }
              let s := startBlocks s core code n
              (ovlWaiters s core code n).foldl (fun s id => landAll s id [token o]) s
      | _, _ => s
    | _, _ => s)

end Sys2Proof.Machine
end

