-- ==== Sys2Proof/Machine/Assay.lean ====
section
/-! DEFINITION. Assay counters and usage statements (R419 to R424). -/

namespace Sys2Proof.Machine

/-- A counter raised without passing its largest value (R419). -/
def raiseCounter (v n : Nat) : Nat := min (v + n) counterMax

/-- A context's total of committed MACs (R421). -/
def Context.total (k : Context) : Nat := k.umac + (k.macs.map (·.2)).foldl (· + ·) 0

/-- The regions with an entry in a statement (R422). -/
def Context.stmtRegions (k : Context) : List Nat :=
  (NSet.addAll (NSet.addAll [] k.bytes.keys) k.macs.keys).filter fun r => k.bytes.lookD r 0 ≠ 0 || k.macs.lookD r 0 ≠ 0

/-- FLAGS of a statement (R422). -/
def Context.stmtFlags (k : Context) : Nat := k.forced.toNat + 2 * k.gap.toNat + 4 * k.handin.toNat + 8 * k.sat.toNat

def pad (n : Nat) (l : List Byte) : List Byte := (l ++ List.replicate n 0).take n

/-- The module's CHIPID. -/
def chipId : List Byte := (List.range 32).map Config.chipId

/-- A statement without its signature (R422); `prev` is the hash of the previous statement. -/
def stmtBytes (c kind : Nat) (k : Context) (prev peer : List Byte) : List Byte :=
  let regs := k.stmtRegions
  leBytes 4 0x31545341 ++ leBytes 2 1 ++ leBytes 1 kind ++ leBytes 1 k.stmtFlags ++ chipId ++ leBytes 4 c
    ++ leBytes 4 regs.length ++ leBytes 8 (k.sseq + 1) ++ pad 32 prev ++ pad 32 k.meas ++ leBytes 8 k.umac
    ++ k.rplc.flatMap (fun x => leBytes 8 x.toNat) ++ leBytes 8 k.resets ++ leBytes 8 (if k.gap then k.gapmac else 0)
    ++ pad 32 peer ++ leBytes 4 k.lastJseq.toNat ++ leBytes 1 k.lastQ ++ List.replicate 43 0
    ++ regs.flatMap fun r => leBytes 2 r ++ List.replicate 6 0 ++ leBytes 8 (k.bytes.lookD r 0) ++ leBytes 8 (k.macs.lookD r 0)

/-- Takes a statement's snapshot (R421): its SSEQ is fixed now, and PREV is filled in when it is signed. -/
def snapshot (s : State) (c kind : Nat) (peer : List Byte) : State :=
  s.updCtx c fun k =>
    let peer := if kind = 4 then peer else if k.handin || k.gap then k.peer else []
    { k with
      statements := k.statements ++ [{ sseq := k.sseq + 1, kind := kind, body := stmtBytes c kind k [] peer, sig := none, at_ := s.clock }],
      sseq := k.sseq + 1, forced := false, gap := false, handin := false, sat := false,
      kind3 := if kind = 3 then k.total / k.thresh else k.kind3 }

/-- Bytes of an SLH-DSA-SHA2-128s signature (R422). DESIGN CHOICE: log 11. -/
def sigLen : Nat := 7856

/-- The oldest unsigned statement of a context. -/
def Context.unsigned (k : Context) : Option Statement := k.statements.find? (·.sig.isNone)

/-- A statement of kind 3 when the total has passed a further multiple of THRESH (R421). -/
def threshold (s : State) (c : Nat) : State :=
  let k := s.ctx c
  if k.thresh ≠ 0 && k.kind3 < k.total / k.thresh then snapshot s c 3 [] else s

/-- Counts a finished tile (R287): its MACs and its decoded bytes against a region, or its MACs against none. -/
def countTile (s : State) (c : Nat) (region : Option Nat) (macs bytes : Nat) : State :=
  let s := s.updCtx c fun k => match region with
    | none => { k with umac := raiseCounter k.umac macs, sat := k.sat || counterMax < k.umac + macs }
    | some r =>
      { k with macs := k.macs.put r (raiseCounter (k.macs.lookD r 0) macs),
               bytes := k.bytes.put r (raiseCounter (k.bytes.lookD r 0) bytes),
               sat := k.sat || counterMax < k.macs.lookD r 0 + macs || counterMax < k.bytes.lookD r 0 + bytes }
  threshold s c

/-- Raises a replay counter (R284). -/
def raiseRplc (s : State) (c n : Nat) : State :=
  s.updCtx c fun k => { k with rplc := k.rplc.set n (let v := k.rplc.getD n 0; if v = BitVec.allOnes 64 then v else v + 1) }

end Sys2Proof.Machine
end

