-- ==== Sys2Proof/Machine/Matrix.lean ====
section
/-! DEFINITION. The matrix array: operand checks (R273, R280, R288, R289), the exact product (R275, R276), narrow-first quantisation
and gauges (R281, R282), attempts and commits (R283 to R287) and tile movement (R288, R289). -/

namespace Sys2Proof.Machine

/-! ### Checks at issue -/

def isIntFmt (c : Nat) : Bool := c == 8 || c == 9

/-- The conditions that a command sets on one shape: dimensions, paths and formats, then its footprint (R273, R288). DEDUCED: log 22. -/
def viewFault (s : State) (b : Block) (q : Shape) (maxPath : Nat) (minPath : Nat) (ok : Bool) : Option Flt :=
  if !shapeOk q || !regionOk q then some ⟨0x27, 0, 0⟩
  else if ShapeOf.path q < minPath || maxPath < ShapeOf.path q then some ⟨0x24, 0, 0⟩
  else if !ok then some ⟨0x27, 0, 0⟩
  else footFault s b q

/-- The gauge fields of A (R69, R293). -/
def gaugeOk (a : Shape) : Bool := getField a 27 ≤ getField a 28 && getField a 29 ≠ 0

/-- R273 for MMA and MMA.NF. -/
def mmaCheck (s : State) (blk : Block) (a b : Shape) (sa sb : Option Shape) (nf sat : Bool) : Option Flt :=
  let fmtOk (q : Shape) : Bool := let c := ShapeOf.fmt q
    if nf then c ≤ 2 else 1 ≤ c && c ≤ 9
  let kOk := ShapeOf.size a 0 % 32 = 0 && ShapeOf.size a 0 ≤ 8192
  let mOk (q : Shape) : Bool := 1 ≤ ShapeOf.size q 1 && ShapeOf.size q 1 ≤ 64
  let okA := ShapeOf.ndim a = 2 && kOk && mOk a && fmtOk a && (!nf || gaugeOk a)
    && isIntFmt (ShapeOf.fmt a) == isIntFmt (ShapeOf.fmt b) && (!sat || isIntFmt (ShapeOf.fmt a))
  let okB := ShapeOf.ndim b = 2 && ShapeOf.size b 0 = ShapeOf.size a 0 && mOk b && fmtOk b
  let scale (q : Shape) (s' : Option Shape) : Option Flt :=
    match s' with
    | none => none
    | some x =>
      if 3 ≤ ShapeOf.fmt q && ShapeOf.fmt q ≤ 7 then
        viewFault s blk x 4 1 (ShapeOf.ndim x = 2 && ShapeOf.fmt x = 0xB && ShapeOf.size x 0 = ShapeOf.size q 0 / 32
          && ShapeOf.size x 1 = ShapeOf.size q 1)
      else none
  (((viewFault s blk a 4 1 okA).or (viewFault s blk b 4 1 okB)).or (scale a sa)).or (scale b sb)

/-! ### The Loom (R252, R280) -/

def loomC (q : Shape) : Nat := if ShapeOf.ndim q = 2 then 1 else ShapeOf.size q 2
def loomOut (size pad dil filt str : Nat) : Int := ((size : Int) + 2 * pad - dil * ((filt : Int) - 1) - 1) / (str : Int) + 1
def loomW (q : Shape) : Int := loomOut (ShapeOf.size q 0) (ShapeOf.padW q) (ShapeOf.dilW q) (ShapeOf.filtW q) (ShapeOf.strW q)
def loomH (q : Shape) : Int := loomOut (ShapeOf.size q 1) (ShapeOf.padH q) (ShapeOf.dilH q) (ShapeOf.filtH q) (ShapeOf.strH q)
def loomKw (q : Shape) : Nat := ShapeOf.filtH q * ShapeOf.filtW q * loomC q
def loomK (q : Shape) : Nat := 32 * cdiv (loomKw q) 32
/-- Effective rows of MMA.W (R280). -/
def loomRows (q : Shape) (r0 : Nat) : Nat := min 64 ((loomH q * loomW q).toNat - r0)

/-- The element of the activations that A(k, row) is, if it is inside (R252). -/
def loomIdx (q : Shape) (k row : Nat) : Option (List Int) :=
  if loomKw q ≤ k then none
  else
    let c := loomC q
    let ow := (loomW q).toNat
    let f := k / c
    let x : Int := (row % ow * ShapeOf.strW q : Nat) - (ShapeOf.padW q : Int) + (f % ShapeOf.filtW q * ShapeOf.dilW q : Nat)
    let y : Int := (row / ow * ShapeOf.strH q : Nat) - (ShapeOf.padH q : Int) + (f / ShapeOf.filtW q * ShapeOf.dilH q : Nat)
    if 0 ≤ x && x < ShapeOf.size q 0 && 0 ≤ y && y < ShapeOf.size q 1 then some [x, y, ((k % c : Nat) : Int)] else none

/-- R273 and R252 for MMA.W (R280). -/
def mmaWCheck (s : State) (blk : Block) (a b : Shape) (sat : Bool) : Option Flt :=
  let c := ShapeOf.fmt a
  let okA := (ShapeOf.ndim a = 2 || ShapeOf.ndim a = 3) && ShapeOf.filtH a ≠ 0 && ShapeOf.filtW a ≠ 0
    && 1 ≤ loomW a && 1 ≤ loomH a && ((1 ≤ c && c ≤ 4) || c = 8) && loomK a ≤ 8192
    && isIntFmt c == isIntFmt (ShapeOf.fmt b) && (!sat || isIntFmt c)
  let okB := ShapeOf.ndim b = 2 && ShapeOf.size b 0 = loomK a && 1 ≤ ShapeOf.size b 1 && ShapeOf.size b 1 ≤ 64
    && 1 ≤ ShapeOf.fmt b && ShapeOf.fmt b ≤ 9
  (viewFault s blk a 4 1 okA).or (viewFault s blk b 4 1 okB)

/-- R288 for ACCLD, ACCST and DRAIN. -/
def moveCheck (s : State) (blk : Block) (q : Shape) (fmts : List Nat) : Option Flt :=
  viewFault s blk q 3 0 (ShapeOf.ndim q = 2 && ShapeOf.size q 0 ≤ 64 && ShapeOf.size q 1 ≤ 64 && fmts.contains (ShapeOf.fmt q))

/-- R289. -/
def drainMxCheck (s : State) (blk : Block) (qe qs : Shape) : Option Flt :=
  let n := ShapeOf.size qe 0
  (viewFault s blk qe 3 0 (ShapeOf.ndim qe = 2 && 3 ≤ ShapeOf.fmt qe && ShapeOf.fmt qe ≤ 7 && (n = 32 || n = 64)
      && ShapeOf.size qe 1 ≤ 64)).or
    (viewFault s blk qs 3 0 (ShapeOf.ndim qs = 2 && ShapeOf.fmt qs = 0xB && ShapeOf.size qs 0 = n / 32
      && ShapeOf.size qs 1 = ShapeOf.size qe 1))

/-! ### Accumulator words (R270) -/

def accKey (tile m n : Nat) : Nat := tile * 4096 + m * 64 + n
def accGet (a : AMap W32) (tile m n : Nat) : Nat := (a.lookD (accKey tile m n) 0).toNat
/-- An accumulator word; a zero is not listed. -/
def accSet (a : AMap W32) (tile m n v : Nat) : AMap W32 :=
  if v % 2 ^ 32 = 0 then a.del (accKey tile m n) else a.put (accKey tile m n) (BitVec.ofNat 32 v)

/-! ### Operands as an engine reads them -/

/-- A command's operands: extents, and the elements of A and B with their scales. -/
structure Mat where
  rows : Nat
  cols : Nat
  k : Nat
  qa : Shape
  qb : Shape
  loom : Option Nat := none
  sa : Option Shape := none
  sb : Option Shape := none
  deriving DecidableEq, Repr

/-- The index of A(k, m). -/
def Mat.idxA (x : Mat) (k m : Nat) : Option (List Int) :=
  match x.loom with
  | some r0 => loomIdx x.qa k (r0 + m)
  | none => some [(k : Int), (m : Int)]

/-- A fault with the address that met it. -/
abbrev MFail := Fail × Nat

/-- One raw element; an element outside the Loom's input is zero. -/
def matElem (s : State) (b : Block) (q : Shape) (idx : Option (List Int)) : Except MFail Nat :=
  match idx with
  | none => .ok 0
  | some i => match elemRead s b q i with
    | .ok v => .ok v
    | .error f => .error (f, ShapeOf.path q * 2 ^ 60 + (elemAt q i).1)

/-- Reads a list of elements, up to the first that faults. -/
def readAll (f : Nat → Except MFail Nat) : List Nat → Except MFail (List Nat)
  | [] => .ok []
  | i :: is => match f i with
    | .error e => .error e
    | .ok v => match readAll f is with
      | .error e => .error e
      | .ok vs => .ok (v :: vs)

/-- Rows of 32 elements of one k-block. -/
def readRows (f : Nat → Nat → Except MFail Nat) (kb : Nat) : List Nat → Except MFail (List (List Nat))
  | [] => .ok []
  | r :: rs => match readAll (fun k => f k r) ((List.range 32).map (32 * kb + ·)) with
    | .error e => .error e
    | .ok x => match readRows f kb rs with
      | .error e => .error e
      | .ok xs => .ok (x :: xs)

/-- The scale codes of one k-block; 127 stands for ×1 (R274). -/
def readScales (s : State) (b : Block) (q : Option Shape) (mx : Bool) (kb n : Nat) : Except MFail (List Nat) :=
  match q with
  | some x => if mx then readAll (fun r => matElem s b x (some [(kb : Int), (r : Int)])) (List.range n) else .ok (List.replicate n 127)
  | none => .ok (List.replicate n 127)

/-- What one k-block reads: rows of A and B as raw bits, and their scale codes. -/
structure KBlock where
  a : List (List Nat)
  b : List (List Nat)
  sa : List Nat
  sb : List Nat
  deriving DecidableEq, Repr

def isMx (q : Shape) : Bool := 3 ≤ ShapeOf.fmt q && ShapeOf.fmt q ≤ 7

def readKBlock (s : State) (blk : Block) (x : Mat) (kb : Nat) : Except MFail KBlock :=
  match readRows (fun k m => matElem s blk x.qa (x.idxA k m)) kb (List.range x.rows) with
  | .error e => .error e
  | .ok a => match readRows (fun k n => matElem s blk x.qb (some [(k : Int), (n : Int)])) kb (List.range x.cols) with
    | .error e => .error e
    | .ok b => match readScales s blk x.sa (isMx x.qa) kb x.rows with
      | .error e => .error e
      | .ok sa => match readScales s blk x.sb (isMx x.qb) kb x.cols with
        | .error e => .error e
        | .ok sb => .ok ⟨a, b, sa, sb⟩

/-! ### The block sum (R275) -/

/-- The exact sum of finite products, as an integer at an exponent. -/
def exactSum (l : List FV) : Int × Int :=
  let q := (l.map fun v => match v with | .fin _ _ e => e | _ => 0).foldl min 0
  ((l.map fun v => match v with | .fin n m e => signedAt n m e q | _ => 0).foldl (· + ·) 0, q)

/-- blocksum of R275 on two rows of values with their scale codes, as an .f32 code. -/
def blockSum (a b : List FV) (sa sb : Nat) : Nat :=
  if sa = 255 || sb = 255 then f32.nanCode
  else
    let ps := (a.zip b).map fun (x, y) => (mulFV x y).getD (.nan false)
    let inf (n : Bool) : Bool := ps.any fun p => p == .inf n
    if ps.any FV.isNan || (inf true && inf false) then f32.nanCode
    else if inf true then f32.sign true f32.infCode
    else if inf false then f32.infCode
    else
      let (x, q) := exactSum ps
      let allNeg := ps.all fun p => match p with
        | .fin n m _ => n && m == 0
        | _ => false
      (roundSum f32 .rne false 0 allNeg x (q + (sa : Int) + (sb : Int) - 254)).1

/-- Adds one k-block to a tile for every output in range. -/
def addBlock (acc : AMap W32) (tile : Nat) (a b : List (List FV)) (sa sb : List Nat) : AMap W32 :=
  (a.zipIdx).foldl (fun acc (ra, m) =>
    (b.zipIdx).foldl (fun acc (rb, n) =>
      accSet acc tile m n (fAdd f32 .rne false 0 (accGet acc tile m n) (blockSum ra rb (sa.getD m 127) (sb.getD n 127))).1) acc) acc

/-- Values of a row of raw elements. -/
def rowVals (c : Nat) (row : List Nat) : List FV :=
  row.map fun v => match shapeFmt c with
    | some f => f.decode v
    | none => .nan false

/-- A float MMA from a k-block on: the tile, and where it stopped if an operand faulted. -/
def mmaFloat (s : State) (blk : Block) (x : Mat) (tile : Nat) : Nat → Nat → AMap W32 → AMap W32 × Option (MFail × Nat)
  | 0, _, acc => (acc, none)
  | n + 1, kb, acc =>
    match readKBlock s blk x kb with
    | .error e => (acc, some (e, kb))
    | .ok k =>
      mmaFloat s blk x tile n (kb + 1)
        (addBlock acc tile (k.a.map (rowVals (ShapeOf.fmt x.qa))) (k.b.map (rowVals (ShapeOf.fmt x.qb))) k.sa k.sb)

/-- Every k-block of an integer MMA: rows joined along k. -/
def readInt (s : State) (blk : Block) (x : Mat) : Nat → Nat → Except MFail (List (List Nat) × List (List Nat))
  | 0, _ => .ok (List.replicate x.rows [], List.replicate x.cols [])
  | n + 1, kb => match readKBlock s blk x kb with
    | .error e => .error e
    | .ok k => match readInt s blk x n (kb + 1) with
      | .error e => .error e
      | .ok (a, b) => .ok (List.zipWith (· ++ ·) k.a a, List.zipWith (· ++ ·) k.b b)

/-- The exact integer update (R276). -/
def mmaInt (acc : AMap W32) (tile wa wb : Nat) (sat : Bool) (a b : List (List Nat)) : AMap W32 :=
  (a.zipIdx).foldl (fun acc (ra, m) =>
    (b.zipIdx).foldl (fun acc (rb, n) =>
      let t := sextNat 32 (accGet acc tile m n)
        + ((ra.zip rb).map fun (x, y) => sextNat wa x * sextNat wb y).foldl (· + ·) 0
      let t := if sat then max (-(2 ^ 31 : Nat) : Int) (min t ((2 ^ 31 : Nat) - 1)) else t
      accSet acc tile m n (truncInt 32 t)) acc) acc

/-! ### Narrow-first quantisation (R281, R282) -/

/-- The formats of the rungs. -/
def rungFmt (r : Nat) : Fmt :=
  match r with
  | 0 => e2m1
  | 1 => e3m2
  | 2 => e4m3
  | _ => bf16

/-- emax of a format: the exponent of its largest finite value. -/
def emax (f : Fmt) : Int :=
  match f.decode f.maxCode with
  | .fin _ m e => ilog m 1 + e
  | _ => 0

/-- The largest finite value as a mantissa and an exponent. -/
def maxFin (f : Fmt) : Nat × Int :=
  match f.decode f.maxCode with
  | .fin _ m e => (m, e)
  | _ => (0, 0)

/-- A quantised row or element: values, scale code, saturations and underflows. -/
structure Quant where
  vals : List FV
  code : Nat := 127
  sat : Nat := 0
  und : Nat := 0
  deriving DecidableEq, Repr

/-- One finite value rounded RNE on the grid of a format, unbounded above, then clamped (R281). -/
def quantOne (f : Fmt) (neg : Bool) (m : Nat) (e : Int) : FV × Nat × Nat :=
  if m = 0 then (.fin neg 0 f.qmin, 0, 0)
  else
    let q := max (ilog m 1 + e - f.mb) f.qmin
    let (k, _) := roundAt .rne neg 0 m 1 e q
    let (mm, me) := maxFin f
    if cmpFV (.fin false mm me) (.fin false k q) < 0 then (.fin neg mm me, 1, 0)
    else (.fin neg k q, 0, if k = 0 then 1 else 0)

/-- quantise of R281. -/
def quantise (f : Fmt) (xs : List FV) : Quant :=
  if xs.any fun v => match v with | .fin .. => false | _ => true then
    { vals := xs.map fun _ => .fin false 0 0, code := 255 }
  else
    let logs := xs.filterMap fun v => match v with
      | .fin _ m e => if m = 0 then none else some (ilog m 1 + e)
      | _ => none
    let x : Int := match logs with
      | [] => -127
      | l :: ls => min 127 (max (-127) (ls.foldl max l - emax f))
    let r := xs.map fun v => match v with
      | .fin n m e => quantOne f n m (e - x)
      | v => (v, 0, 0)
    { vals := r.map (·.1), code := (x + 127).toNat, sat := (r.map (·.2.1)).foldl (· + ·) 0, und := (r.map (·.2.2)).foldl (· + ·) 0 }

/-- Rung 3: every element rounded by itself, NaNs and infinities unchanged (R281). -/
def quantBf (xs : List FV) : Quant :=
  let r := xs.map fun v => match v with
    | .fin n m e => quantOne bf16 n m e
    | v => (v, 0, 0)
  { vals := r.map (·.1), sat := (r.map (·.2.1)).foldl (· + ·) 0, und := (r.map (·.2.2)).foldl (· + ·) 0 }

def quantRow (rung : Nat) (xs : List FV) : Quant := if rung = 3 then quantBf xs else quantise (rungFmt rung) xs

/-- One output and k-block is a cancellation (R282): P ≠ 0 and |S| × 2^C ≤ P. -/
def cancels (a b : Quant) (c : Nat) : Bool :=
  if a.code = 255 || b.code = 255 then false
  else
    let ps := (a.vals.zip b.vals).map fun (x, y) => (mulFV x y).getD (.nan false)
    if ps.any fun v => match v with | .fin .. => false | _ => true then false
    else
      let (sum, _) := exactSum ps
      let (mag, _) := exactSum (ps.map fun v => match v with | .fin _ m e => .fin false m e | v => v)
      mag ≠ 0 && decide ((sum.natAbs : Int) * (2 ^ c : Nat) ≤ mag)

/-- The gauges of an attempt. -/
structure Gauge where
  sat : Nat := 0
  und : Nat := 0
  can : Nat := 0
  deriving DecidableEq, Repr

/-- Some count is over its budget (R282). -/
def Gauge.over (g : Gauge) (a : Shape) : Bool :=
  let big (n f : Nat) : Bool := getField a f ≠ 0xFFF && getField a f < n
  big g.sat 30 || big g.und 31 || big g.can 32

/-- An attempt: the staging tile and its gauges, whether it is squashed, or where an operand faulted (R283). -/
structure Attempt where
  acc : AMap W32
  g : Gauge := {}
  squashed : Bool := false
  fail : Option (MFail × Nat) := none
  deriving DecidableEq, Repr

/-- The k-blocks of an attempt, up to the end of the one in which a count goes over budget. -/
def nfBlocks (s : State) (blk : Block) (x : Mat) (tile rung : Nat) : Nat → Nat → Attempt → Attempt
  | 0, _, t => t
  | n + 1, kb, t =>
    match readKBlock s blk x kb with
    | .error e => { t with fail := some (e, kb) }
    | .ok k =>
      let qa := k.a.map fun r => quantRow rung (rowVals (ShapeOf.fmt x.qa) r)
      let qb := k.b.map fun r => quantRow rung (rowVals (ShapeOf.fmt x.qb) r)
      let sum (f : Quant → Nat) : Nat := ((qa ++ qb).map f).foldl (· + ·) 0
      let can := (qa.map fun ra => (qb.filter fun rb => cancels ra rb (getField x.qa 29)).length).foldl (· + ·) 0
      let g : Gauge := { sat := t.g.sat + sum (·.sat), und := t.g.und + sum (·.und), can := t.g.can + can }
      let t := { t with g := g,
                        acc := addBlock t.acc tile (qa.map (·.vals)) (qb.map (·.vals)) (qa.map (·.code)) (qb.map (·.code)) }
      if rung < getField x.qa 28 && g.over x.qa then { t with squashed := true }
      else nfBlocks s blk x tile rung n (kb + 1) t

/-- One attempt of an MMA.NF at its rung. DEDUCED: log 53. -/
def attempt (s : State) (blk : Block) (x : Mat) (acc : AMap W32) (tile rung : Nat) : Attempt :=
  nfBlocks s blk x tile rung (x.k / 32) 0 { acc := acc }

/-! ### Metering (R287) -/

/-- The bytes of a path-0x4 operand's elements, each once. -/
def operandBytes (q : Shape) (idxs : List (Option (List Int))) : NSet :=
  if ShapeOf.path q ≠ 4 then []
  else idxs.foldl (fun m i => match i with
    | none => m
    | some i =>
      let (off, sh) := elemAt q i
      m.addAll ((List.range (elemBytes (fmtBits (ShapeOf.fmt q)) sh)).map (off + ·))) []

/-- Counts a tile that completes or commits: its A and B as R287 says, and the bytes of its scales against their own regions (R240), each byte once. -/
def meter (s : State) (ctx : Nat) (x : Mat) : State :=
  let region := if ShapeOf.path x.qb = 4 then some (ShapeOf.region x.qb)
    else if ShapeOf.path x.qa = 4 then some (ShapeOf.region x.qa) else none
  let a := operandBytes x.qa ((List.range x.rows).flatMap fun m => (List.range x.k).map fun (k : Nat) => x.idxA k m)
  let b := operandBytes x.qb ((List.range x.cols).flatMap fun (n : Nat) => (List.range x.k).map fun (k : Nat) => some [(k : Int), (n : Int)])
  let ab := NSet.addAll a b
  let scales (q : Shape) : NSet := operandBytes q ((indices (sizes q)).map fun j => some (ints j))
  let more := ((x.sa.toList ++ x.sb.toList).foldl (fun m q => NSet.addAll m (scales q)) []).filter fun o => !ab.contains o
  let s := (((x.sa.toList ++ x.sb.toList).filter fun q => ShapeOf.path q == 4).map ShapeOf.region).eraseDups.foldl (fun s r =>
    countWeight s ctx r (more.filter fun o => bits o 59 48 == r).length) s
  countTile s ctx region (x.rows * x.cols * x.k) ab.length

/-! ### Moving tiles (R288, R289) -/

/-- Bytes that ACCST, DRAIN or DRAIN.MX writes for a shape of columns and rows. -/
def tileCells (q : Shape) (f : Nat → Nat → Nat) : Cells :=
  (indices [ShapeOf.size q 0, ShapeOf.size q 1]).foldl (fun c j =>
    layElem c q (ints j) (f (j.getD 1 0) (j.getD 0 0))) []

/-- The code of a value on the grid of a format. -/
def gridCode (f : Fmt) (v : FV) : Nat :=
  match v with
  | .fin n k q => f.sign n (if k = 0 then 0 else (q - f.qmin).toNat * 2 ^ f.mb + k)
  | _ => 0

/-- The blocks that the Mint makes of a row (R289). -/
def mintRow (f : Fmt) (acc : AMap W32) (tile m n : Nat) : List Quant :=
  (List.range (n / 32)).map fun j =>
    quantise f ((List.range 32).map fun i => f32.decode (accGet acc tile m (32 * j + i)))

end Sys2Proof.Machine
end

