-- ==== Sys2Proof/Machine/TClass.lean ====
section
/-! DEFINITION. Class T: matrix commands (R271, R272, R277 to R289, R291), their completion, and the follow-on MMA of TCOPY.MMA
(R255). -/

namespace Sys2Proof.Machine

/-! ### Issue -/

/-- The waits of a command at issue: fences and acquires; windows that a matrix operand fetch touches (R234); held ranges, for its writes
(R236); and the swap of a buffer on which it reads or writes (R265). -/
def matWaits (s : State) (m : Mb) (reads writes : List Shape) (back : Bool) : Bool :=
  memWaits s m ((reads ++ writes).map ShapeOf.path)
    || (reads.flatMap fun q => accOf q false false).any (fun x => (touchedWins m.b x).any fun i => ((m.b.windows[i]?).map (·.st)) != some .present)
    || accWaits s m.b (writes.flatMap fun q => accOf q true back)
    || (reads ++ writes).any (swapDue s m.b)

def matTouch (s : State) (m : Mb) (reads writes : List Shape) : State :=
  touch s m.t.blk (some m.u) m.t.pc 16 ((reads.flatMap fun q => accOf q false false) ++ writes.flatMap fun q => accOf q true false)

/-- The commands that a core's array holds, and those of them that hold a staging tile (R271, R272). -/
def arrayRoom (s : State) (core : Nat) : Bool := (s.core core).mcmds.length < Config.matrixQueue
def stagingRoom (s : State) (core : Nat) : Bool := ((s.core core).mcmds.filter isNf).length < Config.stagingTiles

/-- The operands that a command reads from memory. -/
def MKind.reads (k : MKind) : List Shape :=
  match k with
  | .mma a b sa sb _ => [a, b] ++ sa.toList ++ sb.toList
  | .mmaW a b _ _ => [a, b]
  | .mmaNf a b => [a, b]
  | .accld q => [q]
  | _ => []

/-- The shapes that a command writes. -/
def MKind.writes (k : MKind) : List Shape :=
  match k with
  | .accst q => [q]
  | .drain q => [q]
  | .drainMx qe qs => [qe, qs]
  | _ => []

/-- The bindings of the regions that shapes name on path 0x4, as they stand (R285). DEDUCED: log 25. -/
def boundOf (s : State) (ctx : Nat) (l : List Shape) : AMap Region :=
  (l.filter fun q => ShapeOf.path q == 4).foldl (fun m q => match (s.ctx ctx).regions.look (ShapeOf.region q) with
    | some r => m.put (ShapeOf.region q) r
    | none => m) []

/-- Hands a command to the array for a member: its operation in flight and its place in the queue; its routes are its thread's (R323). -/
def enqueue (s : State) (i : Instr) (m : Mb) (acc : Nat) (kind : MKind) : Nat × State :=
  let rd := kind.reads.map (runOf s m.b)
  let wr := kind.writes.map (runOf s m.b)
  let after := engineAfter s m.u rd wr
  let bound := boundOf s m.b.ctx kind.reads
  let s := noteShapes s m.u m.b (kind.reads ++ kind.writes)
  let (c, s) := s.newId
  let (id, s) := startOp s i m c [] (.matrix c) after
  (c, (s.listen id m.u).updCore m.b.core fun k => { k with
    tiles := NSet.add k.tiles acc,
    mcmds := k.mcmds ++ [{ id := c, acc := acc, kind := kind, pend := some id, blk := m.t.blk, ctx := m.b.ctx, pc := m.t.pc,
                           bound := bound }] })

/-- Issue of a command that holds no range. -/
def matOp (i : Instr) (acc : Nat) (kind : Mb → MKind) (reads writes : Mb → List Shape) (back : Bool)
    (check : State → Mb → Option Flt) (s : State) : Res :=
  issueSeq i {
    wait := fun s m => !arrayRoom s m.b.core || matWaits s m (reads m) (writes m) back,
    onWait := fun s m => matTouch s m (reads m) (writes m),
    check := check,
    effect := fun s m => (enqueue s i m acc (kind m)).2 } s

/-- The scale shapes of an MMA (R273), q[SC] and the next, each where its operand takes scales (R274). -/
def scalesOf (x : X) (m : Mb) : Option Shape × Option Shape :=
  match x.sc with
  | .q n => (if isMx (m.shape x.sa) then some (m.b.shape n) else none, if isMx (m.shape x.sb) then some (m.b.shape (n + 1)) else none)
  | _ => (none, none)

def execMma (x : X) (acc : Fin 32) (sat : Bool) (s : State) : Res :=
  matOp (.mma x acc sat) acc
    (fun m => .mma (m.shape x.sa) (m.shape x.sb) (scalesOf x m).1 (scalesOf x m).2 sat)
    (fun m => [m.shape x.sa, m.shape x.sb] ++ (scalesOf x m).1.toList ++ (scalesOf x m).2.toList) (fun _ => []) false
    (fun s m => mmaCheck s m.b (m.shape x.sa) (m.shape x.sb) (scalesOf x m).1 (scalesOf x m).2 false sat) s

def execMmaW (x : X) (acc : Fin 32) (sat : Bool) (s : State) : Res :=
  matOp (.mmaW x acc sat) acc
    (fun m => .mmaW (m.shape x.sa) (m.shape x.sb) (m.t.val (.int 32) x.sc) sat)
    (fun m => [m.shape x.sa, m.shape x.sb]) (fun _ => []) false
    (fun s m => mmaWCheck s m.b (m.shape x.sa) (m.shape x.sb) sat) s

/-- The retained ranges of an MMA.NF (R285). -/
def retained (s : State) (m : Mb) (x : X) : List Held :=
  (rangeOf s m.b (m.shape x.sa) false false).toList ++ (rangeOf s m.b (m.shape x.sb) false false).toList

/-- MMA.NF waits at issue for a staging tile and for its entries (R272, R283). -/
def execMmaNf (x : X) (acc : Fin 32) (s : State) : Res :=
  let ops : Mb → List Shape := fun m => [m.shape x.sa, m.shape x.sb]
  issueSeq (.mmaNf x acc) {
    wait := fun s m => !arrayRoom s m.b.core || !stagingRoom s m.b.core || !holdRoom s m.b.core (retained s m x).length
      || matWaits s m (ops m) [] false,
    onWait := fun s m => matTouch s m (ops m) [],
    check := fun s m => mmaCheck s m.b (m.shape x.sa) (m.shape x.sb) none none true false,
    effect := fun s m =>
      let r := retained s m x
      let (c, s) := enqueue s (.mmaNf x acc) m acc (.mmaNf (m.shape x.sa) (m.shape x.sb))
      let s := r.foldl (fun s h => hold s m.b.core c (some h)) s
      s.updCore m.b.core fun k => { k with mcmds := k.mcmds.map fun d => if d.id = c then { d with rung := getField (m.shape x.sa) 27 } else d } } s

def execAccz (x : X) (acc : Fin 32) (s : State) : Res :=
  matOp (.accz x acc) acc (fun _ => .accz) (fun _ => []) (fun _ => []) false (fun _ _ => none) s

def execAccld (x : X) (acc : Fin 32) (s : State) : Res :=
  matOp (.accld x acc) acc (fun m => .accld (m.shape x.sa)) (fun m => [m.shape x.sa]) (fun _ => []) false
    (fun s m => moveCheck s m.b (m.shape x.sa) [0, 0xD]) s

def execAccst (x : X) (acc : Fin 32) (s : State) : Res :=
  matOp (.accst x acc) acc (fun m => .accst (m.shape x.sa)) (fun _ => []) (fun m => [m.shape x.sa]) false
    (fun s m => moveCheck s m.b (m.shape x.sa) [0, 0xD]) s

def execDrain (x : X) (acc : Fin 32) (s : State) : Res :=
  matOp (.drain x acc) acc (fun m => .drain (m.shape x.sa)) (fun _ => []) (fun m => [m.shape x.sa]) true
    (fun s m => moveCheck s m.b (m.shape x.sa) [0, 1, 2]) s

def execDrainMx (x : X) (acc : Fin 32) (s : State) : Res :=
  matOp (.drainMx x acc) acc (fun m => .drainMx (m.shape x.sa) (m.shape x.sb)) (fun _ => [])
    (fun m => [m.shape x.sa, m.shape x.sb]) true
    (fun s m => drainMxCheck s m.b (m.shape x.sa) (m.shape x.sb)) s

/-! ### Completion -/

/-- The command may run: its context's engines run, what it follows is done, and it is the first on its tile. -/
def matReady (s : State) (core : Nat) (c : MCmd) : Bool :=
  enginesRun s c.ctx && (c.pend.bind s.pend.look).all (fun p => !p.failed && s.allDone p.after)
    && (((s.core core).mcmds.find? (·.acc == c.acc)).map (·.id)) == some c.id

def setCmd (s : State) (core : Nat) (c : MCmd) : State :=
  s.updCore core fun k => { k with mcmds := k.mcmds.map fun d => if d.id = c.id then c else d }

/-- The thread whose command it is. -/
def MCmd.th (s : State) (c : MCmd) : Option Nat := ((c.pend.bind s.pend.look).bind fun p => p.parts.head?).map (·.th)

/-- DETAIL of a stop record that names a command (R401): its tile, its rung and its k-block. -/
def MCmd.detail (c : MCmd) : Nat := c.acc + c.rung * 2 ^ 8 + c.kblock * 2 ^ 16

/-- Whom a command writes for, and names in a stop record. -/
def MCmd.writer (s : State) (core : Nat) (c : MCmd) : Writer :=
  { core := core, ctx := c.ctx, blk := c.blk, th := c.th s, pc := c.pc, detail := c.detail, detail2 := (s.core core).mcmds.length }

/-- A fault of the array (R291, R401): the command keeps the k-block at which it goes on. Poison names its physical line (R303); page service
resumes no command (R404). DEDUCED: log 19. -/
def matFault (s : State) (core : Nat) (c : MCmd) (e : MFail) (kb : Nat) : State :=
  let c := { c with kblock := kb }
  let s := setCmd s core c
  let f := e.1.unserved
  let detail := if f.cause = 0x29 then f.line else c.detail
  let stop := engineStop s (c.writer s core) 4 core f.cause e.2 detail (s.core core).mcmds.length
  raiseFault ((c.pend.map (failPend s)).getD s) c.ctx { stop := stop }

/-- A command leaves the array, and the operation that waits for it lands (R255, R278). -/
def matDone (s : State) (core : Nat) (c : MCmd) (status : W32) : State :=
  let s := s.updCore core fun k => { k with mcmds := k.mcmds.filter fun d => d.id != c.id }
  match c.pend with
  | none => s
  | some id => match s.pend.look id with
    | none => s
    | some p => match p.op with
      | .copy _ _ _ st => landAll (keepCopy s id p (st ||| 0x40000000)) id [st ||| 0x40000000]
      | _ => landAll s id [status]

/-- The operands of a product command. -/
def matOf (c : MCmd) : Option Mat :=
  match c.kind with
  | .mma a b sa sb _ =>
    some { rows := ShapeOf.size a 1, cols := ShapeOf.size b 1, k := ShapeOf.size a 0, qa := a, qb := b, sa := sa, sb := sb }
  | .mmaW a b r0 _ =>
    some { rows := loomRows a r0, cols := ShapeOf.size b 1, k := loomK a, qa := a, qb := b, loom := some r0 }
  | .mmaNf a b => some { rows := ShapeOf.size a 1, cols := ShapeOf.size b 1, k := ShapeOf.size a 0, qa := a, qb := b }
  | _ => none

/-- The state in which a command reads its operands: as its thread sees device memory (R324), and under the bindings of its acceptance (R285). -/
def MCmd.view (s : State) (c : MCmd) : State :=
  (ownView s (c.th s)).updCtx c.ctx fun k => { k with regions := c.bound.foldl (fun m e => m.put e.1 e.2) k.regions }

/-- A float or integer MMA runs to its end, or stops where an operand faults. -/
def runProduct (s : State) (core : Nat) (b : Block) (c : MCmd) (x : Mat) (sat : Bool) : State :=
  let acc := (s.core core).acc
  if isIntFmt (ShapeOf.fmt x.qa) then
    match readInt (c.view s) b x (x.k / 32) 0 with
    | .error e => matFault s core c e 0
    | .ok (ra, rb) =>
      let acc := mmaInt acc c.acc (fmtBits (ShapeOf.fmt x.qa)) (fmtBits (ShapeOf.fmt x.qb)) sat ra rb
      matDone (meter (s.updCore core fun k => { k with acc := acc }) c.ctx x) core c 0
  else
    match mmaFloat (c.view s) b x c.acc (x.k / 32 - c.kblock) c.kblock acc with
    | (acc, some (e, kb)) => matFault (s.updCore core fun k => { k with acc := acc }) core c e kb
    | (acc, none) => matDone (meter (s.updCore core fun k => { k with acc := acc }) c.ctx x) core c 0

/-- One k-block of a float product that has more to come (R275): the blocks added so far are kept (R291). -/
def stepProduct (s : State) (core : Nat) (b : Block) (c : MCmd) (x : Mat) : State :=
  if isIntFmt (ShapeOf.fmt x.qa) || x.k / 32 ≤ c.kblock + 1 then s
  else match mmaFloat (c.view s) b x c.acc 1 c.kblock (s.core core).acc with
    | (acc, some (e, kb)) => matFault (s.updCore core fun k => { k with acc := acc }) core c e kb
    | (acc, none) => setCmd (s.updCore core fun k => { k with acc := acc }) core { c with kblock := c.kblock + 1 }

/-- ACCLD: words up to the first that faults (R288, R291). -/
def runLoad (s : State) (core : Nat) (b : Block) (c : MCmd) (q : Shape) : State :=
  let (acc, e) := (indices [ShapeOf.size q 0, ShapeOf.size q 1]).foldl (fun (r : AMap W32 × Option MFail) j =>
    match r.2 with
    | some _ => r
    | none => match matElem (c.view s) b q (some (ints j)) with
      | .ok v => (accSet r.1 c.acc (j.getD 1 0) (j.getD 0 0) v, none)
      | .error e => (r.1, some e)) ((s.core core).acc, none)
  let s := s.updCore core fun k => { k with acc := acc }
  match e with
  | some e => matFault s core c e 0
  | none => matDone s core c 0

/-- Bytes of two shapes of one command as one set: where both lay a bit, the second stands. -/
def Cells.laid (a b : Cells) : Cells :=
  b.foldl (fun m c =>
    let (v, k) := m.lookD c.1 (0, 0)
    m.put c.1 ((v &&& (255 - c.2.2)) + c.2.1, k ||| c.2.2)) a

/-- A path's bytes of a command, so that all it writes to a line makes one line write (R296); shapes that overlap land in a free order. -/
def pathCells (s : State) (out : List (Shape × Cells)) (path : Nat) : Cells :=
  (inSomeOrder s (out.length ≤ 1) (out.filter fun o => ShapeOf.path o.1 == path)).foldl (fun m o => m.laid o.2) []

/-- The lines of a movement command, over the paths that it writes. -/
def moveLine (path off : Nat) : Nat := path * 2 ^ 54 + off / 64

/-- The writes of a movement command: the lines that `mine` picks, path by path. -/
def moveWrite (s : State) (core : Nat) (b : Block) (c : MCmd) (out : List (Shape × Cells)) (own : Bool) (mine : Nat → Bool) : Wrote :=
  ((out.map fun o => ShapeOf.path o.1).eraseDups).foldl (fun (w : Wrote) path =>
    if w.fail.isSome || w.full then w
    else engineWrite w.s b (c.writer s core) 4 path ((pathCells s out path).filter fun x => mine (moveLine path x.1)) own) { s := s }

/-- A command that writes memory. -/
def runStore (s : State) (core : Nat) (b : Block) (c : MCmd) (out : List (Shape × Cells)) (own : Bool) : State :=
  let w := moveWrite s core b c out own fun l => !c.landed.contains l
  if w.full then s
  else match w.fail with
  | some e => matFault w.s core c e 0
  | none => matDone w.s core c 0

/-- One line of its writes lands before the others. -/
def stepStore (s : State) (core : Nat) (b : Block) (c : MCmd) (out : List (Shape × Cells)) (own : Bool) (k : Nat) : State :=
  if c.landed.contains k then s
  else
    let w := moveWrite s core b c out own (· == k)
    if w.full then s
    else match w.fail with
    | some e => matFault w.s core c e 0
    | none => setCmd w.s core { c with landed := NSet.add c.landed k }

/-- What a movement command writes, and whether as stores of its thread (R288, R289). -/
def moveOut (s : State) (core : Nat) (c : MCmd) : Option (List (Shape × Cells) × Bool) :=
  let acc := (s.core core).acc
  match c.kind with
  | .accst q => some ([(q, tileCells q fun m n => accGet acc c.acc m n)], true)
  | .drain q =>
    let f := (shapeFmt (ShapeOf.fmt q)).getD f32
    some ([(q, tileCells q fun m n => (roundFV f .rne false 0 (f32.decode (accGet acc c.acc m n))).1)], false)
  | .drainMx qe qs =>
    let f := (shapeFmt (ShapeOf.fmt qe)).getD e4m3
    let blk (m j : Nat) : Quant := (mintRow f acc c.acc m (ShapeOf.size qe 0)).getD j { vals := [] }
    some ([(qe, tileCells qe fun m n => gridCode f ((blk m (n / 32)).vals.getD (n % 32) (.fin false 0 0))),
           (qs, tileCells qs fun m j => (blk m j).code)], false)
  | _ => none

/-- What a command other than MMA.NF does. -/
def runCmd (s : State) (core : Nat) (b : Block) (c : MCmd) : State :=
  match c.kind with
  | .mma _ _ _ _ sat => match matOf c with
    | some x => runProduct s core b c x sat
    | none => s
  | .mmaW _ _ _ sat => match matOf c with
    | some x => runProduct s core b c x sat
    | none => s
  | .mmaNf .. => s
  | .accz => matDone (s.updCore core fun k => { k with acc := k.acc.filter fun e => e.1 / 4096 != c.acc }) core c 0
  | .accld q => runLoad s core b c q
  | _ => match moveOut s core c with
    | some (out, own) => runStore s core b c out own
    | none => s

/-- A part of a command: one k-block of a float product, or one line of a movement (R275, R288, R291). -/
def matBurst (s : State) (core id k : Nat) : State :=
  match (s.core core).mcmds.find? (·.id == id) with
  | none => s
  | some c => match s.blocks.look c.blk with
    | none => s
    | some b =>
      if !matReady s core c then s
      else match moveOut s core c with
        | some (out, own) => stepStore s core b c out own k
        | none => if isNf c then s else match matOf c with
          | some x => stepProduct s core b c x
          | none => s

/-- MATRIX_COMMAND_COMPLETE. -/
def execMatrixCommandComplete (core id : Nat) (s : State) : Res :=
  .next (match (s.core core).mcmds.find? (·.id == id) with
    | none => s
    | some c => match s.blocks.look c.blk with
      | none => s
      | some b => if matReady s core c then runCmd s core b c else s)

/-- The attempt that an MMA.NF makes at its rung. -/
def nfAttempt (s : State) (core : Nat) (c : MCmd) : Option (Mat × Attempt) :=
  match s.blocks.look c.blk, matOf c with
  | some b, some x => if isNf c && matReady s core c then some (x, attempt (c.view s) b x (s.core core).acc c.acc c.rung) else none
  | _, _ => none

/-- MMA_NF_SQUASH (R283): a count went over its budget below the stop rung. -/
def execMmaNfSquash (core id : Nat) (s : State) : Res :=
  .next (match (s.core core).mcmds.find? (·.id == id) with
    | none => s
    | some c => match nfAttempt s core c with
      | none => s
      | some (_, a) => match a.fail with
        | some (e, kb) => matFault s core c e kb
        | none =>
          if a.squashed then setCmd (raiseRplc s c.ctx c.rung) core { c with rung := c.rung + 1, att := c.att + 1, kblock := 0 }
          else s)

/-- The status word of R278. -/
def nfStatus (state rung att : Nat) (g : Gauge) : W32 :=
  BitVec.ofNat 32 (state * 2 ^ 30 + rung * 2 ^ 28 + (att - 1) * 2 ^ 26 + min g.sat 255 * 2 ^ 16 + min g.und 255 * 2 ^ 8 + min g.can 255)

/-- MMA_NF_COMMIT (R286). -/
def execMmaNfCommit (core id : Nat) (s : State) : Res :=
  .next (match (s.core core).mcmds.find? (·.id == id) with
    | none => s
    | some c => match nfAttempt s core c with
      | none => s
      | some (x, a) => match a.fail with
        | some (e, kb) => matFault s core c e kb
        | none =>
          if a.squashed then s
          else
            let spent := a.g.over x.qa
            let s := unheldCore (s.updCore core fun k => { k with acc := a.acc }) core c.id
            let s := meter (if spent then raiseRplc s c.ctx 3 else s) c.ctx x
            matDone s core c (nfStatus (if spent then 2 else 1) c.rung c.att a.g))

/-- The operands of a follow-on MMA touch windows as any matrix operand fetch does (R234). -/
def followOnAcc (c : Copy) (qb : Shape) : List Acc := accOf c.qd false false ++ accOf qb false false

/-- A window that a follow-on MMA touches is not yet Present. -/
def followOnWaits (s : State) (p : Pend) (c : Copy) (qb : Shape) : Bool :=
  match s.blocks.look p.blk with
  | none => false
  | some b => (followOnAcc c qb).any fun x => (touchedWins b x).any fun i => ((b.windows[i]?).map (·.st)) != some .present

/-- TCOPY_FOLLOW_ON_ISSUE (R234, R255, R271): once the last byte has landed, the MMA takes its place in the array's order. -/
def execTcopyFollowOnIssue (id : Nat) (s : State) : Res :=
  .next (match s.pend.look id with
    | some p => match p.op with
      | .copy c (some (acc, qb)) true _ =>
        if !enginesRun s p.ctx || !arrayRoom s p.core || (s.core p.core).mcmds.any (·.pend == some id) then s
        else if followOnWaits s p c qb then touch s p.blk (p.parts.head?.map (·.th)) p.pc 16 (followOnAcc c qb)
        else
          let bound := boundOf s p.ctx [qb]
          let (n, s) := s.newId
          s.updCore p.core fun k => { k with
            tiles := NSet.add k.tiles acc,
            mcmds := k.mcmds ++ [{ id := n, acc := acc, kind := .mma c.qd qb none none false, pend := some id, blk := p.blk,
                                   ctx := p.ctx, pc := p.pc, bound := bound }] }
      | _ => s
    | none => s)

end Sys2Proof.Machine
end

