-- ==== Sys2Proof/Machine/VInt.lean ====
section
/-! DEFINITION. Class V, integer and predicate instructions (R151 to R162). -/

namespace Sys2Proof.Machine

/-! ### Shared shapes -/

/-- A source read under a type (R151). -/
def Mb.int (m : Mb) (t : ITy) (o : Opnd) : Int := ITy.value t (m.t.ival t o)
/-- A source read as unsigned bits of a width. -/
def Mb.raw (m : Mb) (n : Nat) (o : Opnd) : Nat := m.t.val (.int n) o

/-- A result computed exactly from A, B and C and reduced (R151). -/
def intOp (i : Instr) (t : ITy) (sat : Bool) (f : Mb → Int) (s : State) : Res :=
  compute i (fun m => toDst i (reduce t sat (f m))) s

/-- A result on raw bits. -/
def rawOp (i : Instr) (f : Mb → Nat) (s : State) : Res := compute i (fun m => toDst i (f m)) s

/-- A predicate result. -/
def predOp (i : Instr) (f : Mb → Bool) (s : State) : Res := compute i (fun m => toPred i (f m)) s

/-! ### Arithmetic (R152) -/

def execNop (x : X) (s : State) : Res := compute (.nop x) (fun _ => {}) s

def execIadd (x : X) (t : ITy) (sat : Bool) (s : State) : Res :=
  intOp (.iadd x t sat) t sat (fun m => m.int t x.sa + m.int t x.sb) s

def execIsub (x : X) (t : ITy) (sat : Bool) (s : State) : Res :=
  intOp (.isub x t sat) t sat (fun m => m.int t x.sa - m.int t x.sb) s

def execImul (x : X) (t : ITy) (sat : Bool) (s : State) : Res :=
  intOp (.imul x t sat) t sat (fun m => m.int t x.sa * m.int t x.sb) s

def execImulh (x : X) (t : ITy) (s : State) : Res :=
  intOp (.imulh x t) t false (fun m => (m.int t x.sa * m.int t x.sb) / 2 ^ 32) s

def execImad (x : X) (t : ITy) (sat : Bool) (s : State) : Res :=
  intOp (.imad x t sat) t sat (fun m => m.int t x.sa * m.int t x.sb + m.int t x.sc) s

/-- The 64-bit type of IMAD.WIDE (R152). -/
def wideOf (t : ITy) : ITy := if t = .s32 then .s64 else .n64

def execImadWide (x : X) (t : ITy) (sat : Bool) (s : State) : Res :=
  intOp (.imadWide x t sat) (wideOf t) sat (fun m => m.int t x.sa * m.int t x.sb + m.int (wideOf t) x.sc) s

/-- The destination, then the carry-out predicate (R152). -/
def withCarry (i : Instr) (cp : Fin 8) (v : Nat) (c : Bool) : Eff :=
  { toDst i v with preds := [(cp.val, c)] }

def execIadc (x : X) (t : ITy) (cp : Fin 8) (s : State) : Res :=
  compute (.iadc x t cp) (fun m =>
    let cin := m.t.pval x.sc
    withCarry (.iadc x t cp) cp (reduce t false (m.int t x.sa + m.int t x.sb + cin.toNat))
      (carryOut t.width (m.raw t.width x.sa) (m.raw t.width x.sb) cin)) s

def execIsbc (x : X) (t : ITy) (cp : Fin 8) (s : State) : Res :=
  compute (.isbc x t cp) (fun m =>
    let cin := m.t.pval x.sc
    withCarry (.isbc x t cp) cp (reduce t false (m.int t x.sa - m.int t x.sb - cin.toNat))
      (borrowOut (m.raw t.width x.sa) (m.raw t.width x.sb) cin)) s

def execImin (x : X) (t : ITy) (s : State) : Res :=
  intOp (.imin x t) t false (fun m => min (m.int t x.sa) (m.int t x.sb)) s

def execImax (x : X) (t : ITy) (s : State) : Res :=
  intOp (.imax x t) t false (fun m => max (m.int t x.sa) (m.int t x.sb)) s

def execIabs (x : X) (t : ITy) (s : State) : Res :=
  intOp (.iabs x t) t false (fun m => (m.int t x.sa).natAbs) s

def execIneg (x : X) (t : ITy) (s : State) : Res :=
  intOp (.ineg x t) t false (fun m => -(m.int t x.sa)) s

/-! ### Logic, shifts and bit fields (R153 to R158) -/

def execAnd (x : X) (t : ITy) (s : State) : Res :=
  rawOp (.and x t) (fun m => m.raw t.width x.sa &&& m.raw t.width x.sb) s

def execOr (x : X) (t : ITy) (s : State) : Res :=
  rawOp (.or x t) (fun m => m.raw t.width x.sa ||| m.raw t.width x.sb) s

def execXor (x : X) (t : ITy) (s : State) : Res :=
  rawOp (.xor x t) (fun m => m.raw t.width x.sa ^^^ m.raw t.width x.sb) s

def execNot (x : X) (t : ITy) (s : State) : Res :=
  rawOp (.not x t) (fun m => 2 ^ t.width - 1 - m.raw t.width x.sa) s

/-- The function of three bits that a truth table gives, bit by bit (R153). -/
def bool3 (tt : Byte) (a b c : Nat) : Nat → Nat
  | 0 => 0
  | n + 1 => bool3 tt a b c n
      + (if tt.getLsbD ((bit a n).toNat + 2 * (bit b n).toNat + 4 * (bit c n).toNat) then 2 ^ n else 0)

def execBool3 (x : X) (t : ITy) (tt : Byte) (s : State) : Res :=
  rawOp (.bool3 x t tt) (fun m => bool3 tt (m.raw t.width x.sa) (m.raw t.width x.sb) (m.raw t.width x.sc) t.width) s

/-- SHL (R154): zero from the width up. -/
def shlBits (n a c : Nat) : Nat := if n ≤ c then 0 else a * 2 ^ c % 2 ^ n
/-- SHR (R154). -/
def shrBits (n a c : Nat) : Nat := if n ≤ c then 0 else a / 2 ^ c
/-- SAR (R154): floor division of the signed value; a count of the width or more leaves the sign. -/
def sarBits (t : ITy) (a c : Nat) : Nat := truncInt t.width (ITy.value t a / 2 ^ min c t.width)
/-- ROL (R154). -/
def rolBits (n a c : Nat) : Nat := (a * 2 ^ (c % n) + a / 2 ^ (n - c % n)) % 2 ^ n

def execShl (x : X) (t : ITy) (s : State) : Res :=
  rawOp (.shl x t) (fun m => shlBits t.width (m.raw t.width x.sa) (m.raw 32 x.sb)) s

def execShr (x : X) (t : ITy) (s : State) : Res :=
  rawOp (.shr x t) (fun m => shrBits t.width (m.raw t.width x.sa) (m.raw 32 x.sb)) s

def execSar (x : X) (t : ITy) (s : State) : Res :=
  rawOp (.sar x t) (fun m => sarBits t (m.raw t.width x.sa) (m.raw 32 x.sb)) s

def execRol (x : X) (t : ITy) (s : State) : Res :=
  rawOp (.rol x t) (fun m => rolBits t.width (m.raw t.width x.sa) (m.raw 32 x.sb)) s

/-- The funnel shift (R155). -/
def funnel (right : Bool) (a b c : Nat) : Nat :=
  let x := a * 2 ^ 32 + b
  let s := c % 32
  if right then x / 2 ^ s % 2 ^ 32 else x * 2 ^ s / 2 ^ 32 % 2 ^ 32

def execFsh (x : X) (right : Bool) (s : State) : Res :=
  rawOp (.fsh x right) (fun m => funnel right (m.raw 32 x.sa) (m.raw 32 x.sb) (m.raw 32 x.sc)) s

/-- BFX (R156) on the value of the source and its control word. -/
def bfx (signed : Bool) (e : Int) (ctl : Nat) : Nat :=
  let pos := bits ctl 7 0
  let len := min (bits ctl 15 8) 32
  if len = 0 then 0
  else
    let f := truncInt len (e / 2 ^ pos)
    if signed then truncInt 32 (sextNat len f) else f

/-- BFI (R156). -/
def bfi (a b ctl : Nat) : Nat :=
  let pos := bits ctl 7 0
  let w := if pos < 32 then min (bits ctl 15 8) (32 - pos) else 0
  let m := (2 ^ w - 1) * 2 ^ pos
  (b &&& (2 ^ 32 - 1 - m % 2 ^ 32)) ||| (a * 2 ^ pos % 2 ^ 32 &&& m)

def execBfx (x : X) (t : ITy) (s : State) : Res :=
  rawOp (.bfx x t) (fun m => bfx t.signed (m.int t x.sa) (m.raw 32 x.sb)) s

def execBfi (x : X) (s : State) : Res :=
  rawOp (.bfi x) (fun m => bfi (m.raw 32 x.sa) (m.raw 32 x.sb) (m.raw 32 x.sc)) s

/-- The ones of the low `n` bits (R157). -/
def ones (a : Nat) : Nat → Nat
  | 0 => 0
  | n + 1 => ones a n + (bit a n).toNat

/-- Zeros above the highest one of `n` bits (R157). -/
def leadZeros (a : Nat) : Nat → Nat
  | 0 => 0
  | n + 1 => if bit a n then 0 else 1 + leadZeros a n

/-- Zeros below the lowest one, at most `n` (R157). -/
def trailZeros (a : Nat) : Nat → Nat
  | 0 => 0
  | n + 1 => if bit a 0 then 0 else 1 + trailZeros (a / 2) n

/-- The low `n` bits in reverse order (R157). -/
def reverseBits (a : Nat) : Nat → Nat
  | 0 => 0
  | n + 1 => (a % 2) * 2 ^ n + reverseBits (a / 2) n

def execPopc (x : X) (t : ITy) (s : State) : Res :=
  rawOp (.popc x t) (fun m => ones (m.raw t.width x.sa) t.width) s

def execClz (x : X) (t : ITy) (s : State) : Res :=
  rawOp (.clz x t) (fun m => leadZeros (m.raw t.width x.sa) t.width) s

def execCtz (x : X) (t : ITy) (s : State) : Res :=
  rawOp (.ctz x t) (fun m => trailZeros (m.raw t.width x.sa) t.width) s

def execBrev (x : X) (t : ITy) (s : State) : Res :=
  rawOp (.brev x t) (fun m => reverseBits (m.raw t.width x.sa) t.width) s

/-- One byte of BPERM (R158). -/
def permByte (pool c : Nat) : Nat :=
  let y := pool / 2 ^ (8 * (c % 8)) % 256
  match c / 8 % 4 with
  | 0 => y
  | 1 => 0
  | 2 => if 0x80 ≤ y then 0xFF else 0
  | _ => 0xFF - y

/-- BPERM (R158). -/
def bperm (a b c : Nat) : Nat :=
  let pool := b * 2 ^ 32 + a
  permByte pool (c % 256) + 2 ^ 8 * permByte pool (c / 2 ^ 8 % 256) + 2 ^ 16 * permByte pool (c / 2 ^ 16 % 256)
    + 2 ^ 24 * permByte pool (c / 2 ^ 24 % 256)

def execBperm (x : X) (s : State) : Res :=
  rawOp (.bperm x) (fun m => bperm (m.raw 32 x.sa) (m.raw 32 x.sb) (m.raw 32 x.sc)) s

/-! ### Selection, comparison, conversion (R159 to R161) -/

def execSel (x : X) (t : ITy) (s : State) : Res :=
  rawOp (.sel x t) (fun m => m.raw t.width (if m.t.pval x.sc then x.sa else x.sb)) s

/-- An integer comparison (R82, R160). -/
def icmp (c : Cmp) (a b : Int) : Bool :=
  match c with
  | .eq => a == b
  | .ne => a != b
  | .lt => a < b
  | .le => a ≤ b
  | .gt => a > b
  | .ge => a ≥ b
  | _ => false

def execIsetp (x : X) (t : ITy) (c : Cmp) (s : State) : Res :=
  predOp (.isetp x t c) (fun m => icmp c (m.int t x.sa) (m.int t x.sb)) s

def execMov (x : X) (t : ITy) (s : State) : Res := rawOp (.mov x t) (fun m => m.raw t.width x.sa) s

def execCvti (x : X) (t src : ITy) (sat : Bool) (s : State) : Res :=
  intOp (.cvti x t src sat) t sat (fun m => m.int src x.sa) s

/-! ### Predicates (R162) -/

def execPand (x : X) (s : State) : Res := predOp (.pand x) (fun m => m.t.pval x.sa && m.t.pval x.sb) s
def execPor (x : X) (s : State) : Res := predOp (.por x) (fun m => m.t.pval x.sa || m.t.pval x.sb) s
def execPxor (x : X) (s : State) : Res := predOp (.pxor x) (fun m => m.t.pval x.sa != m.t.pval x.sb) s
def execPnot (x : X) (s : State) : Res := predOp (.pnot x) (fun m => !m.t.pval x.sa) s
def execPmov (x : X) (s : State) : Res := predOp (.pmov x) (fun m => m.t.pval x.sa) s

end Sys2Proof.Machine
end

