-- ==== Sys2Proof/Machine/VCtl.lean ====
section
/-! DEFINITION. Class V: control flow (R146, R163 to R169), special registers (R170, R171), barrier calls (R172, R173), shape fields
(R175). -/

namespace Sys2Proof.Machine

/-! ### Control flow -/

/-- The 16 bytes of a call entry (R163). -/
def callEntry (rpc kind token : Nat) : List Byte :=
  leBytes 4 rpc ++ leBytes 1 kind ++ leBytes 3 0 ++ leBytes 4 token ++ leBytes 4 0

/-- `nxt` of a member (R164). -/
def nxtOf (s : State) (m : Mb) : Nat := (s.core m.b.core).nxt (pcOff m.t.pc)

/-- A transfer target is a multiple of 8 in the store's 2^18 bytes (R164). -/
def targetOk (t : Int) : Bool := t % 8 = 0 && 0 ≤ t && t < 2 ^ 18

/-- The target of BRA and CALL. -/
def dispTarget (disp : BitVec 14) (m : Mb) : Int := pcOff m.t.pc + 8 * disp.toInt
/-- The target of BRX and CALLI. -/
def regTarget (x : X) (m : Mb) : Int := m.raw 32 x.sa

/-- A jump: the bounds check, then the PC at Slot 0. -/
def jump (i : Instr) (t : Mb → Int) (s : State) : Res :=
  issue i {
    check := fun _ m => if targetOk (t m) then none else some ⟨0x25, 0, 0⟩,
    target := fun _ m => some (mkPc (t m).toNat 0) } s

/-- An instruction that pushes or pops waits for the acquires of its members and for their fences over path 0x1 (R49, R316, R342). -/
def stackWaits (s : State) (ms : List Mb) : Bool :=
  ms.any fun m => !(s.live m.t.acqs).isEmpty || m.t.fences.any fun f => bit f.mask 1

/-- The fault of a push: a full stack, or a SHADOW range (R50, R264). -/
def pushFault (s : State) (m : Mb) : Option Flt :=
  if m.t.ksp.toNat = m.b.stack then some ⟨0x2E, 0, 0⟩
  else if stackShadow s m.b m.t.tid m.t.ksp.toNat then some ⟨0x26, 0, 0⟩ else none

/-- The push of a member meets a window that is not Present or a held range: where every member's push goes ahead, the set waits (R234, R236). -/
def pushesWait (s : State) (check : State → Mb → Option Flt) (ms : List Mb) : Bool :=
  stackWaits s ms || ms.all (fun m => (check s m).isNone) && ms.any fun m => accWaits s m.b (stackAcc m.b m.t.tid m.t.ksp.toNat true)

/-- Its touches, once no fence or acquire holds it back. -/
def pushTouch (s : State) (ms : List Mb) : State :=
  if stackWaits s ms then s else ms.foldl (fun s m => touch s m.t.blk (some m.u) m.t.pc 16 (stackAcc m.b m.t.tid m.t.ksp.toNat true)) s

/-- A call: the bounds check, the overflow check, the push, then the PC (R164). -/
def callTo (i : Instr) (t : Mb → Int) (s : State) : Res :=
  let check := fun s m => if !targetOk (t m) then some ⟨0x25, 0, 0⟩ else pushFault s m
  issue i {
    wait := fun s ms => pushesWait s check ms,
    onWait := pushTouch,
    check := check,
    effect := fun s ms => ms.foldl (fun s m => push s m.u (callEntry (nxtOf s m) 1 0)) s,
    target := fun _ m => some (mkPc (t m).toNat 0) } s

def execBra (x : X) (disp : BitVec 14) (s : State) : Res := jump (.bra x disp) (dispTarget disp) s
def execBrx (x : X) (s : State) : Res := jump (.brx x) (regTarget x) s
def execCall (x : X) (disp : BitVec 14) (s : State) : Res := callTo (.call x disp) (dispTarget disp) s
def execCalli (x : X) (s : State) : Res := callTo (.calli x) (regTarget x) s

/-- The control-stack fault of a RET on the entry it pops (R165, R395). -/
def retFault (ksp : Nat) (e : List Byte) : Option Flt :=
  let rpc := ofLe (e.take 4)
  let kind := (e.getD 4 0).toNat
  if ksp = 0 then some ⟨0x2F, 0, 0⟩
  else if bits rpc 31 22 ≠ 0 then some ⟨0x30, 0, 0⟩
  else if kind = 1 || kind = 2 then (if bits rpc 21 18 ≠ 0 then some ⟨0x30, 0, 0⟩ else none)
  else if kind = 3 then
    (if ofLe ((e.drop 9).take 3) ≠ 0 || bits (e.getD 7 0).toNat 7 6 ≠ 0 || bit (e.getD 8 0).toNat 7 then some ⟨0x30, 0, 0⟩ else none)
  else some ⟨0x30, 0, 0⟩

/-- What a RET restores on the thread: KSP, and, from a trap frame, the predicates and SS (R395). -/
def retThread (t : Thread) (e : List Byte) : Thread :=
  let t := { t with ksp := t.ksp - 16 }
  if e.getD 4 0 = 3 then { t with preds := BitVec.ofNat 7 (e.getD 8 0).toNat, ss := bit (e.getD 7 0).toNat 5 } else t

/-- The fault of a RET: an empty stack, a SHADOW range, or the entry itself (R50, R165, R264, R395). -/
def popFault (s : State) (m : Mb) : Option Flt :=
  if m.t.ksp.toNat ≠ 0 && stackShadow s m.b m.t.tid (m.t.ksp.toNat - 16) then some ⟨0x26, 0, 0⟩
  else retFault m.t.ksp.toNat (topEntry s m.u)

/-- The pop of a member has bytes to read: a stack that is not empty, outside every SHADOW range. -/
def popsAt (s : State) (m : Mb) : Bool := m.t.ksp.toNat ≠ 0 && !stackShadow s m.b m.t.tid (m.t.ksp.toNat - 16)

/-- The pop meets a window that is not Present or a held range (R234, R236). -/
def popsWait (s : State) (ms : List Mb) : Bool :=
  ms.all (popsAt s) && ms.any fun m => accWaits s m.b (stackAcc m.b m.t.tid (m.t.ksp.toNat - 16) false)

/-- RET (R165). The pop is a load of the thread: it waits for what such a load follows, and what it reads from is observed. -/
def execRet (x : X) (s : State) : Res :=
  issue (.ret x) {
    wait := fun s ms => stackWaits s ms || popsWait s ms || ms.any fun m => match m.b.a1 with
      | none => false
      | some a => !(loadAfter s m.u 1 (.alloc a) (ksb m.b m.t.tid + m.t.ksp.toNat - 16) 16).isEmpty,
    onWait := fun s ms => if stackWaits s ms || !popsWait s ms then s
      else ms.foldl (fun s m => touch s m.t.blk (some m.u) m.t.pc 16 (stackAcc m.b m.t.tid (m.t.ksp.toNat - 16) false)) s,
    check := popFault,
    effect := fun s ms => ms.foldl (fun s m =>
      let e := topEntry s m.u
      let s := match m.b.a1 with
        | none => s
        | some a =>
          let off := ksb m.b m.t.tid + m.t.ksp.toNat - 16
          match readFwd s m.b.core (some m.u) (.alloc a) off off 16 with
          | .ok (_, from_) => observe s m.u (seenBy s m.u none from_ (.alloc a) off 16)
          | .error _ => s
      s.updThr m.u fun t => retThread t e) s,
    target := fun s m => some (BitVec.ofNat 32 (ofLe ((topEntry s m.u).take 4))) } s

/-- The token check of OVCALL (R146): the entry that it names, if it is resident. -/
def tokenEntry (s : State) (m : Mb) (tok : Nat) : Option Overlay :=
  let page := bits tok 31 26
  if !bit tok 0 then none
  else match (s.core m.b.core).home.look page with
    | some (.resident code ovl _ _) =>
      if code = m.b.code && ovl = bits tok 19 10 then
        match (s.codes.look code).bind fun k => k.overlay ovl with
        | some o => if o.home = page then some o else none
        | none => none
      else none
    | _ => none

/-- OVCALL (R146). -/
def execOvcall (x : X) (s : State) : Res :=
  let check := fun s m =>
      let len := ((tokenEntry s m (m.raw 32 x.sa)).map (·.len)).getD 0
      let o := m.raw 32 x.sb
      if o % 8 ≠ 0 || len ≤ o then some ⟨0x25, 0, 0⟩ else pushFault s m
  issue (.ovcall x) {
    wait := fun s ms => pushesWait s check ms,
    onWait := pushTouch,
    trap := fun s m =>
      let tok := m.raw 32 x.sa
      if (tokenEntry s m tok).isSome then none
      else some { cause := 4, code := 0, flags := 0, detail := tok, rpc := m.t.pc },
    check := check,
    effect := fun s ms => ms.foldl (fun s m => push s m.u (callEntry (nxtOf s m) 2 (m.raw 32 x.sa))) s,
    target := fun _ m => some (mkPc (bits (m.raw 32 x.sa) 31 26 * 4096 + m.raw 32 x.sb) 0) } s

/-- A member ends (R35, R166): it leaves the set, and retires at once or when its flags read zero and its commands have completed. -/
def exitThread (s : State) (u : Nat) : State :=
  let s := s.updCore s.focus fun c => { c with gather := c.gather.map fun g => { g with members := g.members.filter (· != u) } }
  match s.threads.look u with
  | none => s
  | some t =>
    if mayRetire s u t then retire s u
    else s.updThr u fun t => { t with st := .exiting, since := s.clock, owed := [], stall := none }

def execExit (x : X) (s : State) : Res :=
  issue (.exit x) {
    effect := fun s ms => ms.foldl (fun s m => exitThread s m.u) s } s

/-- YIELD (R168). -/
def execYield (x : X) (s : State) : Res :=
  issue (.yield x) {
    effect := fun s ms =>
    if ms.isEmpty then s
    else s.updCore s.focus fun c => { c with gather := c.gather.map fun g => { g with yielded := true } } } s

/-- The PC after the instruction that a member is at (R169). -/
def nextSlotPc (s : State) (i : Instr) (m : Mb) : W32 :=
  let c := s.core m.b.core
  let off := pcOff m.t.pc
  match c.header off with
  | some h => afterPc c h off (pcSlot m.t.pc + slotsOf i)
  | none => m.t.pc

def execTrap (x : X) (code : Byte) (s : State) : Res :=
  issue (.trap x code) {
    trap := fun s m =>
    some { cause := 1, code := code.toNat, flags := 0, detail := 0, rpc := nextSlotPc s (.trap x code) m } } s

def execBrk (x : X) (code : Byte) (s : State) : Res :=
  issue (.brk x code) {
    trap := fun _ m =>
    some { cause := 2, code := code.toNat, flags := 0, detail := 0, rpc := m.t.pc } } s

/-! ### Special registers (R51, R170, R171) -/

/-- The value of a special register for a thread. -/
def sregValue (s : State) (r : SReg) (t : Thread) (b : Block) : Nat :=
  let clblk := (((s.codes.look b.code).bind fun c => c.kernels.find? (·.num == b.kernel)).map (·.clblk)).getD 1
  match r with
  | .lanew => Config.lanes
  | .tid => t.tid
  | .gangid => t.gang
  | .homelane => t.lane
  | .nthreads => b.threads
  | .blockid => b.blockId
  | .nblocks => b.nblocks
  | .clusterid => if b.grid.isSome then b.blockId / clblk else 0
  | .blkincl => if b.grid.isSome then b.blockId % clblk else 0
  | .clblocks => ((s.groups.look b.group).map (·.blocks.length)).getD 1
  | .gridid => b.gridId
  | .ctxid => b.ctx
  | .corenum => b.core
  | .ksp => t.ksp.toNat
  | .ksb => ksb b t.tid
  | .freedrd => (freedrd s b).toNat
  | .rngs => t.rngs.toNat
  | .fabst => b.fabst.toNat
  | .rplc0 => ((s.ctx b.ctx).rplc.getD 0 0).toNat
  | .rplc1 => ((s.ctx b.ctx).rplc.getD 1 0).toNat
  | .rplc2 => ((s.ctx b.ctx).rplc.getD 2 0).toNat
  | .rplc3 => ((s.ctx b.ctx).rplc.getD 3 0).toNat
  | .argp => recNat (((s.jobs.look b.job).map (·.record)).getD []) 32 8
  | .lcyc => s.lcyc b.core

def execSrd (x : X) (r : SReg) (s : State) : Res :=
  compute (.srd x r) (fun m => toDst (.srd x r) (sregValue s r m.t m.b)) s

/-- SWR KSP: a multiple of 16 within the region (R50). -/
def execSwrKsp (x : X) (s : State) : Res :=
  issue (.swrKsp x) {
    check := fun _ m => if m.raw 32 x.sa % 16 ≠ 0 || m.b.stack < m.raw 32 x.sa then some ⟨0x25, 0, 0⟩ else none,
    effect := fun s ms => ms.foldl (fun s m => s.updThr m.u fun t => { t with ksp := BitVec.ofNat 32 (m.raw 32 x.sa) }) s } s

/-- The value that RNGS takes (R171). -/
def rngsOf (v : Nat) : W32 := if v % 2 ^ 32 = 0 then 0x6D2B79F5 else BitVec.ofNat 32 v

def execSwrRngs (x : X) (s : State) : Res :=
  compute (.swrRngs x) (fun m => { rng := some (rngsOf (m.raw 32 x.sa)) }) s

/-- SWR FABST clears the bits written as 1 (R52). -/
def execSwrFabst (x : X) (s : State) : Res :=
  issue (.swrFabst x) {
    effect := fun s ms => ms.foldl (fun s m =>
    s.updBlk m.t.blk fun b => { b with fabst := b.fabst &&& ~~~(BitVec.ofNat 32 (m.raw 32 x.sa)) }) s } s

/-! ### Barriers (R172, R173, R332, R334) -/

/-- The thread has arrived in the barrier's current phase. -/
def arrived (s : State) (u : Nat) (l : Level) (n : Nat) : Bool :=
  match barInst s u l, s.threads.look u with
  | some i, some t => t.last.look (lastIdx l n) == some (s.bars.lookD (barKey l i n) {}).phase
  | _, _ => false

/-- Barrier misuse of an arrival (R334). -/
def arriveFault (s : State) (l : Level) (n : Nat) (m : Mb) : Option Flt :=
  if (barInst s m.u l).isNone || arrived s m.u l n then some ⟨0x2B, 0, 0⟩ else none

/-- Barrier misuse of a wait or a test (R334). -/
def waitFault (s : State) (l : Level) (n : Nat) (m : Mb) : Option Flt :=
  if (barInst s m.u l).isNone || (m.t.last.look (lastIdx l n)).isNone then some ⟨0x2B, 0, 0⟩ else none

/-- What an arrival waits for at the level's scope: its prefix, and at a scope beyond the core what a release waits for too (R332). -/
def arriveNeeds (s : State) (u : Nat) (sc : Scope) : List Nat := if Scope.local sc then prefixOf s u else releaseWaits s u sc

/-- Records an arrival, which counts once its prefix has been performed at the level's scope (R332). -/
def arrive (s : State) (u : Nat) (l : Level) (n : Nat) : State :=
  match barInst s u l with
  | none => s
  | some i =>
    let key := barKey l i n
    let b := s.bars.lookD key {}
    let pfx := prefixOf s u
    let b' := { b with owing := b.owing ++ [(u, arriveNeeds s u (levelScope l))], carry := NSet.addAll b.carry pfx, carryR := NSet.addAll b.carryR (routesOf s u) }
    let s := s.updThr u fun t => { t with last := t.last.put (lastIdx l n) b.phase }
    phaseTest { s with bars := s.bars.put key b' } key

def execBarArr (x : X) (l : Level) (n : Fin 16) (s : State) : Res :=
  issue (.barArr x l n) {
    check := fun s m => arriveFault s l n m,
    effect := fun s ms => ms.foldl (fun s m => arrive s m.u l n) s } s

/-- Owes the wait at the end of the clause (R173). -/
def oweWait (s : State) (u : Nat) (l : Level) (n : Nat) : State := s.updThr u fun t => { t with owed := t.owed ++ [(l, n)] }

def execBarWait (x : X) (l : Level) (n : Fin 16) (s : State) : Res :=
  issue (.barWait x l n) {
    check := fun s m => waitFault s l n m,
    effect := fun s ms => ms.foldl (fun s m => oweWait s m.u l n) s } s

def execBarSync (x : X) (l : Level) (n : Fin 16) (s : State) : Res :=
  issue (.barSync x l n) {
    check := fun s m => arriveFault s l n m,
    effect := fun s ms => ms.foldl (fun s m => oweWait (arrive s m.u l n) m.u l n) s } s

def execBarTry (x : X) (l : Level) (n : Fin 16) (s : State) : Res :=
  issue (.barTry x l n) {
    check := fun s m => waitFault s l n m,
    effect := fun s ms => ms.foldl (fun s m =>
      let done := phaseDone s m.u l n
      applyEff (if done then acquireBar s m.u l n else s) m (toPred (.barTry x l n) done)) s } s

/-! ### Shape fields (R175) -/

/-- The members' writes are applied in lane order (R47). -/
def execShset (x : X) (f : Fin 33) (s : State) : Res :=
  issue (.shset x f) {
    effect := fun s ms => ms.foldl (fun s m =>
    match x.dst with
    | .q n => setShape s m.t.blk n (setFieldBits (((s.blocks.look m.t.blk).map (·.shape n)).getD 0) f
        (m.raw (if fieldWide f then 64 else 32) x.sa))
    | _ => s) s } s

/-- SHGET returns the field as it stands: R175 gives it no check of R69. DEDUCED: log 60. -/
def execShget (x : X) (f : Fin 33) (s : State) : Res :=
  compute (.shget x f) (fun m => toDst (.shget x f) (shgetValue (m.shape x.sa) f)) s

end Sys2Proof.Machine
end

