-- ==== Sys2Proof/Machine/XClass.lean ====
section
/-! DEFINITION. Class X: copies and windows (R253 to R257), chains (R262), publish (R265), overlays (R142, R145), LAUNCH (R115), DBELL
(R373), DECTAB (R261) and BAR.EXP (R266). -/

namespace Sys2Proof.Machine

/-! ### Copies -/

/-- The waits of a command that reads and writes shapes: fences, the engine's queue, windows and ranges, and PUBLs (R236, R256,
R265). -/
def cmdWaits (s : State) (m : Mb) (reads writes : List Shape) (holds : Nat) : Bool :=
  memWaits s m ((reads ++ writes).map ShapeOf.path) || !engineRoom s m.b.core || !holdRoom s m.b.core holds
    || accWaits s m.b ((reads.flatMap fun q => accOf q false false) ++ writes.flatMap fun q => accOf q true true)
    || (reads ++ writes).any (swapDue s m.b)

/-- The scoreboard entries of a command (R236). -/
def cmdHolds (s : State) (b : Block) (reads writes : List Shape) : List Held :=
  (reads.filterMap fun q => rangeOf s b q false false) ++ writes.filterMap fun q => rangeOf s b q true true

/-- The issue of a TCOPY: that of the members of its set which have handed their copies over before, so that page service finds them together (R404). -/
def copyIssue (s : State) (m : Mb) : Option Nat :=
  let served := ((s.core s.focus).gather.map (·.served)).getD []
  ((s.redoLoads ++ s.pend.map (·.2)).filterMap fun p => match p.op with
    | .copy .. => if p.pc == m.t.pc && p.parts.any (fun q => served.contains q.th) then some p.issue else none
    | _ => none).getLast?

/-- A command is accepted: it follows what its thread has in flight on its bytes, marks its routes (R323), and holds its ranges. -/
def startCmd (s : State) (i : Instr) (m : Mb) (op : POp) (reads writes : List Shape) (holds : List Held) : State :=
  let after := engineAfter s m.u (reads.map (runOf s m.b)) (writes.map (runOf s m.b))
  let s := match op with
    | .copy c f _ _ => noteShapes (noteCopy s m.u m.b c) m.u m.b (f.toList.map Prod.snd)
    | _ => noteShapes s m.u m.b (reads ++ writes)
  let (n, s) := s.newId
  let (id, s) := startOp s i m (match op with
    | .copy .. => (copyIssue s m).getD n
    | _ => n) [] op after
  holds.foldl (fun s h => hold s m.b.core id (some h)) (s.listen id m.u)

/-- The copy of a member's operands: the origin is v[SC] and v[SC + 1], or (0, 0) (R250). -/
def copyOf (x : X) (m : Mb) : Copy :=
  let o := if x.sc = .null then 0 else m.t.val (.int 64) x.sc
  { qd := m.shape x.sa, qs := m.shape x.sb, o0 := sextNat 32 o, o1 := sextNat 32 (o / 2 ^ 32) }

/-- The shape register numbered one above SA (R253). -/
def nextShape (x : X) (m : Mb) : Shape :=
  match x.sa with
  | .q n => m.b.shape (n.val + 1)
  | _ => 0

/-- TCOPY and TCOPY.MMA (R255): the command reads its source and the follow-on's B, and fences on all its paths hold it back (R342). -/
def tcopyOp (i : Instr) (x : X) (follow : Mb → Option (Nat × Shape)) (s : State) : Res :=
  let more (m : Mb) : List Shape := ((follow m).map (·.2)).toList
  issueSeq i {
    wait := fun s m =>
      let c := copyOf x m
      cmdWaits s m [c.qs] [c.qd] (cmdHolds s m.b [c.qs] [c.qd]).length || memWaits s m ((more m).map ShapeOf.path)
        || (more m).any (swapDue s m.b),
    onWait := fun s m => matTouch s m [m.shape x.sb] [m.shape x.sa],
    check := fun s m => (copyCheck s m.b 0 (copyOf x m)).or
      ((follow m).bind fun (_, qb) => mmaCheck s m.b (m.shape x.sa) qb none none false false),
    service := true,
    effect := fun s m =>
      let c := copyOf x m
      startCmd s i m (.copy c (follow m) false 0) (c.qs :: more m) [c.qd] (cmdHolds s m.b [c.qs] [c.qd]) } s

def execTcopy (x : X) (s : State) : Res := tcopyOp (.tcopy x) x (fun _ => none) s
def execTcopyMma (x : X) (acc : Fin 32) (s : State) : Res :=
  tcopyOp (.tcopyMma x acc) x (fun m => some (acc.val, nextShape x m)) s

/-! ### Windows (R257) -/

def winFilling (m : Mb) (w : Nat) : Bool := ((m.b.windows[w]?).map (·.st)) == some .filling

/-- What WBIND answers: 2 for an overlap with another bound window, 3 for one with a publish view. -/
def bindStatus (s : State) (b : Block) (w : Nat) (qd : Shape) : Nat :=
  let (lo, hi) := footprint qd
  if (touchedWins b ⟨ShapeOf.path qd, lo.toNat, hi.toNat, true, false⟩).any (· != w) then 2
  else if s.pubs.any (fun (_, p) => onView b p qd) then 3 else 0

def execWbind (x : X) (w : Fin 16) (s : State) : Res :=
  issueSeq (.wbind x w) {
    wait := fun _ m => winFilling m w,
    check := fun s m => copyCheck s m.b 1 (copyOf x m),
    effect := fun s m =>
      let c := copyOf x m
      let st := bindStatus s m.b w c.qd
      let (lo, hi) := footprint c.qd
      let s := if st ≠ 0 then s else s.updBlk m.t.blk fun b => { b with
        windows := b.windows.set w { st := .absent, path := ShapeOf.path c.qd, lo := lo.toNat, hi := hi.toNat, copy := some c } }
      answer s (.wbind x w) m st } s

def execWdrop (x : X) (w : Fin 16) (s : State) : Res :=
  issueSeq (.wdrop x w) {
    wait := fun _ m => winFilling m w,
    effect := fun s m =>
      let un := ((m.b.windows[w.val]?).map (·.st)) == some .unbound
      answer (s.updBlk m.t.blk fun b => { b with windows := b.windows.set w {} }) (.wdrop x w) m un.toNat } s

/-! ### CHAIN (R262) -/

/-- The address of a chain's operation list. -/
def chainAddr (x : X) (m : Mb) : Nat := m.t.val (.int 64) x.sc

/-- The checks of R222 on a run of words of 8 bytes. -/
def wordsCheck (s : State) (b : Block) (a n : Nat) : Option Flt :=
  firstSome (fun k => addrCheck s b (a + 8 * k) 8 none [0, 1, 2, 3] false) (List.range n)

/-- Reads the operation list (R262), with the pending stores that each word reads from. -/
def chainList (s : State) (m : Mb) (a : Nat) : List Nat → Except Fail (List (Nat × List Nat))
  | [] => .ok []
  | k :: ks =>
    let a' := a + 8 * k
    match readFwd s m.b.core (some m.u) (spaceOf m.b (selOf a')) a' (offOf a') 8 with
    | .error f => .error (engineFail (selOf a') f).unserved
    | .ok (b, from_) => match chainList s m a ks with
      | .error f => .error f
      | .ok l => .ok ((ofLe b, from_) :: l)

/-- The operations of a chain, or its fault: the list's address, its read, its contents, then the shapes. -/
def chainOps (s : State) (x : X) (n : Nat) (m : Mb) : Except Flt (List ChainOp) :=
  let a := chainAddr x m
  match wordsCheck s m.b a n with
  | some f => .error f
  | none => match chainList s m a (List.range n) with
    | .error f => .error ⟨f.cause, a, f.line⟩
    | .ok l =>
      let ws := l.map (·.1)
      if !chainListOk ws then .error ⟨0x27, 0, 0⟩
      else
        let ops := ws.map (chainOp m.b)
        match chainCheck s m.b (m.shape x.sa) (m.shape x.sb) ((ops.filter (·.src == 2)).map (·.stream)) with
        | some f => .error f
        | none => .ok ops

/-- The shapes that a chain reads. -/
def chainReads (x : X) (m : Mb) (ops : List ChainOp) : List Shape := m.shape x.sb :: (ops.filter (·.src == 2)).map (·.stream)

/-- The read of a chain's operation list as an access. -/
def chainReq (x : X) (k : Nat) (m : Mb) : Option Req := some { addr := chainAddr x m, n := 8 * k, write := false }

/-- A run of bytes that an X instruction reads when it issues waits for fences, windows, held ranges and what a load would follow (R225, R234,
R236). -/
def issueReadWaits (s : State) (m : Mb) (a n : Nat) : Bool :=
  reqWaits s (fun _ => some { addr := a, n := n, write := false }) [m]
    || !(loadAfter s m.u (selOf a) (spaceOf m.b (selOf a)) (if selOf a = 0 then a else offOf a) n).isEmpty

/-- What such a read leaves: its routes, and what the thread has observed by it (R315, R323). -/
def issueReadDone (s : State) (m : Mb) (a n : Nat) (from_ : List Nat) : State :=
  observe (if selOf a = 0 then noteBytes s m.u m.b.core m.b.ctx a n else noteAccess s m.u m.b a false) m.u
    (seenBy s m.u none from_ (spaceOf m.b (selOf a)) (if selOf a = 0 then a else offOf a) n)

/-- The list waits, or, once it may be read, a stream's shape register that an SHLD still owes (R176). -/
def chainListWaits (s : State) (x : X) (k : Nat) (m : Mb) : Bool :=
  issueReadWaits s m (chainAddr x m) (8 * k)
    || match chainList s m (chainAddr x m) (List.range k) with
      | .ok l => owesShape s m.t.blk ((l.filter fun w => bits w.1 11 8 = 2).map fun w => bits w.1 15 12)
      | .error _ => false

/-- The fault of a CHAIN: of its list's address, and, once the list may be read, of the rest. -/
def chainFault (s : State) (x : X) (k : Nat) (m : Mb) : Option Flt :=
  match wordsCheck s m.b (chainAddr x m) k with
  | some f => some f
  | none =>
    if chainListWaits s x k m then none
    else match chainOps s x k m with
      | .ok _ => none
      | .error f => some f

def execChain (x : X) (n : Fin 8) (s : State) : Res :=
  let k := n.val + 1
  let opsOf (s : State) (m : Mb) : List ChainOp := match chainOps s x k m with
    | .ok l => l
    | .error _ => []
  issueSeq (.chain x n) {
    wait := fun s m =>
      let reads := chainReads x m (opsOf s m)
      chainListWaits s x k m || cmdWaits s m reads [m.shape x.sa] (cmdHolds s m.b reads [m.shape x.sa]).length,
    onWait := fun s m =>
      if chainListWaits s x k m then reqTouch s (chainReq x k) [m]
      else matTouch s m (chainReads x m (opsOf s m)) [m.shape x.sa],
    check := fun s m => chainFault s x k m,
    effect := fun s m =>
      let ops := opsOf s m
      let reads := chainReads x m ops
      let s := match chainList s m (chainAddr x m) (List.range k) with
        | .ok l => issueReadDone s m (chainAddr x m) (8 * k) (l.flatMap (·.2)).eraseDups
        | .error _ => s
      startCmd s (.chain x n) m (.chain (m.shape x.sa) (m.shape x.sb) ops) reads [m.shape x.sa]
        (cmdHolds s m.b reads [m.shape x.sa]) } s

/-! ### PUBL (R265) -/

/-- The path of publish buffer `n` (R264). -/
def pubPath (n : Nat) : Nat := if n < 4 then 1 else if n < 8 then 2 else 3

/-- The key of publish buffer `n` of a block, its group or its grid (R264). -/
def pubOf (b : Block) (n : Nat) : Option Nat := (b.alloc (pubPath n)).map fun a => pubKey a n

/-- PUBL is a release of its thread and an access to its buffer, so fences and acquires hold it back (R316, R342). -/
def execPubl (x : X) (sc : Scope) (s : State) : Res :=
  let num (m : Mb) : Nat := m.t.val (.int 32) x.sa
  let key (m : Mb) : Option Nat := if num m < 16 then pubOf m.b (num m) else none
  issueSeq (.publ x sc) {
    wait := fun s m => memWaits s m [pubPath (num m)],
    check := fun s m => if ((key m).bind s.pubs.look).isSome then none else some ⟨0x23, 0, 0⟩,
    effect := fun s m =>
      match key m with
      | none => s
      | some k =>
        let before := ((s.pubs.look k).map (cmdsOn s)).getD []
        let after := releaseWaits s m.u sc
        let pfx := prefixOf s m.u
        let rts := routesOf s m.u
        let s := if sc = .system then unhold s pfx else s
        let (n, s) := s.newId
        (startOp s (.publ x sc) m n [] (.publ k before sc pfx rts) after).2 } s

/-! ### OVL and OVREL (R142, R145) -/

/-- One member's OVL: the cases of R142 in order, as one step on the home table; a load that it starts reads the image on path 0x0 (R344). -/
def ovlOne (s : State) (x : X) (m : Mb) : State :=
  let i : Instr := .ovl x
  let n := m.t.val (.int 32) x.sa
  let core := m.b.core
  match if n ≤ 1023 then overlayOf s m.b.code n else none with
  | none => answer s i m 4
  | some o =>
    if isResident s core m.b.code o then answer s i m (token o).toNat
    else if !isLoading s core m.b.code o && homeTaken s core o then answer s i m 2
    else
      let s := if isLoading s core m.b.code o then s
        else noteBytes (startLoad s core m.b.code o) m.u core m.b.ctx (((s.codes.look m.b.code).map (·.addr)).getD 0 + o.off) o.len
      let (k, s) := s.newId
      (startOp s i m k [] (.ovl n) []).2

/-- OVL reads the image on path 0x0 and fills the store of path 0x7, so fences of those and acquires hold it back (R316, R342). -/
def execOvl (x : X) (s : State) : Res :=
  issueSeq (.ovl x) { wait := fun s m => memWaits s m [0, 7], effect := fun s m => ovlOne s x m } s

/-- One member's OVREL (R145). -/
def ovrelOne (s : State) (x : X) (m : Mb) : State :=
  let tok := m.t.val (.int 32) x.sa
  let core := m.b.core
  let o := if bit tok 0 then (overlayOf s m.b.code (bits tok 19 10)).bind fun o =>
      if o.home = bits tok 31 26 && isResident s core m.b.code o then some o else none
    else none
  match o with
  | none => answer s (.ovrel x) m 4
  | some o =>
    if overlayBusy s core m.b.code o then answer s (.ovrel x) m 1
    else answer (freePages s core o.pages) (.ovrel x) m 0

def execOvrel (x : X) (s : State) : Res := issueSeq (.ovrel x) { effect := fun s m => ovrelOne s x m } s

/-! ### LAUNCH (R115) -/

/-- The 128 bytes of a record, after the thread's earlier stores. -/
def launchRead (s : State) (m : Mb) (a : Nat) : Except Fail (List Byte × List Nat) :=
  readFwd s m.b.core (some m.u) (spaceOf m.b (selOf a)) a (offOf a) 128

/-- The issue of a LAUNCH: that of the members of its set which the steward has not yet decided, so that the set's lanes stay in order (R115). DESIGN CHOICE: log 23. -/
def launchIssue (s : State) (m : Mb) : Option Nat :=
  let served := ((s.core s.focus).gather.map (·.served)).getD []
  (s.pend.filterMap fun (_, p) => match p.op with
    | .launch .. => if p.pc == m.t.pc && p.parts.any (fun q => served.contains q.th) then some p.issue else none
    | _ => none).getLast?

def execLaunch (x : X) (s : State) : Res :=
  let addr (m : Mb) : Nat := m.t.val (.int 64) x.sa
  let req (m : Mb) : Option Req := some { addr := addr m, n := 128, write := false }
  issueSeq (.launch x) {
    wait := fun s m => issueReadWaits s m (addr m) 128,
    onWait := fun s m => reqTouch s req [m],
    check := fun s m =>
      let a := addr m
      if a % 128 ≠ 0 then some ⟨0x23, a, 0⟩
      else if 3 < selOf a then some ⟨0x24, a, 0⟩
      else match addrCheck s m.b a 128 none [0, 1, 2, 3] false with
        | some f => some f
        | none => match launchRead s m a with
          | .error f => some ⟨f.cause, a, f.line⟩
          | .ok _ => none,
    effect := fun s m =>
      match launchRead s m (addr m) with
      | .error _ => s
      | .ok (rec, from_) =>
        let s := issueReadDone s m (addr m) 128 from_
        let (n, s) := s.newId
        (startOp s (.launch x) m ((launchIssue s m).getD n) [] (.launch (m.t.val (.int 32) x.sb) rec m.b.grid) []).2 } s

/-! ### DBELL (R373) -/

/-- The stores of the prefix that the payload of a doorbell holds at its scope (R373). -/
def bellWaits (s : State) (u : Nat) (sc : Scope) : List Nat :=
  (ownStores s u ++ s.live (((s.threads.look u).map (·.obs)).getD [])).filter fun i =>
    match idUnit s i with
    | some k => if 16 ≤ k && k < 32 then sc == .system else routeIn sc (routeKey (idCore s i) k)
    | none => true

def execDbell (x : X) (sc : Scope) (s : State) : Res :=
  let addr (m : Mb) : Nat := m.addr x.sa x.sb
  issueSeq (.dbell x sc) {
    wait := fun s m => memWaits s m [6] || porterFull s m.b.core 1,
    check := fun s m => addrCheck s m.b (addr m) 4 none [6] true,
    effect := fun s m =>
      let waits := bellWaits s m.u sc
      let s := if sc = .system then unhold s waits else s
      let s := noteAccess s m.u m.b (addr m) true
      let (n, s) := s.newId
      let (id, s) := startOp s (.dbell x sc) m n [] (.dbell 0) []
      let (bid, s) := s.newId
      { s with pend := s.pend.upd id fun p => { p with op := .dbell bid },
               bells := s.bells.put bid { die := dieOf m.b.core, ctx := m.b.ctx, core := m.b.core, th := some m.u, issue := n, wide := true,
                                          addr := offOf (addr m), width := 4, data := m.t.val (.int 32) x.sc, ret := some id,
                                          waits := waits } } } s

/-! ### DECTAB (R261) -/

/-- The bytes of an image that DECTAB reads: its header and code lengths, and the offset table that those announce, if it fits (R259). -/
def tableBytes (s : State) (ctx image enclen : Nat) : Nat :=
  match engineBytes s (.global ctx) image 264 with
  | .ok h => let n := 264 + 4 * cdiv (recNat h 0 6) 4096
    if n ≤ enclen then n else 264
  | .error _ => 264

def execDectab (x : X) (s : State) : Res :=
  let addr (m : Mb) : Nat := m.t.val (.int 64) x.sb
  issueSeq (.dectab x) {
    wait := fun s m => memWaits s m [0],
    check := fun _ m =>
      if 0 < addr m / 2 ^ 60 then some ⟨0x24, addr m, 0⟩
      else if addr m % 8 ≠ 0 then some ⟨0x23, addr m, 0⟩ else none,
    effect := fun s m =>
      let n := tableBytes s m.b.ctx (addr m) (m.t.val (.int 64) x.sc)
      let after := engineAfter s m.u [⟨0, .global m.b.ctx, addr m, addr m + n⟩] []
      let s := noteBytes s m.u m.b.core m.b.ctx (addr m) n
      let (n, s) := s.newId
      let (id, s) := startOp s (.dectab x) m n [] (.dectab (m.t.val (.int 32) x.sa) (addr m) (m.t.val (.int 64) x.sc)) after
      s.listen id m.u } s

/-! ### BAR.EXP (R266, R267) -/

/-- The barriers of each level (R329). -/
def levelLimit (l : Level) : Nat :=
  match l with
  | .gang => 4
  | .block => 16
  | .cluster => 8
  | .grid => 4

/-- Level and number of a designation. -/
def barDesig (x : X) (m : Mb) : Level × Nat :=
  let d := m.t.val (.int 32) x.sa
  ((Level.ofCode (d % 4)).getD .gang, bits d 5 2)

/-- The allocation whose port a watch lies on, and the watches installed there (R267). -/
def portWatches (s : State) (a : Alloc) : Nat :=
  ((s.bars.map fun (_, b) => (b.watch.filter fun w => ((s.allocs.look w.1).map fun y => (y.path, y.unit)) == some (a.path, a.unit)).length)).foldl (· + ·) 0

/-- Adds a count and its watch, then records the arrival. -/
def barExpOne (s : State) (x : X) (m : Mb) : State :=
  let (l, n) := barDesig x m
  let base := m.t.val (.int 64) x.sb
  let count := m.t.val (.int 64) x.sc
  match barInst s m.u l with
  | none => s
  | some i =>
    let key := barKey l i n
    let b := s.bars.lookD key {}
    let total := b.pendb + count
    let watch := match m.b.alloc (selOf base) with
      | some a => if count = 0 then b.watch else b.watch ++ [(a, offOf base, offOf base + count)]
      | none => b.watch
    let s := { s with bars := s.bars.put key { b with pendb := total, watch := watch } }
    answerAt (arrive s m.u l n) (.barExp x) m (some key) total

/-- The counts that the members of the set up to one in lane order add to its barrier, those already served apart (R267). -/
def barExpSum (s : State) (x : X) (m : Mb) : Nat :=
  match (s.core s.focus).gather with
  | none => m.t.val (.int 64) x.sc
  | some g =>
    let at_ (m : Mb) : Option (Nat × Level × Nat) := let (l, n) := barDesig x m
      (barInst s m.u l).map fun i => (i, l, n)
    (((active (.barExp x) (membersOf s g)).filter fun y => !g.served.contains y.u && y.t.lane ≤ m.t.lane && at_ y == at_ m).map
      fun y => y.t.val (.int 64) x.sc).foldl (· + ·) 0

/-- BAR.EXP arrives and names bytes of its base's path, so fences of that path and acquires hold it back (R316, R342). -/
def execBarExp (x : X) (s : State) : Res :=
  issueSeq (.barExp x) {
    wait := fun s m =>
      let base := m.t.val (.int 64) x.sb
      memWaits s m [selOf base] || m.t.val (.int 64) x.sc ≠ 0 && match (m.b.alloc (selOf base)).bind s.allocs.look with
        | some a => Config.watches ≤ portWatches s a
        | none => false,
    check := fun s m =>
      let (l, n) := barDesig x m
      let base := m.t.val (.int 64) x.sb
      if selOf base < 1 || 3 < selOf base then some ⟨0x24, base, 0⟩
      else if bits (m.t.val (.int 32) x.sa) 31 6 ≠ 0 || levelLimit l ≤ n then some ⟨0x2B, 0, 0⟩
      else match arriveFault s l n m with
        | some f => some f
        | none => match barInst s m.u l with
          | none => some ⟨0x2B, 0, 0⟩
          | some i => if 2 ^ 56 ≤ (s.bars.lookD (barKey l i n) {}).pendb + barExpSum s x m then some ⟨0x2B, 0, 0⟩ else none,
    effect := fun s m => barExpOne s x m } s

end Sys2Proof.Machine
end

