-- ==== Sys2Proof/Machine/AClass.lean ====
section
/-! DEFINITION. Access processors: the hand-off (R244), the A-class instructions (R243, R246, R247), the data queues (R245, R217). -/

namespace Sys2Proof.Machine

/-! ### Clause decode (R57) -/

def Illegal.cause : Illegal → Nat
  | .clause => 0x20
  | .instruction => 0x21
  | .operand => 0x22

/-- The fault that the encoding of a clause alone determines: its cause and slot (R57). -/
def clauseFault (s : State) (core off : Nat) (h : Header) : Option (Nat × Nat) :=
  match decodeClause h.cls ((s.core core).slots off h) with
  | .ok _ => none
  | .error (k, e) => some (Illegal.cause e, k)

/-! ### AP state -/

def State.ap (s : State) (core n : Nat) : Ap := ((s.core core).aps[n]?).getD {}
def State.updAp (s : State) (core n : Nat) (f : Ap → Ap) : State :=
  s.updCore core fun k => { k with aps := k.aps.modify n f }

/-- The context of an AP's block. -/
def apCtx (s : State) (a : Ap) : Nat := ((s.blocks.look a.blk).map (·.ctx)).getD 0

/-- A context fault of an AP that runs for a block (R247, R401). DEDUCED: log 26. -/
def apFaultAt (s : State) (core n blk cause : Nat) (pc : W32) (va line : Nat) (service : Bool) : State :=
  let b := s.blocks.look blk
  raiseFault s ((b.map (·.ctx)).getD 0) {
    stop := { engine := 2, cause := cause, unit := core, sub := n, pc := pc, block := (b.map (·.blockId)).getD 0xFFFFFFFF,
              grid := (((b.bind (·.grid)).bind s.grids.look).map (·.gridId)).getD 0xFFFFFFFF, va := va, detail := line,
              lcyc := s.lcyc core },
    service := service }

/-- An operand's value in an AP (R243). -/
def Ap.val (a : Ap) (o : Opnd) : Nat :=
  match o with
  | .v n => (a.a.getD n 0).toNat
  | .k c => truncInt 64 ((constInt c).getD 0)
  | .lit w => w.toNat
  | _ => 0

/-- c0 to c7; c7 reads true (R242). -/
def Ap.cond (a : Ap) (n : Nat) : Bool := if n = 7 then true else a.c.getLsbD n

def Ap.setA (a : Ap) (o : Opnd) (v : Nat) : Ap :=
  match o with
  | .v n => { a with a := a.a.set n (BitVec.ofNat 64 v) }
  | _ => a

def Ap.setC (a : Ap) (o : Opnd) (b : Bool) : Ap :=
  match o with
  | .p n => if n = 7 then a else
    { a with c := BitVec.ofNat 7 ((List.range 7).foldl (fun x i => x + (if (if i = n.val then b else a.c.getLsbD i) then 2 ^ i else 0)) 0) }
  | _ => a

/-- What an A instruction does with a true guard: waits, touches, faults, or a new AP state, a PC of its own and a further effect. -/
structure AEff where
  wait : Bool := false
  onWait : State → State := id
  fault : Option Flt := none
  ap : Ap
  target : Option W32 := none
  effect : State → State := id

/-- The PC after an A instruction (R243). -/
def apNext (s : State) (i : Instr) (a : Ap) : W32 :=
  let c := s.core s.focus
  let off := pcOff a.pc
  match c.header off with
  | some h => afterPc c h off (pcSlot a.pc + slotsOf i)
  | none => a.pc

/-- Issue of an A instruction by the focus AP. -/
def issueA (i : Instr) (f : State → Block → Ap → AEff) (s : State) : Res :=
  let a := s.ap s.focus s.focusAp
  .next (match s.blocks.look a.blk with
    | none => s
    | some b =>
      if !a.running then s
      else
        let next := apNext s i a
        if a.cond i.x.gpred == i.x.gneg then s.updAp s.focus s.focusAp fun a => { a with pc := next }
        else
          let e := f s b a
          match e.fault with
          | some x => apFaultAt s s.focus s.focusAp a.blk x.cause a.pc x.va x.detail false
          | none =>
            if e.wait then e.onWait s
            else e.effect (s.updAp s.focus s.focusAp fun _ => { e.ap with pc := e.target.getD next }))

/-- The AP program fault (R247). -/
def apProgram : Flt := ⟨0x33, 0, 0⟩

/-- The offset of the AP's clause, and `nxt`. -/
def apNxt (s : State) (a : Ap) : W32 := mkPc ((s.core s.focus).nxt (pcOff a.pc)) 0

/-! ### Arithmetic and control (R246) -/

def shapeOfOp (b : Block) (o : Opnd) : Shape :=
  match o with
  | .q n => b.shape n
  | _ => 0

/-- AGEN's address: PATH is kept and the offset wraps (R68, R246). -/
def agenAddr (q : Shape) (i0 i1 : Int) : Nat :=
  ShapeOf.path q * 2 ^ 60 + truncInt 60 ((ShapeOf.base q : Int) + i0 * ShapeOf.stride q 0 + i1 * ShapeOf.stride q 1)

def execAgen (x : X) (s : State) : Res :=
  issueA (.agen x) (fun s b a =>
    let q := shapeOfOp b x.sa
    { wait := owesShape s a.blk (shapeRegs (.agen x)),
      fault := if !owesShape s a.blk (shapeRegs (.agen x)) && (!shapeOk q || !regionOk q) then some ⟨0x27, 0, 0⟩ else none,
      ap := a.setA x.dst (agenAddr q (sextNat 64 (a.val x.sb)) (sextNat 64 (a.val x.sc))) }) s

def execAadd (x : X) (s : State) : Res :=
  issueA (.aadd x) (fun _ _ a => { ap := a.setA x.dst ((a.val x.sa + a.val x.sb) % 2 ^ 64) }) s

def execAloop (x : X) (s : State) : Res :=
  issueA (.aloop x) (fun s _ a =>
    { fault := if 4 ≤ a.loops.length then some apProgram else none,
      ap := { a with loops := (max (a.val x.sa % 2 ^ 32) 1, apNxt s a) :: a.loops },
      target := some (apNxt s a) }) s

def execAendl (x : X) (s : State) : Res :=
  issueA (.aendl x) (fun s _ a =>
    match a.loops with
    | [] => { fault := some apProgram, ap := a }
    | (n, start) :: rest =>
      if n ≤ 1 then { ap := { a with loops := rest }, target := some (apNxt s a) }
      else { ap := { a with loops := (n - 1, start) :: rest }, target := some start }) s

def execAcmp (x : X) (c : Cmp) (s : State) : Res :=
  issueA (.acmp x c) (fun _ _ a =>
    { ap := a.setC x.dst (cmpHolds c (some (sextNat 64 (a.val x.sa) - sextNat 64 (a.val x.sb)))) }) s

/-- ABRA (R246, R247): a target outside the store leaves every resident overlay. -/
def execAbra (x : X) (s : State) : Res :=
  issueA (.abra x) (fun _ _ a =>
    let t : Int := pcOff a.pc + sextNat 64 (a.val x.sa)
    { fault := if t % 8 ≠ 0 then some apProgram else if targetOk t then none else some ⟨0x20, 0, 0⟩,
      ap := a, target := some (mkPc t.toNat 0) }) s

/-- AEND: the AP becomes idle and releases its queues. -/
def execAend (x : X) (s : State) : Res :=
  issueA (.aend x) (fun _ _ _ => { ap := {}, target := some 0 }) s

/-! ### Data queues -/

def State.dq (s : State) (core q : Nat) : List QEntry := ((s.core core).queues[q]?).getD []
def State.updDq (s : State) (core q : Nat) (f : List QEntry → List QEntry) : State :=
  s.updCore core fun k => { k with queues := k.queues.modify q f }

/-- A queue is in the AP's queue set (R247). -/
def Ap.owns (a : Ap) (q : Nat) : Bool := a.queues.getLsbD q

/-- A queue is Open (R245). -/
def queueOpen (s : State) (core q : Nat) : Bool :=
  (s.core core).aps.any (fun a => a.running && a.owns q) || (s.core core).startq.any fun r => r.queues.getLsbD q

/-- The units that the lines of a run of path 0x0 end at. -/
def unitsOf (s : State) (ctx a n : Nat) : List Nat :=
  (List.range (cdiv (a % 64 + n) 64)).filterMap fun i => (placeAt s (.global ctx) ((a / 64 + i) * 64)).bind (locUnit s)

/-- The units that an AP's access of a word uses; on path 0x4, those of the lines of the image that hold it (R259, R323). -/
def apUnits (s : State) (b : Block) (a : Nat) : List Nat :=
  if selOf a = 4 then match (s.ctx b.ctx).regions.look (bits a 59 48) with
    | none => []
    | some r =>
      let c := bits a 47 0 / 4096
      unitsOf s b.ctx (r.image + 264 + 4 * c) 8 ++ match chunkSpan s b.ctx r c with
        | .ok (lo, hi) => unitsOf s b.ctx (r.image + lo) (hi - lo)
        | .error _ => []
  else ((placeAt s (spaceOf b (selOf a)) (if selOf a = 0 then a else offOf a)).bind (locUnit s)).toList

/-- The routes that an AP's accesses use are among those that its grid's and its job's completion probe (R416). -/
def noteAp (s : State) (b : Block) (addrs : List Nat) : State :=
  let rs := ((addrs.flatMap (apUnits s b)).map (routeKey b.core)).eraseDups
  let s := match b.grid with
    | some g => s.updGrid g fun x => { x with routes := NSet.addAll x.routes rs }
    | none => s
  s.updJob b.job fun j => { j with routes := NSet.addAll j.routes rs }

/-- The ACCSTs in flight on words that an AP reads: their writes are performed to it from their issue (R288, R313). -/
def apAccst (s : State) (b : Block) (addrs : List Nat) : List Nat :=
  (addrs.flatMap fun a => accstOn s none b.core (selOf a) (spaceOf b (selOf a)) (if selOf a = 0 then a else offOf a) 4).eraseDups

/-- The checks of R222 on words of 4 bytes. -/
def wordsFault (s : State) (b : Block) (addrs : List Nat) (paths : List Nat) (write : Bool) : Option Flt :=
  firstSome (fun a => addrCheck s b a 4 none paths write) addrs

/-- Scratchpad ranges of 4-byte words. -/
def wordsAcc (addrs : List Nat) (write : Bool) : List Acc :=
  addrs.flatMap fun a => Req.accs { addr := a, n := 4, write := write }

/-- Reserves an entry and starts its reads: a full queue, windows and held ranges wait (R246). -/
def reserve (s : State) (b : Block) (a : Ap) (q : Nat) (addrs : List Nat) : AEff :=
  if !a.owns q then { fault := some apProgram, ap := a }
  else if Config.queueEntries ≤ (s.dq s.focus q).length then { wait := true, ap := a }
  else match wordsFault s b addrs [0, 1, 2, 3, 4] false with
    | some f => { fault := some f, ap := a }
    | none =>
      { wait := accWaits s b (wordsAcc addrs false),
        onWait := fun s => touch s a.blk none a.pc 16 (wordsAcc addrs false),
        ap := a,
        effect := fun s => (noteAp s b addrs).updDq s.focus q fun l => l ++ [{
          ap := s.focusAp, blk := a.blk, addrs := addrs, words := none, pc := a.pc, after := s.live a.obs ++ apAccst s b addrs }] }

/-- The 64 consecutive words from an address. -/
def rowAddrs (base : Nat) : List Nat := (List.range 64).map fun k => (base + 4 * k) % 2 ^ 64

def execApush (x : X) (q : Fin 8) (s : State) : Res :=
  issueA (.apush x q) (fun s b a => reserve s b a q (rowAddrs (a.val x.sa))) s

/-- A word as an AP reads it, through the store ports of its core or the weight path, with the pending stores that it reads from. -/
def apWord (s : State) (b : Block) (a : Nat) : Except Fail (Nat × List Nat) :=
  if selOf a = 4 then
    match weightBytes s b.ctx (bits a 59 48) (bits a 47 0) 4 with
    | .ok w => .ok (ofLe w, [])
    | .error f => .error f
  else match readFwd s b.core none (spaceOf b (selOf a)) a (offOf a) 4 with
    | .ok (w, from_) => .ok (ofLe w, from_)
    | .error f => .error f

def apWords (s : State) (b : Block) : List Nat → Except MFail (List Nat × List Nat)
  | [] => .ok ([], [])
  | a :: l => match apWord s b a with
    | .error f => .error (f, a)
    | .ok (w, f) => match apWords s b l with
      | .error f => .error f
      | .ok (ws, fs) => .ok (w :: ws, f ++ fs)

/-- An atomic of the core is pending on one of the words: it is performed to the core's APs from its issue, so the read waits for its value
(R313). -/
def apRmw (s : State) (b : Block) (addrs : List Nat) : Bool :=
  s.stores.any fun (_, st) => st.core == b.core && !st.acc.isPlain && addrs.any fun a =>
    st.path == selOf a && st.shares s (spaceOf b (selOf a)) (if selOf a = 0 then a else offOf a) 4

/-- What an AP's reads have read from joins what its releases carry (R315, R316). -/
def apSaw (s : State) (core n blk : Nat) (ids : List Nat) : State :=
  s.updAp core n fun a => if a.running && a.blk = blk then { a with seen := NSet.addAll (s.live a.seen) (s.live ids) } else a

/-- Counts the words that an AP read on the weight path (R240). -/
def countWords (s : State) (ctx : Nat) (addrs : List Nat) : State :=
  addrs.foldl (fun s a => if selOf a = 4 then countWeight s ctx (bits a 59 48) 4 else s) s

/-- AGATH: its index words are read as it issues. -/
def execAgath (x : X) (q : Fin 8) (s : State) : Res :=
  issueA (.agath x q) (fun s b a =>
    let idx := rowAddrs (a.val x.sb)
    if !a.owns q then { fault := some apProgram, ap := a }
    else if Config.queueEntries ≤ (s.dq s.focus q).length then { wait := true, ap := a }
    else match wordsFault s b idx [0, 1, 2, 3, 4] false with
      | some f => { fault := some f, ap := a }
      | none =>
        if accWaits s b (wordsAcc idx false) then
          { wait := true, onWait := fun s => touch s a.blk none a.pc 16 (wordsAcc idx false), ap := a }
        else if !(s.live a.obs).isEmpty || apRmw s b idx || !(apAccst s b idx).isEmpty then { wait := true, ap := a }
        else match apWords s b idx with
          | .error (f, va) => { ap := a, target := some a.pc, effect := fun s => apFaultAt s s.focus s.focusAp a.blk f.cause a.pc va f.line true }
          | .ok (is, from_) =>
            let e := reserve s b a q (is.map fun i => (a.val x.sa + 4 * i) % 2 ^ 64)
            { e with effect := fun s => apSaw (e.effect (countWords (noteAp s b idx) b.ctx idx)) s.focus s.focusAp a.blk from_ }) s

def execAwait (x : X) (q : Fin 8) (s : State) : Res :=
  issueA (.await x q) (fun s _ a =>
    { fault := if a.owns q then none else some apProgram,
      wait := a.val x.sa < (s.dq s.focus q).length,
      ap := a }) s

/-- ASIG: a release at block scope once every earlier entry of this AP is in its queue. -/
def execAsig (x : X) (s : State) : Res :=
  issueA (.asig x) (fun s b a =>
    let ad := a.val x.sa
    let accs := wordsAcc [ad] true
    let owed := (s.core s.focus).queues.any fun l => l.any fun e => e.ap == s.focusAp && e.words.isNone
    { fault := addrCheck s b ad 4 none [1, 2, 3] true,
      wait := owed || accWaits s b accs,
      onWait := fun s => if owed then s else touch s a.blk none a.pc 16 accs,
      ap := a,
      effect := fun s => (issueStore (noteAp s b [ad]) {
        core := b.core, ctx := b.ctx, blk := a.blk, th := none, issue := 0, lines := [], pc := a.pc, space := spaceOf b (selOf ad),
        path := selOf ad, va := ad, off := offOf ad, acc := .plain (leBytes 4 (a.val x.sb)), ret := none, rel := some .block,
        pfx := s.live (a.obs ++ a.seen), after := [] }).2 }) s

/-- AP_ENTRY_WHOLE (R246): the first entry of a queue that is not whole becomes whole. -/
def execApEntryWhole (core q : Nat) (s : State) : Res :=
  .next (match (s.dq core q).find? (·.words.isNone) with
    | none => s
    | some e => match s.blocks.look e.blk with
      | none => s
      | some b =>
        if !s.ready e.after || apRmw s b e.addrs || ((s.ctxs.look b.ctx).map (·.save.isSome)).getD true then s
        else match apWords s b e.addrs with
          | .error (f, va) =>
            if (s.ctx b.ctx).halt.isSome then s else apFaultAt s core e.ap e.blk f.cause e.pc va f.line true
          | .ok (ws, from_) =>
            let s := apSaw (countWords s b.ctx e.addrs) core e.ap e.blk from_
            let put (l : List QEntry) : List QEntry :=
              let k := l.findIdx (·.words.isNone)
              l.modify k fun e => { e with words := some (ws.map (BitVec.ofNat 32)) }
            s.updDq core q put)

/-- QPOP_LANDS (R217): the oldest QPOP of the queue takes its head entry, or zeros from a queue that is closed and empty. -/
def execQpopLands (id : Nat) (s : State) : Res :=
  .next (match s.pend.look id with
    | none => s
    | some p => match p.op with
      | .qpop q =>
        let first := s.pend.all fun (i, x) => id ≤ i || x.core != p.core || (match x.op with | .qpop q' => q' != q | _ => true)
        let land (f : Nat → W32) (s : State) : State :=
          p.parts.foldl (fun s part => landPart s part [f (((s.threads.look part.th).map (·.lane)).getD 0)]) (dropPend s id)
        if !first || ((s.ctxs.look p.ctx).map (·.save.isSome)).getD true then s
        else match s.dq p.core q with
          | e :: _ => match e.words with
            | some ws => land (fun l => ws.getD l 0) (s.updDq p.core q fun l => l.drop 1)
            | none => s
          | [] => if queueOpen s p.core q then s else land (fun _ => 0) s
      | _ => s)

/-! ### Hand-off and start (R244) -/

/-- The registers that a hand-off reads: v0 to v8. -/
def handRegs : List Nat := List.range 9

/-- A start request from a thread: a free register contributes zero (R242). -/
def startOf (s : State) (m : Mb) : Start :=
  let r (n : Nat) : W32 := m.t.regs.lookD n 0
  { pc := mkPc (pcOff m.t.pc) 0,
    a := (List.range 4).map (fun k => r (2 * k + 1) ++ r (2 * k)) ++ List.replicate 12 0,
    queues := BitVec.ofNat 8 (r 8).toNat, blk := m.t.blk,
    obs := AMap.sel s.stores fun _ st => st.th == some m.u && !st.held }

/-- The lowest-lane member of each block of a set, whose members stand in lane order. -/
def handers : List Mb → List Nat → List Mb
  | [], _ => []
  | m :: ms, seen => if seen.contains m.t.blk then handers ms seen else m :: handers ms (m.t.blk :: seen)

/-- AP_HANDOFF: the gathered set at an A clause places its start requests and goes on, or rejoins its lane queues. Fences over the paths of an AP
and acquires hold it back (R316, R342). -/
def execApHandoff (core : Nat) (s : State) : Res :=
  let s := { s with focus := core }
  .next (match (s.core core).gather with
    | none => s
    | some g =>
      let h := curHeader s g
      let ms := membersOf s g
      let hs := handers ms []
      if h.cls ≠ .A then s
      else if hs.any fun m => owesReg s m.u handRegs || memWaits s m [0, 1, 2, 3, 4] then stallSet s ms
      else if Config.startQueue < (s.core core).startq.length + hs.length then dissolve s core
      else
        let s := s.updCore core fun c => { c with startq := c.startq ++ hs.map (startOf s), apUsed := true }
        let nxt := mkPc ((s.core core).nxt g.off) 0
        let s := g.members.foldl (fun s u => s.updThr u fun t => { t with pc := nxt, stall := none }) s
        let s := stepTraps s h ms
        match (s.core core).gather with
        | none => s
        | some g => if g.members.isEmpty then s.updCore core fun c => { c with gather := none } else endClause s g h)

/-- AP_PROGRAM_START: the head request starts on the lowest idle AP once none of its queues is held. -/
def execApProgramStart (core : Nat) (s : State) : Res :=
  .next (match (s.core core).startq with
    | [] => s
    | r :: rest =>
      let k := s.core core
      let held := k.aps.any fun a => a.running && (a.queues &&& r.queues) ≠ 0
      match (List.range 4).find? fun n => !((k.aps[n]?).map (·.running)).getD true with
      | none => s
      | some n =>
        if held || s.stopped (((s.blocks.look r.blk).map (·.ctx)).getD 0) then s
        else (s.updCore core fun k => { k with startq := rest }).updAp core n fun _ =>
          { running := true, pc := r.pc, a := r.a, queues := r.queues, blk := r.blk, obs := r.obs })

/-! ### Fetch by an AP -/

/-- A PC lies within a resident overlay of a code object. -/
def pcResident (s : State) (core code off : Nat) : Bool :=
  match (s.core core).home.look (off / 4096) with
  | some (.resident code' ovl len _) => code' == code && off < (((s.codes.look code).bind fun k => k.overlay ovl).map (·.home)).getD 0 * 4096 + len
  | _ => false

/-- The fault that an AP's fetch meets: an encoding fault of the clause, the bounds fault of a clause that runs past its overlay (R57, R147), or the
illegal-clause fault for a clause of another class and for a PC that no resident overlay of its code holds (R247). DEDUCED: log 26. -/
def apFetchFault (s : State) (core n : Nat) : Option (Nat × W32) :=
  let a := s.ap core n
  match s.blocks.look a.blk with
  | none => none
  | some b =>
    let off := pcOff a.pc
    match fetchHeader s core b.ctx b.code off with
    | .miss => some (0x20, mkPc off 0)
    | .fault c => some (if c = 0x25 && pcResident s core b.code off then 0x25 else 0x20, mkPc off 0)
    | .ok h =>
      if h.cls ≠ .A then some (0x20, mkPc off 0)
      else (clauseFault s core off h).map fun (c, k) => (c, mkPc off k)

/-- The instruction that an AP issues next. -/
def apInstrAt (s : State) (core n : Nat) : Option Instr :=
  let a := s.ap core n
  if a.running && !s.stopped (apCtx s a) && (apFetchFault s core n).isNone then (s.core core).instr (pcOff a.pc) (pcSlot a.pc) else none

/-- An AP whose fetch fails raises its context fault. -/
def apStuck (s : State) (core n : Nat) : State :=
  let a := s.ap core n
  if a.running && !s.stopped (apCtx s a) then
    match apFetchFault s core n with
    | some (c, pc) => apFaultAt s core n a.blk c pc 0 0 false
    | none => s
  else s

end Sys2Proof.Machine
end

