-- ==== Sys2Proof/Machine/Code.lean ====
section
/-! DEFINITION. Code objects: the sections, descriptors and manifest of R75 to R78, the refusals of R79, the homes of R137 and the
bindings of R258. -/

namespace Sys2Proof.Machine

/-- A section-table entry (R76). -/
structure Section where
  ty : Nat
  index : Nat
  off : Nat
  size : Nat
  reserved : Nat
  deriving DecidableEq, Repr

/-- A code object as its image gives it, before homes are assigned. -/
structure Parsed where
  code : Code
  regions : List (Nat × Nat × Nat)
  manifest : List Byte
  deriving DecidableEq, Repr

/-- The first failing condition of R79, by its number from 1 to 6. -/
abbrev CodeRes := Except Nat Parsed

def sectionOf (b : List Byte) (i : Nat) : Section :=
  let e := (b.drop (32 * i)).take 32
  { ty := recNat e 0 4, index := recNat e 4 4, off := recNat e 8 8, size := recNat e 16 8, reserved := recNat e 24 8 }

/-- No two sections overlap (R79). -/
def sectionsApart : List Section → Bool
  | [] => true
  | a :: l => l.all (fun b => a.size = 0 || b.size = 0 || a.off + a.size ≤ b.off || b.off + b.size ≤ a.off) && sectionsApart l

/-- A kernel descriptor (R77); the shape table is filled in by the caller. DESIGN CHOICE: log 63 and 67. -/
def kernelOf (num : Nat) (d : List Byte) (shapes : AMap Shape) : Kernel :=
  { num := num, entovl := recNat d 0 4, entoff := recNat d 4 4, threads := recNat d 8 4, maxlive := recNat d 12 1,
    stack := 2 ^ recNat d 13 1, energy := recNat d 14 1, csdata := recNat d 16 4, cldata := recNat d 20 4, clblk := recNat d 24 1,
    diedata := recNat d 32 8, shapes := shapes }

/-- The reserved bytes of a kernel descriptor are zero. -/
def kernelZero (d : List Byte) : Bool := recNat d 15 1 = 0 && recNat d 25 7 = 0 && recNat d 44 4 = 0

/-- The entries of a shape table that its presence mask names (R76). DEDUCED: log 27. -/
def shapesOf (d : List Byte) : AMap Shape :=
  (List.range 16).foldl (fun m i => if bit (recNat d 0 2) i then m.put i (BitVec.ofNat 512 (recNat d (8 + 64 * i) 64)) else m) []

/-- A stage entry (R109). -/
def stageOf (e : List Byte) : Stage :=
  { kernel := recNat e 0 4, itemsz := recNat e 4 4, depth := recNat e 8 4,
    next := if recNat e 12 4 = 0xFFFFFFFF then none else some (recNat e 12 4), kind := recNat e 16 1, batch := recNat e 17 1,
    outmax := recNat e 18 2 }

def pipeOf (d : List Byte) : List Stage := (List.range (recNat d 0 4)).map fun i => stageOf (d.drop (16 + 32 * i))

/-- The reserved bytes of a pipeline section are zero (R79, R109). -/
def pipeZero (d : List Byte) : Bool :=
  recNat d 4 12 = 0 && (List.range (recNat d 0 4)).all fun i => recNat (d.drop (16 + 32 * i)) 20 12 = 0

/-- The entries of a region-binding section (R258). -/
def bindsOf (d : List Byte) : List (List Byte) := (List.range (recNat d 0 4)).map fun i => (d.drop (16 + 64 * i)).take 64

/-- The unlisted bytes of an entry are zero (R258). -/
def bindZero (e : List Byte) : Bool :=
  recNat e 1 3 = 0 && match recNat e 0 1 with
    | 1 => recNat e 9 7 = 0 && recNat e 40 24 = 0
    | 2 => recNat e 12 4 = 0 && recNat e 32 32 = 0
    | 3 => recNat e 9 7 = 0 && recNat e 40 24 = 0
    | _ => true

def bindingOf (e : List Byte) : Binding :=
  { kind := recNat e 0 1, kernel := recNat e 4 4, index := recNat e 8 1, x := recNat e 16 8, y := recNat e 24 8, len := recNat e 32 8 }

/-- Manifest entry `i` (R78): number, length, flags and hash. -/
def manifestEntry (m : List Byte) (i : Nat) : Nat × Nat × Nat × List Byte :=
  let e := (m.drop (64 + 48 * i)).take 48
  (recNat e 0 4, recNat e 4 4, recNat e 8 4, e.drop 16)

/-- The reserved fields of a manifest are zero. -/
def manifestZero (m : List Byte) : Bool :=
  recNat m 48 16 = 0 && (List.range (recNat m 32 4)).all fun i =>
    recNat (m.drop (64 + 48 * i)) 12 4 = 0 && (manifestEntry m i).2.2.1 ≤ 1

/-- The manifest's size and signature (R78). -/
def manifestSigned (m : List Byte) : Bool :=
  let n := 64 + 48 * recNat m 32 4
  m.length = n + 7856 && Config.verify (recNat m 36 4) (m.take n) (m.drop n)

/-- Checks and reads an image (R75 to R79). DESIGN CHOICE: log 65 and 67. -/
def parseImage (ctx addr : Nat) (img : List Byte) : CodeRes :=
  let len := recNat img 24 8
  let n := recNat img 8 4
  let tab := (List.range n).map fun i => sectionOf (img.drop (recNat img 16 8)) i
  let body (x : Section) : List Byte := (img.drop x.off).take x.size
  let of (t : Nat) : List Section := tab.filter (·.ty == t)
  if recNat img 0 4 ≠ 0x314F4341 || recNat img 4 2 ≠ 1 then .error 1
  else if recNat img 6 2 ≠ 0 || recNat img 12 4 ≠ 0 || recNat img 32 32 ≠ 0
    || tab.any (fun x => x.reserved ≠ 0 || x.ty = 0 || 8 < x.ty)
    || (of 3).any (fun x => !kernelZero (body x)) || (of 4).any (fun x => !pipeZero (body x)) || (of 2).any (fun x => !manifestZero (body x))
    || (of 6).any (fun x => recNat (body x) 4 12 ≠ 0 || (bindsOf (body x)).any fun e => !bindZero e)
  then .error 2
  else if img.length < len || len < recNat img 16 8 + 32 * n || tab.any (fun x => len < x.off + x.size) || !sectionsApart tab then .error 3
  else match of 2 with
    | [mx] =>
      let m := body mx
      if !manifestSigned m then .error 4
      else
        let entries := (List.range (recNat m 32 4)).map (manifestEntry m)
        let good (x : Section) : Bool := match entries.find? (·.1 == x.index) with
          | some (_, l, _, h) => l = x.size && sha256 (body x) == h
          | none => false
        if !(of 1).all good then .error 5
        else if sha256 ((tab.filter fun x => 3 ≤ x.ty && x.ty ≤ 6).flatMap body) ≠ m.take 32 then .error 6
        else
          let ovls := (of 1).map fun x =>
            ({ num := x.index, off := x.off, len := x.size, hash := sha256 (body x),
               sperm := ((entries.find? (·.1 == x.index)).map fun e => bit e.2.2.1 0).getD false, home := 0 } : Overlay)
          let kern := (of 3).map fun x =>
            let d := body x
            let sec := recNat d 40 4
            kernelOf x.index d (if sec = 0xFFFFFFFF then [] else ((tab[sec]?).map fun t => shapesOf (body t)).getD [])
          let binds := (of 6).flatMap fun x => bindsOf (body x)
          .ok {
            code := { ctx := ctx, addr := addr, overlays := ovls, kernels := kern,
                      pipes := (of 4).foldl (fun (p : AMap (List Stage)) x => p.put x.index (pipeOf (body x))) [],
                      bindings := (binds.filter fun e => recNat e 0 1 ≠ 2 || recNat e 4 4 ≠ 0).map bindingOf },
            regions := (binds.filter fun e => recNat e 0 1 = 2).map fun e => (recNat e 8 4, addr + recNat e 16 8, recNat e 24 8),
            manifest := m }
    | _ => .error 4

/-- Reads the image at an address through a context's translation; one that cannot be read has no MAGIC. -/
def parseCode (s : State) (ctx addr : Nat) : CodeRes :=
  match engineBytes s (.global ctx) addr 64 with
  | .error _ => .error 1
  | .ok h => match engineBytes s (.global ctx) addr (max 64 (recNat h 24 8)) with
    | .error _ => .error 1
    | .ok img => parseImage ctx addr img

/-! ### Homes (R137) -/

/-- Inserts by overlay number. -/
def insertOvl (o : Overlay) : List Overlay → List Overlay
  | [] => [o]
  | p :: l => if o.num ≤ p.num then o :: p :: l else p :: insertOvl o l

/-- Assigns homes in ascending overlay number. -/
def assignHomes (base pages : Nat) : Nat → List Overlay → List Overlay
  | _, [] => []
  | c, o :: l =>
    let np := cdiv o.len 4096
    let c := if pages < c + np then 0 else c
    { o with home := base + c } :: assignHomes base pages (c + np) l

/-- A code object with its homes. -/
def withHomes (k : Context) (c : Code) : Code :=
  { c with overlays := assignHomes k.isbase k.ispages 0 (c.overlays.foldr insertOvl []) }

def Code.kernel (c : Code) (n : Nat) : Option Kernel := c.kernels.find? (·.num == n)

/-- Some overlay is longer than the store partition (R137). -/
def overlayTooLong (k : Context) (c : Code) : Bool := c.overlays.any fun o => k.ispages * 4096 < o.len

/-! ### Checks of the bindings (R258, R264) -/

/-- The size of a kernel's core-scratchpad allocation (R26, R224). -/
def Kernel.padSize (k : Kernel) : Nat := k.csdata + k.threads * k.stack

/-- The allocation size that a publish buffer lies in. -/
def Kernel.pubSize (k : Kernel) (n : Nat) : Nat := if n < 4 then k.padSize else if n < 8 then k.cldata else k.diedata

/-- An entry that R258 admits. -/
def bindingOk (c : Code) (b : Binding) : Bool :=
  match c.kernel b.kernel with
  | none => false
  | some k =>
    if b.kind = 1 then b.index < 16 && 0 < b.len && b.len < 2 ^ 24 && b.y + b.len ≤ k.padSize
    else if b.kind = 3 then
      b.index < 16 && b.len % 64 = 0 && b.x % 64 = 0 && b.y % 64 = 0 && 0 < b.len
        && (b.x + b.len ≤ b.y || b.y + b.len ≤ b.x) && b.x + b.len ≤ k.pubSize b.index && b.y + b.len ≤ k.pubSize b.index
    else false

/-- Every binding is admitted: windows and publish buffers, and weight images whose header and table are good (R258, R259). -/
def bindingsOk (s : State) (ctx : Nat) (p : Parsed) : Bool :=
  p.code.bindings.all (bindingOk p.code)
    && p.regions.all fun (r, image, enclen) => r ≤ 4095 && match regionOf s ctx image enclen with
      | .ok (0, _) => true
      | _ => false

/-- The one-dimensional .b8 shape of a KIND 1 entry (R258). -/
def byteShape (path base len : Nat) : Shape :=
  BitVec.ofNat 512 (base % 2 ^ 60 + path * 2 ^ 60 + 0xB * 2 ^ 64 + 1 * 2 ^ 68 + len * 2 ^ 88 + 1 * 2 ^ 112)

/-- The windows of a block of a kernel at its start (R233). -/
def startWindows (c : Code) (kernel : Nat) : List Window :=
  (c.bindings.filter fun b => b.kind = 1 && b.kernel = kernel).foldl (fun ws b =>
    ws.set b.index { st := .absent, path := 1, lo := b.y, hi := b.y + b.len,
                     copy := some { qd := byteShape 1 b.y b.len, qs := byteShape 0 (c.addr + b.x) b.len, o0 := 0, o1 := 0 } })
    (List.replicate 16 {})

/-- The publish ports of an allocation that a kernel declares (R264). -/
def addPubs (s : State) (c : Code) (kernel alloc lo hi : Nat) : State :=
  (c.bindings.filter fun b => b.kind = 3 && b.kernel = kernel && lo ≤ b.index && b.index < hi).foldl (fun s b =>
    { s with pubs := s.pubs.put (pubKey alloc b.index) { alloc := alloc, view := b.x, shadow := b.y, len := b.len } }) s

/-! ### Acceptance into a context (R79, R238, R423) -/

/-- The recorded object of an address, if the image is the one that was recorded. -/
def findCode (s : State) (c : Code) : Option Nat :=
  (s.codes.find? fun (_, k) => k.ctx == c.ctx && k.addr == c.addr && { k with overlays := k.overlays.map fun o => { o with home := 0 } }
    == { c with overlays := c.overlays.foldr insertOvl [] }).map (·.1)

/-- Records a code object, or finds it: homes, MEAS, and the context's weight regions. DEDUCED: log 27. -/
def acceptCode (s : State) (ctx : Nat) (p : Parsed) : Nat × State :=
  let s := p.regions.foldl (fun s (r, image, enclen) => match regionOf s ctx image enclen with
    | .ok (0, x) => s.updCtx ctx fun k => { k with regions := k.regions.put r x }
    | _ => s) s
  match findCode s p.code with
  | some id => (id, s)
  | none =>
    let (id, s) := s.newId
    let s := { s with codes := s.codes.put id (withHomes (s.ctx ctx) p.code) }
    (id, s.updCtx ctx fun k => { k with meas := sha256 (k.meas ++ sha256 p.manifest) })

end Sys2Proof.Machine
end

