-- ==== Sys2Proof/Machine/Queue.lean ====
section
/-! DEFINITION. Launch queues (R95 to R107): responses, the checks of R102, acceptance, process groups (R112, R113), and the writes of
the queue registers. Admission sums (R26, R224). -/

namespace Sys2Proof.Machine

/-! ### Stores by the steward pair -/

/-- A store of the steward pair through a context's translation; one that cannot be translated is lost. -/
def ctxStore (s : State) (ctx va : Nat) (bytes : List Byte) : State :=
  match resolve s (.global ctx) va va true with
  | .ok l => plainWrite (makeRoom s l) l bytes
  | .error _ => s

/-! ### Responses (R101) -/

/-- KIND of a response. -/
inductive RKind where
  | accepted
  | refused
  | started
  | done
  | killed
  | cancelled
  | discarded
  | migrated
  deriving DecidableEq, Repr

def RKind.code : RKind → Nat
  | .accepted => 1
  | .refused => 2
  | .started => 3
  | .done => 4
  | .killed => 5
  | .cancelled => 6
  | .discarded => 7
  | .migrated => 8

/-- Bytes [15:4] of a response. -/
def respBytes (jseq slot : Nat) (k : RKind) (status detail : Nat) : List Byte :=
  leBytes 4 jseq ++ leBytes 2 slot ++ leBytes 1 k.code ++ leBytes 1 status ++ leBytes 4 detail

/-- A number a is ahead of b (R97). -/
def ahead (a b : W32) : Bool := 0 < (a - b).toInt

/-- The response ring has room. -/
def Queue.room (q : Queue) : Bool := (q.rseq - q.rack).toNat ≠ 2 ^ q.lgnr

/-- The response is that of the job that closed in its slot, whose hold on it then ends (R99). -/
def respFrees (q : Queue) (r : List Byte) : Bool :=
  [4, 5, 6, 8].contains (recNat r 6 1) && (q.closing.look (recNat r 4 2)).map (· / 4) == some (recNat r 0 4)

/-- Writes the responses that wait, in order, while the ring has room; RFULL is set while one still waits. -/
def flushResp (s : State) (die q : Nat) : Nat → State
  | 0 => s
  | fuel + 1 =>
    let x := s.queue die q
    match x.waiting with
    | [] => s
    | r :: rest =>
      if !x.room then s.setQueue die q { x with stat := x.stat ||| 2 }
      else
        let rseq := x.rseq + 1
        let s := ctxStore s x.owner (x.rbase.toNat + rseq.toNat % 2 ^ x.lgnr * 16) (leBytes 4 rseq.toNat ++ r)
        let slot := recNat r 4 2
        let s := s.setQueue die q { x with
          rseq := rseq, waiting := rest,
          slots := if respFrees x r then x.slots.del slot else x.slots,
          closing := if respFrees x r then x.closing.del slot else x.closing }
        flushResp s die q fuel

/-- Queues a response and writes what the ring has room for. -/
def respond (s : State) (die q jseq slot : Nat) (k : RKind) (status detail : Nat) : State :=
  let x := s.queue die q
  let s := s.setQueue die q { x with waiting := x.waiting ++ [respBytes jseq slot k status detail] }
  flushResp s die q (x.waiting.length + 1)

/-! ### Records (R98) -/

structure Rec where
  b : List Byte
  deriving DecidableEq, Repr

namespace Rec
def seq (r : Rec) : Nat := recNat r.b 0 4
def npred (r : Rec) : Nat := recNat r.b 4 2
def nsucc (r : Rec) : Nat := recNat r.b 6 1
def flags (r : Rec) : Nat := recNat r.b 7 1
def pipe (r : Rec) : Bool := bit r.flags 1
def pgrp (r : Rec) : Bool := bit r.flags 2
def relsc (r : Rec) : Nat := recNat r.b 8 1
def diemask (r : Rec) : Nat := recNat r.b 9 1
def ngrids (r : Rec) : Nat := recNat r.b 10 2
def succ (r : Rec) (n : Nat) : Nat := recNat r.b (12 + 2 * n) 2
def code (r : Rec) : Nat := recNat r.b 24 8
def argp (r : Rec) : Nat := recNat r.b 32 8
def sigaddr (r : Rec) : Nat := recNat r.b 40 8
def entry (r : Rec) : Nat := recNat r.b 48 4
def nblocks (r : Rec) : Nat := recNat r.b 52 4
def seed (r : Rec) : Nat := recNat r.b 56 4
def nitems (r : Rec) : Nat := recNat r.b 60 4
def pgtab (r : Rec) : Nat := recNat r.b 64 8
def items (r : Rec) : Nat := recNat r.b 72 8
end Rec

def Job.r (j : Job) : Rec := ⟨j.record⟩

/-- The first reserved or out-of-range field of a record alone, by its byte offset (R98). DESIGN CHOICE: log 68. -/
def badField (r : Rec) : Option Nat :=
  let f (off : Nat) (bad : Bool) : Nat × Bool := (off, bad)
  let l :=
    [f 6 (6 < r.nsucc), f 7 (r.flags / 8 ≠ 0), f 8 (r.relsc < 3 || 6 < r.relsc), f 9 (r.diemask / 16 ≠ 0 || r.diemask = 0),
     f 10 (if r.pipe then r.ngrids ≠ 0 else r.ngrids = 0 || 64 < r.ngrids)]
    ++ (List.range 6).map (fun n => f (12 + 2 * n) (r.nsucc ≤ n && r.succ n ≠ 0xFFFF))
    ++ [f 24 (r.code % 8 ≠ 0), f 40 (r.sigaddr % 8 ≠ 0),
        f 52 (if r.pipe then r.nblocks ≠ 0 else r.nblocks = 0 || (!r.pgrp && 12288 < r.nblocks)),
        f 60 (!r.pipe && r.nitems ≠ 0), f 64 (!r.pgrp && r.pgtab ≠ 0), f 72 (!r.pipe && r.items ≠ 0)]
    ++ [f 80 ((List.range 48).any fun n => r.b.getD (80 + n) 0 ≠ 0)]
  (l.find? (·.2)).map (·.1)

/-- The job in a slot. -/
def slotJob (s : State) (die q slot : Nat) : Option (Nat × Job) :=
  ((s.queue die q).slots.look slot).bind fun i => (s.jobs.look i).map fun j => (i, j)

def SlotSt.code : SlotSt → Nat
  | .held => 1
  | .ready => 2
  | .running => 3

/-- The state of a slot by the order of R99: 0 Free to 3 Running. -/
def slotCode (s : State) (die q slot : Nat) : Nat :=
  let x := s.queue die q
  match x.slots.look slot with
  | none => 0
  | some i => match s.jobs.look i with
    | some j => j.st.code
    | none => x.closing.lookD slot 3 % 4

/-- Successor `n` of a record may be linked (R104). -/
def succOk (s : State) (die q : Nat) (own : Option Nat) (r : Rec) (n : Nat) : Bool :=
  let k := r.succ n
  slotCode s die q k = 1 && (slotJob s die q k).isSome && some k ≠ own && (List.range n).all fun i => r.succ i ≠ k

/-! ### Admission (R26, R27, R119, R224) -/

/-- What resident blocks take on a core: threads, words per lane, scratchpad bytes in whole granules. -/
structure CoreUse where
  threads : Nat := 0
  words : Nat := 0
  pad : Nat := 0
  deriving DecidableEq, Repr

def roundUp (g n : Nat) : Nat := cdiv n g * g

/-- What one block of a kernel takes. -/
def Kernel.need (k : Kernel) : CoreUse :=
  { threads := cdiv k.threads 64 * 64, words := cdiv k.threads 64 * k.maxlive, pad := roundUp 256 k.padSize }

def CoreUse.add (u n : CoreUse) : CoreUse := ⟨u.threads + n.threads, u.words + n.words, u.pad + n.pad⟩

/-- The sums of R26; 64 homed threads per lane are 4,096 threads of the core. -/
def CoreUse.admits (u n : CoreUse) : Bool :=
  u.threads + n.threads ≤ 4096 && u.words + n.words ≤ 2048 && u.pad + n.pad ≤ 2 ^ 20

/-- What is taken on the cores, and of the cluster scratchpads, by their numbers. -/
structure Room where
  cores : AMap CoreUse := []
  clusters : AMap Nat := []
  deriving DecidableEq, Repr

/-- One block on a cluster's cores, by first fit in ascending core number. -/
def fitBlock (avail : Nat → Bool) (n : CoreUse) (r : Room) (cl : Nat) : Option (Nat × Room) :=
  (((List.range 8).map (cl * 8 + ·)).find? fun c => avail c && (r.cores.lookD c {}).admits n).map fun c =>
    (c, { r with cores := r.cores.put c ((r.cores.lookD c {}).add n) })

def fitBlocks (avail : Nat → Bool) (n : CoreUse) (cl : Nat) : Nat → Room → Option (List Nat × Room)
  | 0, r => some ([], r)
  | k + 1, r => match fitBlock avail n r cl with
    | none => none
    | some (c, r) => (fitBlocks avail n cl k r).map fun (l, r) => (c :: l, r)

/-- One cluster-level group: the lowest-numbered cluster with room. -/
def fitGroup (avail : Nat → Bool) (n : CoreUse) (cldata blk : Nat) (r : Room) : List Nat → Option (Nat × List Nat × Room)
  | [] => none
  | cl :: cls =>
    let pad := r.clusters.lookD cl 0 + roundUp 4096 cldata
    let got := if pad ≤ 8 * 2 ^ 20 then fitBlocks avail n cl blk r else none
    match got with
    | some (l, r) => some (cl, l, { r with clusters := r.clusters.put cl pad })
    | none => fitGroup avail n cldata blk r cls

/-- Groups of a grid, in CLUSTERID order, for the blocks that are left. -/
def fitGroupsFrom (avail : Nat → Bool) (k : Kernel) (cls : List Nat) : Nat → Nat → Room → Option (List (Nat × List Nat))
  | 0, _, _ => some []
  | g + 1, n, r => match fitGroup avail k.need k.cldata (min k.clblk n) r cls with
    | none => none
    | some (cl, l, r) => (fitGroupsFrom avail k cls g (n - k.clblk) r).map fun x => (cl, l) :: x

/-- All the groups of a grid of `blocks` blocks (R27); the last of a share that is no multiple of CLBLK has fewer. DEDUCED: log 30. -/
def fitGroups (avail : Nat → Bool) (k : Kernel) (cls : List Nat) (blocks : Nat) (r : Room) : Option (List (Nat × List Nat)) :=
  fitGroupsFrom avail k cls (cdiv blocks k.clblk) blocks r

/-- Die-scratchpad bytes of a die. -/
def diePad : Nat := 2432 * 2 ^ 20

/-- The bytes of a pipeline's region: the largest DIEDATA of its stages, the queues, and the output reservations (R224). -/
def pipeData (c : Code) (l : List Stage) : Nat :=
  (l.filterMap fun st => (c.kernel st.kernel).map (·.diedata)).foldl max 0
def pipeOut (c : Code) (l : List Stage) : Nat := pipeData c l + (l.map fun st => st.depth * st.itemsz).foldl (· + ·) 0
def pipeSize (c : Code) (l : List Stage) : Nat :=
  pipeOut c l + (l.map fun st => match st.next.bind fun n => l[n]? with
    | some nx => nx.depth * nx.itemsz
    | none => 0).foldl (· + ·) 0

/-- The work fits an idle die (R102, status 0x08). DESIGN CHOICE: log 63. -/
def fitsIdle (c : Code) (r : Rec) (blocks : Nat) : Bool :=
  let cls := List.range 24
  let ok (k : Kernel) : Bool := (c.overlay k.entovl).isSome && 0 < k.threads && k.threads ≤ 2048 && 0 < k.maxlive
  if r.pipe then
    match c.pipes.look r.entry with
    | none => false
    | some l => roundUp 65536 (pipeSize c l) ≤ diePad && l.all fun st => match c.kernel st.kernel with
      | none => false
      | some k => ok k && (fitGroup (fun _ => true) k.need k.cldata 1 {} cls).isSome
  else match c.kernel r.entry with
    | none => false
    | some k => ok k && roundUp 65536 k.diedata ≤ diePad && 0 < k.clblk && k.clblk ≤ 8
      && (fitGroups (fun _ => true) k cls blocks {}).isSome

/-! ### Process groups (R112 to R114) -/

/-- A module's place in its group: rank, size, first block, count and neighbours. -/
structure Place2 where
  rank : Nat
  nmod : Nat
  first : Nat
  count : Nat
  nbr : List Nat
  deriving DecidableEq, Repr

/-- Reads a process-group table for this module (R112, R113); `none` gives status 0x0B. DESIGN CHOICE: log 68. -/
def pgroup (s : State) (ctx : Nat) (r : Rec) : Option Place2 :=
  match engineBytes s (.global ctx) r.pgtab 32 with
  | .error _ => none
  | .ok h =>
    let n := recNat h 0 4
    let topo := recNat h 4 2
    let dx := recNat h 6 2
    let dy := recNat h 8 2
    if n = 0 || 1024 < n || 1 < topo || recNat h 10 22 ≠ 0 || (topo = 1 && dx * dy ≠ n) then none
    else match engineBytes s (.global ctx) (r.pgtab + 32) (4 * n) with
      | .error _ => none
      | .ok b =>
        let es := (List.range n).map fun i => recNat b (4 * i) 4
        let id (i : Nat) : Nat := bits (es.getD i 0) 9 0
        let w := es.map fun e => bits e 31 16
        if es.any (fun e => bits e 15 10 ≠ 0) || w.any (· = 0) || ((List.range n).map id).eraseDups.length ≠ n then none
        else match (List.range n).filter fun i => id i = s.steward.accid with
          | [i] =>
            let ws := w.foldl (· + ·) 0
            let at_ (k : Nat) : Nat := r.nblocks * (w.take k).foldl (· + ·) 0 / ws
            let x := i % dx
            let y := i / dx
            let nbr := if topo = 0 then [id ((i + n - 1) % n), id ((i + 1) % n)]
              else [id (y * dx + (x + dx - 1) % dx), id (y * dx + (x + 1) % dx), id ((y + dy - 1) % dy * dx + x), id ((y + 1) % dy * dx + x)]
            some { rank := i, nmod := n, first := at_ i, count := at_ (i + 1) - at_ i, nbr := nbr }
          | _ => none

/-- The rank block of R114. -/
def rankBlock (p : Place2) : List Byte :=
  leBytes 4 p.rank ++ leBytes 4 p.nmod ++ leBytes 4 p.first ++ leBytes 4 p.count
    ++ (List.range 4).flatMap (fun i => leBytes 2 (p.nbr.getD i 0xFFFF)) ++ leBytes 8 0

/-! ### The checks of R102 -/

/-- A power of two from 16 to 65,536. -/
def depthOk (d : Nat) : Bool := ((List.range 13).map fun i => 2 ^ (i + 4)).contains d

/-- The checks of R109 and R126 on a pipeline. DESIGN CHOICE: log 68. -/
def pipeOk (c : Code) (l : List Stage) : Bool :=
  0 < l.length && l.length ≤ 8 && (List.range l.length).all fun i => match l[i]? with
    | none => false
    | some st => match c.kernel st.kernel with
      | none => false
      | some k =>
        st.kind ≤ 1 && 8 ≤ st.itemsz && st.itemsz ≤ 256 && st.itemsz % 8 = 0 && depthOk st.depth
          && (if st.cont then st.itemsz = 32 && st.batch = 0 && k.threads = Config.lanes else 0 < st.batch)
          && 32 + st.batch * st.itemsz ≤ k.csdata
          && match st.next with
            | none => st.outmax = 0
            | some n => i < n && match l[n]? with
              | none => false
              | some nx => nx.itemsz = st.itemsz

/-- The conditions of check 5 that depend on the code object: the byte offset of the field concerned. -/
def badByCode (s : State) (ctx : Nat) (r : Rec) (p : Parsed) : Option Nat :=
  let c := p.code
  let pg (k : Kernel) : Bool := !r.pgrp || 32 ≤ k.diedata
  let entry : Option Nat :=
    if r.pipe then match c.pipes.look r.entry with
      | none => some 48
      | some l => if !pipeOk c l || !(l.all fun st => ((c.kernel st.kernel).map pg).getD false) then some 48 else none
    else match c.kernel r.entry with
      | none => some 48
      | some k => if !pg k then some 48 else if k.clblk = 0 || r.nblocks % k.clblk ≠ 0 then some 52 else none
  if !bindingsOk s ctx p then some 24 else entry

/-- A record that passed: its code object, its blocks per grid, and its rank block. -/
structure Passed where
  parsed : Parsed
  blocks : Nat
  rank : List Byte
  deriving DecidableEq, Repr

/-- Checks 0x05 to 0x0B in the order that R102 gives. DESIGN CHOICE: log 68. -/
def checkRecord (s : State) (die q ctx : Nat) (own : Option Nat) (r : Rec) : Except (Nat × Nat) Passed :=
  match badField r with
  | some off => .error (0x05, off)
  | none => match (List.range r.nsucc).find? fun n => !succOk s die q own r n with
    | some n => .error (0x06, n)
    | none => match parseCode s ctx r.code with
      | .error n => .error (0x07, n)
      | .ok p => match badByCode s ctx r p with
        | some off => .error (0x05, off)
        | none =>
          let g := if r.pgrp then pgroup s ctx r else none
          let blocks := if r.pgrp then (g.map (·.count)).getD r.nblocks else r.nblocks
          let share := r.pgrp && g.isSome && (blocks = 0 || 12288 < blocks)
          if overlayTooLong (s.ctx ctx) p.code || share
            || !fitsIdle p.code r (if r.pgrp && g.isNone then ((p.code.kernel r.entry).map (·.clblk)).getD 1 else blocks)
          then .error (0x08, 0)
          else if r.pgrp && g.isNone then .error (0x0B, 0)
          else .ok { parsed := p, blocks := blocks, rank := (g.map rankBlock).getD [] }

/-! ### Acceptance (R99, R100, R115) -/

/-- A job whose effective count is zero is Ready, and its grids wait in GRIDID order (R99, R117). -/
def jobReady (s : State) (i : Nat) : State :=
  match s.jobs.look i with
  | none => s
  | some j =>
    let s := s.updJob i fun j => { j with st := .ready, count := 0 }
    if j.r.pipe then s
    else (List.range j.r.ngrids).foldl (fun s g =>
      let (id, s) := s.newId
      let s := { s with grids := s.grids.put id { job := i, gridId := g, nblocks := j.share } }
      s.updJob i fun j => { j with grids := j.grids ++ [id] }) s

/-- One release, or the end of a parent: the effective count falls by one. -/
def lowerCount (s : State) (i : Nat) : State :=
  match s.jobs.look i with
  | none => s
  | some j => if j.count ≤ 1 then jobReady s i else s.updJob i fun j => { j with count := j.count - 1 }

/-- The stages of a job, with the estimates that R124 starts from. -/
def jobStages (c : Code) (r : Rec) : List Stage :=
  if r.pipe then ((c.pipes.look r.entry).getD []).map fun st =>
    { st with est := (((c.kernel st.kernel).map (·.energy)).getD 0 + 1) * 400 }
  else []

/-- Takes a record into a slot: its links are bound, its code object recorded, and the Accepted response written. -/
def takeRecord (s : State) (die q ctx slot seq : Nat) (r : Rec) (p : Passed) (grid job : Option Nat) (child : Bool) : State :=
  let (code, s) := acceptCode s ctx p.parsed
  let (id, s) := s.newId
  let count := r.npred + child.toNat
  let succ := (List.range r.nsucc).filterMap fun n => (slotJob s die q (r.succ n)).map fun (_, j) => (r.succ n, j.seq)
  let j : Job := {
    ctx := ctx, die := die, queue := q, slot := slot, seq := BitVec.ofNat 32 seq, accepted := id, record := r.b, code := code,
    st := .held, count := count, succ := succ, parent := grid, parentJob := job, rank := p.rank, share := p.blocks,
    stages := jobStages p.parsed.code r }
  let s := { s with jobs := s.jobs.put id j }
  let x := s.queue die q
  let s := s.setQueue die q { x with slots := x.slots.put slot id }
  let s := respond s die q seq slot .accepted 0 0
  if count = 0 then jobReady s id else s

/-- The slot named in a response: the index, or 0xFFFF for one that no 16-bit field holds. DEDUCED: log 31. -/
def slotField (n : Nat) : Nat := if n < 65536 then n else 0xFFFF

/-- DETAIL of status 0x0C for a failed read (R102). -/
def readDetail (f : Fail) : Nat := if f.cause = 0x29 then 3 else if f.cause = 0x26 then 2 else 1

/-- A write of LQSUB (R100). -/
def lqsub (s : State) (die q : Nat) (v : W32) : State :=
  let x := s.queue die q
  let x := { x with sub := v }
  let s := s.setQueue die q x
  let idx := v.toNat
  if x.devq then s.setQueue die q { x with stat := x.stat ||| 4 }
  else if !x.en || bit x.stat.toNat 1 then s
  else if 2 ^ x.lgn ≤ idx || idx = 0xFFFF then respond s die q 0 (slotField idx) .refused 0x03 idx
  else match engineBytes s (.global x.owner) (x.base.toNat + 128 * idx) 128 with
    | .error f => respond s die q 0 idx .refused 0x0C (readDetail f)
    | .ok b =>
      let r : Rec := ⟨b⟩
      let seq := BitVec.ofNat 32 r.seq
      if !ahead seq x.ack then respond s die q r.seq idx .refused 0x02 x.ack.toNat
      else if ahead seq (x.ack + 1) then
        respond (s.setQueue die q { x with stat := x.stat ||| 1 }) die q r.seq idx .refused 0x01 (x.ack + 1).toNat
      else
        let s := s.setQueue die q { x with ack := seq }
        if slotCode s die q idx ≠ 0 then respond s die q r.seq idx .refused 0x04 (slotCode s die q idx)
        else match checkRecord s die q x.owner (some idx) r with
          | .error (st, d) => respond s die q r.seq idx .refused st d
          | .ok p => takeRecord s die q x.owner idx r.seq r p none none false

/-- The lowest Free slot of a queue below 0xFFFF. -/
def freeSlot (x : Queue) : Option Nat :=
  (List.range (min (2 ^ x.lgn) 0xFFFF)).find? fun n => !x.slots.has n

/-- LAUNCH at the steward pair (R115): status, slot and SEQ, and the state. DEDUCED: log 31. -/
def stewardLaunch (s : State) (die q ctx : Nat) (record : List Byte) (grid job : Option Nat) : (Nat × Nat × Nat) × State :=
  let x := s.queue die q
  if 15 < q || !x.en || !x.devq || x.owner ≠ ctx then ((0x0A, 0xFFFF, 0), s)
  else
    let seq := (x.ack + 1).toNat
    let s := s.setQueue die q { x with ack := x.ack + 1 }
    let r : Rec := ⟨record⟩
    match checkRecord s die q ctx none r with
    | .error (st, d) => ((st, 0xFFFF, 0), respond s die q seq 0xFFFF .refused st d)
    | .ok p => match freeSlot x with
      | none => ((0x09, 0xFFFF, 0), respond s die q seq 0xFFFF .refused 0x09 0)
      | some slot =>
        let alive := (grid.map fun g => s.grids.has g).getD ((job.map fun j => s.jobs.has j).getD false)
        ((0, slot, seq), takeRecord s die q ctx slot seq r p grid job alive)

/-- LAUNCH_DECIDED (R115): the launches of one thread, and of one gathered set, are decided in order. -/
def execLaunchDecided (id : Nat) (s : State) : Res :=
  .next (match s.pend.look id with
    | none => s
    | some p => match p.op with
      | .launch q record grid =>
        let earlier := s.pend.any fun (k, o) => k < id && (match o.op with | .launch .. => true | _ => false)
          && (o.issue == p.issue || o.parts.any fun a => p.parts.any fun b => a.th == b.th)
        if earlier || !cmdReady s p then s
        else
          let job := if grid.isSome then none else (s.blocks.look p.blk).map (·.job)
          let ((st, slot, seq), s) := stewardLaunch s (dieOf p.core) q p.ctx record grid job
          landAll s id [BitVec.ofNat 32 (st * 65536 + slot), BitVec.ofNat 32 seq]
      | _ => s)

/-! ### Register writes (R95, R96, R101, R106) -/

def execLqsubWrite (die q : Nat) (v : W32) (s : State) : Res := .next (lqsub s die q v)

/-- A write of LQRACK (R101). -/
def lqrack (s : State) (die q : Nat) (v : W32) : State :=
  let x := s.queue die q
  if ahead v x.rseq || ahead x.rack v then s.setQueue die q { x with stat := x.stat ||| 8 }
  else
    let x := { x with rack := v }
    let x := { x with stat := if x.room then x.stat &&& ~~~2#32 else x.stat }
    flushResp (s.setQueue die q x) die q (x.waiting.length + 1)

def execLqrackWrite (die q : Nat) (v : W32) (s : State) : Res := .next (lqrack s die q v)

/-- A job leaves the queue's jobs: its slot stays taken until the response is written (R99). -/
def closeJob (s : State) (i : Nat) (k : RKind) (detail : Nat) : State :=
  match s.jobs.look i with
  | none => s
  | some j =>
    let x := s.queue j.die j.queue
    let mine := x.slots.look j.slot == some i
    let s := if mine then s.setQueue j.die j.queue { x with closing := x.closing.put j.slot (j.st.code + 4 * j.seq.toNat) } else s
    let s := { s with jobs := s.jobs.del i }
    respond s j.die j.queue j.seq.toNat j.slot k 0 detail

/-- A write of LQCAN (R106). -/
def lqcan (s : State) (die q : Nat) (v : W32) : State :=
  let x := s.queue die q
  let s := s.setQueue die q { x with can := v }
  match slotJob s die q v.toNat with
  | some (i, j) => if j.st = .held then closeJob s i .cancelled 0 else s
  | none => s

def execLqcanWrite (die q : Nat) (v : W32) (s : State) : Res := .next (lqcan s die q v)

/-- A write of LQSTAT clears the bits written as one, but not RFULL (R95). -/
def lqstat (s : State) (die q : Nat) (v : W32) : State :=
  let x := s.queue die q
  s.setQueue die q { x with stat := x.stat &&& ~~~(v &&& 0xD) }

def execLqstatWrite (die q : Nat) (v : W32) (s : State) : Res := .next (lqstat s die q v)

/-- A write of LQCFG by the steward pair (R96): a change of EN from 0 to 1 starts the queue afresh. DESIGN CHOICE: log 68. -/
def execLqcfgWrite (die q : Nat) (v : W32) (s : State) : Res :=
  let x := s.queue die q
  let v := if x.en || s.steward.up then v &&& 0xFFF3FFC7 else v &&& 0xFFF2FFC7
  let on := !x.en && v.getLsbD 16
  .next (s.setQueue die q (if on then
      { x with cfg := v, ack := 0, rseq := 0, rack := 0, stat := 0, slots := [], closing := [], waiting := [] }
    else { x with cfg := v }))

/-- Two bindings name one barrier (R375). -/
def sameBinding (a b : Vector) : Bool :=
  a.named && b.named && bits a.lo.toNat 63 32 == bits b.lo.toNat 63 32 && bits a.lo.toNat 15 8 == bits b.lo.toNat 15 8
    && bits a.lo.toNat 2 1 == bits b.lo.toNat 2 1 && a.hi == b.hi

/-- The clerks write a binding; one that would bring EXT above 63 is refused to them (R376). -/
def writeBinding (s : State) (n : Nat) (v : Vector) : State :=
  if 4096 ≤ n then s
  else if 63 ≤ (s.notify.filter fun e => e.1 != n && sameBinding v e.2).length then s.emit (.report 0x76 n 0)
  else { s with notify := s.notify.put n v }

/-- REGISTER_WRITE (R4, R95, R370, R375): reserved bits stay zero. DESIGN CHOICE: log 61. -/
def execRegisterWrite (r : PlainReg) (v : W64) (s : State) : Res :=
  .next (match r with
    | .lqbase d q => s.setQueue d q { s.queue d q with base := v }
    | .lqrbase d q => s.setQueue d q { s.queue d q with rbase := v }
    | .trcfg c => s.updCtx c fun k => { k with trcfg := v &&& 0x000FFFFFFFFFF003 }
    | .notifyLo n => writeBinding s n { s.notify.lookD n {} with lo := v &&& 0xFFFF0FFF00FFFF07 }
    | .notifyHi n => writeBinding s n { s.notify.lookD n {} with hi := v })

end Sys2Proof.Machine
end

