-- ==== Sys2Proof/Machine/Place.lean ====
section
/-! DEFINITION. What placement puts on cores: partitions (R23, R119), blocks with their threads and allocations (R26, R27, R46, R108,
R110, R111, R140, R224), grids and stage blocks. -/

namespace Sys2Proof.Machine

/-! ### Order of candidates -/

/-- Lexicographic order of keys. -/
def lexLe : List Nat → List Nat → Bool
  | [], _ => true
  | _, [] => false
  | a :: l, b :: m => if a < b then true else if b < a then false else lexLe l m

def insertKey {α : Type} (key : α → List Nat) (a : α) : List α → List α
  | [] => [a]
  | b :: l => if lexLe (key a) (key b) then a :: b :: l else b :: insertKey key a l

/-- Sorts by keys; equal keys keep their order. -/
def sortKey {α : Type} (key : α → List Nat) (l : List α) : List α := l.foldr (insertKey key) []

/-! ### What is taken -/

def blockKernel (s : State) (b : Block) : Option Kernel := (s.codes.look b.code).bind fun c => c.kernel b.kernel

/-- The room left by the resident blocks and groups. -/
def roomOf (s : State) : Room :=
  { cores := s.blocks.foldl (fun m (_, b) =>
      if b.ended then m else match blockKernel s b with
        | some k => m.put b.core ((m.lookD b.core {}).add k.need)
        | none => m) [],
    clusters := s.allocs.foldl (fun m (_, a) => if a.path = 2 then m.put a.unit (m.lookD a.unit 0 + roundUp 4096 a.size) else m) [] }

/-- Die-scratchpad bytes taken on a die, in whole granules, with those reserved for a context that migrates here (R426). -/
def dieUse (s : State) (die : Nat) : Nat :=
  let size (m : AMap Alloc) : Nat := ((m.filter fun e => e.2.path = 3 && e.2.unit = die).map fun e => roundUp 65536 e.2.size).foldl (· + ·) 0
  size s.allocs + (match s.incoming with
    | some m => if m.own.isSome then size m.allocs else 0
    | none => 0)

/-- The die of a partition, and its lowest cluster. -/
def Part2.low (p : Part2) : Nat := p.clusters.foldl min 96
def Part2.die (p : Part2) : Nat := p.low / 24

/-- The context's partitions on the dies of a mask, by die and lowest cluster (R119). -/
def partsOf (s : State) (ctx mask : Nat) : List (Nat × Part2) :=
  sortKey (fun e => [e.2.low]) (s.parts.filter fun e => e.2.ctx == ctx && bit mask e.2.die)

/-- A saved context's store partition lies on the pages of another's, on a cluster that it held (R136). -/
def pagesClash (s : State) (ctx cl : Nat) : Bool :=
  let k := s.ctx ctx
  s.ctxs.any fun (c, x) => c ≠ ctx && (match x.save with
    | some v => v.parts.any fun (_, p) => p.clusters.contains cl
    | none => false) && x.isbase < k.isbase + k.ispages && k.isbase < x.isbase + x.ispages

/-- Clusters that pre-emption has freed for waiting work, until that takes them (R120). DEDUCED: log 30. -/
def isKept (s : State) (cl : Nat) : Bool := s.claims.any fun c => c.kept.contains cl

/-- The clusters of a context that pre-emption has ended go to the work for which it started, if that still claims them (R120). DEDUCED: log 30. -/
def keepClusters (s : State) (work : Option (Nat × Nat)) (cls : List Nat) : State :=
  { s with claims := s.claims.map fun c => if some c.work = work then { c with kept := NSet.addAll c.kept cls } else c }

/-- Clusters of a die that no context holds and that a context may take, in ascending order. -/
def freeClusters (s : State) (ctx die : Nat) : List Nat :=
  ((List.range 24).map (die * 24 + ·)).filter fun cl => !isKept s cl &&
    !(s.parts.any fun (_, p) => p.clusters.contains cl) && !pagesClash s ctx cl

/-- Gives clusters to a context as a partition; a core keeps its governor budget. -/
def assignPart (s : State) (id ctx : Nat) (cls : List Nat) (steward : Bool) : State :=
  let s := { s with parts := s.parts.put id { ctx := ctx, clusters := cls, steward := steward } }
  (cls.flatMap fun cl => (List.range 8).map (cl * 8 + ·)).foldl (fun s c => s.updCore c fun k => { k with owner := some ctx }) s

/-- Wipes a core for its next owner (R417): store pages, APs, queues and tiles are zeroed. -/
def wipeCore (s : State) (c : Nat) : State :=
  let k := s.core c
  s.setCore c { budget := k.budget, budgetNext := k.budgetNext }

/-- Releases a partition. -/
def releasePart (s : State) (id : Nat) : State :=
  match s.parts.look id with
  | none => s
  | some p =>
    let s := { s with parts := s.parts.del id }
    (p.clusters.flatMap fun cl => (List.range 8).map (cl * 8 + ·)).foldl wipeCore s

/-- The entry overlay is available on a core (R140). -/
def entryAvail (s : State) (code : Nat) (k : Kernel) (core : Nat) : Bool :=
  match overlayOf s code k.entovl with
  | none => false
  | some o => isResident s core code o || !homeTaken s core o

/-! ### Blocks and threads -/

/-- A zeroed allocation; one of size 0 is none, and every access to it faults (R224). -/
def newAlloc (s : State) (path unit size : Nat) (mem : Mem) : Option Nat × State :=
  if size = 0 then (none, s)
  else
    let (id, s) := s.newId
    (some id, { s with allocs := s.allocs.put id { path := path, unit := unit, size := size, mem := mem } })

/-- RNGS at thread start (R108). -/
def seedOf (seed grid block tid : Nat) : W32 :=
  let w (n : Nat) : W32 := BitVec.ofNat 32 n
  let s := w seed ^^^ w (grid * 0x9E3779B9) ^^^ w (block * 0x85EBCA6B) ^^^ w (tid * 0xC2B2AE35)
  if s = 0 then 0x6D2B79F5 else s

/-- The PC of a kernel's entry. -/
def entryPc (s : State) (code : Nat) (k : Kernel) : W32 :=
  mkPc ((((overlayOf s code k.entovl).map (·.home)).getD 0) * 4096 + k.entoff) 0

/-- What placement fixes for a block. -/
structure Plan where
  job : Nat
  j : Job
  k : Kernel
  core : Nat
  grid : Option Nat := none
  group : Nat
  stage : Option Nat := none
  blockId : Nat
  gridId : Nat
  nblocks : Nat
  a2 : Option Nat
  a3 : Option Nat
  out : Nat := 0
  pad : Mem := []
  /-- Threads that start live; the rest start Exited (R25, R127). -/
  live : Nat
  items : List (W32 × List W32) := []
  deriving DecidableEq, Repr

/-- What a job's threads on a core observe as they start, of the completion releases in whose instance they lie (R33, R315, R326): accesses that are still
in flight, and routes. -/
def heardOn (s : State) (j : Job) (core : Nat) : List Nat × List Nat :=
  let l := j.heard.filter fun h => h.dies.contains (dieOf core)
  (s.live (l.flatMap (·.ids)), l.flatMap (·.rts))

/-- The threads of a block before they start: registers free, predicates false, KSP 0; a continuation thread has its item's PC and
payload (R37, R42, R51, R111). DESIGN CHOICE: log 63. -/
def newThreads (s : State) (id : Nat) (p : Plan) : AMap Thread :=
  (List.range (cdiv p.k.threads 64 * 64)).foldl (fun (m : AMap Thread) tid =>
    let item := p.items[tid]?
    m.put (uid id tid) {
      obs := NSet.addAll [] (heardOn s p.j p.core).1, obsRoutes := NSet.addAll [] (heardOn s p.j p.core).2, blk := id, tid := tid, st := if tid < min p.live p.k.threads then .notStarted else .exited,
      pc := (item.map (·.1)).getD (entryPc s p.j.code p.k),
      regs := ((item.map fun x => (List.range 6).map fun i => (i, x.2.getD i 0)).getD []),
      rngs := seedOf p.j.r.seed p.gridId p.blockId tid }) s.threads

/-- Places one block (R26, R46, R140, R233, R264). -/
def placeBlock (s : State) (p : Plan) : Nat × State :=
  let (id, s) := s.newId
  let (a1, s) := newAlloc s 1 p.core p.k.padSize p.pad
  let code := (s.codes.look p.j.code).getD { ctx := 0, addr := 0, overlays := [], kernels := [], pipes := [], bindings := [] }
  let b : Block := {
    ctx := p.j.ctx, job := p.job, grid := p.grid, group := p.group, stage := p.stage, core := p.core, blockId := p.blockId,
    gridId := p.gridId, nblocks := p.nblocks, order := id, threads := p.k.threads, kernel := p.k.num, code := p.j.code,
    stack := p.k.stack, data := p.k.csdata, maxlive := p.k.maxlive, q := p.k.shapes, windows := startWindows code p.k.num,
    a1 := a1, a2 := p.a2, a3 := p.a3, entry := entryPc s p.j.code p.k, entryOvl := p.k.entovl, items := p.items, out := p.out }
  let s := { s with blocks := s.blocks.put id b, threads := newThreads s id p }
  let s := match a1 with
    | some a => addPubs s code p.k.num a 0 4
    | none => s
  (id, s)

/-- The entry overlays of placed blocks are loaded where they are not resident, and the threads start where they are (R140). -/
def startEntries (s : State) (code : Nat) (k : Kernel) (cores : List Nat) : State :=
  match overlayOf s code k.entovl with
  | none => s
  | some o => cores.eraseDups.foldl (fun s c =>
      if isResident s c code o then startBlocks s c code k.entovl
      else if isLoading s c code o then s else startLoad s c code o) s

/-- A job's first placed grid or stage block makes it Running, with its Started response (R99, R117). -/
def jobStarted (s : State) (i : Nat) : State :=
  match s.jobs.look i with
  | none => s
  | some j =>
    if j.st = .running then s
    else respond ((s.updCtx j.ctx fun k => { k with killed := false }).updJob i fun j => { j with st := .running }) j.die j.queue j.seq.toNat j.slot .started 0 0

/-- EXT of the barriers of a grid and its blocks from the valid bindings that name them (R330, R376). -/
def startExt (s : State) (gid : Nat) : State :=
  let s := s.notify.foldl (fun s (_, v) =>
    if !v.named then s
    else match namedGroup s v with
      | .group _ key =>
        let mine := (keyLevel key == Level.grid && keyInst key == gid)
          || (keyLevel key == Level.block && ((s.blocks.look (keyInst key)).bind (·.grid)) == some gid)
        if mine then
          let b := s.bars.lookD key {}
          { s with bars := s.bars.put key { b with ext := min 63 (b.ext + 1) } }
        else s
      | _ => s) s
  feedBars s

/-! ### Grids (R119) -/

/-- One cluster-level group of a grid with its blocks. -/
def placeGroup (s : State) (gid job : Nat) (g : Grid) (j : Job) (k : Kernel) (a3 : Option Nat) (n : Nat) (cl : Nat)
    (cores : List Nat) : State :=
  let (grp, s) := s.newId
  let (a2, s) := newAlloc s 2 cl k.cldata []
  let s := { s with groups := s.groups.put grp { grid := some gid, cluster := cl, blocks := [], alloc := a2 } }
  let code := (s.codes.look j.code).getD { ctx := 0, addr := 0, overlays := [], kernels := [], pipes := [], bindings := [] }
  let s := match a2 with
    | some a => addPubs s code k.num a 4 8
    | none => s
  let s := s.updGrid gid fun g => { g with groups := g.groups ++ [grp] }
  (List.range cores.length).foldl (fun s i =>
    let (b, s) := placeBlock s {
      job := job, j := j, k := k, core := cores.getD i 0, grid := some gid, group := grp, blockId := n * k.clblk + i,
      gridId := g.gridId, nblocks := g.nblocks, a2 := a2, a3 := a3, live := k.threads }
    let s := { s with groups := s.groups.upd grp fun x => { x with blocks := x.blocks ++ [b] } }
    s.updGrid gid fun g => { g with blocks := g.blocks ++ [b] }) s

/-- Places a grid whole on the clusters of a partition, or nothing (R119). -/
def placeGridIn (s : State) (gid : Nat) (g : Grid) (j : Job) (k : Kernel) (part : Nat) (cls : List Nat) : Option State :=
  let die := (cls.foldl min 96) / 24
  if diePad < dieUse s die + roundUp 65536 k.diedata then none
  else match fitGroups (entryAvail s j.code k) k cls g.nblocks (roomOf s) with
    | none => none
    | some l =>
      let (a3, s) := newAlloc s 3 die k.diedata (Mem.writeN [] 0 j.rank)
      let code := (s.codes.look j.code).getD { ctx := 0, addr := 0, overlays := [], kernels := [], pipes := [], bindings := [] }
      let s := match a3 with
        | some a => addPubs s code k.num a 8 16
        | none => s
      let s := s.updGrid gid fun g => { g with st := .resident, part := some part, alloc := a3 }
      let s := (List.range l.length).foldl (fun s n =>
        let (cl, cores) := l.getD n (0, [])
        placeGroup s gid g.job g j k a3 n cl cores) s
      let s := jobStarted s g.job
      some (startExt (startEntries s j.code k (l.flatMap (·.2))) gid)

/-! ### Partitions for waiting work (R119) -/

/-- The fewest lowest-numbered free clusters of a die on which a placement succeeds, made a partition. -/
def formPart (s : State) (ctx die : Nat) (try_ : State → Nat → List Nat → Option State) : Option State :=
  let free := freeClusters s ctx die
  firstSome (fun n =>
    let cls := free.take (n + 1)
    let (id, s) := s.newId
    try_ (assignPart s id ctx cls true) id cls) (List.range free.length)

/-- Places work in the first partition of its context that can hold it, or else in one newly formed: the state and the die. -/
def placeSomewhere (s : State) (ctx mask : Nat) (allowed : Nat → Bool) (try_ : State → Nat → List Nat → Option State) :
    Option (Nat × State) :=
  let here := (partsOf s ctx mask).filter fun e => allowed e.2.die
  match firstSome (fun e => (try_ s e.1 e.2.clusters).map fun s => (e.2.die, s)) here with
  | some x => some x
  | none => firstSome (fun d => if bit mask d && allowed d then (formPart s ctx d try_).map fun s => (d, s) else none) (List.range 4)

/-! ### Stage blocks (R110, R122, R127) -/

/-- The resident blocks of a stage. -/
def stageBlocks (s : State) (job i : Nat) : List (Nat × Block) :=
  s.blocks.filter fun e => e.2.job == job && e.2.stage == some i && !e.2.ended

/-- Free room in a stage's queue, less the reservations of resident blocks (R122). -/
def nextRoom (s : State) (job : Nat) (j : Job) (n : Nat) : Nat :=
  match j.stages[n]? with
  | none => 0
  | some nx =>
    let res := ((List.range j.stages.length).map fun i => match j.stages[i]? with
      | some st => if st.next = some n then (stageBlocks s job i).length * st.outmax else 0
      | none => 0).foldl (· + ·) 0
    nx.depth - nx.queue.length - res

/-- Items in hand for a stage's next block: whole bins for a continuation stage. -/
def Stage.input (st : Stage) : Nat := if st.cont then st.closed.length else st.queue.length

/-- The output area of a stage in the pipeline region. DEDUCED: log 28. -/
def outBase (c : Code) (l : List Stage) (i : Nat) : Nat := pipeOut c (l) + ((l.take i).map fun st => match st.next.bind fun n => l[n]? with
  | some nx => nx.depth * nx.itemsz
  | none => 0).foldl (· + ·) 0

/-- Where a stage block's reservation stands: one of its stage's free places, which the spec leaves open. DEDUCED: log 28. -/
def reserveOut (s : State) (job : Nat) (j : Job) (c : Code) (i : Nat) (st : Stage) : Nat :=
  match st.next.bind fun n => j.stages[n]? with
  | none => outBase c j.stages i
  | some nx =>
    let size := st.outmax * nx.itemsz
    let n := if st.outmax = 0 then 1 else nx.depth / st.outmax
    let taken := (stageBlocks s job i).map (·.2.out)
    let free := ((List.range n).map fun k => outBase c j.stages i + k * size).filter fun o => !taken.contains o
    free.getD (Config.reservation job s.fresh % max 1 free.length) (outBase c j.stages i)

/-- An item's entry PC and payload (R111). -/
def itemOf (b : List Byte) : W32 × List W32 :=
  (BitVec.ofNat 32 (recNat b 0 4), (List.range 6).map fun i => BitVec.ofNat 32 (recNat b (4 + 4 * i) 4))

/-- The items of a stage's next block, and the stage without them (R122, R127). -/
def takeItems (st : Stage) : List (List Byte) × Stage :=
  if st.cont then match st.closed with
    | [] => ([], st)
    | b :: l => (b, { st with closed := l })
  else (st.queue.take st.batch, { st with queue := st.queue.drop st.batch })

/-- The first bytes of a stage block's scratchpad (R110). -/
def stagePad (nin out : Nat) (items : List (List Byte)) : Mem :=
  Mem.writeN [] 0 (leBytes 8 nin ++ leBytes 8 out ++ leBytes 16 0 ++ items.flatten)

/-- The job's pipeline region in a partition, made when its first block is placed (R224); it outlives a partition that a drain releases. DEDUCED: log 28. -/
def regionFor (s : State) (job : Nat) (j : Job) (c : Code) (part die : Nat) : Option State :=
  if j.part.isSome then some s
  else if j.region.isSome then some (s.updJob job fun j => { j with part := some part })
  else
    let size := pipeSize c j.stages
    if diePad < dieUse s die + roundUp 65536 size then none
    else
      let (a, s) := newAlloc s 3 die size []
      some (s.updJob job fun j => { j with part := some part, region := a })

/-- The core that admits one more block of a kernel, in a partition (R122). -/
def stageCore (s : State) (code : Nat) (k : Kernel) (cls : List Nat) : Option Nat :=
  match fitGroup (entryAvail s code k) k.need k.cldata 1 (roomOf s) (sortKey (fun c => [c]) cls) with
  | some (_, [c], _) => some c
  | _ => none

/-- Places one block of a stage (R122, R127): its block, grid and count registers are free values, since it belongs to no grid. DESIGN CHOICE: log 29. -/
def placeStageOn (s : State) (job i : Nat) (part core : Nat) : Option State :=
  match s.jobs.look job with
  | none => none
  | some j =>
    let die := dieOf core
    match j.stages[i]?, s.codes.look j.code with
    | some st, some c => match c.kernel st.kernel with
      | none => none
      | some k => (regionFor s job j c part die).map fun s =>
        let j := (s.jobs.look job).getD j
        let out := reserveOut s job j c i st
        let (items, st') := takeItems st
        let s := s.updJob job fun j => { j with stages := j.stages.set i { st' with skips := 0, forced := false } }
        let (f, s) := s.draw
        let (grp, s) := s.newId
        let (a2, s) := newAlloc s 2 (clusterOf core) k.cldata []
        let s := match a2 with
          | some a => addPubs s c k.num a 4 8
          | none => s
        let w := (Config.word f).toNat
        let (b, s) := placeBlock s {
          job := job, j := j, k := k, core := core, group := grp, stage := some i, blockId := w % 2 ^ 32,
          gridId := w / 2 ^ 32, nblocks := (Config.word (f + 1)).toNat % 2 ^ 32, a2 := a2, a3 := j.region, out := out,
          pad := stagePad items.length out (if st.cont then [] else items), live := if st.cont then items.length else k.threads,
          items := if st.cont then items.map itemOf else [] }
        let s := { s with groups := s.groups.put grp { grid := none, cluster := clusterOf core, blocks := [b], alloc := a2 } }
        startEntries (jobStarted s job) j.code k [core]
    | _, _ => none

end Sys2Proof.Machine
end

