-- ==== Sys2Proof/Machine/Context.lean ====
section
/-! DEFINITION. Halted contexts: quiescence and stop records (R400 to R402), the verdict and page service (R403, R404), the watchdog
(R398), pre-emption tiers, save and restore (R405 to R410), kill. -/

namespace Sys2Proof.Machine

/-! ### What a context holds -/

def ctxCores (s : State) (c : Nat) : List Nat := AMap.sel s.cores fun _ k => k.owner == some c
def ctxBlocks (s : State) (c : Nat) : List Nat := AMap.sel s.blocks fun _ b => b.ctx == c
def ctxParts (s : State) (c : Nat) : List Nat := AMap.sel s.parts fun _ p => p.ctx == c

/-- A block that has not ended is resident in the context. -/
def hasBlocks (s : State) (c : Nat) : Bool := s.blocks.any fun (_, b) => b.ctx == c && !b.ended

/-! ### Frames handed out by the clerks (R302, R404) -/

/-- A frame is handed to a key with ZP = 1: what its queue still owes is written first, and its bytes read as zero from then on, whatever was stored
there before. Its counters go on (R297, R301, R302). DEDUCED: log 14. -/
def handFrame (s : State) (f key : Nat) : State :=
  let s := cutRels (drainFrame s f) (.hbm (f * 4096)) 4096
  { s with hbm := s.hbm.filter fun c => c.1 / 4096 != f, frames := s.frames.put f { s.frames.lookD f {} with keyid := key, zp := true, free := false } }

/-- Nobody holds a frame of a run. -/
def runFree (s : State) (f n : Nat) : Bool := s.frames.all fun e => e.2.free || e.1 < f || f + n ≤ e.1

/-- A run of frames of one tier that nobody holds, aligned to its length: which one is a free choice (R294). -/
def newRun (s : State) (tier n key : Nat) : Nat × State :=
  let at_ (i : Nat) : Nat := tier * 2 ^ 27 + (Config.pick s.fresh / n + i) * n % 2 ^ 27
  let f := (((List.range (s.frames.length + 1)).map at_).find? fun f => runFree s f n).getD (at_ 0)
  let s' := (List.range n).foldl (fun s i => handFrame s (f + i) key) s
  (f, { s' with fresh := s.fresh + 1 })

def newFrame (s : State) (key : Nat) : Nat × State := newRun s 0 1 key

/-- Maps a 4 KiB page from a level down: missing tables and the page's frame are handed out (R367, R368). -/
def mapLevel (s : State) (ctx va : Nat) : Nat → Nat → State
  | 0, _ => s
  | lvl + 1, frame =>
    let at_ := frame * 4096 + 8 * bits va (12 + 9 * lvl + 8) (12 + 9 * lvl)
    match hbmRead s at_ 8 with
    | none => s
    | some b =>
      let e := ofLe b
      if bit e 0 then (if bit e 1 then s else mapLevel s ctx va lvl (bits e 51 12))
      else
        let (f, s) := newFrame s (if lvl = 0 then ctx else 0)
        let s := plainWrite (makeRoom s (.hbm at_)) (.hbm at_) (leBytes 8 (f * 4096 + (if lvl = 0 then 0xF else 1)))
        mapLevel s ctx va lvl f

/-- The clerks serve a page: mapped readable and writable, unless they cannot. DESIGN CHOICE: log 40. -/
def mapPage (s : State) (ctx va : Nat) : State :=
  if Config.pageMaps s.fresh then mapLevel { s with fresh := s.fresh + 1 } ctx va 4 (bits (s.ctx ctx).trcfg.toNat 51 12)
  else { s with fresh := s.fresh + 1 }

/-! ### Stop records (R401, R402) -/

def stopBytes (c : Nat) (r : Stop) : List Byte :=
  leBytes 1 r.engine ++ leBytes 1 r.cause ++ leBytes 2 r.unit ++ leBytes 1 r.sub ++ leBytes 1 r.lane ++ leBytes 2 0
    ++ leBytes 4 c ++ leBytes 4 r.fseq ++ leBytes 4 r.pc.toNat ++ leBytes 4 r.tid ++ leBytes 4 r.block ++ leBytes 4 r.grid
    ++ leBytes 8 r.va ++ leBytes 8 r.detail ++ leBytes 8 r.detail2 ++ leBytes 8 r.lcyc

/-- The log line that a record would be copied to is poison, so the copy is dropped (R402). -/
def logPoison (s : State) (c va : Nat) : Bool :=
  match resolve s (.global c) va va true with
  | .ok (.hbm pa) => linePoison s (lineOf pa)
  | _ => false

/-- Writes a record: to shadow storage, to the log when there is one, then FLTCNT (R402). DEDUCED: log 38. -/
def writeStop (s : State) (c : Nat) (r : Stop) : State :=
  let k := s.ctx c
  let r := { r with fseq := k.fltcnt.toNat }
  let lg := bits k.fltlog.toNat 3 0
  let va := bits k.fltlog.toNat 63 12 * 4096 + 64 * (r.fseq % 2 ^ lg)
  let s := if lg = 0 || logPoison s c va then s else ctxStore s c va (stopBytes c r)
  s.updCtx c fun k => { k with records := k.records ++ [r], fltcnt := k.fltcnt + 1 }

/-- A halted engine without a cause of its own. -/
def plainStop (engine unit sub core at_ : Nat) (pc : W32) : Stop :=
  { engine := engine, cause := 0, unit := unit, sub := sub, pc := pc, lcyc := localAt core at_ }

/-- The command that an array was stopped in (R291): one that has done a part, else the oldest. DEDUCED: log 19. -/
def runningCmd (k : CoreRec) : Option MCmd :=
  (k.mcmds.find? fun m => m.kblock ≠ 0 || !m.landed.isEmpty || 1 < m.att).or k.mcmds.head?

/-- The engines of a context that were stopped: cores with live threads, running APs, clusters' copy engines and matrix arrays with
commands. -/
def stoppedEngines (s : State) (c at_ : Nat) : List Stop :=
  let cores := ctxCores s c
  let live (k : Nat) : Bool := s.threads.any fun (u, t) => t.st != .exited && s.thrCore u == k
  let copies := ((s.pend.filter fun e => e.2.ctx == c && e.2.op.onEngine).map fun e => (clusterOf e.2.core, e.2))
  (cores.filter live).map (fun k => plainStop 1 k 0 k at_ 0)
    ++ cores.flatMap (fun k => (List.range 4).filterMap fun n =>
        let a := s.ap k n
        if a.running then some (plainStop 2 k n k at_ a.pc) else none)
    ++ (copies.map (·.1)).eraseDups.filterMap (fun cl => (copies.find? (·.1 == cl)).map fun x =>
        { plainStop 3 cl 0 x.2.core at_ x.2.pc with detail2 := x.2.wrote })
    ++ cores.filterMap fun k => (runningCmd (s.core k)).map fun m =>
        { plainStop 4 k 0 k at_ m.pc with detail := m.detail, detail2 := (s.core k).mcmds.length }

/-- The records of a halt: its first cause and the later ones, unless tier 2 has recorded them, and one of every other engine (R400, R407).
 DEDUCED: log 36. -/
def haltStops (s : State) (c : Nat) (h : Halt) : List Stop :=
  let named := h.cause.stop :: h.later
  (if h.recorded then h.later else named) ++ (stoppedEngines s c h.at_).filter fun r => !named.any fun x => x.engine == r.engine && x.unit == r.unit && x.sub == r.sub

/-! ### Quiescence (R400) -/

/-- An operation that lands or times out while its context is halted. -/
def POp.drains : POp → Bool
  | .ld .. | .shld .. | .atom .. | .rld .. | .rst .. | .sfu .. | .dbell _ | .ovl _ => true
  | _ => false

/-- A global address whose page is not present: an access to it stands until page service maps it, or the kill drops it (R404). -/
def noPage (s : State) (sp : Space) (va : Nat) : Bool :=
  match sp with
  | .global c => match translate s c va with
    | .error 0x35 => true
    | _ => false
  | _ => false

/-- A load in flight that stands on such a page, for page service. -/
def stuckLoad (s : State) (p : Pend) : Bool :=
  (s.ctx p.ctx).fltpol.getLsbD 1 && match p.op with
    | .ld sp _ va _ _ _ => noPage s sp va
    | .shld _ sp _ va _ _ => noPage s sp va
    | _ => false

/-- A store that does. -/
def stuckStore (s : State) (st : Store) : Bool := (s.ctx st.ctx).fltpol.getLsbD 1 && st.acc.isPlain && noPage s st.space st.va

/-- An AP read that cannot land. -/
def stuckEntry (s : State) (e : QEntry) : Bool :=
  e.words.isNone && match s.blocks.look e.blk with
    | some b => match apWords s b e.addrs with
      | .error _ => true
      | .ok _ => false
    | none => false

/-- Loads have landed, stores are accepted, doorbells are sent, AP reads have landed and overlay loads have ended. -/
def drained (s : State) (c : Nat) : Bool :=
  s.pend.all (fun (_, p) => p.ctx != c || !p.op.drains || stuckLoad s p)
    && s.stores.all (fun (_, st) => st.ctx != c || stuckStore s st)
    && s.bells.all (fun (_, b) => b.ctx != c)
    && (ctxCores s c).all fun k => (s.core k).queues.all (fun q => q.all fun e => e.words.isSome || stuckEntry s e)
      && (s.core k).home.all fun (_, h) => match h with
        | .loading .. => false
        | _ => true

/-- Stores that a halted context still owes are accepted, device stores among them (R400). -/
def unholdCtx (s : State) (c : Nat) : State := unhold s (AMap.sel s.stores fun _ st => st.ctx == c && st.held)

def execContextQuiescent (c : Nat) (s : State) : Res :=
  .next (match (s.ctxs.look c).bind (·.halt) with
    | none => s
    | some h =>
      let s := unholdCtx s c
      if h.quiet || !drained s c then s
      else
        let s := (haltStops s c h).foldl (fun s r => writeStop s c r) s
        s.updCtx c fun k => { k with halt := k.halt.map fun h => { h with quiet := true } })

/-! ### Resume and kill (R404) -/

/-- A command goes on after a halt: a copy, fill or chain from its start, and an accumulator movement likewise (R291, R400, R404). -/
def Pend.again (p : Pend) : Pend := { p with landed := [], wrote := 0, raised := 0, failed := false }

def restartCmds (s : State) (c : Nat) : State :=
  { s with
    pend := s.pend.map fun (k, p) => (k, if p.ctx = c then p.again else p),
    cores := s.cores.map fun (k, r) => (k, if r.owner = some c then { r with mcmds := r.mcmds.map fun m => { m with landed := [] } } else r) }

/-- The counts of R398 of a context's threads have paused for some cycles. -/
def pauseFor (s : State) (c d : Nat) : State :=
  { s with threads := s.threads.map fun (u, t) =>
      (u, if s.thrCtx u = c then { t with since := t.since + d, stall := t.stall.map (· + d) } else t) }

/-- The halt line falls: commands restart, waits counted by the watchdog have paused (R398), and arrivals that were held are taken (R376). -/
def resume (s : State) (c : Nat) : State :=
  match (s.ctxs.look c).bind (·.halt) with
  | none => s
  | some h =>
    let s := restartCmds (s.updCtx c fun k => { k with halt := none }) c
    testBars (feedBars (pauseFor s c (s.clock - h.since)))

/-- Removes everything of a context that lives in the module, and releases its partitions (R404, R417). -/
def dropWork (s : State) (c : Nat) : State :=
  let bs := ctxBlocks s c
  let mine (j : Nat) : Bool := ((s.jobs.look j).map (·.ctx)) == some c
  let gs := AMap.sel s.grids fun _ g => mine g.job
  let grps := (s.groups.filter fun e => e.2.blocks.any bs.contains).map (·.1)
  let as := (bs.flatMap fun b => match s.blocks.look b with
      | some b => b.a1.toList ++ b.a2.toList ++ b.a3.toList
      | none => [])
    ++ gs.filterMap (fun g => (s.grids.look g).bind (·.alloc)) ++ (s.jobs.filter fun e => e.2.ctx == c).filterMap fun e => e.2.region
  let s := { s with
    threads := s.threads.filter fun (_, t) => !bs.contains t.blk,
    blocks := s.blocks.filter fun (k, _) => !bs.contains k,
    groups := s.groups.filter fun (k, _) => !grps.contains k,
    grids := s.grids.filter fun (k, _) => !gs.contains k,
    bars := s.bars.filter fun (k, _) => match keyLevel k with
      | .gang => !bs.contains (keyInst k / 64)
      | .block => !bs.contains (keyInst k)
      | .cluster => !grps.contains (keyInst k)
      | .grid => !gs.contains (keyInst k),
    pend := s.pend.filter fun (_, p) => p.ctx != c,
    stores := s.stores.filter fun (_, st) => st.ctx != c,
    bells := s.bells.filter fun (_, b) => b.ctx != c,
    redoStores := s.redoStores.filter (·.ctx != c), redoLoads := s.redoLoads.filter (·.ctx != c) }
  let s := as.foldl (fun s a => freeAlloc s (some a)) s
  (ctxParts s c).foldl releasePart s

/-- The frames that hold a save area which was moved to HBM are given back (R408). -/
def dropSave (s : State) (v : Option Save) : State :=
  match v with
  | none => s
  | some v => { s with frames := v.frames.foldl (fun m f => m.upd f fun x => { x with free := true }) s.frames }

/-- A kill: Killed responses for the Running and Ready jobs, and for the Held children of the grids that it ends; the work is dropped, its
partitions are zeroed and a save is discarded (R99, R115, R404, R407). DESIGN CHOICE: log 39. -/
def killContext (s : State) (c : Nat) : State :=
  let dead := AMap.sel s.jobs fun _ j => j.ctx == c && j.st != .held
  let gs := AMap.sel s.grids fun _ g => dead.contains g.job && g.st != .ended
  let kids := AMap.sel s.jobs fun _ j => j.st == .held
    && ((j.parent.map gs.contains).getD false || (j.parentJob.map dead.contains).getD false)
  let s := dropWork s c
  let s := (dead ++ kids).foldl (fun s i => closeJob s i .killed 0) s
  let s := dropSave s ((s.ctxs.look c).bind (·.save))
  let till := s.clock + Config.zeroCycles s.fresh
  s.draw.2.updCtx c fun k => { k with halt := none, save := none, preempt := none, deferred := none, deferredStops := [], killed := true, zeroing := till }

/-! ### The verdict (R403, R404) -/

/-- A faulting member takes cause 0x07 at the instruction, after the barrier waits that it owes (R394). DEDUCED: log 37. -/
def deliver (s : State) (h : Halt) (u : Nat) : State :=
  let owed := ((s.threads.look u).map (·.owed)).getD []
  takeWaits (s.updThr u fun t => { t with
    st := .ready, stall := none,
    trap := some { cause := 7, code := 0, flags := 0, detail := h.cause.stop.cause, rpc := h.cause.stop.pc } }) u owed

def execFaultVerdict (c : Nat) (s : State) : Res :=
  .next (match (s.ctxs.look c).bind (·.halt) with
    | none => s
    | some h =>
      let k := s.ctx c
      let cause := h.cause.stop.cause
      if !h.quiet || h.serving.isSome || cause = 0x36 then s
      else if cause = 0x35 && k.fltpol.getLsbD 1 && h.cause.service then
        s.updCtx c fun k => { k with halt := some { h with serving := some s.clock } }
      else if h.cause.eligible && k.fltpol.getLsbD 0 && k.traph.getLsbD 31 then
        h.cause.members.foldl (fun s u => deliver s h u) (resume s c)
      else killContext s c)

/-- A tile copy of a thread that has met a fault. -/
def stuckCopy (p : Pend) : Bool :=
  p.failed && match p.op with
    | .copy .. => true
    | _ => false

/-- The instructions of a context some member of which stands on a page that is not present. -/
def stuckIssues (s : State) (c : Nat) : List Nat :=
  ((s.pend.filter fun e => e.2.ctx == c && (stuckLoad s e.2 || stuckCopy e.2)).map (·.2.issue)
    ++ (s.stores.filter fun e => e.2.ctx == c && stuckStore s e.2).map (·.2.issue)).eraseDups

/-- An operation as it was issued: nothing of it has been read or moved. -/
def POp.fromStart : POp → POp
  | .shld q sp path va off _ => .shld q sp path va off []
  | .copy c f _ _ => .copy c f false 0
  | o => o

/-- A load that had landed, or a copy that had completed, is issued again: its flag rises, and the destinations that still hold what landed are owed
once more; a copy holds its ranges. -/
def redoLoad (s : State) (p : Pend) : State :=
  let ws : List W32 := [BitVec.ofNat 32 p.wrote, BitVec.ofNat 32 (p.wrote / 2 ^ 32)]
  let live (q : Part) : List Nat := match s.threads.look q.th with
    | some t => ((q.dst.zip ws).filter fun e => t.regs.look e.1 == some e.2).map (·.1)
    | none => []
  let parts : List Part := p.parts.map fun q => { q with want := live q }
  let p : Pend := { p with parts := parts, after := [], wrote := 0, op := p.op.fromStart }
  let s := p.parts.foldl (fun s q => s.updThr q.th fun t => t.raiseFlag q.flag) s
  let (id, s) := s.newId
  let s := { s with pend := s.pend.put id p }
  match p.op, s.blocks.look p.blk with
  | .copy c _ _ _, some b => (cmdHolds s b [c.qs] [c.qd]).foldl (fun s h => hold s p.core id (some h)) s
  | _, _ => s

/-- The instruction is issued again for every member: what members had performed is performed again (R404). DEDUCED: log 21. -/
def redo (s : State) (c : Nat) (issues : List Nat) : State :=
  let mine (ctx issue : Nat) : Bool := ctx == c && issues.contains issue
  let sts := s.redoStores.filter fun st => mine st.ctx st.issue
  let lds := s.redoLoads.filter fun p => mine p.ctx p.issue
  let s := { s with redoStores := s.redoStores.filter (fun st => !mine st.ctx st.issue), redoLoads := s.redoLoads.filter (fun p => !mine p.ctx p.issue),
                    pend := s.pend.map fun e => (e.1, if mine e.2.ctx e.2.issue then { e.2 with op := e.2.op.fromStart } else e.2) }
  let s := sts.foldl (fun s st => (issueStore s { st with after := [], pfx := [], rts := [], fpfx := [] }).2) s
  lds.foldl redoLoad s

/-- PAGE_SERVICE_COMPLETE: within 2^24 cycles the clerks map the page, and the context resumes once it is mapped. -/
def execPageServiceComplete (c : Nat) (s : State) : Res :=
  .next (match (s.ctxs.look c).bind (·.halt) with
    | none => s
    | some h =>
      if (h.serving.map fun t => t + 2 ^ 24).getD 0 ≤ s.clock then s
      else
        let va := h.cause.stop.va
        let ok (s : State) : Bool := match walk s c va with
          | .ok _ => true
          | .error _ => false
        let issues := stuckIssues s c
        let s := if ok s then s else mapPage s c va
        if ok s then redo (resume s c) c issues else s)

/-- PAGE_SERVICE_TIMEOUT: after 2^24 cycles the steward kills. -/
def execPageServiceTimeout (c : Nat) (s : State) : Res :=
  .next (match ((s.ctxs.look c).bind (·.halt)).bind (·.serving) with
    | none => s
    | some at_ => if at_ + 2 ^ 24 ≤ s.clock then killContext s c else s)

/-! ### The watchdog (R398) -/

/-- The wait that the watchdog counts, by the code of R401, and since when. -/
def waitOf (t : Thread) : Option (Nat × Nat) :=
  match t.st with
  | .flagWait | .exiting => some (1, t.since)
  | .barWait _ _ => some (2, t.since)
  | .sleeping _ => some (3, t.since)
  | .gangWait => some (4, t.since)
  | .issuing => t.stall.map fun x => (5, x)
  | _ => none

/-- A thread's wait has reached its limit. A wait at a barrier whose phase has completed is met (R333, R412). -/
def watchdogDue (s : State) (u : Nat) (t : Thread) : Bool :=
  let c := s.thrCtx u
  let met : Bool := match t.st with
    | .barWait l n => phaseDone s u l n
    | _ => false
  !s.stopped c && !met && match waitOf t with
    | none => false
    | some (_, x) => x + 2 ^ ((s.ctx c).wdog.toNat % 64) ≤ s.clock

def execWatchdogExpiry (u : Nat) (s : State) : Res :=
  .next (match s.threads.look u with
    | none => s
    | some t => match waitOf t with
      | none => s
      | some (w, _) => if watchdogDue s u t then faultThread s u 0x2C 0 w [] false false else s)

/-! ### Pre-emption and saving (R405 to R409) -/

/-- The tier-1 deadline for the priority of the waiting work. -/
def deadline1 (prio : Nat) : Nat :=
  match prio with
  | 7 => 24000
  | 6 => 120000
  | 5 => 480000
  | 4 => 2400000
  | 3 => 12000000
  | _ => 24000000

/-- Tier 2: the halt line rises and issue stops at instruction boundaries. The pause of a halt that stood before is counted up to here (R398). -/
def startTier2 (s : State) (c : Nat) : State :=
  let p := (s.ctx c).preempt
  let d := (((s.ctx c).halt.map (·.since)).map (s.clock - ·)).getD 0
  let s := (pauseFor s c d).updCtx c fun k => { k with
    preempt := some { tier := 2, prio := (p.map (·.prio)).getD 0, at_ := s.clock, work := p.bind (·.work) },
    halt := k.halt.map fun h => { h with since := s.clock } }
  unholdCtx ((ctxCores s c).foldl dissolve s) c

def execPreemptionTier2 (c : Nat) (s : State) : Res :=
  .next (match (s.ctxs.look c).bind (·.preempt) with
    | none => s
    | some p => if p.tier = 1 && p.at_ + deadline1 p.prio ≤ s.clock then startTier2 s c else s)

/-- A QPOP that may be saved pending: its queue is Open and empty (R248). -/
def qpopPending (s : State) (p : Pend) : Bool :=
  match p.op with
  | .qpop q => (s.dq p.core q).isEmpty && queueOpen s p.core q
  | _ => false

/-- A context's operations in flight that a fault keeps from completing before it resumes: a command that met it, a load on a page that is not present,
and a command that stands behind one of a list on its tile or its publish buffer. -/
def heldUp (s : State) (c : Nat) (l : List Nat) : List Nat :=
  let waitsOn (p : Pend) : Bool := match p.op with
    | .publ _ before _ _ _ => before.any l.contains
    | .matrix id => match (s.core p.core).mcmds.find? (·.id == id) with
      | none => false
      | some m => (s.core p.core).mcmds.any fun o => o.acc == m.acc && o.id < m.id && (o.pend.map l.contains).getD false
    | _ => false
  AMap.sel s.pend fun _ p => p.ctx == c && (waitsOn p || p.failed || stuckLoad s p)

/-- All of them. -/
def faulted (s : State) (c : Nat) : Nat → List Nat → List Nat
  | 0, l => l
  | n + 1, l =>
    let l' := heldUp s c l
    if l'.length = l.length then l else faulted s c n l'

/-- Every accepted operation of a context has completed: every load has landed, every store is accepted, every doorbell sent and every fence complete;
but for QPOPs that wait and, after a fault, the access that stands on a page and the commands that the fault stopped, which the restore classifies (R53,
R290, R327, R406, R407). -/
def saveReady (s : State) (c : Nat) : Bool :=
  let k := s.ctx c
  let bad := k.deferred.isSome || (k.halt.any fun h => h.cause.stop.cause ≠ 0x36)
  let stuck := if bad then faulted s c s.pend.length [] else []
  s.pend.all (fun (i, p) => p.ctx != c || qpopPending s p || stuck.contains i)
    && s.stores.all (fun (_, st) => st.ctx != c || (bad && stuckStore s st)) && s.bells.all (fun (_, b) => b.ctx != c)
    && (ctxCores s c).all (fun k => (s.core k).mcmds.all (fun m => (m.pend.map stuck.contains).getD false)
      && (s.core k).queues.all (fun q => q.all fun e => e.words.isSome || (bad && stuckEntry s e))
      && (s.core k).home.all fun (_, h) => match h with
        | .loading .. => false
        | _ => true)
    && s.threads.all fun (u, t) => s.thrCtx u != c || (t.st != .issuing && t.fences.isEmpty
      && (t.st != .trapWait || (bad && !owesSfu s u && pushWaits s u)))

/-! ### The save area (R408, R409, R414) -/

/-- The STATE code of a thread record. -/
def TState.code : TState → Nat
  | .flagWait | .exiting => 1
  | .barWait _ _ => 2
  | .sleeping _ => 3
  | .gangWait => 4
  | .exited => 5
  | _ => 0

/-- The 128-byte record of a thread (R409). -/
def threadRecord (t : Thread) : List Byte :=
  let waitb : Nat := match t.st with
    | .barWait l n => l.code + 4 * n
    | _ => 0
  leBytes 4 t.pc.toNat ++ leBytes 4 t.ksp.toNat ++ leBytes 4 t.rngs.toNat ++ leBytes 1 t.st.code
    ++ leBytes 1 (t.ss.toNat + 2 * t.preds.toNat) ++ leBytes 2 waitb
    ++ leBytes 16 ((List.range 128).foldl (fun a n => if t.regs.has n then a + 2 ^ n else a) 0)
    ++ (List.range 32).flatMap fun i => match t.last.look i with
      | some p => leBytes 3 (p.toNat + 2 ^ 16)
      | none => leBytes 3 0

/-- The resident blocks of a context on a core. -/
def coreBlocks (s : State) (c core : Nat) : List Nat := AMap.sel s.blocks fun _ b => b.ctx == c && b.core == core && !b.ended

/-- The threads of those blocks, in the order of their records. -/
def recordThreads (s : State) (c core : Nat) : List Thread :=
  let bs := coreBlocks s c core
  (s.threads.filter fun e => bs.contains e.2.blk).map (·.2)

/-- The live registers of a core, in thread order and ascending register number (R408, R409). -/
def liveRegion (s : State) (c core : Nat) : List Byte :=
  (recordThreads s c core).flatMap fun t => (List.range 128).flatMap fun n => ((t.regs.look n).map fun w => leBytes 4 w.toNat).getD []

/-- The regions of a core block that are used, by their offset and size (R408, R414). -/
def coreRegions (s : State) (c core : Nat) : List (Nat × Nat) :=
  let k := s.core core
  let bs := coreBlocks s c core
  let ts := recordThreads s c core
  let pad (b : Nat) : Nat := ((((s.blocks.look b).bind (·.a1)).bind s.allocs.look).map (·.size)).getD 0
  let pages := k.home.filter fun e => match e.2 with
    | .resident .. => true
    | _ => false
  ([(0, 4096), (0x1000, 2048 * bs.length), (0x21000, 128 * ts.length)]
    ++ (if k.apUsed then [(0xA1000, 4096), (0xA2000, 131072)] else [])
    ++ k.tiles.map (fun x => (0xC2000 + 16384 * x, 16384))
    ++ [(0x142000, (bs.map pad).foldl (· + ·) 0), (0x242000, 4096 * pages.length),
        (0x282000, 4 * (ts.map fun (t : Thread) => t.regs.length).foldl (· + ·) 0)]).filter fun r => r.2 != 0

/-- The bytes that a core moves at a save. -/
def coreSaveBytes (s : State) (c core : Nat) : Nat := ((coreRegions s c core).map (·.2)).foldl (· + ·) 0

/-- The bytes of a context's save area in a die's shadow storage (R408, R414). DESIGN CHOICE: log 39. -/
def saveBytes (s : State) (c die : Nat) : Nat :=
  let cores := (ctxCores s c).filter fun k => dieOf k == die
  let here (b : Nat) : Bool := (s.blocks.look b).any fun x => x.ctx == c && !x.ended && dieOf x.core == die
  let grps := (s.groups.filter fun e => e.2.blocks.any here).map (·.2)
  let recs := (grps.map (·.cluster)).eraseDups.length
  let pads := (grps.map fun g => ((g.alloc.bind s.allocs.look).map (·.size)).getD 0).foldl (· + ·) 0
  let grid := s.blocks.any fun (k, b) => here k && b.grid.isSome
  (cores.map (coreSaveBytes s c)).foldl (· + ·) 0 + 4096 * recs + pads + (if grid then 4096 else 0)

/-- Shadow storage that save areas take on a die, with what is reserved for a context that migrates here (R426). -/
def shadowUsed (s : State) (die : Nat) : Nat :=
  (s.ctxs.map fun e => match e.2.save with
    | some v => if v.frames.isEmpty then v.bytes.lookD die 0 else 0
    | none => 0).foldl (· + ·) 0
  + (match s.incoming with
    | some m => if m.own.isSome then ((m.context.save.map fun v => v.bytes.lookD die 0).getD 0) else 0
    | none => 0)

/-- A save area fits beside those that stand. -/
def shadowFits (s : State) (need : AMap Nat) : Bool :=
  need.all fun e => shadowUsed s e.1 + e.2 ≤ Config.shadowBytes

/-- Hands out frames of KEYID 0. -/
def stewardFrames (s : State) : Nat → List Nat × State
  | 0 => ([], s)
  | n + 1 =>
    let (f, s) := newFrame s 0
    let (l, s) := stewardFrames s n
    (f :: l, s)

/-- Moves older save areas to HBM frames of KEYID 0, the oldest first, until a new one fits (R408). DESIGN CHOICE: log 39. -/
def makeShadowRoom (s : State) (need : AMap Nat) : State :=
  let old := s.ctxs.filterMap fun e => e.2.save.bind fun v => if v.frames.isEmpty then some (e.1, v) else none
  (sortKey (fun e => [e.2.at_]) old).foldl (fun s e =>
    if shadowFits s need then s
    else
      let n := cdiv ((e.2.bytes.map (·.2)).foldl (· + ·) 0) 4096
      let (l, s) := stewardFrames s n
      s.updCtx e.1 fun k => { k with save := k.save.map fun v => { v with frames := l } }) s

/-- Where a saved core's, cluster's work stands while it is saved. DESIGN CHOICE: log 39. -/
def savedCore : Nat := 1024
def savedCluster : Nat := 128

/-- Moves a context's work between cores and clusters. -/
def moveWork (s : State) (c : Nat) (core cluster : Nat → Nat) : State :=
  let bs := ctxBlocks s c
  let grps := (s.groups.filter fun e => e.2.blocks.any bs.contains).map (·.1)
  let as1 := bs.filterMap fun b => (s.blocks.look b).bind (·.a1)
  let as2 := grps.filterMap fun g => (s.groups.look g).bind (·.alloc)
  { s with
    blocks := s.blocks.map fun (k, b) => if b.ctx = c then (k, { b with core := core b.core }) else (k, b),
    groups := s.groups.map fun (k, g) => if grps.contains k then (k, { g with cluster := cluster g.cluster }) else (k, g),
    allocs := s.allocs.map fun (k, a) =>
      if as1.contains k then (k, { a with unit := core a.unit }) else if as2.contains k then (k, { a with unit := cluster a.unit }) else (k, a),
    pend := s.pend.map fun (k, p) => if p.ctx = c then (k, { p with core := core p.core }) else (k, p),
    stores := s.stores.map fun (k, st) => if st.ctx = c then (k, { st with core := core st.core }) else (k, st),
    bells := s.bells.map fun (k, b) => if b.ctx = c then (k, { b with core := core b.core }) else (k, b) }

/-- A CTXSAVE that waits for a context's save lands with a status (R411). -/
def landSaves (s : State) (c st : Nat) : State :=
  (AMap.sel s.pend fun _ p => match p.op with
    | .ctxsave x => x == c
    | _ => false).foldl (fun s id => landAll s id [BitVec.ofNat 32 st]) s

/-- What a save keeps of a core: its regions that are used (R414); the rest is zero. -/
def savedRec (k : CoreRec) : CoreRec :=
  { k with
    gather := none, kept := none, acc := k.acc.filter fun e => k.tiles.contains (e.1 / 4096),
    aps := if k.apUsed then k.aps else List.replicate 4 {}, queues := if k.apUsed then k.queues else List.replicate 8 [] }

/-- Faults that tier 2 met are recorded (R402, R407). -/
def recordDeferred (s : State) (c : Nat) : State := ((s.ctx c).deferredStops).foldl (fun s r => writeStop s c r) s

/-- Stores a context's save area and releases its partitions (R406, R408). -/
def saveContext (s : State) (c : Nat) : State :=
  let cores := ctxCores s c
  let dies := (cores.map dieOf).eraseDups
  let need : AMap Nat := dies.foldl (fun m d => m.put d (saveBytes s c d)) []
  let s := recordDeferred (makeShadowRoom s need) c
  let bs := ctxBlocks s c
  let recs : AMap (List Byte) := (s.threads.filter fun e => bs.contains e.2.blk).map fun e => (e.1, threadRecord e.2)
  let regions : AMap (List (Nat × Nat)) := cores.foldl (fun m k => m.put k (coreRegions s c k)) []
  let live : AMap (List Byte) := cores.foldl (fun m k => m.put k (liveRegion s c k)) []
  let area := cores.foldl (fun (m : AMap CoreRec) k => m.put (savedCore + k) (savedRec (s.core k))) []
  let parts := s.parts.filter fun e => e.2.ctx == c
  let s := moveWork s c (savedCore + ·) (savedCluster + ·)
  let s := keepClusters ((parts.map (·.1)).foldl releasePart s) ((s.ctx c).preempt.bind (·.work)) (parts.flatMap (·.2.clusters))
  s.updCtx c fun k => { k with
    save := some { cores := area, since := (k.preempt.map (·.at_)).getD s.clock, at_ := s.clock, bytes := need, threads := recs, regions := regions, live := live, parts := parts }, preempt := none, deferredStops := [] }

/-- The tier-2 deadline (R406). -/
def deadline2 (k : Context) : Nat := 2 * 2 ^ bits k.fabcfg.toNat 4 0 + 48000

/-- CONTEXT_SAVE_COMPLETE: a save that has not completed by its deadline is replaced by tier 3 (R407, R415). -/
def execContextSaveComplete (c : Nat) (s : State) : Res :=
  .next (match (s.ctx c).preempt with
    | none => s
    | some p =>
      if p.tier = 2 && s.clock < p.at_ + deadline2 (s.ctx c) && saveReady s c then landSaves (saveContext s c) c 0 else s)

/-- PREEMPTION_TIER3_RESET (R407, R419, R425). -/
def execPreemptionTier3Reset (c : Nat) (s : State) : Res :=
  .next (match (s.ctxs.look c).bind (·.preempt) with
    | none => s
    | some p =>
      if p.tier = 2 && p.at_ + deadline2 (s.ctx c) ≤ s.clock then
        let unit := ((ctxCores s c).head?).getD 0
        let s := recordDeferred s c
        let s := writeStop s c { engine := 1, cause := 0x37, unit := unit, lcyc := s.lcyc unit }
        let freed := (s.parts.filter fun e => e.2.ctx == c).flatMap (·.2.clusters)
        let s := keepClusters (killContext s c) p.work freed
        let s := s.updCtx c fun k => { k with resets := raiseCounter k.resets 1, sat := k.sat || k.resets = counterMax, forced := true }
        landSaves s c 3
      else s)

/-! ### Restore (R410) -/

/-- The new clusters of a cluster map, of partition, old clusters and new clusters. -/
def mappedClusters (m : List (Nat × List Nat × List Nat)) : List Nat := m.flatMap (·.2.2)

/-- For each saved partition, as many free clusters of its die. -/
def restoreParts (s : State) (c : Nat) : List (Nat × Part2) → List Nat → Option (List (Nat × List Nat × List Nat))
  | [], _ => some []
  | (id, p) :: l, used =>
    let free := (freeClusters s c p.die).filter fun cl => !used.contains cl
    let n := p.clusters.length
    if free.length < n then none
    else (restoreParts s c l (used ++ free.take n)).map fun r => (id, sortKey (fun x => [x]) p.clusters, free.take n) :: r

/-- The new place of an old core or cluster. -/
def newCluster (m : List (Nat × List Nat × List Nat)) (cl : Nat) : Nat :=
  (firstSome (fun (_, old, new) => match old.findIdx? (· == cl) with
    | some i => new[i]?
    | none => none) m).getD cl
def newCore (m : List (Nat × List Nat × List Nat)) (k : Nat) : Nat := newCluster m (k / 8) * 8 + k % 8

/-- A saved context may be restored here: its key is installed (R307), and no migration holds it (R426). DEDUCED: log 52. -/
def mayRestore (s : State) (c : Nat) : Bool := s.keys.has c && !s.migrations.has c

/-- Restores a saved context: its waits go on, with the counts of R398 paused since its halt line rose, and a fault that was deferred halts it (R407, R409, R410). -/
def restore (s : State) (c : Nat) : Option State :=
  let k := s.ctx c
  match k.save with
  | none => none
  | some v => (restoreParts s c v.parts []).map fun m =>
    let s := m.foldl (fun s (id, _, new) =>
      assignPart s id c new (((v.parts.find? (·.1 == id)).map (·.2.steward)).getD true)) s
    let s := v.cores.foldl (fun s (k, r) =>
      let n := newCore m (k - savedCore)
      let here := s.core n
      s.setCore n { r with owner := some c, budget := here.budget, budgetNext := here.budgetNext }) s
    let s := moveWork s c (fun k => newCore m (k - savedCore)) (fun cl => newCluster m (cl - savedCluster))
    let d := s.clock - v.since
    let s := pauseFor (s.updCtx c fun k => { k with save := none, deferred := none, halt := k.halt.map fun h => { h with since := s.clock } }) c d
    let s := (AMap.sel s.threads fun _ t => ((s.blocks.look t.blk).map (·.ctx)) == some c).foldl (fun s u =>
      match s.threads.look u with
      | none => s
      | some t => match t.st with
        | .ready | .flagWait | .gangWait => (becomeReady s u).updThr u fun x => if x.st = t.st then { x with since := t.since } else x
        | _ => s) s
    let s := testBars (feedBars (dropSave s (some v)))
    match k.deferred with
    | some x => s.updCtx c fun k => { k with halt := some { cause := x, at_ := s.clock, recorded := true } }
    | none => s

end Sys2Proof.Machine
end

