-- ==== Sys2Proof/Machine/Pass.lean ====
section
/-! DEFINITION. Placement passes (R116 to R120), the stage scheduler (R121 to R125), continuation binning (R126 to R128), the governor's
window (R124), and the retirement of grids and jobs (R105, R107, R416). -/

namespace Sys2Proof.Machine

/-! ### Waiting work (R118, R410) -/

/-- A Waiting grid, or a saved context to restore. -/
inductive Work where
  | grid (id : Nat)
  | saved (ctx : Nat)
  deriving DecidableEq, Repr

/-- Waiting work with what its place in a pass depends on. -/
structure WItem where
  work : Work
  ctx : Nat
  prio : Nat
  mask : Nat
  blocking : Option Nat
  key : List Nat
  deriving DecidableEq, Repr

def jobPrio (s : State) (j : Job) : Nat := (s.queue j.die j.queue).prio

/-- A context whose work placement considers: its key is installed and nothing holds it (R307, R405). -/
def placeable (s : State) (c : Nat) : Bool :=
  s.keys.has c && !s.stopped c && ((s.ctx c).preempt.isNone) && !(s.ctx c).ended

/-- A saved context that may be restored: its key is installed (R307). -/
def placeKey (s : State) (c : Nat) : Bool := mayRestore s c && !(s.ctx c).ended

/-- Blocking work first by the time it became blocking, then by PRIO, acceptance and GRIDID (R118). -/
def workKey (blocking : Option Nat) (prio accepted grid : Nat) : List Nat :=
  match blocking with
  | some t => [0, t, 0, 0]
  | none => [1, 7 - prio, accepted, grid]

/-- The highest-priority Running job of a context, and its acceptance order. -/
def topJob (s : State) (c : Nat) : Nat × Nat :=
  let l := sortKey (fun (x : Nat × Nat) => [7 - x.1, x.2])
    ((s.jobs.filter fun e => e.2.ctx == c && e.2.st == .running).map fun e => (jobPrio s e.2, e.2.accepted))
  l.head?.getD (0, 0)

/-- Every Waiting grid and saved context, whatever its die. -/
def allWork (s : State) : List (Nat × WItem) :=
  (s.grids.filterMap fun (id, g) => match s.jobs.look g.job with
    | none => none
    | some j => if g.st = .waiting && placeable s j.ctx then
        let p := jobPrio s j
        some (j.die, { work := .grid id, ctx := j.ctx, prio := p, mask := j.r.diemask, blocking := g.blocking,
                       key := workKey g.blocking p j.accepted g.gridId })
      else none)
  ++ s.ctxs.filterMap fun (c, k) => match k.save with
    | none => none
    | some v => if placeKey s c then
        let (p, a) := topJob s c
        let die := ((v.parts.map fun e => e.2.die).foldl min 3)
        some (die, { work := .saved c, ctx := c, prio := p,
                     mask := (v.parts.map fun e => e.2.die).eraseDups.foldl (fun m d => m + 2 ^ d) 0,
                     blocking := v.blocking, key := workKey v.blocking p a 0 })
      else none

/-- The work that a pass of a die considers, in order. DEDUCED: log 30. -/
def workOf (s : State) (die : Nat) : List WItem :=
  sortKey (·.key) (((allWork s).filter fun e => e.1 == die).map (·.2))

/-- Blocking work forbids a placement of equal or lower priority in its context on a die of its mask; of two pieces of blocking work of one
priority the earlier goes first (R118). DEDUCED: log 30. -/
def forbidden (s : State) (ctx prio die : Nat) (own : Option Nat) (self : Option Work) : Bool :=
  (allWork s).any fun (_, w) => match w.blocking with
    | none => false
    | some t => some w.work ≠ self && w.ctx == ctx && bit w.mask die && (prio < w.prio || (prio == w.prio && match own with
        | some o => decide (t < o)
        | none => true))

/-- Places one piece of work: the dies on which it now stands, and the state. -/
def placeWork (s : State) (w : WItem) : Option (List Nat × State) :=
  match w.work with
  | .saved c => (restore s c).map fun s => ((List.range 4).filter (bit w.mask), s)
  | .grid id => match s.grids.look id with
    | none => none
    | some g => match s.jobs.look g.job with
      | none => none
      | some j => match (s.codes.look j.code).bind fun c => c.kernel j.r.entry with
        | none => none
        | some k =>
          (placeSomewhere s j.ctx w.mask (fun d => !forbidden s j.ctx w.prio d w.blocking (some w.work))
            fun s part cls => placeGridIn s id g j k part cls).map fun x => ([x.1], x.2)

/-- One more bypass; at 16 the work becomes blocking (R118). -/
def bypass (s : State) (w : WItem) : State :=
  let (t, s) := s.newId
  match w.work with
  | .grid id => s.updGrid id fun g => { g with
      bypass := g.bypass + 1, blocking := if g.blocking.isNone && 16 ≤ g.bypass + 1 then some t else g.blocking }
  | .saved c => s.updCtx c fun k => { k with save := k.save.map fun v => { v with
      bypass := v.bypass + 1, blocking := if v.blocking.isNone && 16 ≤ v.bypass + 1 then some t else v.blocking } }

/-- After a placement on the pass's die, the work passed over before it with at least its priority counts a bypass. -/
def bumpPassed (s : State) (past : List WItem) (prio : Nat) : State × List WItem :=
  ((past.filter fun w => prio ≤ w.prio).foldl bypass s, past.filter fun w => w.prio < prio)

/-! ### Pre-emption, tier 1 (R120, R405) -/

/-- Work fits clusters that are taken to be idle. -/
def fitsClusters (s : State) (w : Work) (die : Nat) (cls : List Nat) : Bool :=
  match w with
  | .saved c => match (s.ctx c).save with
    | none => false
    | some v =>
      let need (d : Nat) : Nat := ((v.parts.filter fun e => e.2.die == d).map fun e => e.2.clusters.length).foldl (· + ·) 0
      (List.range 4).all fun d => need d ≤ if d = die then cls.length else (freeClusters s c d).length
  | .grid id => match (s.grids.look id).bind fun g => (s.jobs.look g.job).map fun j => (g, j) with
    | none => false
    | some (g, j) => match (s.codes.look j.code).bind fun c => c.kernel j.r.entry with
      | none => false
      | some k => dieUse s die + roundUp 65536 k.diedata ≤ diePad
        && (fitGroups (fun _ => true) k cls g.nblocks {}).isSome

/-- The contexts that qualify, in the order in which they are taken. -/
def qualifying (s : State) (ctx prio mask die : Nat) : List Nat :=
  let ok := s.ctxs.filter fun (c, _) => c ≠ ctx && (s.jobs.all fun (_, j) => j.ctx != c || j.st != .running || jobPrio s j + 2 ≤ prio)
    && !(partsOf s c mask).isEmpty
  (sortKey (fun (c : Nat) => [(topJob s c).1, ((partsOf s c (2 ^ die)).map fun e => e.2.clusters.length).foldl (· + ·) 0, c]) (ok.map (·.1)))

/-- The clusters of contexts on a die, with the free ones. -/
def clustersOf (s : State) (ctx die : Nat) (cs : List Nat) : List Nat :=
  sortKey (fun c => [c]) (freeClusters s ctx die ++ cs.flatMap fun c => (partsOf s c (2 ^ die)).flatMap fun e => e.2.clusters)

/-- The work of a claim. -/
def Work.claim : Work → Nat × Nat
  | .grid id => (0, id)
  | .saved c => (1, c)

/-- The state as waiting work finds it: the clusters that pre-emption has freed for it are free. -/
def ownClaim (s : State) (work : Nat × Nat) : State :=
  { s with claims := s.claims.map fun c => if c.work = work then { c with kept := [] } else c }

/-- Tier 1 starts for the fewest contexts, in order, whose clusters make room on the first die that can have it. -/
def preemptFor (s : State) (ctx prio mask : Nat) (work : Nat × Nat) (fits : State → Nat → List Nat → Bool) : State :=
  if prio < 2 then s
  else
    let v := ownClaim s work
    let plan := firstSome (fun d =>
      if !bit mask d then none
      else
        let q := (qualifying s ctx prio mask d).filter fun c => !(partsOf s c (2 ^ d)).isEmpty
        firstSome (fun n => if fits v d (clustersOf v ctx d (q.take n)) then some (q.take n) else none) (List.range (q.length + 1)))
      (List.range 4)
    let s := if (plan.getD []).isEmpty || s.claims.any (·.work == work) then s else { s with claims := s.claims ++ [{ work := work }] }
    (plan.getD []).foldl (fun s c => s.updCtx c fun k =>
      { k with preempt := if k.preempt.isSome then k.preempt else some { tier := 1, prio := prio, at_ := s.clock, work := some work } }) s

/-- The partitions of a context go, and its pipelines hold none (R122). -/
def releaseParts (s : State) (c : Nat) : State :=
  let s := (ctxParts s c).foldl releasePart s
  { s with jobs := s.jobs.map fun (i, j) => (i, if j.ctx = c then { j with part := none } else j) }

/-- A drained context's partitions are released with nothing saved (R405). -/
def endDrains (s : State) : State :=
  s.ctxs.keys.foldl (fun s c =>
    if ((s.ctx c).preempt.map (·.tier)) = some 1 && !hasBlocks s c then
      let freed := (s.parts.filter fun e => e.2.ctx == c).flatMap (·.2.clusters)
      (keepClusters (releaseParts s c) ((s.ctx c).preempt.bind (·.work)) freed).updCtx c fun k => { k with preempt := none }
    else s) s

/-! ### Grids of a pass -/

/-- Considers waiting work in order; what is passed over may be bypassed by later placements. -/
def placeGrids (die : Nat) : List WItem → State × List WItem → State × List WItem
  | [], r => r
  | w :: ws, (s, past) =>
    match placeWork s w with
    | some (ds, s) => placeGrids die ws (if ds.contains die then bumpPassed s past w.prio else (s, past))
    | none =>
      let held := (List.range 4).all fun d => !bit w.mask d || forbidden s w.ctx w.prio d w.blocking (some w.work)
      let s := if held then s else preemptFor s w.ctx w.prio w.mask w.work.claim fun s d cls => fitsClusters s w.work d cls
      placeGrids die ws (s, past ++ [w])

/-! ### The stage scheduler (R122 to R125) -/

/-- Where a stage's next block would stand: the state with a partition formed if need be, the partition and the core. -/
def stageTarget (s : State) (j : Job) (i : Nat) : Option (State × Nat × Nat) :=
  match (s.codes.look j.code).bind fun c => (j.stages[i]?).bind fun st => (c.kernel st.kernel).map fun k => (c, k) with
  | none => none
  | some (c, k) =>
    let prio := jobPrio s j
    let room (s : State) (d : Nat) : Bool := match j.region.bind s.allocs.look with
      | some a => a.unit == d
      | none => j.part.isSome || dieUse s d + roundUp 65536 (pipeSize c j.stages) ≤ diePad
    let ok (d : Nat) : Bool := !forbidden s j.ctx prio d none none
    let here := (partsOf s j.ctx j.r.diemask).filter fun e => (j.part.map (· == e.1)).getD true && ok e.2.die && room s e.2.die
    match firstSome (fun e => (stageCore s j.code k e.2.clusters).map fun n => (s, e.1, n)) here with
    | some x => some x
    | none =>
      if j.part.isSome then none
      else firstSome (fun d =>
        if !bit j.r.diemask d || !ok d || !room s d then none
        else
          let free := freeClusters s j.ctx d
          firstSome (fun n =>
            let (id, s) := s.newId
            let s := assignPart s id j.ctx (free.take (n + 1)) true
            (stageCore s j.code k (free.take (n + 1))).map fun core => (s, id, core)) (List.range free.length)) (List.range 4)

/-- A stage has its batch, or is dry-fed with something left, and its output has room (R122). -/
def stageDue (elig : Nat → Bool) (s : State) (job : Nat) (j : Job) (i : Nat) : Bool :=
  match j.stages[i]? with
  | none => false
  | some st =>
    let dry := (List.range i).all (fun f => ((j.stages[f]?).bind (·.next)) != some i || ((stageBlocks s job f).isEmpty && !elig f))
      && (i ≠ 0 || j.fed = j.r.nitems)
    let batch := if st.cont then 1 else st.batch
    (batch ≤ st.input || (0 < st.input && dry))
      && (match st.next with
          | none => true
          | some n => st.outmax ≤ nextRoom s job j n)

/-- A stage is eligible (R122), by recursion over the stages that feed it, which all stand before it. -/
def eligible (s : State) (job : Nat) (j : Job) : Nat → Nat → Bool
  | 0, _ => false
  | fuel + 1, i => stageDue (eligible s job j fuel) s job j i && (stageTarget s j i).isSome

/-- A stage is dry-fed (R122). -/
def dryFed (s : State) (job : Nat) (j : Job) (i : Nat) : Bool :=
  (List.range i).all (fun f => ((j.stages[f]?).bind (·.next)) != some i || ((stageBlocks s job f).isEmpty && !eligible s job j 9 f))
    && (i ≠ 0 || j.fed = j.r.nitems)

/-- Forced stages first, then by input fill, a tie going to the higher index (R123). DEDUCED: log 28. -/
def stageKey (st : Stage) (i : Nat) : List Nat :=
  [if st.forced then 0 else 1, 2 ^ 96 - st.queue.length * 2 ^ 64 / max 1 st.depth, 16 - i]

/-- The budget left on a core, halved while its die is in Emergency (R124, R430). -/
def budgetLeft (s : State) (core : Nat) : Nat :=
  let b := (s.core core).budget
  (if ((s.dies[dieOf core]?).map (·.thermal)) = some 2 then b / 2 else b) - Config.energySoFar core s.fresh

/-- The energy check of R125: the stage's block is skipped on its chosen core. -/
def energySkip (s : State) (st : Stage) (core : Nat) : Bool :=
  let th := ((s.dies[dieOf core]?).map (·.thermal)).getD 0
  th ≠ 0 && !(st.forced && th ≠ 2) && budgetLeft s core < st.est

/-- The eligible stages of some jobs that have not been skipped, each with its job and its key. -/
def stageCands (s : State) (jobs : List Nat) (skipped : List (Nat × Nat)) : List (Nat × Nat × List Nat) :=
  jobs.flatMap fun job => match s.jobs.look job with
    | none => []
    | some j => (List.range j.stages.length).filterMap fun i =>
      if skipped.contains (job, i) || !eligible s job j 9 i then none
      else (j.stages[i]?).map fun st => (job, i, stageKey st i)

/-- Serves the eligible stages of the jobs one block at a time, in the order of R123; a tie between jobs goes to the first one.
DEDUCED: log 28. -/
def stageLoop (die : Nat) (jobs : List Nat) : Nat → List (Nat × Nat) → State × List WItem → State × List WItem
  | 0, _, r => r
  | fuel + 1, skipped, (s, past) =>
    match sortKey (·.2.2) (stageCands s jobs skipped) with
    | [] => (s, past)
    | (job, i, _) :: _ => match s.jobs.look job with
      | none => (s, past)
      | some j => match stageTarget s j i, j.stages[i]? with
        | some (s', part, core), some st =>
          if energySkip s st core then
            stageLoop die jobs fuel ((job, i) :: skipped)
              (s.updJob job fun j => { j with stages := j.stages.set i { st with skips := st.skips + 1 } }, past)
          else match placeStageOn s' job i part core with
            | none => (s, past)
            | some s => stageLoop die jobs fuel skipped (if dieOf core = die then bumpPassed s past (jobPrio s j) else (s, past))
        | _, _ => (s, past)

/-- Stages with 8 skips are forced in the pass, except in an Emergency (R125). -/
def markForced (s : State) (die : Nat) : State :=
  let emergency := ((s.dies[die]?).map (·.thermal)) == some 2
  { s with jobs := s.jobs.map fun (i, j) => (i, { j with stages := j.stages.map fun st => { st with forced := !emergency && 8 ≤ st.skips } }) }

/-- The pipeline jobs of a die in order of priority and acceptance. -/
def pipeJobs (s : State) (die : Nat) : List Nat :=
  (sortKey (fun (e : Nat × Job) => [7 - jobPrio s e.2, e.2.accepted])
    (s.jobs.filter fun e => e.2.die == die && e.2.r.pipe && e.2.st != .held && placeable s e.2.ctx)).map (·.1)

def placeStages (s : State) (die : Nat) (past : List WItem) : State × List WItem :=
  let n := (pipeJobs s die).map fun i =>
    ((s.jobs.look i).map fun j => (j.stages.map fun st => st.queue.length + st.closed.length + 1).foldl (· + ·) 1).getD 0
  stageLoop die (pipeJobs s die) (n.foldl (· + ·) 0) [] (s, past)

/-- An eligible stage, but for a core, that no partition can hold pre-empts as a Waiting grid does (R120), on its region's die where it has one (R224). -/
def preemptStages (s : State) (die : Nat) : State :=
  (pipeJobs s die).foldl (fun s i => match s.jobs.look i with
    | none => s
    | some j =>
      if j.part.isSome then s
      else match (List.range j.stages.length).find? fun n => stageDue (eligible s i j 8) s i j n && (stageTarget s j n).isNone with
        | none => s
        | some n => match s.codes.look j.code, j.stages[n]? with
          | some c, some st =>
            let mask := match j.region.bind s.allocs.look with
              | some a => 2 ^ a.unit
              | none => j.r.diemask
            preemptFor s j.ctx (jobPrio s j) mask (2, i) fun s d cls => match c.kernel st.kernel with
              | none => false
              | some k => (j.region.isSome || dieUse s d + roundUp 65536 (pipeSize c j.stages) ≤ diePad)
                && (fitGroup (fun _ => true) k.need k.cldata 1 {} cls).isSome
          | _, _ => s) s

/-! ### Clusters that pre-emption freed (R120) -/

/-- A grid's partition, formed and nothing placed in it. -/
def claimGrid (s : State) (id : Nat) : Option State :=
  match s.grids.look id with
  | none => none
  | some g => match s.jobs.look g.job with
    | none => none
    | some j => match if placeable s j.ctx then (s.codes.look j.code).bind fun c => c.kernel j.r.entry else none with
      | none => none
      | some k =>
        let try_ (s : State) (part : Nat) (cls : List Nat) : Option State := (placeGridIn s id g j k part cls).map fun _ => s
        (placeSomewhere s j.ctx j.r.diemask (fun _ => true) try_).map (·.2)

/-- The pipeline job's partition, formed and nothing placed in it. -/
def claimStage (s : State) (i : Nat) : Option State :=
  match s.jobs.look i with
  | none => none
  | some j =>
    if !placeable s j.ctx then none
    else (((List.range j.stages.length).find? fun n => stageDue (eligible s i j 8) s i j n).bind fun n => stageTarget s j n).map (·.1)

/-- The work of a claim still waits. -/
def claimStands (s : State) (c : Nat × Nat) : Bool :=
  match c.1 with
  | 0 => ((s.grids.look c.2).map (·.st)) == some .waiting
  | 1 => ((s.ctxs.look c.2).bind (·.save)).isSome && placeKey s c.2
  | _ => (s.jobs.look c.2).any (·.part.isNone)

/-- Clusters that pre-emption has freed go to the work for which it started, before the pass considers any other; until they suffice they are kept for
it, as long as a context still ends for it (R120); a reservation of R426 stands until its context is restored. DEDUCED: log 30. -/
def grantClaims (s : State) : State :=
  s.claims.foldl (fun s c =>
    let w := c.work
    let drop (s : State) : State := { s with claims := s.claims.filter fun x => x.work != w }
    if c.reserved && !claimStands s w then s
    else if !claimStands s w then drop s
    else
      let v := ownClaim s w
      match if w.1 = 0 then claimGrid v w.2 else if w.1 = 1 then restore v w.2 else claimStage v w.2 with
      | some s' => drop s'
      | none => if c.reserved || s.ctxs.any fun e => (e.2.preempt.bind (·.work)) == some w then s else drop s) s

/-! ### The pass (R116, R119) -/

/-- A partition that the steward pair assigned and that its context no longer needs (R119). -/
def partIdle (s : State) (p : Part2) : Bool :=
  let d := p.die
  p.steward && s.blocks.all (fun (_, b) => b.ended || b.ctx != p.ctx || !p.clusters.contains (clusterOf b.core))
    && s.grids.all (fun (_, g) => g.st != .waiting || (match s.jobs.look g.job with
        | none => true
        | some j => j.ctx != p.ctx || !(j.die == d || bit j.r.diemask d)))
    && s.jobs.all fun (_, j) => j.ctx != p.ctx || !((j.st == .ready && bit j.r.diemask d)
        || (j.st == .running && j.r.pipe && (((j.part.bind s.parts.look).map (·.die)).getD j.die) == d))

def releaseIdle (s : State) (die : Nat) : State :=
  (s.parts.filter fun e => e.2.die == die).foldl (fun s e => if partIdle s e.2 then releasePart s e.1 else s) s

/-- PLACEMENT_PASS. -/
def execPlacementPass (die : Nat) (s : State) : Res :=
  let s := markForced (grantClaims (endDrains s)) die
  let (s, past) := placeGrids die (workOf s die) (s, [])
  let (s, _) := placeStages s die past
  .next (releaseIdle (preemptStages s die) die)

/-! ### Feeding and binning (R121, R126 to R128) -/

/-- The items of stage 0 that its queue has room for, or the fault with its address. -/
def readItems (s : State) (ctx base size : Nat) : Nat → Nat → Except (Fail × Nat) (List (List Byte))
  | _, 0 => .ok []
  | k, n + 1 => match engineBytes s (.global ctx) (base + k * size) size with
    | .error f => .error (f, base + k * size)
    | .ok b => (readItems s ctx base size (k + 1) n).map fun l => b :: l

/-- The lowest core of a job's partition, or, where it holds none yet, of its queue's die: a stop record of the stage scheduler names it or its
cluster, since the spec gives the scheduler no unit. DESIGN CHOICE: log 66. -/
def feedCore (s : State) (j : Job) : Nat := (((j.part.bind s.parts.look).map (·.low)).getD (j.die * 24)) * 8

/-- The stage scheduler's copy of items. DESIGN CHOICE: log 66. -/
def execStageFeed (job : Nat) (s : State) : Res :=
  .next (match s.jobs.look job with
    | none => s
    | some j => match j.stages with
      | [] => s
      | st :: _ =>
        if j.st = .held || !placeable s j.ctx then s
        else
          let n := min (st.depth - st.queue.length) (j.r.nitems - j.fed)
          match readItems s j.ctx j.r.items st.itemsz j.fed n with
          | .error (f, va) =>
            let core := feedCore s j
            raiseFault s j.ctx { stop := { engine := 3, cause := (engineFail 0 f).unserved.cause, unit := clusterOf core, va := va, detail := f.line,
                                           lcyc := s.lcyc core } }
          | .ok l => (s.updJob job fun j => appendItems j 0 l).updJob job fun j => { j with fed := j.fed + n })

/-- An item that a bin may hold (R111): reserved bytes zero, and a PC in the code object's overlays. -/
def itemOk (s : State) (code : Nat) (b : List Byte) : Bool :=
  let pc := recNat b 0 4
  recNat b 28 4 = 0 && bits pc 31 18 = 0 && pc % 8 = 0
    && ((s.codes.look code).map fun c => c.overlays.any fun o => o.home * 4096 ≤ pc && pc < o.home * 4096 + o.len).getD false

/-- Puts an item into the bin of its PC (R126); a full bin closes as a gang. -/
def binItem (st : Stage) (b : List Byte) : Stage :=
  let pc := BitVec.ofNat 32 (recNat b 0 4)
  let st := if st.bins.any (·.1 == pc) then st
    else
      let st := if st.bins.length < 16 then st
        else { st with closed := st.closed ++ (st.bins.take 1).map (·.2), bins := st.bins.drop 1 }
      { st with bins := st.bins ++ [(pc, [])] }
  let bins := st.bins.map fun (p, l) => if p = pc then (p, l ++ [b]) else (p, l)
  let full := bins.filter fun e => e.2.length = Config.lanes
  { st with bins := bins.filter fun e => e.2.length ≠ Config.lanes, closed := st.closed ++ full.map (·.2) }

/-- One item is binned, or faults (R111, R126). DESIGN CHOICE: log 66. -/
def execContinuationBinning (job stage : Nat) (s : State) : Res :=
  .next (match s.jobs.look job with
    | none => s
    | some j => match j.stages[stage]? with
      | none => s
      | some st => match st.queue with
        | [] => s
        | b :: rest =>
          if !st.cont || s.stopped j.ctx then s
          else
            let st := { st with queue := rest }
            let set (s : State) (x : Stage) : State := s.updJob job fun j => { j with stages := j.stages.set stage x }
            if itemOk s j.code b then set s (binItem st b)
            else
              let core := feedCore s j
              raiseFault (set s st) j.ctx { stop := { engine := 1, cause := 0x27, unit := core, pc := BitVec.ofNat 32 (recNat b 0 4),
                                                      lcyc := s.lcyc core } })

def execBinFlushDry (job stage : Nat) (s : State) : Res :=
  .next (match s.jobs.look job with
    | none => s
    | some j => match j.stages[stage]? with
      | none => s
      | some st =>
        if !st.cont || !st.queue.isEmpty || !dryFed s job j stage then s
        else s.updJob job fun j => { j with stages := j.stages.set stage { st with closed := st.closed ++ st.bins.map (·.2), bins := [] } })

/-! ### The governor (R124) -/

/-- The estimate of a stage after a window on a core. -/
def newEst (s : State) (core job i : Nat) (energy : List (Nat × Nat)) (st : Stage) : Stage :=
  let bs := (stageBlocks s job i).filter fun e => e.2.core == core
  if bs.isEmpty then st
  else
    let m := (bs.map fun e => ((energy.find? (·.1 == e.1)).map (·.2)).getD 0).foldl (· + ·) 0 / bs.length
    { st with est := st.est - st.est / 8 + m / 8 }

/-- DESIGN CHOICE: log 56. -/
def execGovernorWindowEnd (core : Nat) (energy : List (Nat × Nat)) (s : State) : Res :=
  let upd (job : Nat) (j : Job) : Job :=
    { j with stages := (List.range j.stages.length).filterMap fun i => (j.stages[i]?).map (newEst s core job i energy) }
  let s' := { s with jobs := s.jobs.map fun (job, j) => (job, upd job j) }
  .next (s'.updCore core fun k => { k with budget := k.budgetNext })

/-! ### Retirement (R105, R107, R416) -/

/-- What a completion release waits for: the stores of some blocks, what else the prefix holds, and, as they went out when it began, the probes of
its routes (R107, R310, R323, R416); device stores at system scope alone (R324, R326). DEDUCED: log 42. -/
def retireWaits (s : State) (blks : List Nat) (obs routes : List Nat) (relsc : Nat) : List Nat :=
  match Scope.ofCode relsc with
  | none => []
  | some sc =>
    carriedAt s sc ((AMap.sel s.stores fun _ st => blks.contains st.blk) ++ (s.pend.filter fun e => blks.contains e.2.blk && isRemote s e.1).map (·.1)
        ++ s.live obs)
      ++ trafficOn s (routes.filter (routeIn sc))

/-- The release begins: its probes go out, and at system scope it carries device stores. -/
def beginClose (s : State) (blks : List Nat) (obs routes : List Nat) (relsc : Nat) : List Nat × State :=
  let s := if relsc = 6 then unhold s ((AMap.sel s.stores fun _ st => blks.contains st.blk) ++ obs) else s
  (retireWaits s blks obs routes relsc, s)

/-- The end of a parent passes its prefix on at module scope (R326). -/
def Heard.toChild (s : State) (h : Heard) : Heard := { h with scope := .module, dies := List.range 4, ids := s.live h.ids }

/-- A job's threads to come observe what a release passes on. -/
def hears (s : State) (i : Nat) (h : Heard) : State := s.updJob i fun j => { j with heard := j.heard ++ [h] }

/-- What a job's completion release passes on at its end (R315, R326): the accesses of its prefix that are still in flight, which are stores to device
memory, with its routes, to the dies of its instance. At a scope narrower than die it has no instance once its blocks have ended. DEDUCED: log 42. -/
def Job.passes (s : State) (i : Nat) (j : Job) : Heard :=
  let bs := AMap.sel s.blocks fun _ b => b.job == i
  let dies := if j.scope.code < 3 then [] else if j.scope = .die then
      ((s.blocks.filter fun e => e.2.job == i).map fun e => dieOf e.2.core).eraseDups
    else List.range 4
  { scope := j.scope, dies := dies, ids := NSet.addAll [] (AMap.sel s.stores (fun _ st => bs.contains st.blk) ++ s.live j.obs), rts := j.routes }

/-- The completion store leaves its release to be read with its value (R317, R326), for the instance of each die. -/
def signalRel (s : State) (ctx va : Nat) (h : Heard) : State :=
  let ids := s.live h.ids
  match resolve s (.global ctx) va va true with
  | .ok l => if ids.isEmpty then s
    else { s with rels := s.rels ++ h.dies.map fun d => { loc := l, len := 8, core := d * 192, blk := 0, gang := 64, rel := some h.scope, pfx := ids, rts := h.rts } }
  | .error _ => s

/-- A job completes (R107): Done, the completion store, the statement of R421, its children, and one release for each successor. -/
def jobDone (s : State) (i : Nat) : State :=
  match s.jobs.look i with
  | none => s
  | some j =>
    let h := j.passes s i
    let s := freeAlloc s j.region
    let bs := AMap.sel s.blocks fun _ b => b.job == i
    let gs := j.grids
    let s := { s with
      groups := s.groups.filter fun (_, g) => !(g.blocks.any bs.contains),
      blocks := s.blocks.filter fun (_, b) => b.job != i,
      grids := s.grids.filter fun (k, _) => !gs.contains k }
    let s := closeJob s i .done 0
    let s := if j.r.sigaddr = 0 then s else signalRel (ctxStore s j.ctx j.r.sigaddr (leBytes 8 j.seq.toNat)) j.ctx j.r.sigaddr h
    let s := s.updCtx j.ctx fun k => { k with lastJseq := j.seq, lastQ := j.queue + 16 * j.die }
    let s := snapshot s j.ctx 2 []
    let kids := AMap.sel s.jobs fun _ x => x.st == .held && x.parentJob == some i
    let s := kids.foldl (fun s k => lowerCount (hears s k (h.toChild s)) k) s
    j.succ.foldl (fun s (slot, seq) => match slotJob s j.die j.queue slot with
      | some (k, x) => if x.seq = seq && x.st = .held then lowerCount (hears s k h) k else respond s j.die j.queue seq.toNat slot .discarded 0 0
      | none => respond s j.die j.queue seq.toNat slot .discarded 0 0) s

/-- A grid has retired: it is Ended, its allocation is released, and its children may start (R33, R416). -/
def gridEnded (s : State) (gid : Nat) (g : Grid) : State :=
  let h : Heard := { scope := .module, dies := [], ids := NSet.addAll [] (AMap.sel s.stores (fun _ st => g.blocks.contains st.blk) ++ s.live g.obs), rts := g.routes }
  let s := freeAlloc s g.alloc
  let s := { s with bars := s.bars.filter fun (k, _) => !(keyLevel k == Level.grid && keyInst k == gid) }
  let s := s.updGrid gid fun g => { g with st := .ended, alloc := none, retiring := false }
  let kids := AMap.sel s.jobs fun _ x => x.st == .held && x.parent == some gid
  let s := kids.foldl (fun s k => lowerCount (hears s k (h.toChild s)) k) s
  match s.jobs.look g.job with
  | none => s
  | some j => if j.grids.all fun k => ((s.grids.look k).map (·.st)) == some .ended then jobDone s g.job else s

/-- A pipeline job has nothing left to do (R107). -/
def pipeEnded (s : State) (i : Nat) (j : Job) : Bool :=
  j.r.pipe && j.st ≠ .held && j.fed = j.r.nitems
    && j.stages.all (fun st => st.queue.isEmpty && st.bins.isEmpty && st.closed.isEmpty)
    && s.blocks.all fun (_, b) => b.job != i || b.ended

/-- GRID_RETIRE: of a grid, or of a pipeline job named by its number. The release begins, at module scope or wider where children wait for the grid's
end (R326), and the work ends once it is done. -/
def execGridRetire (id : Nat) (s : State) : Res :=
  .next (match s.grids.look id with
    | some g => match s.jobs.look g.job with
      | none => s
      | some j =>
        if !g.retiring then s
        else match g.closing with
          | some w => if s.allDone w then gridEnded s id g else s
          | none =>
            let kids := s.jobs.any fun e => e.2.st == .held && e.2.parent == some id
            let (w, s) := beginClose s g.blocks g.obs g.routes (if kids then max j.r.relsc Scope.module.code else j.r.relsc)
            if s.allDone w then gridEnded s id g else s.updGrid id fun g => { g with closing := some w }
    | none => match s.jobs.look id with
      | none => s
      | some j =>
        if !pipeEnded s id j then s
        else match j.closing with
          | some w => if s.allDone w then jobDone s id else s
          | none =>
            let kids := s.jobs.any fun e => e.2.st == .held && e.2.parentJob == some id
            let (w, s) := beginClose s (AMap.sel s.blocks fun _ b => b.job == id) j.obs j.routes (if kids then max j.r.relsc Scope.module.code else j.r.relsc)
            if s.allDone w then jobDone s id else s.updJob id fun j => { j with closing := some w })

end Sys2Proof.Machine
end

