-- ==== Sys2Proof/Machine/MFabric.lean ====
section
/-! DEFINITION. Class M on path 0x5: RLD, REMST, REMST.L and REMRED (R349, R352 to R356). -/

namespace Sys2Proof.Machine

/-- Accelerator ID and target address of a path-0x5 address (R354). -/
def tgtOf (a : Nat) : Nat := bits a 59 50
def farOf (a : Nat) : Nat := bits a 49 0

/-- The station of a route (R349). -/
def stationOf (core tgt : Nat) : Nat := (core + tgt) % 32

/-- Path 0x5 is the only path that these instructions accept; any other selector raises the path fault (R353). -/
def remCheck (x : X) (n : Nat) (px : Option (Fin 8)) (s : State) (m : Mb) : Option Flt :=
  pathCheck s m.b (m.addr x.sa x.sb) n px [5] false

/-- Accesses of a thread in flight to a byte in common with a remote one: the target's controllers keep no order, so it waits for remote accesses, and,
where the target is this module, for those on path 0x0 (R225, R349). A device store that only a system scope carries is left (R324). -/
def farWaits (s : State) (m : Mb) (a n : Nat) : Bool :=
  let own (sp : Space) (start k : Nat) : Bool := runsShare s (.global m.b.ctx) (farOf a) n sp start k
  s.pend.any (fun (_, p) => p.of m.u && p.op.fars.any fun f => f.1 == tgtOf a && f.2.1 < farOf a + n && farOf a < f.2.1 + f.2.2)
    || tgtOf a == s.steward.accid && (s.stores.any (fun (_, st) => st.th == some m.u && st.path == 0 && !st.held && own st.space st.start st.acc.len)
      || s.pend.any fun (_, p) => p.of m.u && match p.op.reads with
        | some (0, sp, start, k) => own sp start k
        | _ => false)

/-- What a release on the issuing side still waits for at issue, so that no request overtakes it: its prefix, and the probes as they went out
when the wait began (R310, R316, R323). DEDUCED: log 48. -/
def relWaits (s : State) (rel : Option Scope) (ms : List Mb) : Bool :=
  match rel with
  | none => false
  | some sc => ms.any fun m => match m.t.relWait with
    | some l => !(s.live l).isEmpty
    | none => !(releaseWaits s m.u sc).isEmpty

/-- The wait begins: the probes go out, and a release at system scope carries the device stores of its prefix (R323, R324). -/
def relTouch (s : State) (rel : Option Scope) (ms : List Mb) : State :=
  match rel with
  | none => s
  | some sc => ms.foldl (fun s m =>
      let s := if sc = .system then unhold s (prefixOf s m.u) else s
      let l := releaseWaits s m.u sc
      s.updThr m.u fun t => { t with relWait := some (t.relWait.getD l) }) s

/-- A class R store or reduction, which may name a flag: a release waits at issue for what it carries. -/
def remoteOp (i : Instr) (req : Mb → Option Req) (check : State → Mb → Option Flt) (rel : Option Scope)
    (flag : Mb → Option Nat) (effect : State → List Mb → State) (s : State) : Res :=
  issue i {
    wait := fun s ms => checksPass i check s ms
      && (reqWaits s req ms || relWaits s rel ms || ms.any fun m => (req m).any (fun r => farWaits s m r.addr r.n) || (flag m).any fun f => farWaits s m f 4),
    onWait := fun s ms => relTouch s rel ms,
    check := check,
    service := true,
    effect := effect } s

/-- Sends a class R request and notes its route. -/
def sendRemote (s : State) (m : Mb) (id a : Nat) (op : RemOp) : State :=
  let s := useRoute s (some m.u) m.b.core (some (32 + tgtOf a))
  s.emit (.remote (stationOf m.b.core (tgtOf a)) (tgtOf a)
    { src := s.steward.accid, id := id, domain := (s.ctx m.b.ctx).domain, va := farOf a, op := op })

def execRld (x : X) (acq : Bool) (sc : Scope) (t : ITy) (px : Option (Fin 8)) (s : State) : Res :=
  accessOp (.rld x acq sc t px) (fun m => some (reqOf x t.bytes false m)) (remCheck x t.bytes px)
    (fun s ms => ms.any fun m => farWaits s m (m.addr x.sa x.sb) t.bytes)
    (fun s ms =>
      let (n, s) := s.newId
      ms.foldl (fun s m =>
        let a := m.addr x.sa x.sb
        let op : POp := .rld (s.ctx m.b.ctx).domain (tgtOf a) (farOf a) t (if acq then some sc else none)
        let (id, s) := startOp s (.rld x acq sc t px) m n (tableLine m.b a) op []
        let s := if acq then s.updThr m.u fun t => { t with acqs := NSet.add (s.live t.acqs) id } else s
        sendRemote s m id a (.load t.bytes)) s) s

/-- Starts a class R store or reduction, which holds its entry until it is acknowledged (R354); a release carries its prefix. -/
def startRemote (s : State) (m : Mb) (issue a n : Nat) (flag : Option Nat) (rel : Option Scope) (op : RemOp) : State :=
  let pfx := if rel.isSome then prefixOf s m.u else []
  let rts := if rel.isSome then routesOf s m.u else []
  let (id, s) := s.newId
  let p : Pend := { core := m.b.core, ctx := m.b.ctx, blk := m.t.blk, issue := issue, lines := tableLine m.b a, at_ := s.clock,
                    pc := m.t.pc, parts := [{ th := m.u, flag := none, dst := [], want := [] }], op := .rst false (tgtOf a) (farOf a) n flag rel pfx rts }
  sendRemote { s with pend := s.pend.put id p } m id a op

/-- The flag address of a REMST. -/
def flagAddr (x : X) (m : Mb) : Option Nat := if x.dst = .null then none else some (m.t.val (.int 64) x.dst)

/-- The flag address of REMST lies on path 0x5 at the same target, on a multiple of 4 (R353). -/
def flagFault (x : X) (m : Mb) : Option Flt :=
  if x.dst = .null then none
  else
    let f := m.t.val (.int 64) x.dst
    if selOf f ≠ 5 || tgtOf f ≠ tgtOf (m.addr x.sa x.sb) || f % 4 ≠ 0 then some ⟨0x23, f, 0⟩ else none

def execRemst (x : X) (sc : Scope) (rel : Bool) (t : ITy) (px : Option (Fin 8)) (s : State) : Res :=
  let r := if rel then some sc else none
  remoteOp (.remst x sc rel t px) (fun m => some (reqOf x t.bytes true m))
    (fun s m => (remCheck x t.bytes px s m).or (flagFault x m))
    r (flagAddr x)
    (fun s ms =>
      let (n, s) := s.newId
      ms.foldl (fun s m =>
        let flag := (flagAddr x m).map farOf
        startRemote s m n (m.addr x.sa x.sb) t.bytes flag r (.store (leBytes t.bytes (m.t.ival t x.sc)) flag)) s) s

def execRemred (x : X) (sc : Scope) (rel : Bool) (a : Aop) (t : ITy) (s : State) : Res :=
  let r := if rel then some sc else none
  remoteOp (.remred x sc rel a t) (fun m => some (reqOf x t.bytes true m)) (remCheck x t.bytes none)
    r (fun _ => none)
    (fun s ms =>
      let (n, s) := s.newId
      ms.foldl (fun s m => startRemote s m n (m.addr x.sa x.sb) t.bytes none r (.red a t (m.t.val (aopSrc a t) x.sc))) s) s

/-! ### Class L (R356) -/

/-- The address of the 256-byte segment that a store falls in, and the round it carries. -/
def segOf (x : X) (m : Mb) : Nat × Nat :=
  let a := m.addr x.sa x.sb
  (a - a % 256, m.t.val (.int 32) x.dst % 2 ^ 16)

/-- The bytes that the CRC of a packet covers (R356). DESIGN CHOICE: log 47. -/
def packetBytes (p : Packet) : List Byte :=
  leBytes 8 p.va ++ leBytes 2 p.round.toNat ++ leBytes 32 p.enables.toNat ++ leBytes 1 p.lttl ++ p.payload

/-- One packet from the members of a set whose stores fall in one segment under one round. -/
def makePacket (s : State) (x : X) (t : ITy) (ms : List Mb) (seg : Nat × Nat) : Packet :=
  let mine := ms.filter fun m => segOf x m == seg
  let mem : Mem := mine.foldl (fun d m => d.writeN (m.addr x.sa x.sb % 256) (leBytes t.bytes (m.t.ival t x.sc))) []
  let on (i : Nat) : Bool := mine.any fun m => m.addr x.sa x.sb % 256 ≤ i && i < m.addr x.sa x.sb % 256 + t.bytes
  let ctx := ((mine.head?).map fun m => m.b.ctx).getD 0
  let k := s.ctx ctx
  let p : Packet := { domain := k.domain, va := farOf seg.1, round := BitVec.ofNat 16 seg.2,
                      enables := BitVec.ofNat 256 ((List.range 256).foldl (fun a i => if on i then a + 2 ^ i else a) 0),
                      lttl := bits k.fabcfg.toNat 12 8, payload := mem.readN 0 256, crc := 0, sent := s.clock }
  { p with crc := crc32c (packetBytes p) }

def execRemstL (x : X) (t : ITy) (px : Option (Fin 8)) (s : State) : Res :=
  let check (s : State) (m : Mb) : Option Flt := (remCheck x t.bytes px s m).or
    (let o := m.addr x.sa x.sb % 2 ^ 15
     if o < 256 || 16640 ≤ o then some ⟨0x23, m.addr x.sa x.sb, 0⟩ else none)
  issue (.remstL x t px) {
    wait := fun s ms => checksPass (.remstL x t px) check s ms && ms.any fun m => memWaits s m [5],
    check := check,
    effect := fun s ms =>
      let segs := (ms.map (segOf x)).eraseDups
      { s with sending := s.sending ++ segs.map fun g =>
        { station := stationOf s.focus (tgtOf g.1), target := tgtOf g.1, packet := makePacket s x t ms g } } } s

end Sys2Proof.Machine
end

