-- ==== Sys2Proof/Machine/Pick.lean ====
section
/-! DEFINITION. The picker: candidates, gathers and kept sets (R129 to R133), the fetch check and the decode of a clause (R57, R147),
trap entry after SFU results (R394), re-insertion after a barrier (R333). -/

namespace Sys2Proof.Machine

/-! ### Order (R129) -/

/-- The keys of R129 after the cycle: job, grid blocks before others, GRIDID, BLOCKID or order of placement, TID. -/
def pickKeys (s : State) (t : Thread) : List Nat :=
  match s.blocks.look t.blk with
  | none => []
  | some b =>
    let acc := ((s.jobs.look b.job).map (·.accepted)).getD 0
    match b.grid with
    | some _ => [acc, 0, b.gridId, b.blockId, t.tid]
    | none => [acc, 1, 0, b.order, t.tid]

/-- Keys compared one after another. -/
def keysLt : List Nat → List Nat → Bool
  | [], [] => false
  | [], _ => true
  | _, [] => false
  | a :: l, b :: m => a < b || (a == b && keysLt l m)

/-- What the picker may choose: a lane's head, or a complete gang. -/
structure Cand where
  key : List Nat
  gang : Bool
  members : List Nat
  deriving DecidableEq, Repr

/-- The candidate with the least key. -/
def oldest : List Cand → Option Cand
  | [] => none
  | c :: l => match oldest l with
    | some d => if keysLt d.key c.key then some d else some c
    | none => some c

/-- Threads of a core in a given state. -/
def coreThreads (s : State) (core : Nat) (st : TState) : List (Nat × Thread) :=
  s.threads.filter fun e => e.2.st == st && ((s.blocks.look e.2.blk).map (·.core)) == some core

/-- The head of every lane queue, as a thread that became Ready in an earlier cycle. -/
def laneHeads (s : State) (core : Nat) : List Cand :=
  let ts := (coreThreads s core .ready).filter fun e => e.2.since < s.clock
  (List.range Config.lanes).filterMap fun l =>
    oldest ((ts.filter fun e => e.2.lane == l).map fun e => ⟨e.2.since :: pickKeys s e.2, false, [e.1]⟩)

/-- Live members of a gang, in lane order. -/
def gangLive (s : State) (blk gang : Nat) : List (Nat × Thread) :=
  s.threads.filter fun e => e.2.blk == blk && e.2.gang == gang && e.2.st != .exited

/-- The gangs of a core of which some member waits at a G clause. -/
def waitingGangs (s : State) (core : Nat) : List (Nat × Nat) :=
  ((coreThreads s core .gangWait).map fun e => (e.2.blk, e.2.gang)).eraseDups

/-- Complete gangs (R131): every live member waits at one PC; the age is that of the last arrival. DEDUCED: log 34. -/
def completeGangs (s : State) (core : Nat) : List Cand :=
  (waitingGangs s core).filterMap fun (b, g) =>
    let ms := gangLive s b g
    match ms with
    | [] => none
    | (_, t) :: _ =>
      let age := ms.foldl (fun a e => max a e.2.since) 0
      if ms.all (fun e => e.2.st == .gangWait && e.2.pc == t.pc) && age < s.clock then
        some ⟨age :: pickKeys s t, true, ms.map (·.1)⟩
      else none

/-! ### Membership mismatch (R132) -/

/-- The first arriver of a gang, and the first lane in arrival order whose PC differs from it. -/
def mismatch (s : State) (core : Nat) : Option Nat :=
  firstSome (fun (b, g) =>
    let ms := gangLive s b g
    if ms.all fun e => e.2.st == .gangWait then
      let sorted := sortKey (fun (e : Nat × Thread) => [e.2.since, e.2.tid]) ms
      match sorted with
      | [] => none
      | (_, t) :: rest => (rest.find? fun e => e.2.pc != t.pc).map (·.1)
    else none) (waitingGangs s core)

/-! ### Fetch and decode (R57, R147) -/

/-- What the fetch of one member gives. -/
def fetchOf (s : State) (core u : Nat) : Fetch :=
  match (s.threads.look u).bind fun t => (s.blocks.look t.blk).map fun b => (t, b) with
  | some (t, b) => fetchHeader s core b.ctx b.code (pcOff t.pc)
  | none => .miss

/-- A trap handler's first clause that fails its fetch check: the unhandled-trap fault, from the frame just pushed (R394). DEDUCED: log 37. -/
def unhandled (s : State) (u : Nat) : State :=
  let e := topEntry s u
  let stop := threadStop s u 0x34 (BitVec.ofNat 32 (recNat e 0 4)) 0 (recNat e 5 1 + recNat e 12 4 * 2 ^ 32)
  raiseFault s (s.thrCtx u) { stop := stop, members := [u] }

/-- A member's fetch meets no Resident overlay of its code: the overlay-miss trap (R147). -/
def missTrap (s : State) (u : Nat) : State :=
  match s.threads.look u with
  | none => s
  | some t => beginTrap s u { cause := 4, code := 0, flags := 0, detail := 0, rpc := t.pc }

/-- The member fetches a trap handler's first clause. -/
def isEntering (s : State) (u : Nat) : Bool := ((s.threads.look u).map (·.entering)).getD false

/-- The set issues its clause, once its fetch and its encoding are checked. A header fault names slot 0 (R57); a Slot at which no instruction
begins, beyond COUNT or on a literal, is an illegal clause. DESIGN CHOICE: log 64. -/
def startSet (s : State) (core : Nat) (ms : List Nat) : State :=
  match ms.head?.bind s.threads.look with
  | none => s
  | some t0 =>
    let off := pcOff t0.pc
    let lost := ms.filter fun u => isEntering s u && (match fetchOf s core u with
      | .miss => true
      | .fault c => c != 0x20
      | .ok _ => false)
    let bad := ms.filterMap fun u => match fetchOf s core u with
      | .fault c => some (u, c)
      | _ => none
    if !lost.isEmpty then lost.foldl unhandled s
    else match bad with
    | (u, c) :: _ =>
      raiseFault s (s.thrCtx u) { stop := threadStop s u c (mkPc off 0) 0 0, members := bad.map (·.1) }
    | [] =>
      let miss := ms.filter fun u => fetchOf s core u == .miss
      let s := miss.foldl missTrap s
      let ms := ms.filter fun u => !miss.contains u
      match ms.head?.map fun u => (u, fetchOf s core u) with
      | some (u, .ok h) =>
        let fault (c slot : Nat) (elig : Bool) : State :=
          raiseFault s (s.thrCtx u) { stop := threadStop s u c (mkPc off slot) 0 0, members := ms, eligible := elig }
        match clauseFault s core off h with
        | some (c, slot) => fault c slot (c != 0x20 && (h.cls = .V || h.cls = .M || h.cls = .X || h.cls = .T))
        | none =>
          if ((s.core core).instr off (pcSlot t0.pc)).isNone then fault 0x20 (pcSlot t0.pc) false
          else
            let s := ms.foldl (fun s u => s.updThr u fun t => { t with st := .issuing, stall := none, entering := false }) s
            s.updCore core fun k => { k with gather := some { members := ms, off := off, slot := pcSlot t0.pc } }
      | _ => s

/-! ### GATHER_FORM (R130, R133) -/

/-- Ready threads whose next clause must first be waited for, since its overlay was loaded after they became Ready. -/
def recheck (s : State) (core : Nat) : State :=
  (coreThreads s core .ready).foldl (fun s e => s.updThr e.1 fun t => { t with st := entryState s t }) s

/-- The set that R133 kept is still Ready at one PC. -/
def keptSet (s : State) (core : Nat) : Option (List Nat) :=
  (s.core core).kept.bind fun ms =>
    let pcs := ms.map fun u => (s.threads.look u).bind fun t => if t.st = .ready then some t.pc else none
    match pcs.head? with
    | some (some pc) => if pcs.all (· == some pc) then some ms else none
    | _ => none

/-- The members of the next gather: the kept set, a complete gang, or a leader with the lane heads at its PC. -/
def pickSet (s : State) (core : Nat) : List Nat :=
  match keptSet s core with
  | some ms => ms
  | none =>
    let heads := laneHeads s core
    match oldest (heads ++ completeGangs s core) with
    | none => []
    | some c =>
      if c.gang then c.members
      else
        let pc := (c.members.head?.bind s.threads.look).map (·.pc)
        (heads.flatMap (·.members)).filter fun u => ((s.threads.look u).map (·.pc)) == pc

/-- GATHER_FORM: at a clause boundary of a core that its context may use. -/
def execGatherForm (core : Nat) (s : State) : Res :=
  .next (match (s.core core).owner with
    | none => s
    | some c =>
      if (s.core core).gather.isSome || s.stopped c || Config.cores ≤ core then s
      else match mismatch s core with
        | some u => faultThread s u 0x2A 0 ((s.threads.look u).map (·.lane) |>.getD 0) [] false false
        | none =>
          let s := recheck s core
          let ms := pickSet s core
          startSet (s.updCore core fun k => { k with kept := none }) core ms)

/-! ### TRAP_ENTRY, BARRIER_REINSERT -/

/-- TRAP_ENTRY: a trap that waited for SFU results is entered (R394), also while the context is halted (R412); its push first touches the windows that it
meets, and waits for held ranges (R234, R236). -/
def execTrapEntry (th : Nat) (s : State) : Res :=
  .next (match s.threads.look th with
    | none => s
    | some t => match t.trap with
      | some r =>
        if t.st ≠ .trapWait || owesSfu s th then s
        else if pushWaits s th then touch s t.blk (some th) r.rpc 16 (((trapPush s th).map (·.2)).getD [])
        else takeTrap s th r
      | none => s)

/-- BARRIER_REINSERT: the completion logic re-inserts a waiting thread (R333), unless its context is halted. -/
def execBarrierReinsert (th : Nat) (s : State) : Res :=
  .next (if s.stopped (s.thrCtx th) then s else reinsert s th)

end Sys2Proof.Machine
end

