-- ==== Sys2Proof/Machine/VFloat.lean ====
section
/-! DEFINITION. Class V, floating point (R184 to R202). -/

namespace Sys2Proof.Machine

/-- The stochastic draw of one rounding: the state after one step for .sr, and the state that the thread keeps (R187). -/
def Mb.draw (m : Mb) (r : Rnd) : W32 := if r = .sr then rngStep m.t.rngs else m.t.rngs

/-- A result rounded under a mode, with the exceptions it raised and the stepped state. -/
def fpOp (i : Instr) (r : Rnd) (f : Mb → W32 → Nat × Nat) (s : State) : Res :=
  compute i (fun m =>
    let (v, e) := f m (m.draw r)
    { toDst i v with raised := e, rng := some (m.draw r) }) s

/-- Both halves of a packed result (R197). -/
def packOp (i : Instr) (r : Rnd) (f : Mb → W32 → Nat → Nat × Nat) (s : State) : Res :=
  compute i (fun m =>
    let (v, e, g) := packed r m.t.rngs (f m)
    { toDst i v with raised := e, rng := some g }) s

/-- A predicate with the exceptions raised. -/
def fpPred (i : Instr) (f : Mb → Bool × Nat) (s : State) : Res :=
  compute i (fun m =>
    let (b, e) := f m
    { toPred i b with raised := e }) s

def Mb.f32 (m : Mb) (o : Opnd) : Nat := m.t.val (.fp Machine.f32) o
def Mb.f64 (m : Mb) (o : Opnd) : Nat := m.t.val (.fp Machine.f64) o
/-- The 16 bits at an offset of a packed operand. -/
def Mb.half (m : Mb) (f : Fmt) (o : Opnd) (at_ : Nat) : Nat := m.t.val (.packed f) o / 2 ^ at_ % 2 ^ 16

def execFadd (x : X) (r : Rnd) (ftz : Bool) (s : State) : Res :=
  fpOp (.fadd x r ftz) r (fun m d => fAdd f32 r ftz d (m.f32 x.sa) (m.f32 x.sb)) s

def execFsub (x : X) (r : Rnd) (ftz : Bool) (s : State) : Res :=
  fpOp (.fsub x r ftz) r (fun m d => fSub f32 r ftz d (m.f32 x.sa) (m.f32 x.sb)) s

def execFmul (x : X) (r : Rnd) (ftz : Bool) (s : State) : Res :=
  fpOp (.fmul x r ftz) r (fun m d => fMul f32 r ftz d (m.f32 x.sa) (m.f32 x.sb)) s

def execFfma (x : X) (r : Rnd) (ftz : Bool) (s : State) : Res :=
  fpOp (.ffma x r ftz) r (fun m d => fFma f32 r ftz d (m.f32 x.sa) (m.f32 x.sb) (m.f32 x.sc)) s

def execFmin (x : X) (ftz : Bool) (s : State) : Res :=
  fpOp (.fmin x ftz) .rne (fun m _ => fMinMax f32 false ftz (m.f32 x.sa) (m.f32 x.sb)) s

def execFmax (x : X) (ftz : Bool) (s : State) : Res :=
  fpOp (.fmax x ftz) .rne (fun m _ => fMinMax f32 true ftz (m.f32 x.sa) (m.f32 x.sb)) s

def execFsetp (x : X) (c : Cmp) (ftz : Bool) (s : State) : Res :=
  fpPred (.fsetp x c ftz) (fun m => fSetp f32 c ftz (m.f32 x.sa) (m.f32 x.sb)) s

def execFcls (x : X) (mask : BitVec 10) (ftz : Bool) (s : State) : Res :=
  fpPred (.fcls x mask ftz) (fun m => (mask.getLsbD (fClass f32 (f32.flush ftz (m.f32 x.sa))), 0)) s

def execFrnd (x : X) (r : Rnd) (ftz : Bool) (s : State) : Res :=
  fpOp (.frnd x r ftz) r (fun m _ => fRnd r ftz (m.f32 x.sa)) s

/-- The source of FCVT in its format (R63, R196). -/
def cvtSrc (f : FFmt) : Src :=
  match fmtOf f with
  | some g => .fp g
  | none => .int 32

def execFcvt (x : X) (d src : FFmt) (r : Rnd) (ftz : Bool) (s : State) : Res :=
  fpOp (.fcvt x d src r ftz) r (fun m g => fCvt d src r ftz g (m.t.val (cvtSrc src) x.sa)) s

/-- The packed format PK (R85). -/
def pk (bf : Bool) : Fmt := if bf then bf16 else f16

def execFadd2 (x : X) (bf : Bool) (r : Rnd) (ftz : Bool) (s : State) : Res :=
  packOp (.fadd2 x bf r ftz) r (fun m d o => fAdd (pk bf) r ftz d (m.half (pk bf) x.sa o) (m.half (pk bf) x.sb o)) s

def execFmul2 (x : X) (bf : Bool) (r : Rnd) (ftz : Bool) (s : State) : Res :=
  packOp (.fmul2 x bf r ftz) r (fun m d o => fMul (pk bf) r ftz d (m.half (pk bf) x.sa o) (m.half (pk bf) x.sb o)) s

def execFfma2 (x : X) (bf : Bool) (r : Rnd) (ftz : Bool) (s : State) : Res :=
  packOp (.ffma2 x bf r ftz) r (fun m d o =>
    fFma (pk bf) r ftz d (m.half (pk bf) x.sa o) (m.half (pk bf) x.sb o) (m.half (pk bf) x.sc o)) s

def execDadd (x : X) (r : Rnd) (s : State) : Res :=
  fpOp (.dadd x r) r (fun m d => fAdd f64 r false d (m.f64 x.sa) (m.f64 x.sb)) s

def execDmul (x : X) (r : Rnd) (s : State) : Res :=
  fpOp (.dmul x r) r (fun m d => fMul f64 r false d (m.f64 x.sa) (m.f64 x.sb)) s

def execDfma (x : X) (r : Rnd) (s : State) : Res :=
  fpOp (.dfma x r) r (fun m d => fFma f64 r false d (m.f64 x.sa) (m.f64 x.sb) (m.f64 x.sc)) s

def execDsetp (x : X) (c : Cmp) (r : Rnd) (s : State) : Res :=
  fpPred (.dsetp x c r) (fun m => fSetp f64 c false (m.f64 x.sa) (m.f64 x.sb)) s

/-! ### The special-function unit (R199 to R201) -/

/-- An SFU instruction: its exceptions are decided at issue, and each member's operation joins the core's SFU queue in lane order. -/
def sfuOp (i : Instr) (fn : Nat) (ftz : Bool) (s : State) : Res :=
  issue i {
    raised := fun _ m => (sfu fn ftz (m.f32 i.x.sa)).2,
    effect := fun s ms =>
      let (n, s) := s.newId
      ms.foldl (fun s m =>
        let a := m.f32 i.x.sa
        let s := stick s m.b.ctx (sfu fn ftz a).2
        (startOp s i m n [] (.sfu fn (BitVec.ofNat 32 a) ftz false) []).2) s } s

def execRcp (x : X) (ftz : Bool) (s : State) : Res := sfuOp (.rcp x ftz) 0 ftz s
def execRcpA (x : X) (ftz : Bool) (s : State) : Res := sfuOp (.rcpA x ftz) 1 ftz s
def execRsq (x : X) (ftz : Bool) (s : State) : Res := sfuOp (.rsq x ftz) 2 ftz s
def execRsqA (x : X) (ftz : Bool) (s : State) : Res := sfuOp (.rsqA x ftz) 3 ftz s
def execSqrt (x : X) (ftz : Bool) (s : State) : Res := sfuOp (.sqrt x ftz) 4 ftz s
def execEx2 (x : X) (ftz : Bool) (s : State) : Res := sfuOp (.ex2 x ftz) 5 ftz s
def execLg2 (x : X) (ftz : Bool) (s : State) : Res := sfuOp (.lg2 x ftz) 6 ftz s
def execSin (x : X) (ftz : Bool) (s : State) : Res := sfuOp (.sin x ftz) 7 ftz s
def execCos (x : X) (ftz : Bool) (s : State) : Res := sfuOp (.cos x ftz) 8 ftz s
def execTanh (x : X) (ftz : Bool) (s : State) : Res := sfuOp (.tanh x ftz) 9 ftz s

end Sys2Proof.Machine
end

