-- ==== Sys2Proof/Machine/Land.lean ====
section
/-! DEFINITION. What lands and what is accepted: loads (R227, R229, R230), shape loads (R174), SFU results (R199), sleeping threads
(R232), fences and probes (R342 to R344), stores and atomics at their point of coherence (R312, R320, R337 to R341). -/

namespace Sys2Proof.Machine

/-- Barriers that wait for what a release or an arrival carries are tested again (R331, R332). -/
def afterward (s : State) : State := if s.bars.any fun e => !e.2.owing.isEmpty then testBars s else s

/-- A context fault with this PC and this address stands recorded already. -/
def faultKnown (s : State) (ctx : Nat) (pc : W32) (va : Nat) : Bool :=
  let k := s.ctx ctx
  let same (r : Stop) : Bool := r.pc == pc && r.va == va
  k.deferredStops.any same || (k.halt.any fun h => same h.cause.stop || h.later.any same)

/-- A fault found after issue (R230), by its record. Where page service may map the page, the access stands, nothing waits for it, and its fault is
recorded once; otherwise it ends, and `drop` says how. DEDUCED: log 37. -/
def lateFail (s : State) (id ctx : Nat) (r : Stop) (svc : Bool) (drop : State → State) : State :=
  if svc && r.cause = 0x35 && (s.ctx ctx).fltpol.getLsbD 1 then
    if faultKnown s ctx r.pc r.va then s else raiseFault (forget s id) ctx { stop := r, service := true }
  else drop (raiseFault s ctx { stop := r, service := svc })

/-- The first thread of an operation in flight. -/
def Pend.thread (p : Pend) : Nat := ((p.parts.head?).map (·.th)).getD 0

/-- The record of an operation's fault at an address (R401). -/
def Pend.stopAt (s : State) (p : Pend) (f : Fail) (va : Nat) : Stop := lateStop s p.thread p.core f.cause p.pc va f.line

/-- The record of a store's fault: its thread's, or the copy engine's of its cluster for a store that no thread issued (R401). -/
def Store.stopAt (s : State) (st : Store) (f : Fail) : Stop :=
  match st.th with
  | some u => lateStop s u st.core f.cause st.pc st.va f.line
  | none => engineStop s { core := st.core, ctx := st.ctx, blk := st.blk, th := none, pc := st.pc } 3 (clusterOf st.core) f.cause st.va f.line 0

/-- The words of a value for a destination (R227). -/
def valWords (t : ITy) (v : Nat) : List W32 :=
  let x := ITy.write t (ITy.value t v)
  [BitVec.ofNat 32 x, BitVec.ofNat 32 (x / 2 ^ 32)]

/-! ### Loads -/

/-- The word of the store's read view at an offset (R144, R149): in a Loading page it is zero, or, once the load engine has read it, the new
word, as a free choice says; past the overlay's length it is zero. DEDUCED: log 44. -/
def storeWord (s : State) (core off : Nat) : List Byte :=
  let k := s.core core
  match k.home.look (off / 4096) with
  | some (.loading _ _) =>
    match k.fetched.look off with
    | some w => if Config.pick (s.fresh + off) % 2 = 0 then List.replicate 8 0 else w
    | none => List.replicate 8 0
  | _ => k.store.readN off 8

/-- Bytes of the store's read view. -/
def storeView (s : State) (core off n : Nat) : List Byte := ((storeWord s core (off / 8 * 8)).drop (off % 8)).take n

/-- What a load returns, with the pending stores that it reads from. -/
def loadData (s : State) (id : Nat) (p : Pend) (sp : Space) (path va off n : Nat) : Except Fail (List Byte × List Nat) :=
  match sp with
  | .weight ctx => (weightBytes s ctx (bits va 59 48) off n).map fun b => (b, [])
  | .store core => .ok (storeView s core off n, [])
  | _ => if path = 6 then .ok (leBytes n (porterRead s off n), []) else readFwdAt s (some id) p.core (some p.thread) sp va off n

/-- A load in flight has read: its thread observes what it read from, and so does everything whose prefix holds it (R315, R317, R323). -/
def takeSeen (s : State) (id : Nat) (p : Pend) (acq : Option Scope) (from_ : List Nat) (sp : Space) (start n : Nat) : State :=
  let x := seenBy s p.thread acq from_ sp start n
  inherit (observe (cacheUsed s.draw.2 sp start) p.thread x) id x

/-- Destination words as one number. -/
def ofWords (l : List W32) : Nat := l.foldr (fun w n => w.toNat + 2 ^ 32 * n) 0

/-- The same for a store that is accepted. -/
def keepStore (s : State) (id : Nat) (st : Store) : State :=
  if st.issue = 0 then s
  else if othersOut s st.issue id then { s with redoStores := s.redoStores ++ [st] }
  else { s with redoLoads := s.redoLoads.filter (·.issue != st.issue), redoStores := s.redoStores.filter (·.issue != st.issue) }

/-- LD_DATA_LANDS: an acquire or a plain load takes what it reads from into its observed set, a weight load is counted (R240). -/
def execLdDataLands (id : Nat) (s : State) : Res :=
  .next (match s.pend.look id with
    | none => s
    | some p => match p.op with
      | .ld sp path va off t acq =>
        if !s.ready p.after then s
        else match loadData s id p sp path va off t.bytes with
          | .error f => lateFail s id p.ctx (p.stopAt s f va) true fun s => landNone s id
          | .ok (b, from_) =>
            let s := takeSeen s id p acq from_ sp (if path = 0 then va else off) t.bytes
            let s := if path = 4 then countWeight s p.ctx (bits va 59 48) t.bytes else s
            let ws := valWords t (ofLe b)
            afterward (landAll (keepLoad s id p (ofWords ws)) id ws)
      | _ => s)

/-- SHLD reads its 64 bytes as eight words with no order among them (R174): one word is read. -/
def shldWord (s : State) (id k : Nat) (p : Pend) (sp : Space) (path va off : Nat) : Except Fail (State × List Byte) :=
  match readFwdAt s (some id) p.core (some p.thread) sp (va + 8 * k) (off + 8 * k) 8 with
  | .error f => .error f
  | .ok (b, from_) => .ok (takeSeen s id p none from_ sp ((if path = 0 then va else off) + 8 * k) 8, b)

/-- A word of an SHLD is read before the others (R174). -/
def shldBurst (s : State) (id k : Nat) : State :=
  match s.pend.look id with
  | none => s
  | some p => match p.op with
    | .shld q sp path va off got =>
      if !s.ready p.after || got.has k || 8 ≤ k then s
      else match shldWord s id k p sp path va off with
        | .error _ => s
        | .ok (s, b) => { s with pend := s.pend.upd id fun p => { p with op := .shld q sp path va off (got.put k b) } }
    | _ => s

/-- The words of an SHLD that are still to be read, in order. -/
def shldRest (id : Nat) (p : Pend) (sp : Space) (path va off : Nat) : List Nat → State × AMap (List Byte) → Except Fail (State × AMap (List Byte))
  | [], x => .ok x
  | k :: l, (s, got) =>
    if got.has k then shldRest id p sp path va off l (s, got)
    else match shldWord s id k p sp path va off with
      | .error f => .error f
      | .ok (s, b) => shldRest id p sp path va off l (s, got.put k b)

/-- SHLD_DATA_LANDS: all 512 bits of the block's register (R174). DEDUCED: log 43. -/
def execShldDataLands (id : Nat) (s : State) : Res :=
  .next (match s.pend.look id with
    | none => s
    | some p => match p.op with
      | .shld q sp path va off got =>
        if !s.ready p.after then s
        else match shldRest id p sp path va off (List.range 8) (s, got) with
          | .error f => lateFail s id p.ctx (p.stopAt s f va) true fun s => landNone s id
          | .ok (s, got) =>
            let b := (List.range 8).flatMap fun k => got.lookD k []
            let s := s.updBlk p.blk fun x => { x with q := x.q.put q (BitVec.ofNat 512 (ofLe b)) }
            afterward (landAll (keepLoad s id p 0) id [])
      | _ => s)

/-- ATOMIC_VALUE_LANDS: the old value lands after the operation was performed (R338, R339). -/
def execAtomicValueLands (id : Nat) (s : State) : Res :=
  .next (match s.pend.look id with
    | none => s
    | some p => match p.op with
      | .atom _ t (some v) _ => afterward (landAll s id (valWords t v))
      | _ => s)

/-! ### SFU (R199) -/

/-- The operations of a core that wait for acceptance, in issue order. -/
def sfuWaiting (s : State) (core : Nat) : List Nat :=
  AMap.sel s.pend fun _ p => p.core == core && match p.op with
    | .sfu _ _ _ acc => !acc
    | _ => false

/-- SFU_QUEUE_ACCEPT: the 16 oldest. -/
def execSfuQueueAccept (core : Nat) (s : State) : Res :=
  .next { s with pend := ((sfuWaiting s core).take 16).foldl (fun m id => m.upd id fun p =>
    { p with op := match p.op with
        | .sfu fn a ftz _ => .sfu fn a ftz true
        | o => o }) s.pend }

def execSfuResultLands (id : Nat) (s : State) : Res :=
  .next (match s.pend.look id with
    | none => s
    | some p => match p.op with
      | .sfu fn a ftz true => landAll s id [BitVec.ofNat 32 (sfu fn ftz a.toNat).1]
      | _ => s)

/-! ### WAITMEM (R232) -/

/-- A sleeping thread as a member of a set. -/
def sleeper (s : State) (u : Nat) : Option Mb :=
  (s.threads.look u).bind fun t => (s.blocks.look t.blk).map fun b => ⟨u, t, b⟩

/-- The WAITMEM of a sleeping thread completes: frees, the destination, and the next instruction. -/
def wakeDone (s : State) (i : Instr) (x : X) (acq : Bool) (sc : Scope) (t : ITy) (m : Mb) : State :=
  let s := waitDone (freeRegs s i [m]) i x acq sc t m
  let c := s.core m.b.core
  let off := pcOff m.t.pc
  match c.header off with
  | none => becomeReady s m.u
  | some h =>
    let pc := afterPc c h off (pcSlot m.t.pc + slotsOf i)
    let s := s.updThr m.u fun t => { t with pc := pc }
    if m.t.ss then beginTrap s m.u { cause := 3, code := 0, flags := 0, detail := m.t.pc.toNat, rpc := pc }
    else becomeReady s m.u

/-- A re-read follows what any load of the thread follows (R225). -/
def waitBlocked (s : State) (x : X) (t : ITy) (m : Mb) : Bool :=
  let a := m.addr x.sa x.sb
  !(loadAfter s m.u (selOf a) (spaceOf m.b (selOf a)) (if selOf a = 0 then a else offOf a) t.bytes).isEmpty

/-- WAITMEM_WAKE: a re-read, which finds the expected value again or completes. -/
def execWaitmemWake (th : Nat) (s : State) : Res :=
  .next (match sleeper s th with
    | none => s
    | some m => match m.t.st with
      | .sleeping (.waitmem x acq sc t) =>
        if s.stopped m.b.ctx || waitBlocked s x t m then s
        else match waitRead s x t m with
          | .error f => lateFail s 0 m.b.ctx (lateStop s th m.b.core f.cause m.t.pc (m.addr x.sa x.sb) f.line) true id
          | .ok (b, _) => if ofLe b = m.t.ival t x.sc then s.draw.2 else (wakeDone s (.waitmem x acq sc t) x acq sc t m).draw.2
      | _ => s)

/-! ### Fences and probes (R319, R342 to R344) -/

/-- FENCE_COMPLETE: what the fence waits for is performed as its scope asks (R310). A FENCE.SC takes its place in S, and what earlier ones in S carried is observed. -/
def execFenceComplete (th id : Nat) (s : State) : Res :=
  .next (match s.threads.look th with
    | none => s
    | some t => match t.fences.find? (·.id == id) with
      | none => s
      | some f =>
        if !f.waits.all (s.passed f.scope) then s
        else
          let s := s.updThr th fun t => { t with fences := t.fences.filter (·.id != id) }
          if !f.sc then s
          else
            let log := s.scLog.filter fun e => !(s.live e.pfx).isEmpty
            let me := placeOf s th
            let mine := log.filter fun e => inMutual s f.scope me e.scope ⟨e.core, e.blk, e.gang⟩
            let s := observe s th { ids := mine.flatMap (·.pfx), rts := mine.flatMap (·.rts) }
            { s with scLog := log ++ [{ core := me.core, blk := me.blk, gang := me.gang, scope := f.scope, pfx := s.live f.pfx, rts := f.rts }] })

/-- PROBE_COMPLETE: every probe has returned (R323, R344). -/
def execProbeComplete (id : Nat) (s : State) : Res :=
  .next (match s.pend.look id with
    | none => s
    | some p => match p.op with
      | .probe waits n => if s.allDone waits then landAll s id [BitVec.ofNat 32 n] else s
      | _ => s)

/-! ### Points of coherence (R312, R337 to R341) -/

/-- The operations of R338, on raw values. -/
def applyAop (op : Aop) (t : ITy) (old b : Nat) : Nat :=
  let n := t.width
  let half (f : Nat → Nat → Nat) : Nat := f (old % 2 ^ 16) (b % 2 ^ 16) + f (old / 2 ^ 16 % 2 ^ 16) (b / 2 ^ 16 % 2 ^ 16) * 2 ^ 16
  match op with
  | .add => (old + b) % 2 ^ n
  | .min => if ITy.value t b < ITy.value t old then b % 2 ^ n else old
  | .max => if ITy.value t old < ITy.value t b then b % 2 ^ n else old
  | .and => old &&& b % 2 ^ n
  | .or => old ||| b % 2 ^ n
  | .xor => old ^^^ b % 2 ^ n
  | .exch => b % 2 ^ n
  | .fadd => (fAdd f32 .rne false 0 old b).1
  | .fmin => (fMinMax f32 false false old b).1
  | .fmax => (fMinMax f32 true false old b).1
  | .fadd2h => half fun x y => (fAdd f16 .rne false 0 x y).1
  | .fadd2b => half fun x y => (fAdd bf16 .rne false 0 x y).1

/-- What an operation writes over an old value; `none` where it writes nothing (R339). -/
def Access.result (a : Access) (old : Nat) : Option Nat :=
  match a with
  | .plain b => some (ofLe b)
  | .rmw op t b => some (applyAop op t old b)
  | .cas _ e w => if old = e then some w else none

/-- The store ends in the core's port without effect (R227, R230). -/
def dropStore (s : State) (id : Nat) (st : Store) : State :=
  let s := { s with stores := s.stores.del id }
  match st.ret with
  | some r => landNone s r
  | none => s

/-- An accepted store leaves the core's port; while what it carries is in flight, the reads of its bytes can take that up (R313, R317, R318). -/
def noteRelease (s : State) (id : Nat) (st : Store) (l : Loc) : State :=
  let me := st.place s
  let s := keepStore { s with stores := s.stores.del id } id st
  let open' (r : Rel) : Bool := !(s.live (r.pfx ++ r.fpfx.flatMap (·.pfx))).isEmpty
  let r : Rel := { loc := l, len := st.acc.len, core := me.core, blk := me.blk, gang := me.gang, rel := st.rel, pfx := s.live st.pfx, rts := st.rts,
                   fpfx := st.fpfx.filter fun f => !(s.live f.pfx).isEmpty }
  { s with rels := s.rels.filter open' ++ if open' r then [r] else [] }

/-- An atomic that returns its old value has read it: its thread observes, and what holds the operation in its prefix takes it up. -/
def atomSeen (s : State) (id r : Nat) (st : Store) : State :=
  let acq := (s.pend.look r).bind fun p => match p.op with
    | .atom _ _ _ q => q
    | _ => none
  match st.th with
  | none => s
  | some u =>
    let x := seenBy s u acq [] st.space st.start st.acc.len
    inherit (inherit (observe s u x) id x) r x

/-- The old value reaches the operation that waits for it. -/
def giveOld (s : State) (r old : Nat) : State :=
  { s with pend := s.pend.upd r fun p => { p with op := match p.op with
      | .atom x t _ q => .atom x t (some old) q
      | o => o } }

/-- The route by which an access wrote its bytes stands with them (R323). -/
def traced (s : State) (st : Store) (l : Loc) : State := noteTrace s l st.acc.len ((locUnit s l).map (routeKey st.core))

/-- A store, atomic or reduction at its place. DEDUCED: log 45. -/
def acceptAt (s : State) (id : Nat) (st : Store) (l : Loc) : State :=
  match st.acc, l with
  | .plain b, _ => afterward (noteRelease (traced (plainWrite s l b) st l) id st l)
  | _, .device _ _ => lateFail s id st.ctx (st.stopAt s ⟨0x26, 0⟩) false fun s => dropStore s id st
  | a, _ => match locRead s l a.len with
    | .error f =>
      if st.ret.isSome then lateFail s id st.ctx (st.stopAt s f) false fun s => dropStore s id st
      else afterward (noteRelease (discardAt s l) id st l)
    | .ok b =>
      let old := ofLe b
      let s := match st.ret with
        | some r => giveOld (atomSeen s id r st) r old
        | none => s
      let s := match a.result old with
        | some v => traced (locWrite s l (leBytes a.len v) st.ret.isNone) st l
        | none => s
      afterward (noteRelease s id st l)

/-- A reduction that may be accepted at a line now. -/
def redAt (s : State) (line : Nat) (st : Store) : Option Loc :=
  if st.acc.isPlain || st.ret.isSome || st.held || !s.ready st.after then none
  else match resolve s st.space st.va st.off true with
    | .ok (.hbm pa) => if lineOf pa = line then some (.hbm pa) else none
    | _ => none

/-- Reductions that meet at a controller are merged into one, by a free choice: they are performed together and owe one line write (R296,
R320). DEDUCED: log 46. -/
def mergeReds (s : State) (line : Nat) : State :=
  s.stores.foldl (fun s e => match s.stores.look e.1 with
    | some st => match redAt s line st with
      | some l => if Config.place s.fresh e.1 % 2 = 1 then { acceptAt s e.1 st l with wq := s.wq } else s
      | none => s
    | none => s) s

/-- WRITE_QUEUE_ACCEPT: the point of coherence accepts a store, atomic or reduction (R295, R312). A store whose page is not present
stands until page service maps it (R404). -/
def execWriteQueueAccept (id : Nat) (s : State) : Res :=
  .next (match s.stores.look id with
    | none => s
    | some st =>
      if st.held || !s.ready st.after then s
      else match resolve s st.space st.va st.off true with
        | .error f =>
          if st.core = Config.cores then dropStore s id st
          else lateFail s id st.ctx (st.stopAt s f) st.acc.isPlain fun s => dropStore s id st
        | .ok l =>
          if !queueRoom s l then s
          else
            let red := !st.acc.isPlain && st.ret.isNone
            let s := acceptAt s id st l
            let s := match l with
              | .hbm pa => if red then mergeReds s (lineOf pa) else s
              | _ => s
            cacheUsed s.draw.2 st.space st.va)

end Sys2Proof.Machine
end

