-- ==== Sys2Proof/Machine/Hbm.lean ====
section
/-! DEFINITION. HBM below acceptance: line writes with their counters and the counter tree (R296 to R301), array reads (R302), and row
sparing (R304, R305). -/

namespace Sys2Proof.Machine

/-! ### The metadata structures (R297 to R299)

State holds the counters, versions and frame fields once; the lines of the metadata area, with their tags, are views of them, so that a line
write that changes a counter changes every tag of its path (R298). -/

/-- Fields of `w` bits each, the first lowest. -/
def packFields (w : Nat) (l : List Nat) : Nat := (l.zipIdx.map fun e => e.1 % 2 ^ w * 2 ^ (w * e.2)).sum

/-- The counter line of a frame: MAJOR, then 64 minors of 7 bits (R297). -/
def Frame.counterLine (f : Frame) : Nat := f.major % 2 ^ 64 + 2 ^ 64 * packFields 7 ((List.range 64).map f.minorOf)

/-- The tag of `n` bits that the module's metadata key gives a structure, its tag fields read as zero: the parent's version stands for MAJOR, and
the minor is zero (R299). DEDUCED: log 62. -/
def metaTag (s : State) (n level number version own : Nat) : Nat :=
  let pa := Config.metaAddress level number
  lineTag n s.metaKey pa version 0 (lineCipher s.metaKey pa version 0 (leBytes 64 own))

/-- CTAG of a frame's counter line, under the VER of its level-1 field (R299). -/
def ctag (s : State) (frame : Nat) : Nat :=
  metaTag s 56 0 frame (s.ver1.lookD frame 0) (s.frames.lookD frame {}).counterLine

/-- What the array holds of a line: the queue holds the bytes of writes that are still pending (R295). -/
def arrayLine (s : State) (line : Nat) : List Byte :=
  match popLine s.wq line with
  | some (w, _) => w.old
  | none => s.hbm.readN (line * 64) 64

/-- The tag that stands beside a line: of its ciphertext under the key of the frame's KEYID, inverted where the line stays poison (R299, R303); zero in
a frame that nothing has initialised since bring-up zeroed the metadata (R432). DEDUCED: log 14. -/
def dataTag (s : State) (line : Nat) : Nat :=
  let f := s.frames.lookD (line / 64) {}
  let k := s.keys.lookD f.keyid 0
  if !s.frames.has (line / 64) || f.zp && f.major = 0 then 0 else
  let t := lineTag 56 k (line * 64) f.major (f.minorOf (line % 64))
    (lineCipher k (line * 64) f.major (f.minorOf (line % 64)) (arrayLine s line))
  if s.poison.contains line then 2 ^ 56 - 1 - t else t

/-- Tag line `k` of a frame: the tags of lines 8k to 8k + 7, and in tag line 0 also CTAG (R297). -/
def tagLine (s : State) (frame k : Nat) : Nat :=
  packFields 56 ((List.range 8).map fun i => dataTag s (frame * 64 + 8 * k + i)) + (if k = 0 then ctag s frame * 2 ^ 448 else 0)

/-- Level-1 field of a frame: VER, KEYID and ZP (R297). -/
def frameField (s : State) (frame : Nat) : Nat :=
  let f := s.frames.lookD frame {}
  s.ver1.lookD frame 0 % 2 ^ 40 + f.keyid % 2 ^ 12 * 2 ^ 40 + f.zp.toNat * 2 ^ 52

/-- The eight fields of a node of a level and the version of its parent (R297). -/
def nodeFields (s : State) (level number : Nat) : List Nat × Nat :=
  let at8 := fun f : Nat → Nat => (List.range 8).map fun i => f (8 * number + i)
  if level = 1 then (at8 (frameField s), s.ver2.lookD number 0)
  else if level = 2 then (at8 fun n => s.ver2.lookD n 0, s.ver3.lookD number 0)
  else (at8 fun n => s.ver3.lookD n 0, s.root.lookD number 0)

/-- NTAG of a node, bound to its parent's version (R298, R299). -/
def ntag (s : State) (level number : Nat) : Nat :=
  metaTag s 64 level number (nodeFields s level number).2 (packFields 56 (nodeFields s level number).1)

/-- A node's line: its fields, with NTAG at bits 511 to 448 (R297). DEDUCED: log 14. -/
def nodeLine (s : State) (level number : Nat) : Nat := packFields 56 (nodeFields s level number).1 + ntag s level number * 2 ^ 448

/-! ### LINE_READ (R302) -/

/-- A record of a failed check of the counter tree, in the logs of the contexts that own the frames (R298, R399). -/
def treeRecords (s : State) (frames : List Nat) (pa : Nat) : State :=
  let owners := (frames.filterMap fun f => (s.frames.look f).map (·.keyid)).eraseDups.filter fun k => k != 0 && s.ctxs.has k
  owners.foldl (fun s c => writeStop s c { engine := 6, cause := 0x38, unit := ownerOf pa, lcyc := localAt (Config.cores + ownerOf pa) s.clock }) s

/-- A node or counter line that fails its check: every line that it covers reads as poison until the steward rewrites the subtree (R298). The
level is a free choice. DESIGN CHOICE: log 15. -/
def treeFails (s : State) (frame : Nat) : State :=
  let n := [1, 8, 64, 512].getD (Config.pick s.fresh % 4) 1
  let fs := (s.frames.filter fun e => e.1 / n == frame / n && !e.2.zp).map (·.1)
  treeRecords { s with treeBad := if s.treeBad.contains (n, frame / n) then s.treeBad else s.treeBad ++ [(n, frame / n)] } fs (frame * 4096)

/-- The steward rewrites a subtree: its lines check again as they stand (R298). -/
def mendTree (s : State) (n k : Nat) : State := { s with treeBad := s.treeBad.filter (· != (n, k)) }

/-- Row of a line within its stack (R304). DEDUCED: log 16. -/
def rowOf (line : Nat) : Nat := line % 2 ^ 30 / 32

def State.stack (s : State) (n : Nat) : StackRec := s.stackRecs.lookD n {}

/-- Poisons a line that the array reports as uncorrectable. -/
def spoil (s : State) (line : Nat) : State :=
  match s.frames.look (line / 64) with
  | some f => if f.zp then s else { s with poison := NSet.add s.poison line }
  | none => s

/-- The array decrypts and checks a line (R301, R302): a corrected error is counted for its row, an uncorrectable one and a failed node leave it
poison. In a frame with ZP = 1 nothing is checked. -/
def arrayCheck (s : State) (line : Nat) : State :=
  let f := s.frames.lookD (line / 64) {}
  let e := Config.arrayError s.fresh
  let s := s.draw.2
  if f.zp && s.frames.has (line / 64) then s
  else if e = 1 then
    let k := stackOf (line * 64)
    let r := s.stack k
    { s with stackRecs := s.stackRecs.put k { r with errors := r.errors.put (rowOf line) (r.errors.lookD (rowOf line) 0 + 1) } }
  else if e = 2 then spoil s line
  else if e = 3 then treeFails s (line / 64)
  else s

/-- LINE_READ: a line that is pending is served from the queue (R295), and else from the array. -/
def execLineRead (line : Nat) (s : State) : Res :=
  let s := if s.wq.any (fun w => w.line == line) then s.draw.2 else arrayCheck s line
  .next { s with lineOut := some (line, hbmRead s (line * 64) 64) }

/-- LINE_WRITE (R301): it begins with a checked read of the line (R298). -/
def execLineWrite (line : Nat) (s : State) : Res :=
  .next (if s.wq.any (fun w => w.line == line) then lineWrite (arrayCheck s line) line else s.draw.2)

/-! ### Row sparing (R304, R305) -/

def spareRows : Nat := 1024
def rowLines : Nat := 32

/-- A measured item has changed (R307). -/
def measuredChange (s : State) : State := { s with steward := { s.steward with changes := s.steward.changes + 1 } }

/-- SPARING_COPY_START: at 16 corrected errors or on a management request. A row that finds no spare is reported. The count of used spares is a
measured item (R306, R307). -/
def execSparingCopyStart (stack row : Nat) (s : State) : Res :=
  let r := s.stack stack
  .next (if 16 ≤ stack || 2 ^ 25 ≤ row || r.copying.has row || r.repair.any (fun e => e.1 == row) then s
    else if r.used = spareRows then s.emit (.report 0x38 stack row)
    else measuredChange { s with
      stackRecs := s.stackRecs.put stack { r with used := r.used + 1, copying := r.copying.put row { p := 0, spare := r.used } } })

/-- SPARING_LINE_COPY: the next line of a row is copied raw; a line that is uncorrectable stands with its tag inverted. After the last
line the row enters the repair table, a measured item (R305, R307). -/
def execSparingLineCopy (stack row : Nat) (s : State) : Res :=
  let r := s.stack stack
  .next (match r.copying.look row with
    | none => s
    | some c =>
      let line := stack * 2 ^ 30 + row * rowLines + c.p
      let bad := Config.arrayError s.fresh = 2
      let s := s.draw.2
      let s := if bad then spoil s line else s
      let r := if c.p + 1 = rowLines then
          { r with copying := r.copying.del row, repair := r.repair ++ [(row, c.spare, r.repair.length)], errors := r.errors.del row }
        else { r with copying := r.copying.put row { c with p := c.p + 1 } }
      let s := { s with stackRecs := s.stackRecs.put stack r }
      if c.p + 1 = rowLines then measuredChange s else s)

end Sys2Proof.Machine
end

