-- ==== Sys2Proof/Machine/Fabric.lean ====
section
/-! DEFINITION. The fabric's side of class R (R325, R348, R354, R355) and class L (R356 to R359), and station lanes (R347). -/

namespace Sys2Proof.Machine

/-- The context that holds a fabric domain (R348). -/
def domainCtx (s : State) (d : W16) : Option Nat := (s.ctxs.find? fun e => e.2.domain == d && !e.2.ended).map (·.1)

/-! ### Serving a class R request (R354, R355) -/

def isDevice : Loc → Bool
  | .device _ _ => true
  | _ => false

/-- A reduction at a place: its old value is replaced, and poison discards it. -/
def reduceAt (s : State) (l : Loc) (t : ITy) (op : Aop) (v : Nat) : State :=
  match locRead s l t.bytes with
  | .ok b => locWrite s l (leBytes t.bytes (applyAop op t (ofLe b) v)) true
  | .error _ => discardAt s l

/-- The flag of a REMST, checked before its data is accepted: HBM that may be written (R355). DEDUCED: log 48. -/
def flagLoc (s : State) (ctx : Nat) (flag : Option Nat) : Option (Option Loc) :=
  match flag with
  | none => some none
  | some f => match resolve s (.global ctx) f f true with
    | .ok l => if isDevice l then none else some (some l)
    | .error _ => none

/-- A request of this module that has come back through the loopback (R348): its operation in flight. -/
def loopPend (s : State) (r : RemReq) : Option Pend := if r.src = s.steward.accid then s.pend.look r.id else none

/-- An RLD that comes back through the loopback has read: an acquire among them synchronises with the release whose value it reads, once the data lands
(R348, R354, R355). DEDUCED: log 48. -/
def loopSeen (s : State) (r : RemReq) (ctx n : Nat) : State :=
  match loopPend s r with
  | some p => match p.op with
    | .rld _ _ _ _ acq => { s with pend := s.pend.put r.id { p with seen := seenBy s p.thread acq [] (.global ctx) r.va n } }
    | _ => s
  | none => s

/-- The thread of a request of this module. -/
def loopThread (s : State) (r : RemReq) : Option Nat := (loopPend s r).map (·.thread)

/-- A place outside every die, for a thread of another module. -/
def foreign : Place := ⟨Config.cores, 0, 64⟩

/-- What a request's store leaves at its place to be read with its value: the release that it is on the issuing side (R354), and the route of a request of
this module (R323, R349). A release whose prefix another module holds leaves none: that module's request came after it. -/
def remNote (s : State) (r : RemReq) (l : Loc) (n : Nat) : State :=
  match loopPend s r with
  | some p => match p.op with
    | .rst _ tgt _ _ _ rel pfx rts =>
      let me := placeOf s p.thread
      let s := noteTrace s l n (some (routeKey p.core (32 + tgt)))
      if rel.isNone || (s.live pfx).isEmpty then s
      else { s with rels := s.rels ++ [{ loc := l, len := n, core := me.core, blk := me.blk, gang := me.gang, rel := rel, pfx := s.live pfx, rts := rts }] }
    | _ => s
  | none => s

/-- A request's store to device memory is shown to its own thread alone, until a system-scope fence or release of its module carries it (R324): the record
stands here, held; for a thread of this module it is that thread's store. DEDUCED: log 48. -/
def holdRemote (s : State) (r : RemReq) (ctx : Nat) (b : List Byte) : Nat × State :=
  let p := loopPend s r
  let core := (p.map (·.core)).getD Config.cores
  let st : Store := {
    core := core, ctx := ctx, blk := (p.map (·.blk)).getD 0, th := p.map (·.thread), issue := 0, lines := [], pc := (p.map (·.pc)).getD 0,
    space := .global ctx, path := 0, va := r.va, off := r.va, acc := .plain b, ret := none, rel := none, pfx := [],
    after := overlapStores s core 0 (.global ctx) r.va b.length, dev := true, held := true }
  let (id, s) := s.newId
  (id, { s with stores := s.stores.put id st })

/-- The data of a REMST is accepted, or held; with the record that is held. -/
def remData (s : State) (r : RemReq) (ctx : Nat) (l : Loc) (b : List Byte) : List Nat × State :=
  if isDevice l then let (id, s) := holdRemote s r ctx b
    ([id], s)
  else ([], remNote (plainWrite s l b) r l b.length)

/-- The flag increment of a REMST, after its data: a release at module scope whose prefix is that data (R325). -/
def raiseRemFlag (s : State) (r : RemReq) (data : List Nat) (f : Option Loc) : State :=
  match f with
  | none => s
  | some g =>
    let s := remNote (reduceAt (makeRoom s g) g .n32 .add 1) r g 4
    if data.isEmpty then s
    else
      let it := ((loopThread s r).map (placeOf s)).getD foreign
      { s with rels := s.rels ++ [{ loc := g, len := 4, core := it.core, blk := it.blk, gang := it.gang, rel := some .module, pfx := data }] }

/-- REMOTE_REQUEST_SERVE: a request that is refused has no effect and is answered with a NAK; data is accepted before its flag (R325). A load of this
module reads device memory as its thread sees it (R324). -/
def execRemoteRequestServe (r : RemReq) (s : State) : Res :=
  .next (match domainCtx s r.domain, r.op with
    | none, .load _ => s.emit (.remoteReply r.id .nak)
    | none, _ => s.emit (.remoteAck r.id true)
    | some c, .load n => match resolve s (.global c) r.va r.va false with
      | .error _ => s.emit (.remoteReply r.id .nak)
      | .ok l => match locRead (ownView s (loopThread s r)) l n with
        | .ok b => (loopSeen s r c n).draw.2.emit (.remoteReply r.id (.data (ofLe b)))
        | .error f => s.emit (.remoteReply r.id (.poison f.line))
    | some c, .store b flag => match resolve s (.global c) r.va r.va true, flagLoc s c flag with
      | .ok l, some f =>
        if !queueRoom s l || (f.any fun g => !queueRoom s g) then s
        else
          let (data, s) := remData s r c l b
          (raiseRemFlag s r data f).draw.2.emit (.remoteAck r.id false)
      | _, _ => s.emit (.remoteAck r.id true)
    | some c, .red op t v => match resolve s (.global c) r.va r.va true with
      | .ok l =>
        if isDevice l then s.emit (.remoteAck r.id true)
        else if !queueRoom s l then s
        else (remNote (reduceAt s l t op v) r l t.bytes).draw.2.emit (.remoteAck r.id false)
      | .error _ => s.emit (.remoteAck r.id true))

/-- A system-scope fence or release of another module completes there: a store of its thread that is held here goes on to its device (R324).
 DEDUCED: log 48. -/
def carryRemote (s : State) (id : Nat) : State :=
  if (s.stores.look id).any fun st => st.core == Config.cores then unhold s [id] else s

/-! ### What comes back (R351, R354, R355, R360) -/

/-- The cycle at which a request times out. -/
def remoteDue (s : State) (p : Pend) : Nat := p.at_ + 2 ^ bits (s.ctx p.ctx).fabcfg.toNat 4 0

/-- Sets a bit of the block's FABST: 0 TMO, 1 NAK. -/
def setFabst (s : State) (blk n : Nat) : State := s.updBlk blk fun b => { b with fabst := b.fabst ||| (1#32 <<< n) }

/-- A refused or timed-out RLD lands all ones of its bytes. -/
def allOnes (t : ITy) : List W32 := valWords t (2 ^ t.width - 1)

/-- The effective address of an access on path 0x5 (R354). -/
def farAddr (tgt va : Nat) : Nat := 5 * 2 ^ 60 + tgt * 2 ^ 50 + va

/-- RLD_RESPONSE_LANDS: a response that comes after the timeout is discarded. -/
def execRldResponseLands (id : Nat) (r : RemResp) (s : State) : Res :=
  .next (match s.pend.look id with
    | none => s
    | some p => match p.op with
      | .rld _ tgt va t _ =>
        if remoteDue s p < s.clock then s
        else afterward (match r with
          | .data v => landAll (inherit (observe s p.thread p.seen) id p.seen) id (valWords t v)
          | .nak => landAll (setFabst s p.blk 1) id (allOnes t)
          | .poison l => landNone (faultLate s p.thread p.core p.pc p.ctx ⟨0x29, l⟩ (farAddr tgt va)) id)
      | _ => s)

/-- REMOTE_TIMEOUT: no response within 2^RTO cycles of issue. -/
def execRemoteTimeout (id : Nat) (s : State) : Res :=
  .next (match s.pend.look id with
    | none => s
    | some p =>
      if s.clock < remoteDue s p then s
      else match p.op with
        | .rld _ _ _ t _ => afterward (landAll (setFabst s p.blk 0) id (allOnes t))
        | .rst .. => afterward (landNone (setFabst s p.blk 0) id)
        | _ => s)

/-- REMOTE_ACKNOWLEDGEMENT: the entry of a REMST or REMRED is released; after a timeout there is none. -/
def execRemoteAcknowledgement (id : Nat) (nak : Bool) (s : State) : Res :=
  .next (match s.pend.look id with
    | none => s
    | some p => match p.op with
      | .rst .. =>
        if remoteDue s p < s.clock then s
        else afterward (landNone (if nak then setFabst s p.blk 1 else s) id)
      | _ => s)

/-! ### Class L at the sender (R356) -/

/-- The first packet of a list that a station holds. -/
def takeSending (l : List Sending) (p : Packet) : Option (Sending × List Sending) :=
  match l with
  | [] => none
  | x :: rest => if x.packet = p then some (x, rest) else (takeSending rest p).map fun (y, r) => (y, x :: r)

/-- CLASS_L_SEND_EXPIRY: the station lets go of a packet that it holds, dropping it once its lifetime has passed and else transmitting
it. -/
def execClassLSendExpiry (p : Packet) (s : State) : Res :=
  .next (match takeSending s.sending p with
    | none => s
    | some (x, rest) =>
      let s := { s with sending := rest }
      if p.sent + 2 ^ p.lttl ≤ s.clock then s else s.emit (.lossy x.station x.target p))

/-! ### Class L at the receiver (R357 to R359) -/

/-- A buffer's header, of 256 bytes. -/
def headerBad (h : List Byte) : Bool :=
  recNat h 14 1 = 0 || 64 < recNat h 14 1 || recNat h 16 4 < 256 || 2 ^ 24 < recNat h 16 4 || 3 < recNat h 15 1
    || (h.drop 28).any (· != 0)

/-- Where a buffer stands: its context, virtual base and physical header address. -/
structure Buf where
  ctx : Nat
  va : Nat
  pa : Nat
  hdr : List Byte
  deriving DecidableEq, Repr

/-- The buffer of a packet, if its context and header can be reached. -/
def bufOf (s : State) (p : Packet) : Option Buf :=
  (domainCtx s p.domain).bind fun c =>
    let va := p.va - p.va % 2 ^ 15
    match resolve s (.global c) va va true, engineBytes s (.global c) va 256 with
    | .ok l, .ok h => if isDevice l then none else some ⟨c, va, l.addr, h⟩
    | _, _ => none

/-- The station writes bytes of a buffer at its controller. -/
def bufStore (s : State) (pa : Nat) (bytes : List Byte) : State := plainWrite (makeRoom s (.hbm pa)) (.hbm pa) bytes

/-- Raises LATE (offset 20) or BAD (offset 24) of a header, saturating (R357). -/
def countDrop (s : State) (b : Buf) (off : Nat) : State :=
  bufStore s (b.pa + off) (leBytes 4 (min (recNat b.hdr off 4 + 1) 0xFFFFFFFF))

/-- Every byte of a segment has been written. -/
def segDone (x : Lossy) (j : Nat) : Bool := x.got.lookD j 0 == BitVec.allOnes 256

def allSegs (x : Lossy) : Bool := (List.range x.nseg).all (segDone x)

/-- Writes one line of a buffer at the close. -/
def closeLine (s : State) (x : Lossy) (va off : Nat) (bytes : List Byte) : State :=
  match resolve s (.global x.ctx) (va + off) (va + off) true with
  | .ok (.hbm pa) => bufStore s pa bytes
  | _ => s

/-- The close of a buffer (R358): segments, MASK, STATE and DONE in one step. -/
def closeLossy (s : State) (pa : Nat) (x : Lossy) : State :=
  let s := { s with lossy := s.lossy.del pa }
  let s := (List.range x.nseg).foldl (fun s j =>
    (List.range 4).foldl (fun s k =>
      let off := 256 + 256 * j + 64 * k
      closeLine s x x.va off (if segDone x j then x.data.readN off 64 else List.replicate 64 0)) s) s
  let mask := (List.range x.nseg).foldl (fun a j => a + (if segDone x j then 2 ^ j else 0)) 0
  let done := ((hbmRead s (pa + 8) 4).map ofLe).getD 0
  let s := bufStore s pa (leBytes 8 mask ++ leBytes 4 (done + 1))
  bufStore s (pa + 15) [3]

/-- A buffer that had to close in an earlier cycle. -/
def overdue (s : State) (x : Lossy) : Bool := allSegs x || x.opened + x.win < s.clock

/-- The open buffers that a die tracks: of contexts that have not ended, and not yet due to close (R358, R360). -/
def openBuffers (s : State) (die : Nat) : AMap Lossy :=
  s.lossy.filter fun e => e.2.die == die && !overdue s e.2 && ((s.ctxs.look e.2.ctx).map fun k => !k.ended).getD false

/-- An accepted packet's bytes, which nobody reads before the close (R359). -/
def takePacket (x : Lossy) (p : Packet) (j : Nat) : Lossy :=
  let old := x.got.lookD j 0
  { x with
    got := x.got.put j (old ||| p.enables),
    data := (List.range 256).foldl (fun m i => if p.enables.getLsbD i then m.write (256 + 256 * j + i) (p.payload.getD i 0) else m) x.data }

/-- The outcomes of R358 for a packet that is served. -/
def serveLossy (s : State) (p : Packet) : State :=
  match bufOf s p with
  | none => s
  | some b0 =>
    let s := match s.lossy.look b0.pa with
      | some x => if overdue s x then closeLossy s b0.pa x else s
      | none => s
    match bufOf s p with
    | none => s
    | some b =>
      let st := recNat b.hdr 15 1
      let off := p.va % 2 ^ 15
      let j := (off - 256) / 256
      if st = 0 || st = 3 then countDrop s b 20
      else if st ≤ 2 && recNat b.hdr 12 2 ≠ p.round.toNat then countDrop s b 20
      else if st ≤ 2 && (p.crc ≠ crc32c (packetBytes p) || off < 256 || recNat b.hdr 14 1 ≤ j) then countDrop s b 24
      else if (st = 1 || 3 < st) && headerBad b.hdr then countDrop s b 24
      else if st = 1 then
        let die := ownerOf b.pa / 2
        if 256 ≤ (openBuffers s die).length then countDrop s b 20
        else
          let x : Lossy := { ctx := b.ctx, va := b.va, die := die, opened := s.clock, win := recNat b.hdr 16 4, nseg := recNat b.hdr 14 1 }
          let s := bufStore s (b.pa + 15) [2]
          { s with lossy := s.lossy.put b.pa (takePacket x p j) }
      else match s.lossy.look b.pa with
        | some x => { s with lossy := s.lossy.put b.pa (takePacket x p j) }
        | none => countDrop s b 20

/-- A packet leaves the ingress queue. -/
def takeIngress (l : List (Nat × Packet)) (p : Packet) : Option (Nat × List (Nat × Packet)) :=
  match l with
  | [] => none
  | x :: rest => if x.2 = p then some (x.1, rest) else (takeIngress rest p).map fun (t, r) => (t, x :: r)

/-- CLASS_L_PACKET_RECEIVE: a packet that waits in the ingress queue is served or, past its lifetime, dropped; one that arrives is
served at once or waits, as a free choice says. DESIGN CHOICE: log 47. -/
def execClassLPacketReceive (p : Packet) (s : State) : Res :=
  .next (match takeIngress s.ingress p with
    | some (t, rest) =>
      let s := { s with ingress := rest }
      if t + 2 ^ p.lttl ≤ s.clock then s else serveLossy s p
    | none => if Config.pick s.fresh % 2 = 0 then serveLossy s.draw.2 p else { s.draw.2 with ingress := s.ingress ++ [(s.clock, p)] })

/-- CLASS_L_INGRESS_EXPIRY: a packet that has waited 2^LTTL cycles in the ingress queue is dropped. -/
def execClassLIngressExpiry (p : Packet) (s : State) : Res :=
  .next (match takeIngress s.ingress p with
    | some (t, rest) => if t + 2 ^ p.lttl ≤ s.clock then { s with ingress := rest } else s
    | none => s)

/-- LOSSY_BUFFER_CLOSE: once every segment is complete or the window has passed. The buffers of a context that has ended are dropped
(R360). -/
def execLossyBufferClose (pa : Nat) (s : State) : Res :=
  .next (match s.lossy.look pa with
    | none => s
    | some x =>
      if ((s.ctxs.look x.ctx).map (·.ended)).getD true then { s with lossy := s.lossy.del pa }
      else if allSegs x || x.opened + x.win ≤ s.clock then closeLossy s pa x else s)

/-! ### Stations (R347) -/

/-- STATION_LANE_LOSS: a station that loses a lane runs x1 and reports it to the steward. -/
def execStationLaneLoss (station : Nat) (s : State) : Res :=
  .next (if 32 ≤ station || s.lanesLost.contains station then s
    else { s with lanesLost := NSet.add s.lanesLost station }.emit (.report 0 station 0))

end Sys2Proof.Machine
end

