-- ==== Sys2Proof/Machine/SClass.lean ====
section
/-! DEFINITION. Class S: privileged registers (R189, R350, R370, R390, R391, R431), TLBINV (R371), ASSAYRD (R420), and the context
instructions (R411). -/

namespace Sys2Proof.Machine

/-! ### Privileged registers -/

/-- What SRDP reads, on the core of the reading thread. -/
def pregRead (s : State) (r : PReg) (ctx core : Nat) : Nat :=
  let k := s.ctx ctx
  match r with
  | .fpxc => k.fpxc.toNat
  | .fabcfg => k.fabcfg.toNat
  | .trcfg => k.trcfg.toNat
  | .traph => k.traph.toNat
  | .stepc => k.stepc.toNat
  | .wdog => k.wdog.toNat
  | .fltpol => k.fltpol.toNat
  | .fltlog => k.fltlog.toNat
  | .fltcnt => k.fltcnt.toNat
  | .govbud => (s.core core).budgetNext % 65536
  | .thst => match s.dies[dieOf core]? with
    | some d => d.thermal % 4 * 256 + min d.temp 255
    | none => 0
  | .platcfg => s.steward.accid % 1024 * 65536 + s.steward.portCfg.toNat

/-- A field held to its limits. -/
def clampField (lo hi n : Nat) : Nat := if n < lo then lo else if hi < n then hi else n

/-- What SWRP stores: RW fields are taken and clamped, W1C bits written as 1 are cleared, the rest is kept. -/
def pregWrite (k : Context) (r : PReg) (v : Nat) : Context :=
  let w (n : Nat) : W32 := BitVec.ofNat 32 n
  match r with
  | .fpxc => { k with fpxc := (k.fpxc &&& ~~~(w v &&& 0x1F00) &&& 0x1F00) ||| (w v &&& 0x1F) }
  | .fabcfg => { k with fabcfg := w (clampField 12 24 (bits v 4 0) + 256 * clampField 8 20 (bits v 12 8)) }
  | .traph => { k with traph := w v &&& 0x8003FFF8 }
  | .stepc => { k with stepc := w v &&& 1 }
  | .wdog => { k with wdog := w (clampField 16 40 (bits v 5 0)) }
  | .fltpol => { k with fltpol := w v &&& 3 }
  | .fltlog => { k with fltlog := BitVec.ofNat 64 v &&& 0xFFFFFFFFFFFFF00F }
  | .trcfg | .fltcnt | .govbud | .thst | .platcfg => k

def execSrdp (x : X) (r : PReg) (s : State) : Res :=
  compute (.srdp x r) (fun m => toDst (.srdp x r) (pregRead s r m.b.ctx m.b.core)) s

def execSwrp (x : X) (r : PReg) (s : State) : Res :=
  issue (.swrp x r) {
    effect := fun s ms => ms.foldl (fun s m => s.updCtx m.b.ctx fun k => pregWrite k r (m.raw 64 x.sa)) s } s

/-! ### TLBINV (R371) -/

/-- SYS and ATSEN of TRCFG (R370). -/
def Context.sys (k : Context) : Bool := k.trcfg.getLsbD 1
def Context.atsen (k : Context) : Bool := k.trcfg.getLsbD 0

/-- The thread's earlier stores on path 0x0; device stores among them are carried out. -/
def path0Stores (s : State) (u : Nat) : List Nat :=
  (ownStores s u).filter fun i => ((s.stores.look i).map (·.path)) == some 0

def tlbinvOp (i : Instr) (kind : Nat) (va : Mb → Nat) (check : State → Mb → Option Flt) (s : State) : Res :=
  issueSeq i {
    check := check,
    effect := fun s m =>
      let after := path0Stores s m.u
      let s := unhold s after
      let (n, s) := s.newId
      (startOp s i m n [] (.tlbinv kind (va m) none) after).2 } s

def execTlbinvPage (x : X) (s : State) : Res :=
  let va (m : Mb) : Nat := m.t.val (.int 64) x.sa
  tlbinvOp (.tlbinvPage x) 0 va (fun _ m => if va m / 2 ^ 60 ≠ 0 then some ⟨0x24, va m, 0⟩ else none) s

def execTlbinvCtx (x : X) (s : State) : Res := tlbinvOp (.tlbinvCtx x) 1 (fun _ => 0) (fun _ _ => none) s

def execTlbinvAll (x : X) (s : State) : Res :=
  tlbinvOp (.tlbinvAll x) 2 (fun _ => 0) (fun s m => if (s.ctx m.b.ctx).sys then none else some ⟨0x26, 0, 0⟩) s

/-- A cached translation that a TLBINV removes. -/
def tlbHit (kind ctx va : Nat) (t : Tlb) : Bool :=
  match kind with
  | 0 => t.covers ctx va
  | 1 => t.ctx == ctx
  | _ => true

/-- The functions bound to an affected PASID with their contexts, but those that silence has cost their ATS. -/
def affectedPairs (s : State) (kind ctx : Nat) : List (Nat × Nat) :=
  ((s.pasids.filter fun e => kind = 2 || e.2 == ctx).map fun e => (e.1 / 2 ^ 20, e.2)).eraseDups.filter fun e => !s.atsLost.contains e.1

def affectedFns (s : State) (kind ctx : Nat) : List Nat := ((affectedPairs s kind ctx).map (·.1)).eraseDups

/-- The set is removed from every cache of the module, and the ATS Invalidate Requests go out (R371). A size of 0 names every page. -/
def tlbRemove (s : State) (kind ctx va : Nat) : State :=
  let s := { s with tlb := s.tlb.filter fun t => !tlbHit kind ctx va t }
  (affectedPairs s kind ctx).foldl (fun s f => s.emit (.atsInvalidate f.1 f.2 va (if kind = 0 then 4096 else 0))) s

/-- The functions that have not answered by the end of the wait: at least one, by a free choice. -/
def silentFns (s : State) (fns : List Nat) : List Nat :=
  let l := ((List.range fns.length).filter fun i => !Config.invalidates (s.fresh + i)).filterMap fun i => fns[i]?
  if l.isEmpty then fns.take 1 else l

/-- TLBINV_COMPLETE: once the thread's stores are accepted the set is removed and the requests go out; then every completion has returned, or 2^27
cycles have passed since the requests and the silent functions lose ATS. -/
def execTlbinvComplete (id : Nat) (returned : Bool) (s : State) : Res :=
  .next (match s.pend.look id with
    | none => s
    | some p => match p.op with
      | .tlbinv kind va sent =>
        if !cmdReady s p then s
        else
          let fns := affectedFns s kind p.ctx
          match sent with
          | none =>
            let s := tlbRemove s kind p.ctx va
            if fns.isEmpty then landAll s id [0]
            else { s with pend := s.pend.upd id fun p => { p with op := .tlbinv kind va (some s.clock) } }
          | some t =>
            if returned || fns.isEmpty then landAll s id [0]
            else if s.clock < t + 2 ^ 27 then s
            else
              let silent := silentFns s fns
              landAll { s with ats := s.ats.filter fun f => !silent.contains f, atsLost := NSet.addAll s.atsLost silent,
                               fresh := s.fresh + fns.length } id [1]
      | _ => s)

/-! ### ASSAYRD (R420) -/

def assayValue (k : Context) (region sel : Nat) : Nat :=
  match sel with
  | 0 => k.bytes.lookD region 0
  | 1 => k.macs.lookD region 0
  | 2 => k.umac
  | 3 => k.lastSigned
  | _ => k.resets

def execAssayrd (x : X) (s : State) : Res :=
  let region (m : Mb) : Nat := m.t.val (.int 32) x.sa
  let sel (m : Mb) : Nat := m.t.val (.int 32) x.sb
  issueSeq (.assayrd x) {
    check := fun _ m => if 4 < sel m || (sel m ≤ 1 && 4095 < region m) then some ⟨0x25, 0, 0⟩ else none,
    effect := fun s m => answer s (.assayrd x) m (assayValue (s.ctx m.b.ctx) (region m) (sel m)) } s

/-! ### CTXSAVE, CTXLOAD, HALTX (R411) -/

/-- The context that a member names. -/
def namedCtx (x : X) (m : Mb) : Nat := m.t.val (.int 32) x.sa

/-- No such context, one whose partitions are being zeroed, or one that the member's context may not name (R411, R413). -/
def badCtx (s : State) (m : Mb) (c : Nat) : Bool :=
  c / 4096 ≠ 0 || c = 0 || !s.ctxs.has c || (s.ctx c).ended || s.clock < (s.ctx c).zeroing || (c ≠ m.b.ctx && !(s.ctx m.b.ctx).sys)

/-- Tier 2 begins on a context, or its save is joined; a fault that had halted it is classified at restore (R406, R407, R412). -/
def beginSave (s : State) (c : Nat) : State :=
  let k := s.ctx c
  if (k.preempt.map (·.tier)).getD 0 ≥ 2 then s
  else
    let s := match k.halt with
      | some h => if h.cause.stop.cause = 0x36 then s
        else (pauseFor s c (s.clock - h.since)).updCtx c fun k => { k with
          halt := none, deferred := some h.cause,
          deferredStops := k.deferredStops ++ if h.quiet then [] else if h.recorded then h.later else h.cause.stop :: h.later }
      | none => s
    startTier2 s c

def execCtxsave (x : X) (s : State) : Res :=
  issueSeq (.ctxsave x) {
    effect := fun s m =>
      let c := namedCtx x m
      if badCtx s m c then answer s (.ctxsave x) m 1
      else if c = m.b.ctx then answer s (.ctxsave x) m 5
      else if (s.ctx c).save.isSome then answer s (.ctxsave x) m 2
      else
        let (n, s) := s.newId
        let (_, s) := startOp s (.ctxsave x) m n [] (.ctxsave c) []
        beginSave s c } s

/-- A context is halted in place by HALTX. -/
def haltedInPlace (k : Context) : Bool := k.save.isNone && (k.halt.map (·.cause.stop.cause)) == some 0x36

def execCtxload (x : X) (s : State) : Res :=
  issueSeq (.ctxload x) {
    effect := fun s m =>
      let c := namedCtx x m
      if badCtx s m c then answer s (.ctxload x) m 1
      else if c = m.b.ctx then answer s (.ctxload x) m 5
      else if haltedInPlace (s.ctx c) then answer (resume s c) (.ctxload x) m 0
      else if (s.ctx c).save.isNone then answer s (.ctxload x) m 2
      else match if mayRestore s c then restore s c else none with
        | none => answer s (.ctxload x) m 4
        | some s => answer s (.ctxload x) m 0 } s

/-- The stop record of a context that HALTX stops. -/
def haltStop (s : State) (m : Mb) : Stop := threadStop s m.u 0x36 m.t.pc 0 0

/-- HALTX on another context than the issuing one. -/
def haltOther (s : State) (x : X) (m : Mb) (c : Nat) : State :=
  if badCtx s m c then writeNow s (.haltx x) m 1
  else if (s.ctx c).halt.isSome || (s.ctx c).save.isSome || ((s.ctx c).preempt.map (·.tier)).getD 0 ≥ 2 then writeNow s (.haltx x) m 2
  else
    let s := writeNow s (.haltx x) m 0
    if (s.ctx c).preempt.isSome then
      startTier2 (s.updCtx c fun k => { k with halt := some { cause := { stop := haltStop s m }, at_ := s.clock } }) c
    else raiseFault s c { stop := haltStop s m }

/-- A HALTX on the issuing context writes its status, and the halt line rises once the set has passed the instruction. -/
def execHaltx (x : X) (s : State) : Res :=
  let ms := ((s.core s.focus).gather.map fun g => active (.haltx x) (membersOf s g)).getD []
  let own := ms.filter fun m => namedCtx x m = m.b.ctx && !(badCtx s m (namedCtx x m))
  let s' := issueSeqS (.haltx x) {
    effect := fun s' m =>
      if own.any (·.u == m.u) then
        writeNow s' (.haltx x) m (if (own.head?.map (·.u)) = some m.u && (s'.ctx m.b.ctx).halt.isNone then 0 else 2)
      else haltOther s' x m (namedCtx x m) } s
  .next (match own with
    | [] => s'
    | m :: _ =>
      if ((s'.threads.look m.u).map (·.pc)) = some m.t.pc || (s'.ctx m.b.ctx).halt.isSome then s'
      else if ((s'.ctx m.b.ctx).preempt.map (·.tier)) = some 1 then
        startTier2 (s'.updCtx m.b.ctx fun k => { k with halt := some { cause := { stop := haltStop s m }, at_ := s.clock } }) m.b.ctx
      else raiseFault s' m.b.ctx { stop := haltStop s m })

end Sys2Proof.Machine
end

