-- ==== Sys2Proof/Machine/Porter.lean ====
section
/-! DEFINITION. The Porter (R373, R374), the notify aperture (R375 to R378), device requests, ATS and PRI (R362 to R366), and
containment of a port (R379). -/

namespace Sys2Proof.Machine

/-! ### The Porter -/

/-- What a doorbell or a path-0x6 store does when it is sent: its status and the state. -/
def sendBell (s : State) (b : Bell) : Nat × State :=
  match porterAt b.addr b.width with
  | some (.door m) => match s.doors.look m with
    | some d =>
      if Config.linkDown d.port s.fresh then (2, s)
      else (0, { s with doors := s.doors.put m { d with value := BitVec.ofNat 32 b.data } }.emit (.deviceWrite d.port d.addr b.data 4))
    | none => (2, s)
  | some (.queue die q off) =>
    let v := BitVec.ofNat 32 b.data
    (0, match off with
      | 0x10 => lqsub s die q v
      | 0x2C => lqrack s die q v
      | 0x30 => lqcan s die q v
      | 0x34 => lqstat s die q v
      | _ => let x := s.queue die q
        s.setQueue die q { x with stat := x.stat ||| 4 })
  | _ => (0, s)

/-- An entry leaves the Porter, and the DBELL that waits for it lands its status. -/
def bellDone (s : State) (id : Nat) (b : Bell) (st : Nat) : State :=
  let s := { s with bells := s.bells.del id }
  afterward (match b.ret with
    | some r => landAll s r [BitVec.ofNat 32 st]
    | none => s)

/-- DOORBELL_SEND: once what it carries is accepted and earlier entries of its target are sent. DEDUCED: log 57. -/
def execDoorbellSend (id : Nat) (s : State) : Res :=
  .next (match s.bells.look id with
    | none => s
    | some b =>
      let earlier := s.bells.any fun (k, x) => k < id && x.die == b.die && x.addr == b.addr
      if earlier || !s.allDone b.waits then s
      else
        let (st, s) := sendBell s b
        bellDone s.draw.2 id b st)

/-- An entry of the Porter goes to a port's device. -/
def bellPort (s : State) (b : Bell) (port : Nat) : Bool :=
  match porterAt b.addr b.width with
  | some (.door m) => ((s.doors.look m).map (·.port)) == some port
  | _ => false

/-- DPC_CONTAINMENT: the doorbells held for the port complete with status 2 (R379), and the clerks are told. -/
def execDpcContainment (port : Nat) (s : State) : Res :=
  .next ((s.bells.filter fun e => bellPort s e.2 port).foldl (fun s e => bellDone s e.1 e.2 2) s |>.emit (.report 0x79 port 0))

/-! ### Notify arrivals (R376, R377) -/

/-- An arrival is held in PEND; at 63 it is lost and DROP is set. -/
def holdArrival (s : State) (n : Nat) (v : Vector) : State :=
  { s with notify := s.notify.put n (if v.held = 63 then v.setBit 22 true else v.setHeld (v.held + 1)) }

/-- One message write to a vector. -/
def arriveAt (s : State) (n : Nat) : State :=
  match s.notify.look n with
  | none => s.emit (.report 0x76 n 1)
  | some v =>
    if !v.valid then s.emit (.report 0x76 n 1)
    else if !v.named then holdArrival s n v
    else match namedGroup s v with
      | .waiting => holdArrival s n v
      | .ended => s
      | .group ctx key =>
        let b := s.bars.lookD key {}
        if s.stopped ctx || b.extc = 63 then holdArrival s n v
        else phaseTest { s with bars := s.bars.put key { b with extc := b.extc + 1 } } key

/-- The latch array absorbs a write: LATCHED is set, and a further write waits in the root port's posted queue. -/
def latch (s : State) (n : Nat) : State :=
  let v := s.notify.lookD n {}
  { s with gated := true,
           notify := s.notify.put n (if v.latched then { v with queued := v.queued + 1 } else v.setBit 23 true) }

/-- A message write: the aperture is awake, or gated as a free choice says. DEDUCED: log 49. -/
def message (s : State) (vec : Nat) : State :=
  if 4096 ≤ vec then s
  else if s.gated || Config.pick s.fresh % 2 = 1 then latch s.draw.2 vec
  else arriveAt s.draw.2 vec

def execNotifyArrival (vec : Nat) (s : State) : Res := .next (message s vec)

/-- The latched and the queued writes of one vector are delivered. -/
def unlatch (s : State) (n : Nat) : State :=
  let v := s.notify.lookD n {}
  if v.latched then
    let s := { s with notify := s.notify.put n { v.setBit 23 false with queued := 0 } }
    (List.range (v.queued + 1)).foldl (fun s _ => arriveAt s n) s
  else s

/-- APERTURE_WAKE. -/
def execApertureWake (s : State) : Res :=
  .next (if s.gated then s.notify.keys.foldl unlatch { s with gated := false } else s)

/-! ### Device requests (R362 to R366) -/

/-- A device's atomic on an old value: FetchAdd, Swap and CAS (R363). -/
def devAtomic : DevOp → Option (Nat × Access)
  | .fetchAdd n v => some (n, .rmw .add (if n = 8 then .n64 else .n32) v)
  | .swap n v => some (n, .rmw .exch (if n = 8 then .b64 else .b32) v)
  | .cas n e w => some (n, .cas n e w)
  | _ => none

def devLen : DevOp → Nat
  | .read n => n
  | .write b => b.length
  | .fetchAdd n _ => n
  | .swap n _ => n
  | .cas n _ _ => n

def devWrites : DevOp → Bool
  | .read _ => false
  | _ => true

/-- The places of a run of bytes, line by line; `none` where one of them is refused. -/
def devPlaces (place : Nat → Option Loc) : Nat → Nat → Nat → Option (List (Loc × Nat))
  | 0, _, _ => some []
  | fuel + 1, a, n =>
    if n = 0 then some []
    else
      let k := min n (64 - a % 64)
      match place a, devPlaces place fuel (a + k) (n - k) with
      | some l, some r => some ((l, k) :: r)
      | _, _ => none

/-- Reads the places in order; poison is delivered to nobody (R303). -/
def devRead (s : State) : List (Loc × Nat) → Option (List Byte)
  | [] => some []
  | (l, k) :: r => match locRead s l k, devRead s r with
    | .ok b, some c => some (b ++ c)
    | _, _ => none

def devWrite (s : State) : List (Loc × Nat) → List Byte → State
  | [], _ => s
  | (l, k) :: r, b => devWrite (plainWrite (makeRoom s l) l (b.take k)) r (b.drop k)

/-- A request is answered Unsupported Request and reported. -/
def unsupported (s : State) (fn : Nat) : State := (s.emit (.deviceReply false [])).emit (.report 0x65 fn 0)

/-- The request is within the limits of a root port: 512 bytes of payload, 4,096 bytes of a read (R363). DEDUCED: log 49. -/
def devFits : DevOp → Bool
  | .read n => n ≤ 4096
  | .write b => b.length ≤ 512
  | _ => true

/-- A request at places that its handling has found. -/
def devServe (s : State) (fn : Nat) (op : DevOp) (ls : Option (List (Loc × Nat))) : State :=
  match if devFits op then ls else none with
  | none => unsupported s fn
  | some ls => match op with
    | .read _ => match devRead s ls with
      | some b => s.draw.2.emit (.deviceReply true b)
      | none => s.emit (.deviceReply false [])
    | .write b => devWrite s ls b
    | _ => match devAtomic op, ls with
      | some (n, acc), [(l, k)] =>
        if k ≠ n || (n ≠ 4 && n ≠ 8) || isDevice l then unsupported s fn
        else match locRead s l n with
          | .error _ => s.emit (.deviceReply false [])
          | .ok b =>
            let s := match acc.result (ofLe b) with
              | some v => locWrite (makeRoom s l) l (leBytes n v) false
              | none => s
            s.emit (.deviceReply true b)
      | _, _ => unsupported s fn

/-- The key of a binding of R365. -/
def bindKey (fn pasid : Nat) : Nat := fn * 2 ^ 20 + pasid % 2 ^ 20

/-- A place by a context's tables, with DEV = 1 and the permission (R365). Number 0 stands for the clerks' tables, which need no DEV. -/
def ctxPlace (s : State) (ctx : Nat) (write : Bool) (a : Nat) : Option Loc :=
  match translate s ctx a with
  | .error _ => none
  | .ok l =>
    if (ctx ≠ 0 && !l.dev) || (if write then !l.wr else !l.rd) then none
    else some (if l.mem = 0 then .hbm l.pa else .device l.pa l.mem)

/-- The notify aperture (R362). -/
def apertureVec (a : Nat) : Option Nat :=
  if 0x10000000000 ≤ a && a < 0x10000010000 && a % 16 = 0 then some ((a - 0x10000000000) / 16) else none

/-- UNTRANSLATED_DEVICE_REQUEST: a message write without a PASID into the aperture is an arrival. -/
def execUntranslatedDeviceRequest (r : DevReq) (s : State) : Res :=
  let serve (ctx : Nat) : State :=
    cacheUsed (devServe s r.fn r.op (devPlaces (ctxPlace s ctx (devWrites r.op)) (devLen r.op / 64 + 2) r.addr (devLen r.op)))
      (.global ctx) r.addr
  .next (match r.pasid with
    | some p => match s.pasids.look (bindKey r.fn p) with
      | some c => serve c
      | none => unsupported s r.fn
    | none => match apertureVec r.addr, r.op with
      | some v, .write _ => message s v
      | _, _ => serve 0)

/-- A place by its system physical address, for a function with ATS: a frame whose KEYID is a context bound to it (R365). -/
def ownPlace (s : State) (fn : Nat) (a : Nat) : Option Loc :=
  if a < 2 ^ 40 && s.ats.contains fn then
    match s.frames.look (frameOf a) with
    | some f => if s.pasids.any fun e => e.1 / 2 ^ 20 == fn && e.2 == f.keyid then some (.hbm a) else none
    | none => none
  else none

def execTranslatedRequest (r : DevReq) (s : State) : Res :=
  .next (devServe s r.fn r.op (devPlaces (ownPlace s r.fn) (devLen r.op / 64 + 2) r.addr (devLen r.op)))

/-- ATS_TRANSLATION_REQUEST: the physical address, the permission, bit 0 to read and bit 1 to write, and the page's size; no permission where
DEV = 0 or the walk fails (R362, R365). A function that has lost ATS is not served (R371). -/
def execAtsTranslationRequest (fn pasid : Nat) (addr : Nat) (s : State) : Res :=
  .next (match s.pasids.look (bindKey fn pasid) with
    | none => unsupported s fn
    | some c =>
      if !(s.ctx c).atsen || s.atsLost.contains fn then unsupported s fn
      else match translate s c addr with
        | .ok l =>
          (cacheUsed s (.global c) addr).emit
            (if l.dev then .atsReply l.pa (l.rd.toNat + 2 * l.wr.toNat) (2 ^ (12 + 2 * l.size)) else .atsReply 0 0 0)
        | .error _ => s.emit (.atsReply 0 0 0))

/-- PRI_PAGE_REQUEST: Success once the clerks have mapped the page. -/
def execPriPageRequest (fn pasid : Nat) (addr : Nat) (s : State) : Res :=
  .next (match s.pasids.look (bindKey fn pasid) with
    | none => s.emit (.priReply false)
    | some c =>
      let ok (s : State) : Bool := match walk s c addr with
        | .ok _ => true
        | .error _ => false
      let s := if ok s then s else mapPage s c addr
      s.emit (.priReply (ok s)))

end Sys2Proof.Machine
end

