-- ==== Sys2Proof/Machine/Steward.lean ====
section
/-! DEFINITION. The steward pair's channel: measurements and SPDM (R306, R433), key release (R307), management requests (R433),
statements on request and after replacement (R421, R425), migration (R426), thermal samples (R430, R431) and bring-up (R432). -/

namespace Sys2Proof.Machine

def State.updStew (s : State) (f : Steward → Steward) : State := { s with steward := f s.steward }

/-! ### SPDM (R306, R432, R433) -/

/-- Three fetches have failed: only GET_VERSION and GET_MEASUREMENTS are answered (R432). -/
def Steward.dead (w : Steward) : Bool := w.recovery && w.tries = 3

/-- A request that is refused, by the error code of SPDM. PRESUMED: log 12. -/
def refuse (s : State) (code : Nat) : State := s.emit (.error code)

/-- Runs a request when the steward answers it, with its precondition met; a request before step 7 gets no answer. -/
def spdmWhen (s : State) (up ok : Bool) (f : State) : State := if !up then s else if ok then f else refuse s 4

/-- GET_VERSION. -/
def execGetVersion (s : State) : Res :=
  .next (spdmWhen s (s.steward.up || s.steward.dead) true
    ((s.updStew fun w => { w with version := true }).emit (.spdm 0x04 (Config.spdm 0x84 []))))

/-- GET_CAPABILITIES. -/
def execGetCapabilities (s : State) : Res :=
  .next (spdmWhen s s.steward.up s.steward.version (s.emit (.spdm 0x61 (Config.spdm 0xE1 []))))

/-- NEGOTIATE_ALGORITHMS: bit 0 of the offer is SHA-256, bit 1 SLH-DSA-SHA2-128s as an extended algorithm. -/
def execNegotiateAlgorithms (offered : Nat) (s : State) : Res :=
  .next (spdmWhen s s.steward.up (s.steward.version && bit offered 0 && bit offered 1)
    ((s.updStew fun w => { w with algorithms := true }).emit (.spdm 0x63 (Config.spdm 0xE3 (leBytes 4 offered)))))

/-- The certificate chain of a slot: 0 the identity key's, 1 the statement key's (R422). PRESUMED: log 12. -/
def chainOf (slot : Nat) : List Byte := Config.spdm 0x82 (leBytes 1 slot)

/-- GET_DIGESTS: the SHA-256 of each chain. -/
def execGetDigests (s : State) : Res :=
  .next (spdmWhen s s.steward.up s.steward.algorithms (s.emit (.spdm 0x01 (sha256 (chainOf 0) ++ sha256 (chainOf 1)))))

/-- GET_CERTIFICATE. -/
def execGetCertificate (slot : Nat) (s : State) : Res :=
  .next (spdmWhen s s.steward.up (s.steward.algorithms && slot < 2) (s.emit (.spdm 0x02 (chainOf slot))))

/-- CHALLENGE: signed with the identity key. -/
def execChallenge (nonce : List Byte) (s : State) : Res :=
  let body := Config.spdm 0x83 nonce
  .next (spdmWhen s s.steward.up s.steward.algorithms (s.emit (.spdm 0x03 (body ++ Config.sign 0 (nonce ++ body)))))

/-- A measurement block by its index. That of index 0x12 gives the key width of AES, the tag width, the tree's arity and depth, the KEYID rule of
R300 as 1, and 1 since contexts may map CXL and PCI Express ranges. `none` for an index that is answered as absent (R306, R433). PRESUMED: log 12. -/
def measurement (s : State) (idx : Nat) : Option (List Byte) :=
  match idx with
  | 0x01 => some (Config.spdm 0x101 [])
  | 0x02 => some s.steward.firmware
  | 0x03 => some (leBytes 2 s.steward.accid ++ leBytes 2 s.steward.portCfg.toNat ++ Config.spdm 0x103 [])
  | 0x04 => some (sha256 (chainOf 1))
  | 0x10 => some (leBytes 1 16 ++ (List.range 16).flatMap fun n =>
      leBytes 8 (2 ^ 36) ++ leBytes 1 (if n < 8 then 0 else 1) ++ leBytes 1 (n % 8) ++ leBytes 8 (Config.word n).toNat)
  | 0x11 => some ((List.range 16).flatMap fun n =>
      let r := s.stack n
      leBytes 2 r.used ++ leBytes 2 r.repair.length ++ r.repair.flatMap fun e => leBytes 4 e.1 ++ leBytes 2 e.2.1 ++ leBytes 4 e.2.2)
  | 0x12 => some (leBytes 2 256 ++ leBytes 1 56 ++ leBytes 1 8 ++ leBytes 1 3 ++ leBytes 1 1 ++ leBytes 1 1)
  | _ => none

/-- GET_MEASUREMENTS: the response is remembered in a session, with the measured items as they stand (R307). -/
def execGetMeasurements (idx : Nat) (s : State) : Res :=
  let body := leBytes 1 idx ++ (match measurement s idx with
    | some b => leBytes 1 1 ++ b
    | none => leBytes 1 0)
  let s' := if s.steward.session then s.updStew fun w => { w with lastMeas := some body, changesAt := w.changes } else s
  .next (spdmWhen s (s.steward.up || s.steward.dead) true (s'.emit (.spdm 0x60 body)))

/-- KEY_EXCHANGE. -/
def execKeyExchange (offer : List Byte) (s : State) : Res :=
  .next (spdmWhen s s.steward.up s.steward.algorithms
    ((s.updStew fun w => { w with pendingKey := true, session := false, lastMeas := none }).emit
      (.spdm 0x64 (Config.spdm 0xE4 offer ++ Config.sign 0 offer))))

/-- FINISH: the session is secured when the verifier's proof checks. -/
def execFinish (verify : List Byte) (s : State) : Res :=
  .next (spdmWhen s s.steward.up (s.steward.pendingKey && Config.verify 2 verify [])
    ((s.updStew fun w => { w with pendingKey := false, session := true, lastMeas := none }).emit (.spdm 0x65 (Config.spdm 0xE5 []))))

/-- END_SESSION. -/
def execEndSession (s : State) : Res :=
  .next (spdmWhen s s.steward.up s.steward.session
    ((s.updStew fun w => { w with session := false, lastMeas := none }).emit (.spdm 0x6C (Config.spdm 0xEC []))))

/-- A vendor-defined request, accepted only within a secured session (R307, R433). -/
def vendorWhen (s : State) (ok : Bool) (f : State) : State :=
  spdmWhen s s.steward.up (s.steward.session && ok) (f.emit (.spdm 0x7E []))

/-! ### Signing (R424) -/

/-- Writes a signed statement to its frames of KEYID 0, line by line. -/
def keepStatement (s : State) (fs : List Nat) (b : List Byte) : State :=
  ((List.range (cdiv b.length 64)).filterMap fun i => (fs[i / 64]?).map fun f => (i, f * 4096 + 64 * (i % 64))).foldl (fun s e =>
    plainWrite (makeRoom s (.hbm e.2)) (.hbm e.2) ((b.drop (64 * e.1)).take 64)) s

/-- Frames that nobody holds any longer; their counters stay for the next owner (R297). -/
def freeFrames (s : State) (fs : List Nat) : State :=
  { s with frames := fs.foldl (fun m f => m.upd f fun x => { x with free := true }) s.frames, hbm := s.hbm.filter fun b => !fs.contains (b.1 / 4096) }

/-- The oldest unsigned statement of a context is signed and kept in frames of KEYID 0; of the signed ones the 256 most recent are kept (R424). DESIGN CHOICE: log 11. -/
def signOne (s : State) (c : Nat) : State :=
  match (s.ctx c).unsigned with
  | none => s
  | some st =>
    let k := s.ctx c
    let body := st.body.take 56 ++ pad 32 (if st.sseq = 1 then [] else k.prev) ++ st.body.drop 88
    let sig := pad sigLen (Config.sign 1 body)
    let (fs, s) := stewardFrames s (cdiv (body.length + sigLen) 4096)
    let s := keepStatement s fs (body ++ sig)
    let done := k.statements.map fun x => if x.sseq = st.sseq then { x with body := body, sig := some sig, frames := fs } else x
    let old := (done.filter fun x => x.sig.isSome).length - 256
    (freeFrames s ((done.take old).flatMap (·.frames))).updCtx c fun k =>
      { k with statements := done.drop old, prev := sha256 (body ++ sig), lastSigned := st.sseq }

/-- The oldest unsigned statement of some context is of kind 3. -/
def kind3Waits (s : State) : Option Nat := (s.ctxs.find? fun e => (e.2.unsigned.map (·.kind)) == some 3).map (·.1)

/-- STATEMENT_SIGN (R424): a statement waits for those of contexts whose oldest is of kind 3. -/
def execStatementSign (c : Nat) (s : State) : Res :=
  .next (if ((s.ctx c).unsigned.map (·.kind)) ≠ some 3 && (kind3Waits s).isSome then s else signOne s c)

/-- Signs in the queue's order until a context has no unsigned statement. -/
def signAll (s : State) (c : Nat) : Nat → State
  | 0 => s
  | n + 1 => if (s.ctx c).unsigned.isNone then s else signAll (signOne s ((kind3Waits s).getD c)) c n

/-- Every statement of a context is signed. -/
def signThrough (s : State) (c : Nat) : State := signAll s c ((s.ctxs.map fun e => e.2.statements.length).sum)

/-! ### Keys and statements -/

/-- KEY_RELEASE (R300, R307). -/
def execKeyRelease (ctx : Nat) (hash : List Byte) (s : State) : Res :=
  let ok := 1 ≤ ctx && ctx < 4096 && ((s.ctxs.look ctx).map fun k => !k.ended).getD false
    && (s.steward.lastMeas.map fun m => decide (sha256 m = hash)).getD false && s.steward.changes = s.steward.changesAt
  .next (vendorWhen s ok (if s.keys.has ctx then s else { s with keys := s.keys.put ctx (Config.entropy s.fresh), fresh := s.fresh + 1 }))

/-- GET_STATEMENT: a snapshot of kind 1, also of a halted or saved context (R421, R427). -/
def execGetStatement (ctx : Nat) (s : State) : Res := .next (vendorWhen s (s.ctxs.has ctx) (snapshot s ctx 1 []))

/-- A signed statement of a context, by its SSEQ, among the 256 that the steward keeps; it is returned within a session (R424). DESIGN CHOICE: log 11. -/
def readStatement (s : State) (ctx sseq : Nat) : State :=
  match (s.ctx ctx).statements.find? fun x => x.sseq == sseq with
  | none => spdmWhen s s.steward.up false s
  | some x => match x.sig with
    | none => spdmWhen s s.steward.up false s
    | some sig => spdmWhen s s.steward.up s.steward.session (s.emit (.spdm 0x7E (x.body ++ sig)))

/-- The regions of a statement (R422). -/
def stmtRegionsOf (b : List Byte) : List (Nat × Nat × Nat) :=
  (List.range (recNat b 44 4)).map fun i => (recNat b (256 + 24 * i) 2, recNat b (264 + 24 * i) 8, recNat b (272 + 24 * i) 8)

/-- Bytes that the signature of a statement covers. -/
def stmtLen (b : List Byte) : Nat := 256 + 24 * recNat b 44 4

/-- A signed statement in the form of R422, under some module's statement key. -/
def stmtOk (b : List Byte) : Bool :=
  recNat b 0 4 = 0x31545341 && recNat b 4 2 = 1 && b.length = stmtLen b + sigLen
    && Config.verify 1 (b.take (stmtLen b)) (b.drop (stmtLen b))

/-- A context's counters and its place in the chain, taken from a statement (R425). -/
def chainFrom (k : Context) (b : List Byte) : Context :=
  let regs := stmtRegionsOf b
  { k with
    bytes := regs.foldl (fun m r => m.put r.1 r.2.1) [], macs := regs.foldl (fun m r => m.put r.1 r.2.2) [],
    umac := recNat b 120 8, rplc := (List.range 4).map fun i => BitVec.ofNat 64 (recNat b (128 + 8 * i) 8),
    resets := recNat b 160 8, sseq := recNat b 48 8, lastSigned := recNat b 48 8, prev := sha256 b,
    peer := (b.drop 8).take 32 }

/-- The number of thresholds that a total has passed. -/
def passed (k : Context) : Nat := if k.thresh = 0 then 0 else k.total / k.thresh

/-- MODULE_REPLACEMENT_STATEMENT (R425). -/
def execModuleReplacementStatement (ctx : Nat) (statement : List Byte) (s : State) : Res :=
  let k := s.ctx ctx
  let k' := { chainFrom k statement with gap := true, gapmac := if k.thresh = 0 then 2 ^ 64 - 1 else 2 * k.thresh }
  .next (vendorWhen s (s.ctxs.has ctx && k.sseq = 0 && stmtOk statement)
    { s with ctxs := s.ctxs.put ctx { k' with kind3 := passed k' } })

/-! ### Management requests (R433) -/

/-- SETBUDGET: the named cores of a die take the value at their next window. -/
def execSetbudget (die mask nj : Nat) (s : State) : Res :=
  .next (vendorWhen s (die < 4 && mask < 2 ^ 192 && 256 ≤ nj && nj ≤ 65535)
    (((List.range 192).filter (bit mask)).foldl (fun s c => s.updCore (die * 192 + c) fun k => { k with budgetNext := nj }) s))

/-- No context has the number: it has none, or one that has ended and whose statements are signed; and no migration holds it. -/
def ctxFree (s : State) (c : Nat) : Bool :=
  ((s.ctxs.look c).map fun k => k.ended && k.unsigned.isNone).getD true && !s.incoming.any (·.own == some c)

/-- The steward pair creates a context: its registers are at the values of R390, and its THRESH is what SETTHRESH has set for its number (R23, R136, R348,
R421, R433). DESIGN CHOICE: log 1. -/
def openContext (s : State) (c isbase ispages : Nat) (domain : W16) : State :=
  if !s.steward.up || c = 0 || 4096 ≤ c || !ctxFree s c || ispages = 0 || 64 < isbase + ispages then s
  else { s with
    ctxs := s.ctxs.put c { isbase := isbase, ispages := ispages, domain := domain, thresh := s.steward.thresh.lookD c 0 },
    migrations := s.migrations.del c }

/-- SETTHRESH, for a context not yet created. -/
def execSetthresh (ctx thresh : Nat) (s : State) : Res :=
  .next (vendorWhen s (1 ≤ ctx && ctx < 4096 && ctxFree s ctx && (thresh = 0 || (2 ^ 51 ≤ thresh && thresh ≤ 2 ^ 63)))
    (s.updStew fun w => { w with thresh := w.thresh.put ctx thresh }))

/-- SETCFG: stored for the next module reset. -/
def execSetcfg (accid ports : Nat) (s : State) : Res :=
  .next (vendorWhen s (accid < 1024 && ports < 2 ^ 16)
    (s.updStew fun w => { w with nextAccid := accid, nextPortCfg := BitVec.ofNat 16 ports }))

/-- What outlives a module reset: the platform configuration in the boot flash, devices, spare rows, and the model's own counters. DEDUCED: log 50. -/
def moduleReset (s : State) : State :=
  { State.reset with
    agenda := s.agenda, nextId := s.nextId, fresh := s.fresh, out := s.out, stackRecs := s.stackRecs, device := s.device,
    steward := { nextAccid := s.steward.nextAccid, nextPortCfg := s.steward.nextPortCfg } }

/-- Every context is saved, killed or ended, and no statement waits for its signature (R433, R434). -/
def resetReady (s : State) : Bool :=
  s.ctxs.all fun (_, k) => (k.ended || k.save.isSome || k.killed) && k.unsigned.isNone

/-- RESET: at once where it may, else remembered until MODULE_RESET. -/
def execReset (s : State) : Res :=
  .next (vendorWhen s true (if resetReady s then moduleReset s else s.updStew fun w => { w with resetAsked := true }))

/-- MODULE_RESET: power-good, or the module reset that a RESET asked for once it may happen. -/
def execModuleReset (s : State) : Res :=
  .next (if s.steward.resetAsked && s.dies.any (·.powered) && !resetReady s then s else moduleReset s)

/-! ### Bring-up (R432) -/

/-- FIRMWARE_FETCH, steps 2 and 3: the ROM reads the image into die 0's scratchpad, from the boot flash or, where that fails, from the NVMe device behind
root port 0, which it trains as x4 and resets again; it checks the image against the root key, and after the third failure stays in step 1. -/
def execFirmwareFetch (image signature : List Byte) (s : State) : Res :=
  let s' := s.draw.2.updStew fun w => { w with nvme := Config.flashFails s.fresh, ports := [] }
  .next (if !s.steward.recovery || s.steward.tries = 3 then s
    else if Config.verify 0 image signature then
      s'.updStew fun w => { w with step := 4, recovery := false, image := image, firmware := sha256 image }
    else s'.updStew fun w => { w with tries := w.tries + 1 })

/-- Step 4: HBM is trained, KM and the steward's own key are drawn, and shadow storage and the metadata areas are zeroed. -/
def trainHbm (s : State) : State :=
  { s with
    metaKey := Config.entropy s.fresh, keys := [(0, Config.entropy (s.fresh + 1))], fresh := s.fresh + 2,
    frames := [], poison := [], ver1 := [], ver2 := [], ver3 := [], root := [], hbm := [], wq := [], lineOut := none,
    ctxs := s.ctxs.map fun (c, k) => (c, { k with save := none }) }

/-- The next step of bring-up, from step 4 on. Step 4 ends after every die's first sensor sample (R431); ACCID and BIF do not change before a module
reset (R348, R433). DEDUCED: log 50. -/
def bringUp (s : State) : State :=
  if s.steward.recovery then s
  else match s.steward.step with
    | 4 => if s.dies.all (·.sampled) then (trainHbm s).updStew fun w => { w with step := 5 } else s
    | 5 => s.updStew fun w => { w with
        step := 6, idTaken := true, accid := if w.idTaken then w.accid else w.nextAccid, portCfg := if w.idTaken then w.portCfg else w.nextPortCfg }
    | _ => s

/-- Step 6: the clerks start, train every root port at its BIF setting and the stations, and enumerate the tree; then requests are accepted. DEDUCED: log 50. -/
def enumerateTree (s : State) (l : List Hdm) : State :=
  { s with
    hdm := l, lanesLost := [],
    steward := { s.steward with
      step := 7, clerks := true, image := [],
      ports := (List.range 8).foldl (fun m p => m.put p (bits s.steward.portCfg.toNat (2 * p + 1) (2 * p))) [] } }

/-- STEWARD_LOCKSTEP_MISMATCH (R16): both cores of the pair trap to the recovery ROM. -/
def execStewardLockstepMismatch (s : State) : Res :=
  .next (s.updStew fun w => { w with
    step := 1, recovery := true, tries := 0, clerks := false, firmware := List.replicate 32 0, session := false, pendingKey := false, version := false, algorithms := false, lastMeas := none })

/-! ### Heat (R430, R431) -/

/-- The thermal state after a sample: a state is left only 5 degrees below its entry. DEDUCED: log 51. -/
def thermalNext (old temp : Nat) : Nat :=
  if 105 ≤ temp || (old = 2 && 100 < temp) then 2
  else if 95 ≤ temp || (1 ≤ old && 90 < temp) then 1 else 0

/-- A trip: the dies power down and every context is lost. DEDUCED: log 51. -/
def trip (s : State) : State :=
  { moduleReset s with dies := List.replicate 4 { powered := false } }

/-- THERMAL_SAMPLE. -/
def execThermalSample (die temp : Nat) (s : State) : Res :=
  .next (if 115 ≤ temp && die < 4 then trip s
    else { s with dies := s.dies.modify die fun d => { d with sampled := true, temp := min temp 255, thermal := thermalNext d.thermal temp } })

/-! ### Migration (R425, R426) -/

/-- A table maps CXL memory or a PCI Express mapping. -/
def mapsDevice (s : State) : Nat → Nat → Bool
  | 0, _ => false
  | lvl + 1, frame => (List.range 512).any fun i =>
    match hbmRead s (frame * 4096 + 8 * i) 8 with
    | none => false
    | some b =>
      let e := ofLe b
      bit e 0 && (if bit e 1 then bits e 11 10 ≠ 0 else mapsDevice s lvl (bits e 51 12))

/-- The grounds on which the source refuses. -/
def migrateBad (s : State) (ctx : Nat) : Bool :=
  s.jobs.any (fun e => e.2.ctx == ctx && (e.2.st == .held || e.2.st == .ready || !e.2.rank.isEmpty))
    || mapsDevice s 4 (bits (s.ctx ctx).trcfg.toNat 51 12) || s.pasids.any (fun e => e.2 == ctx)

/-- MIGRATE: the source saves the context, unless it is saved already. -/
def execMigrate (ctx acc die q : Nat) (s : State) : Res :=
  let k := s.ctx ctx
  let ok := s.ctxs.has ctx && !k.ended && !s.migrations.has ctx && acc < 1024 && die < 4 && q < 16 && !migrateBad s ctx
  let s' := { s with migrations := s.migrations.put ctx { ctx := ctx, acc := acc, die := die, queue := q } }
  .next (vendorWhen s ok (if k.save.isSome || (k.preempt.map (·.tier)).getD 0 ≥ 2 then s' else startTier2 s' ctx))

/-- The frames of a context's tables, from a level down, in memory at addresses of its module. -/
def tableFrames (m : Mem) : Nat → Nat → List Nat
  | 0, _ => []
  | lvl + 1, frame => frame :: (List.range 512).flatMap fun i =>
    let e := ofLe (m.readN (frame * 4096 + 8 * i) 8)
    if bit e 0 && !bit e 1 then tableFrames m lvl (bits e 51 12) else []

/-- The runs of frames that tables map with MEM = 0: first frame and length. -/
def leafRuns (m : Mem) : Nat → Nat → List (Nat × Nat)
  | 0, _ => []
  | lvl + 1, frame => (List.range 512).flatMap fun i =>
    let e := ofLe (m.readN (frame * 4096 + 8 * i) 8)
    if !bit e 0 then []
    else if bit e 1 then (if bits e 11 10 = 0 then [(bits e 51 12, 512 ^ lvl)] else [])
    else leafRuns m lvl (bits e 51 12)

def rootFrame (k : Context) : Nat := bits k.trcfg.toNat 51 12

/-- The bytes that the source of a migration sends (R426, step 4): the privileged registers and the fabric domain, the thread records, live registers and
store pages of the save areas, with their other regions in a form that the spec does not give, the context's allocations, its tables and the plaintext of
the frames that they map. DESIGN CHOICE: log 69. -/
def sentBytes (s : State) (c : Nat) : List Byte :=
  let k := s.ctx c
  let v := k.save
  let root := rootFrame k
  let frames := tableFrames s.hbm 4 root ++ (leafRuns s.hbm 4 root).flatMap fun r => (List.range r.2).map (r.1 + ·)
  let held := (s.blocks.filter fun e => e.2.ctx == c).flatMap fun e => e.2.a3.toList
  leBytes 4 k.fpxc.toNat ++ leBytes 4 k.fabcfg.toNat ++ leBytes 8 k.trcfg.toNat ++ leBytes 4 k.traph.toNat ++ leBytes 4 k.stepc.toNat
    ++ leBytes 4 k.wdog.toNat ++ leBytes 4 k.fltpol.toNat ++ leBytes 8 k.fltlog.toNat ++ leBytes 4 k.fltcnt.toNat ++ leBytes 2 k.domain.toNat
    ++ ((v.map (·.threads)).getD []).flatMap (·.2) ++ ((v.map (·.live)).getD []).flatMap (·.2)
    ++ ((v.map (·.cores)).getD []).flatMap (fun e => (e.2.home.keys.flatMap fun p => e.2.store.readN (p * 4096) 4096))
    ++ Config.spdm 0x426 (leBytes 4 c)
    ++ held.eraseDups.flatMap (fun a => ((s.allocs.look a).map fun x => x.mem.readN 0 x.size).getD [])
    ++ frames.flatMap fun f => s.hbm.readN (f * 4096) 4096

/-- Steps 2 and 4 at the source, once the context is saved: the two steward pairs authenticate each other and read the measurements of R426, and the
source sends what the context holds. A peer that does not verify ends the session, and the context stays where it is. -/
def migrateSend (s : State) (c : Nat) : State :=
  match s.migrations.look c with
  | none => s
  | some m =>
    if m.sent.isSome || m.handedOver || (s.ctx c).save.isNone then s
    else
      let s := s.emit (.peer m.acc 0x64 (Config.spdm 0xE4 (leBytes 2 s.steward.accid)))
      let s := [1, 2, 3, 4, 0x10, 0x11, 0x12].foldl (fun s i => s.emit (.peer m.acc 0x60 (leBytes 1 i))) s
      if !Config.peerVerifies s.fresh then { s.draw.2 with migrations := s.migrations.del c }
      else
        let b := sentBytes s c
        { s.draw.2.emit (.peer m.acc 0x7E b) with migrations := s.migrations.put c { m with sent := some b } }

/-- Releases everything that a context holds on this module: its work, frames, tables, keys, bindings, lossy buffers and regions. A frame keeps its counters
for its next owner (R297). -/
def releaseCtx (s : State) (c : Nat) : State :=
  let root := rootFrame (s.ctx c)
  let tabs := if root = 0 then [] else (tableFrames s.hbm 4 root).filter fun f => ((s.frames.look f).map (·.keyid)) == some 0
  let s := dropSave (dropWork s c) ((s.ctxs.look c).bind (·.save))
  let s := freeFrames s (AMap.sel s.frames (fun _ f => f.keyid == c) ++ tabs)
  { s with
    keys := s.keys.del c, tlb := s.tlb.filter fun t => t.ctx != c,
    codes := s.codes.filter fun e => e.2.ctx != c, grids := s.grids.filter fun e => s.jobs.has e.2.job,
    lossy := s.lossy.filter fun e => e.2.ctx != c, pasids := s.pasids.filter fun e => e.2 != c, doors := s.doors.filter fun e => e.2.ctx != c,
    ctxs := s.ctxs.upd c fun k => { k with ended := true, save := none, halt := none, preempt := none, deferred := none, deferredStops := [], regions := [] } }

/-- A context ends with its last statement, once no job of it stands (R300, R417, R421, R433). DESIGN CHOICE: log 1. -/
def endContext (s : State) (c : Nat) : State :=
  if !s.steward.up || !((s.ctxs.look c).map fun k => !k.ended).getD false || s.jobs.any (fun e => e.2.ctx == c) || s.migrations.has c then s
  else releaseCtx (snapshot s c 5 []) c

/-- MIGRATION_DIGEST_RECEIVED: a session or digest that does not check leaves the context saved; else the hand-over statement is signed,
the work is dropped, each Running job gets its Migrated response with the destination's ID (R101), and everything is released. DEDUCED: log 52. DESIGN CHOICE: log 69. -/
def execMigrationDigestReceived (ctx : Nat) (digest : List Byte) (s : State) : Res :=
  .next (match s.migrations.look ctx with
    | none => s
    | some m =>
      if m.handedOver || m.sent.isNone || (s.ctx ctx).save.isNone then s
      else if !Config.peerVerifies s.fresh || some digest ≠ m.sent.map sha256 then { s.draw.2 with migrations := s.migrations.del ctx }
      else
        let s := signThrough (snapshot s.draw.2 ctx 4 (Config.spdm 0x427 (leBytes 4 m.acc))) ctx
        let js := AMap.sel s.jobs fun _ j => j.ctx == ctx
        let s := js.foldl (fun s i => closeJob s i .migrated m.acc) (dropWork s ctx)
        { releaseCtx s ctx with migrations := s.migrations.put ctx { m with handedOver := true } })

/-- What a destination signs to refuse a context (R425). DESIGN CHOICE: log 69. -/
def refusalBody (ctx : Nat) : List Byte := Config.spdm 0x425 (leBytes 4 ctx)

/-- A refusal arrives; MIGRATION_REFUSAL checks it. -/
def hearRefusal (s : State) (c : Nat) (signature : List Byte) : State :=
  { s with migrations := s.migrations.upd c fun m => { m with refusal := some signature } }

/-- MIGRATION_REFUSAL: a signed refusal after the hand-over ends the context's chain with a statement of kind 5; an earlier one leaves the
context saved at the source. -/
def execMigrationRefusal (ctx : Nat) (s : State) : Res :=
  .next (match s.migrations.look ctx with
    | none => s
    | some m =>
      if !m.refusal.any (Config.verify 1 (refusalBody ctx)) then s
      else if m.handedOver then { snapshot s ctx 5 [] with migrations := s.migrations.del ctx }
      else { s with migrations := s.migrations.del ctx })

/-! ### The destination of a migration (R425, R426) -/

/-- The frame that stands here for a frame of the source. -/
def Incoming.frameOf (m : Incoming) (f : Nat) : Option Nat :=
  (m.runs.find? fun r => r.1 ≤ f && f < r.1 + r.2.1).map fun r => r.2.2 + (f - r.1)

/-- The tier of a frame (R294). -/
def tierOf (f : Nat) : Nat := if 8 ≤ stackOf (f * 4096) then 1 else 0

/-- Frames here, each of the tier of its frame at the source, for the runs that tables map, the longest first, and for the tables. -/
def takeRuns (s : State) (own : Nat) (l : List (Nat × Nat)) : List (Nat × Nat × Nat) × State :=
  (sortKey (fun r => [r.2]) l).reverse.foldl (fun (rs, s) r =>
    if rs.any fun x => x.1 ≤ r.1 && r.1 < x.1 + x.2.1 then (rs, s)
    else let (f, s) := newRun s (tierOf r.1) r.2 own; (rs ++ [(r.1, r.2, f)], s)) ([], s)

def takeTables (s : State) (l : List Nat) : List (Nat × Nat) × State :=
  l.eraseDups.foldl (fun (ts, s) f => let (g, s) := newRun s (tierOf f) 1 0; (ts ++ [(f, g)], s)) ([], s)

/-- Shares free clusters out over the partitions of a save area: each keeps its count. -/
def shareOut : List (Nat × Part2) → List Nat → List (Nat × List Nat × List Nat)
  | [], _ => []
  | (id, p) :: l, free => (id, sortKey (fun x => [x]) p.clusters, free.take p.clusters.length) :: shareOut l (free.drop p.clusters.length)

/-- The number of a context here: its own when that is free, else a free one. -/
def ownNumber (s : State) (c : Nat) : Option Nat :=
  if 1 ≤ c && c < 4096 && ctxFree s c then some c
  else
    let l := ((List.range 4095).map (· + 1)).filter (ctxFree s)
    l[Config.pick s.fresh % l.length]?

/-- What a destination refuses or abandons is given back. -/
def dropIncoming (s : State) : State :=
  match s.incoming with
  | none => s
  | some m =>
    let s := freeFrames s (m.runs.flatMap (fun r => (List.range r.2.1).map (r.2.2 + ·)) ++ m.tables.map (·.2))
    { s with incoming := none, claims := s.claims.filter fun c => !(c.reserved && some c.work == m.own.map (1, ·)) }

/-- Step 3 at the destination: the peer is authenticated, and the context's number, clusters of one die on which its store pages are free, shadow storage,
room in the die scratchpad and frames are reserved; where one lacks, the session ends (R136, R426). DEDUCED: log 52. -/
def reserveMove (s : State) : State :=
  match s.incoming with
  | none => s
  | some m =>
    if m.own.isSome then s
    else match ownNumber s m.ctx, m.context.save with
      | some own, some v =>
        let s := { s with fresh := s.fresh + 2 }
        let free := freeClusters { s with ctxs := s.ctxs.put own { isbase := m.context.isbase, ispages := m.context.ispages } } own m.die
        let need := (v.parts.map fun e => e.2.clusters.length).sum
        let bytes : AMap Nat := [(m.die, (v.bytes.map (·.2)).sum)]
        let allocs := m.allocs.map fun (k, a) => (k, if a.path = 3 then { a with unit := m.die } else a)
        let s' := makeShadowRoom s bytes
        if !Config.peerVerifies (s.fresh - 1) || free.length < need || 4 ≤ m.die || !shadowFits s' bytes
          || diePad < dieUse { s with incoming := some { m with own := some own, allocs := allocs } } m.die then { s with incoming := none }
        else
          let root := rootFrame m.context
          let (runs, s) := takeRuns s' own (leafRuns m.hbm 4 root)
          let (tabs, s) := takeTables s (tableFrames m.hbm 4 root)
          let moved := shareOut v.parts free
          { s with
            claims := s.claims ++ [{ work := (1, own), kept := mappedClusters moved, reserved := true }],
            incoming := some { m with
              own := some own, runs := runs, tables := tabs, moved := moved, allocs := allocs,
              context := { m.context with save := some { v with bytes := bytes, frames := [] } } } }
      | _, _ => { s with incoming := none }

/-- The destination returns a signed digest of everything that it has received (R426). -/
def returnDigest (s : State) : State :=
  match s.incoming with
  | none => s
  | some m => if m.own.isNone then s else let d := sha256 m.received; s.emit (.peer m.src 0x426 (d ++ Config.sign 0 d))

/-- Joins received records with those of the module. -/
def join {α : Type} (m n : AMap α) : AMap α := n.foldl (fun m e => m.put e.1 e.2) m

/-- The jobs of a hand-in take Free slots of the named queue, in order, and are Running; `none` where the queue lacks slots. -/
def enterJobs (s : State) (die q ctx : Nat) : List (Nat × Job) → Option State
  | [] => some s
  | (i, j) :: rest =>
    match freeSlot (s.queue die q) with
    | none => none
    | some n =>
      let x := s.queue die q
      let s := s.setQueue die q { x with slots := x.slots.put n i }
      enterJobs { s with jobs := s.jobs.put i { j with ctx := ctx, die := die, queue := q, slot := n, st := .running } } die q ctx rest

/-- Save areas whose cores are numbered after the reserved clusters. -/
def movedSave (m : Incoming) (v : Save) : Save :=
  let re {α : Type} (f : Nat → Nat) (x : AMap α) : AMap α := x.foldl (fun y e => y.put (f e.1) e.2) []
  { v with
    cores := re (fun k => savedCore + newCore m.moved (k - savedCore)) v.cores, regions := re (newCore m.moved) v.regions,
    live := re (newCore m.moved) v.live,
    parts := v.parts.map fun e => (e.1, { e.2 with ctx := m.own.getD 0, clusters := ((m.moved.find? (·.1 == e.1)).map (·.2.2)).getD [] }) }

/-- The frame of a table here. -/
def Incoming.tableOf (m : Incoming) (f : Nat) : Nat := ((m.tables.find? (·.1 == f)).map (·.2)).getD f

/-- The context of a hand-in: its counters, MEAS and chain are those of the hand-over statement, its tables are its own here, and its THRESH is one that
SETTHRESH has set for its number, else the source's (R421, R425). DEDUCED: log 52. -/
def handInCtx (s : State) (m : Incoming) : Context :=
  let k := { chainFrom m.context m.statement with
    meas := (m.statement.drop 88).take 32, handin := true, ended := false, killed := false,
    thresh := s.steward.thresh.lookD (m.own.getD 0) m.context.thresh,
    trcfg := BitVec.ofNat 64 (m.context.trcfg.toNat - rootFrame m.context * 4096 + m.tableOf (rootFrame m.context) * 4096),
    save := m.context.save.map (movedSave m) }
  { k with kind3 := passed k, statements := [] }

/-- A table entry whose frame is the one that stands here for the source's (R426). -/
def Incoming.entry (m : Incoming) (e : Nat) : Nat :=
  let f := bits e 51 12
  let g := if !bit e 0 then f
    else if !bit e 1 then m.tableOf f
    else if bits e 11 10 = 0 then (m.frameOf f).getD f else f
  e - f * 4096 + g * 4096

/-- The frames' contents and the tables, with every PFN rewritten, stand in the frames taken for them, with ZP = 0. -/
def installFrames (s : State) (m : Incoming) : State :=
  let fs := m.runs.flatMap (fun r => (List.range r.2.1).map (r.2.2 + ·)) ++ m.tables.map (·.2)
  let s := fs.foldl (fun s f => initFrame s f (s.frames.lookD f {})) s
  let h := m.hbm.foldl (fun h b => match m.frameOf (b.1 / 4096) with
    | some f => h.write (f * 4096 + b.1 % 4096) b.2
    | none => h) s.hbm
  { s with hbm := m.tables.foldl (fun h t => (List.range 512).foldl (fun h i =>
      h.writeN (t.2 * 4096 + 8 * i) (leBytes 8 (m.entry (ofLe (m.hbm.readN (t.1 * 4096 + 8 * i) 8))))) h) h }

/-- The hand-over statement checks: its signature, its kind, that it follows the statement before it, and that it names this module and the
context (R425). -/
def handInOk (m : Incoming) : Bool :=
  let b := m.statement
  stmtOk b && recNat b 6 1 = 4 && (b.drop 176).take 32 == chipId && recNat b 40 4 = m.ctx
    && (if recNat b 48 8 = 1 then (b.drop 56).take 32 == List.replicate 32 0
      else recNat b 48 8 = recNat m.previous 48 8 + 1 && (b.drop 56).take 32 == sha256 m.previous)

/-- The destination refuses, with a signed refusal (R425). -/
def refuseMove (s : State) (m : Incoming) : State :=
  (dropIncoming s).emit (.peer m.src 0x7F (refusalBody m.ctx ++ Config.sign 1 (refusalBody m.ctx)))

/-- MIGRATION_HAND_IN: the destination checks the statement, installs what it received, with every frame under the context's key and
ZP = 0, and enters the Running jobs. The key comes with KEY_RELEASE. A statement that does not check is refused. DESIGN CHOICE: log 69. -/
def execMigrationHandIn (s : State) : Res :=
  .next (match s.incoming with
    | none => s
    | some m => match m.own with
      | none => refuseMove s m
      | some own =>
        if !handInOk m then refuseMove s m
        else
          let x := s.queue m.die m.queue
          let cfg := (x.cfg &&& 0x000FFFFF) ||| (BitVec.ofNat 32 own <<< 20)
          let x := { x with cfg := cfg }
          let x := if x.en then x else
            { x with cfg := cfg ||| 0x10000, ack := 0, rseq := 0, rack := 0, stat := 0, slots := [], closing := [], waiting := [] }
          let s' := (installFrames s m).setQueue m.die m.queue x
          let s' := { s' with
            incoming := none, ctxs := s.ctxs.put own (handInCtx s m), migrations := s.migrations.del own,
            codes := join s.codes (m.codes.map fun e => (e.1, { e.2 with ctx := own })), grids := join s.grids m.grids, groups := join s.groups m.groups,
            blocks := join s.blocks (m.blocks.map fun e => (e.1, { e.2 with ctx := own })), threads := join s.threads m.threads, bars := join s.bars m.bars,
            allocs := join s.allocs m.allocs, pubs := join s.pubs m.pubs, pend := join s.pend (m.pend.map fun e => (e.1, { e.2 with ctx := own })) }
          let s' := moveWork s' own (fun k => savedCore + newCore m.moved (k - savedCore)) (fun c => savedCluster + newCluster m.moved (c - savedCluster))
          match enterJobs s' m.die m.queue own m.jobs with
          | some s'' => s''
          | none => refuseMove s m)

end Sys2Proof.Machine
end

