-- ==== Sys2Proof/Machine/Agenda.lean ====
section
/-! DEFINITION. What the module does when its agenda names no move: the moves that its own agents may make, of which a free choice takes
one; what a core or an AP issues; and the placement of one instruction where the next step issues it. -/

namespace Sys2Proof.Machine

/-! ### Issue -/

/-- The instruction that the focus core's gathered set issues next; an A-class clause is handed off instead (R244). -/
def focusInstr (s : State) : Option Instr :=
  match (s.core s.focus).gather with
  | some g =>
    match (s.core s.focus).instr g.off g.slot with
    | some i => if i.isA then none else some i
    | none => none
  | none => none

def apInstr (s : State) : Option Instr := apInstrAt s s.focus s.focusAp

/-- A core with no instruction to issue: it hands off an A-class clause, or lets go of a set whose clause has gone. -/
def stuckIssue (s : State) : State :=
  match (s.core s.focus).gather with
  | none => s
  | some g =>
    if (curHeader s g).cls = .A then
      match execApHandoff s.focus s with
      | .next s' => s'
      | _ => s
    else dissolve s s.focus

def stuckAp (s : State) : State := apStuck s s.focus s.focusAp

/-! ### The moves of the module's own agents -/

/-- The event by which an operation in flight lands or completes. -/
def POp.events (id : Nat) (p : Pend) : List Instr :=
  match p.op with
  | .ld .. => [.ldDataLands id]
  | .shld .. => [.shldDataLands id]
  | .atom .. => [.atomicValueLands id]
  | .probe .. => [.probeComplete id]
  | .qpop _ => [.qpopLands id]
  | .sfu _ _ _ acc => if acc then [.sfuResultLands id] else [.sfuQueueAccept p.core]
  | .rld .. => [.remoteTimeout id]
  | .rst .. => [.remoteTimeout id]
  | .copy _ _ copied _ => if copied then [.tcopyFollowOnIssue id] else [.copyCommandComplete id]
  | .wbind win _ => [.windowFillComplete p.blk win]
  | .chain .. => [.chainComplete id]
  | .publ .. => [.publSwap id]
  | .launch .. => [.launchDecided id]
  | .dectab .. => [.dectabComplete id]
  | .tlbinv .. => [.tlbinvComplete id true, .tlbinvComplete id false]
  | .answer .. | .ovl _ | .dbell _ | .ctxsave _ | .ctxload _ | .matrix _ => []

/-- The command of the array that an operation in flight stands for: its own, or the follow-on of a copy. -/
def cmdOf (s : State) (id : Nat) (p : Pend) : Option MCmd := (s.core p.core).mcmds.find? (·.pend == some id)

/-- The parts of an operation that may land before the rest: an answer that is known, a word of an SHLD, a destination line of a copy, fill or chain, a k-block of a product, a
line of a movement (R174, R256, R282, R288). -/
def burstsOf (s : State) (id : Nat) (p : Pend) : List Nat :=
  let lines (qd : Shape) (ext : List Nat) : List Nat := ((remaining qd ext p.landed).map (lineOfElem qd)).eraseDups
  match p.op with
  | .answer .. => [0]
  | .shld _ _ _ _ _ got => (List.range 8).filter fun k => !got.has k
  | .copy c _ false _ => lines c.qd (copyExt c.qs)
  | .wbind _ (some c) => lines c.qd (copyExt c.qs)
  | .chain qd qs _ => lines qd (sizes qs)
  | _ => match cmdOf s id p with
    | none => []
    | some c => match moveOut s p.core c with
      | some (out, _) => (out.flatMap fun e => e.2.map fun x => moveLine (ShapeOf.path e.1) x.1).eraseDups
      | none => if isNf c then [] else [0]

/-- One part lands. DESIGN CHOICE: log 1. -/
def burst (s : State) (id k : Nat) : State :=
  match s.pend.look id with
  | none => s
  | some p => match p.op with
    | .answer .. => landAnswer s id
    | .shld .. => shldBurst s id k
    | _ => match cmdOf s id p with
      | some c => matBurst s p.core c.id k
      | none => copyBurst s id k

/-- What the steward pair and the clerks do of themselves: contexts, bring-up and migrations (R23, R426, R432), windows of CXL memory, at most 8 decoders
to a port, bindings of functions, ATS, and doorbell windows (R362, R364, R365, R372). DESIGN CHOICE: log 1. -/
def clerkMove (s : State) (m : Move) : State :=
  match m with
  | .enumerate l =>
    if !(l.all fun h => h.port < 8 && memRange 1 h.base && memRange 1 (h.base + h.len - 1) && (l.filter (·.port == h.port)).length ≤ 8) then s
    else if s.steward.step = 6 then enumerateTree s l
    else if s.steward.clerks then { s with hdm := l } else s
  | .bindPasid key c => if s.pasids.length < 4096 || s.pasids.has key then { s with pasids := s.pasids.put key c } else s
  | .enableAts fn => { s with ats := NSet.add s.ats fn, atsLost := s.atsLost.filter (· != fn) }
  | .mapDoor m d => if m < 4096 && d.port < 8 then { s with doors := s.doors.put m d } else s
  | .openContext c base pages dom => openContext s c base pages dom
  | .endContext c => endContext s c
  | .bringUp => bringUp s
  | .migrateSend c => migrateSend s c
  | .reserve => reserveMove s
  | .hearRefusal c sig => hearRefusal s c sig
  | .returnDigest => returnDigest s
  | .carryRemote id => carryRemote s id
  | _ => s

def threadEvents (u : Nat) (t : Thread) : List Instr :=
  (match t.st with
    | .trapWait => [.trapEntry u]
    | .sleeping _ => [.waitmemWake u]
    | .barWait _ _ => [.barrierReinsert u]
    | _ => [])
  ++ t.fences.map (fun f => .fenceComplete u f.id)
  ++ (if (waitOf t).isSome then [.watchdogExpiry u] else [])

def coreMoves (k : Nat) (c : CoreRec) : List Move :=
  if Config.cores ≤ k then []
  else
    (match c.gather with
      | some _ => [.issue k]
      | none => if c.owner.isSome then [.event (.gatherForm k)] else [])
    ++ ((List.range 4).filter fun n => ((c.aps[n]?).map (·.running)).getD false).map (fun n => Move.apIssue k n)
    ++ (if c.startq.isEmpty then [] else [.event (.apProgramStart k)])
    ++ ((List.range 8).filter fun q => ((c.queues.getD q []).any (·.words.isNone))).map (fun q => Move.event (.apEntryWhole k q))
    ++ ((c.home.filter fun e => match e.2 with
        | .loading .. => true
        | _ => false).map fun e => Move.event (.overlayLoadComplete k e.1))
    ++ c.mcmds.flatMap (fun m => [Move.event (.matrixCommandComplete k m.id), .event (.mmaNfSquash k m.id), .event (.mmaNfCommit k m.id)])
    ++ [.event (.governorWindowEnd k [])]

def ctxEvents (c : Nat) (k : Context) : List Instr :=
  (match k.halt with
    | some h => if h.quiet then [.faultVerdict c, .pageServiceComplete c, .pageServiceTimeout c] else [.contextQuiescent c]
    | none => [])
  ++ (if k.preempt.isSome then [.preemptionTier2 c, .contextSaveComplete c, .preemptionTier3Reset c] else [])
  ++ (if k.unsigned.isSome then [.statementSign c] else [])

def jobEvents (i : Nat) (j : Job) : List Instr :=
  if j.stages.isEmpty then []
  else .stageFeed i :: .gridRetire i :: (List.range j.stages.length).flatMap fun n => [.continuationBinning i n, .binFlushDry i n]

def stackEvents (n : Nat) (r : StackRec) : List Instr :=
  r.copying.keys.map (fun row => .sparingLineCopy n row)
    ++ (r.errors.filter fun e => 16 ≤ e.2).map (fun e => .sparingCopyStart n e.1)

/-- The moves that may come next with nothing from outside; a move whose condition does not hold changes nothing. -/
def innerMoves (s : State) : List Move :=
  let ev (l : List Instr) : List Move := l.map Move.event
  .elapse 1 :: s.cores.flatMap (fun e => coreMoves e.1 e.2)
    ++ ev (s.threads.flatMap fun e => threadEvents e.1 e.2)
    ++ ev (s.pend.flatMap fun e => POp.events e.1 e.2)
    ++ (s.pend.flatMap fun e => (burstsOf s e.1 e.2).map fun k => Move.burst e.1 k)
    ++ (s.cores.flatMap fun e => (e.2.home.filter fun h => match h.2 with | .loading .. => true | _ => false).flatMap fun h =>
        ((List.range 512).map fun i => h.1 * 4096 + 8 * i).filterMap fun o => if e.2.fetched.has o then none else some (Move.fetchWord e.1 o))
    ++ (s.treeBad.map fun b => Move.mendTree b.1 b.2)
    ++ ev (s.stores.keys.map .writeQueueAccept)
    ++ ev (s.bells.keys.map .doorbellSend)
    ++ ev (s.ctxs.flatMap fun e => ctxEvents e.1 e.2)
    ++ ev ((List.range 4).map .placementPass)
    ++ ev (s.jobs.flatMap fun e => jobEvents e.1 e.2)
    ++ ev ((s.grids.filter (·.2.retiring)).map fun e => .gridRetire e.1)
    ++ ev ((s.wq.map fun w => w.line).eraseDups.map .lineWrite)
    ++ ev (s.stackRecs.flatMap fun e => stackEvents e.1 e.2)
    ++ ev (if s.gated then [.apertureWake] else [])
    ++ ev (s.sending.map fun x => .classLSendExpiry x.packet)
    ++ ev (s.ingress.flatMap fun x => [.classLPacketReceive x.2, .classLIngressExpiry x.2])
    ++ ev (s.lossy.keys.map .lossyBufferClose)
    ++ (match s.incoming with
      | none => []
      | some m => if m.own.isNone then [.reserve] else [.event .migrationHandIn, .returnDigest])
    ++ s.migrations.keys.flatMap (fun c => [.migrateSend c, .event (.migrationRefusal c)])
    ++ (AMap.sel s.stores fun _ st => st.core == Config.cores).map .carryRemote
    ++ (if s.steward.step = 4 || s.steward.step = 5 then [.bringUp] else [])
    ++ ev (if s.steward.resetAsked && resetReady s then [.moduleReset] else [])

/-- The next move when the agenda is empty. DESIGN CHOICE: log 2. -/
def nextMove (s : State) : Move × State :=
  let l := innerMoves s
  (l.getD (Config.pick s.fresh % l.length) (.elapse 1), { s with fresh := s.fresh + 1 })

/-! ### One instruction in place -/

/-- The clause of a word as the host numbers it: header, instruction word, literal. -/
def clauseWords (w : Nat) : List Byte := leBytes 24 w

/-- A resident clause at store offset 0 of core 0, and the thread or the AP that issues it next. It stands for the load of a program and
its launch: context 1, its code object, its block and thread. DESIGN CHOICE: log 6. -/
def placeWord (s : State) (_nbits w : Nat) : State :=
  let isAp := ((decodeHeader (bits w 63 0)).map (·.cls)) == some .A
  let k := s.core 0
  let b : Block := { ctx := 1, job := 0, grid := none, group := 1, stage := none, core := 0, blockId := 0, order := 0, threads := 1, kernel := 0,
                     code := 1, stack := 0, data := 0, maxlive := 128, started := true }
  let code : Code := { ctx := 1, addr := 0, kernels := [], pipes := [], bindings := [],
                       overlays := [{ num := 0, off := 0, len := 4096, hash := [], sperm := true, home := 0 }] }
  let ap : Ap := { running := true, queues := 0xFF, blk := 1 }
  { s with
    nextId := max s.nextId 2, focus := 0, focusAp := 0,
    ctxs := s.ctxs.put 1 { ispages := 1 },
    codes := s.codes.put 1 code,
    blocks := s.blocks.put 1 b,
    groups := s.groups.put 1 { grid := none, cluster := 0, blocks := [1], alloc := none },
    threads := s.threads.put (uid 1 0) { blk := 1, tid := 0, st := if isAp then .ready else .issuing },
    cores := s.cores.put 0 { k with
      owner := some 1, store := k.store.writeN 0 (clauseWords w), home := k.home.put 0 (.resident 1 0 4096 true),
      gather := if isAp then none else some { members := [uid 1 0], off := 0, slot := 0 },
      aps := if isAp then k.aps.set 0 ap else k.aps },
    agenda := (if isAp then .apIssue 0 0 else .issue 0) :: s.agenda }

end Sys2Proof.Machine
end

