-- ==== Sys2Proof/Machine/GClass.lean ====
section
/-! DEFINITION. Class G: gang collectives and permutes (R203 to R218). -/

namespace Sys2Proof.Machine

/-- The common issue of a G-class instruction. A freed-register read stops the whole gang at the slot (R218); every source is read
before any free, and every free is made before any write (R205). -/
def issueG (i : Instr) (check : List Mb → Option (Mb × Flt)) (eff : State → List Mb → State) (s : State) : Res :=
  .next (match (s.core s.focus).gather with
  | none => s
  | some g =>
    let ms := membersOf s g
    let act := active i ms
    if mustWait s i act then stallSet s ms
    else
      let freed := act.filterMap fun m => (freedTrap s i m).map fun r => (m.u, r)
      if !freed.isEmpty then dissolve (freed.foldl (fun s (u, r) => leaveFor s u r) s) s.focus
      else match faultSet s i {} act (fun m => if liveAfter m.t i > m.b.maxlive then some ⟨0x2D, 0, 0⟩ else none) with
        | some s' => s'
        | none => match check act with
          | some (m, x) => faultThread s m.u x.cause x.va x.detail [m.u] false false
          | none => advance (eff (freeRegs s i ms) act) i g ms [])

/-- A G-class instruction that gives each active member an effect computed from all of them. -/
def gang (i : Instr) (check : List Mb → Option (Mb × Flt)) (f : List Mb → Mb → Eff) (s : State) : Res :=
  issueG i check (fun s act => act.foldl (fun s m => applyEff s m (f act m)) s) s

def noCheck : List Mb → Option (Mb × Flt) := fun _ => none

/-- The active member on a lane. -/
def onLane (act : List Mb) (j : Nat) : Option Mb := act.find? fun m => m.t.lane == j

/-- The membership mask (R203). -/
def memberMask (act : List Mb) : Nat := act.foldl (fun a m => a + 2 ^ m.t.lane) 0

/-! ### Permutes (R207, R208) -/

/-- The source lane of SHFL, if it lies in the gang (R207). -/
def shflLane (md : ShfMode) (i b : Nat) : Option Nat :=
  let j : Int := match md with
    | .up => (i : Int) - b
    | .down => i + b
    | .xor => (i ^^^ b : Nat)
    | .idx => b
  if 0 ≤ j && j < Config.lanes then some j.toNat else none

def execShfl (x : X) (m : ShfMode) (wrel : Bool) (s : State) : Res :=
  gang (.shfl x m wrel) noCheck (fun act me =>
    let b := if wrel then Config.lanes / 2 ^ me.raw 32 x.sb else me.raw 32 x.sb
    let src := ((shflLane m me.t.lane b).bind (onLane act)).getD me
    toDst (.shfl x m wrel) (src.raw 32 x.sa)) s

/-- The table byte an index selects, or FILL (R208). -/
def lutByte (t : Thread) (base n idx fill : Nat) : Nat :=
  if idx < 4 * n then (t.reg (base + idx / 4)).toNat / 2 ^ (8 * (idx % 4)) % 256 else fill

def execVlut (x : X) (fill : Byte) (n : Fin 8) (s : State) : Res :=
  gang (.vlut x fill n) noCheck (fun _ me =>
    let base := match x.sa with
      | .v r => r.val
      | _ => 0
    let idx := me.raw 32 x.sb
    toDst (.vlut x fill n) ((List.range 4).foldl (fun a k =>
      a + lutByte me.t base (n.val + 1) (idx / 2 ^ (8 * k) % 256) fill.toNat * 2 ^ (8 * k)) 0)) s

/-! ### Reductions and scans (R209 to R212) -/

/-- One combine: the result and the exceptions it raises (R209). -/
def ropApply (op : Rop) (r : Rnd) (a b : Nat) : Nat × Nat :=
  let sa := sextNat 32 a
  let sb := sextNat 32 b
  match op with
  | .iadd => ((a + b) % 2 ^ 32, 0)
  | .imin => (if sa ≤ sb then a else b, 0)
  | .imax => (if sa ≤ sb then b else a, 0)
  | .nmin => (min a b, 0)
  | .nmax => (max a b, 0)
  | .and => (a &&& b, 0)
  | .or => (a ||| b, 0)
  | .xor => (a ^^^ b, 0)
  | .fadd => fAdd f32 r false 0 a b
  | .fmin => fMinMax f32 false false a b
  | .fmax => fMinMax f32 true false a b

/-- The identity of a ROP (R209). -/
def ropIdentity (op : Rop) : Nat :=
  match op with
  | .imin => 0x7FFFFFFF
  | .imax => 0x80000000
  | .nmin | .and => 0xFFFFFFFF
  | .fmin => 0x7F800000
  | .fmax => 0xFF800000
  | _ => 0

/-- The combine of values that may be absent. -/
def combine (op : Rop) (r : Rnd) (x y : Option Nat × Nat) : Option Nat × Nat :=
  let e := x.2 ||| y.2
  match x.1, y.1 with
  | none, v => (v, e)
  | v, none => (v, e)
  | some a, some b =>
    let (c, f) := ropApply op r a b
    (some c, e ||| f)

/-- One level of the tree: neighbours at the level's distance combine. -/
def treeLevel (op : Rop) (r : Rnd) : List (Option Nat × Nat) → List (Option Nat × Nat)
  | x :: y :: l => combine op r x y :: treeLevel op r l
  | l => l

/-- The tree over the lanes, `n` levels deep (R209). -/
def tree (op : Rop) (r : Rnd) : Nat → List (Option Nat × Nat) → Option Nat × Nat
  | 0, l => l.headD (none, 0)
  | n + 1, l => tree op r n (treeLevel op r l)

/-- The values of the members that satisfy a test, lane by lane. -/
def laneVals (act : List Mb) (o : Opnd) (present : Mb → Bool) : List (Option Nat × Nat) :=
  (List.range Config.lanes).map fun j => match onLane act j with
    | some m => (if present m then some (m.raw 32 o) else none, 0)
    | none => (none, 0)

/-- The result of a tree reduction with the exceptions raised. -/
def vredValue (op : Rop) (r : Rnd) (act : List Mb) (o : Opnd) (present : Mb → Bool) : Nat × Nat :=
  let (v, e) := tree op r 6 (laneVals act o present)
  (v.getD (ropIdentity op), e)

/-- The mask that a member supplies (R210). -/
def Mb.laneMask (m : Mb) (o : Opnd) : Nat := m.raw 64 o

/-- Places a member by its age, then its lane. -/
def byAge (m : Mb) : List Mb → List Mb
  | [] => [m]
  | x :: l => if m.t.since < x.t.since || (m.t.since == x.t.since && m.t.lane ≤ x.t.lane) then m :: x :: l else x :: byAge m l

/-- The mismatch fault of R211: the first active member, in arrival order, that differs from the first to arrive. -/
def maskMismatch (o : Opnd) (act : List Mb) : Option (Mb × Flt) :=
  let lanes := memberMask act
  match act.foldr byAge [] with
  | [] => none
  | f :: l => (l.find? fun m => m.laneMask o &&& lanes != f.laneMask o &&& lanes).map fun m => (m, ⟨0x2A, 0, m.t.lane⟩)

/-- Member i is present in a masked mode (R210). -/
def inMask (o : Opnd) (m : Mb) : Bool := bit (m.laneMask o) m.t.lane

def execVred (x : X) (op : Rop) (masked : Bool) (r : Rnd) (s : State) : Res :=
  gang (.vred x op masked r) (if masked then maskMismatch x.sb else noCheck) (fun act _ =>
    let (v, e) := vredValue op r act x.sa (if masked then inMask x.sb else fun _ => true)
    { toDst (.vred x op masked r) v with raised := e }) s

/-- The rescaled sum (R210). -/
def vredMrValue (r : Rnd) (act : List Mb) (a mask : Opnd) : Nat × Nat :=
  let n := (act.filter (inMask mask)).length
  if n = 0 then (0, 0)
  else
    let (v, e) := vredValue .fadd r act a (inMask mask)
    let (w, f) := rescale r v act.length n
    (w, e ||| f)

def execVredMr (x : X) (r : Rnd) (s : State) : Res :=
  gang (.vredMr x r) (maskMismatch x.sb) (fun act _ =>
    let (v, e) := vredMrValue r act x.sa x.sb
    { toDst (.vredMr x r) v with raised := e }) s

/-- The left fold over the lanes below a bound (R212). -/
def scanValue (op : Rop) (r : Rnd) (act : List Mb) (o : Opnd) (bound : Nat) : Nat × Nat :=
  let (v, e) := ((laneVals act o fun _ => true).take bound).foldl (combine op r) (none, 0)
  (v.getD (ropIdentity op), e)

def execVscan (x : X) (op : Rop) (excl : Bool) (r : Rnd) (s : State) : Res :=
  gang (.vscan x op excl r) noCheck (fun act me =>
    let (v, e) := scanValue op r act x.sa (if excl then me.t.lane else me.t.lane + 1)
    { toDst (.vscan x op excl r) v with raised := e }) s

/-! ### Votes and masks (R213 to R216) -/

def execPoll (x : X) (m : PollMode) (s : State) : Res :=
  gang (.poll x m) noCheck (fun act _ =>
    let ps := act.map fun a => a.t.pval x.sa
    match m with
    | .every => toPred (.poll x m) (ps.all id)
    | .some => toPred (.poll x m) (ps.any id)
    | .agree => toPred (.poll x m) (ps.all id || !ps.any id)
    | .mask => toDst (.poll x m) (memberMask (act.filter fun a => a.t.pval x.sa))) s

def execMaskof (x : X) (s : State) : Res :=
  gang (.maskof x) noCheck (fun act _ => toDst (.maskof x) (memberMask act)) s

def execMatchv (x : X) (t : ITy) (s : State) : Res :=
  gang (.matchv x t) noCheck (fun act me =>
    toDst (.matchv x t) (memberMask (act.filter fun a => a.raw t.width x.sa == me.raw t.width x.sa))) s

def execElect (x : X) (s : State) : Res :=
  gang (.elect x) noCheck (fun act me => toPred (.elect x) (act.all fun a => me.t.lane ≤ a.t.lane)) s

/-! ### Access-queue pops (R217) -/

/-- QPOP: one operation of the gang, which lands when the queue's head entry is whole or the queue is closed and empty. -/
def execQpop (x : X) (q : Fin 8) (s : State) : Res :=
  issueG (.qpop x q) noCheck (fun s act =>
    match act with
    | [] => s
    | m :: _ =>
      let parts := act.map fun a => partOf s (.qpop x q) a.u
      let s := act.foldl (fun s a => beginVL s (.qpop x q) a.u) s
      let (id, s) := s.newId
      { s with pend := s.pend.put id { core := m.b.core, ctx := m.b.ctx, blk := m.t.blk, issue := id, lines := [], at_ := s.clock,
                                       pc := m.t.pc, parts := parts, op := .qpop q.val } }) s

end Sys2Proof.Machine
end

