-- ==== Sys2Proof/Machine/Dispatch.lean ====
section
/-! DEFINITION. The dispatch: one arm per constructor of `Instr`, each one direct call of the meaning. -/

namespace Sys2Proof.Machine

def exec (i : Instr) (s : State) : Host.Outcome State Fault Refusal :=
  match i with
  | .nop x => Sys2Proof.Machine.execNop x s
  | .iadd x t sat => Sys2Proof.Machine.execIadd x t sat s
  | .isub x t sat => Sys2Proof.Machine.execIsub x t sat s
  | .imul x t sat => Sys2Proof.Machine.execImul x t sat s
  | .imulh x t => Sys2Proof.Machine.execImulh x t s
  | .imad x t sat => Sys2Proof.Machine.execImad x t sat s
  | .imadWide x t sat => Sys2Proof.Machine.execImadWide x t sat s
  | .iadc x t cp => Sys2Proof.Machine.execIadc x t cp s
  | .isbc x t cp => Sys2Proof.Machine.execIsbc x t cp s
  | .imin x t => Sys2Proof.Machine.execImin x t s
  | .imax x t => Sys2Proof.Machine.execImax x t s
  | .iabs x t => Sys2Proof.Machine.execIabs x t s
  | .ineg x t => Sys2Proof.Machine.execIneg x t s
  | .and x t => Sys2Proof.Machine.execAnd x t s
  | .or x t => Sys2Proof.Machine.execOr x t s
  | .xor x t => Sys2Proof.Machine.execXor x t s
  | .not x t => Sys2Proof.Machine.execNot x t s
  | .bool3 x t tt => Sys2Proof.Machine.execBool3 x t tt s
  | .shl x t => Sys2Proof.Machine.execShl x t s
  | .shr x t => Sys2Proof.Machine.execShr x t s
  | .sar x t => Sys2Proof.Machine.execSar x t s
  | .rol x t => Sys2Proof.Machine.execRol x t s
  | .fsh x right => Sys2Proof.Machine.execFsh x right s
  | .bfx x t => Sys2Proof.Machine.execBfx x t s
  | .bfi x => Sys2Proof.Machine.execBfi x s
  | .popc x t => Sys2Proof.Machine.execPopc x t s
  | .clz x t => Sys2Proof.Machine.execClz x t s
  | .ctz x t => Sys2Proof.Machine.execCtz x t s
  | .brev x t => Sys2Proof.Machine.execBrev x t s
  | .bperm x => Sys2Proof.Machine.execBperm x s
  | .sel x t => Sys2Proof.Machine.execSel x t s
  | .isetp x t c => Sys2Proof.Machine.execIsetp x t c s
  | .mov x t => Sys2Proof.Machine.execMov x t s
  | .cvti x t src sat => Sys2Proof.Machine.execCvti x t src sat s
  | .pand x => Sys2Proof.Machine.execPand x s
  | .por x => Sys2Proof.Machine.execPor x s
  | .pxor x => Sys2Proof.Machine.execPxor x s
  | .pnot x => Sys2Proof.Machine.execPnot x s
  | .pmov x => Sys2Proof.Machine.execPmov x s
  | .fadd x r ftz => Sys2Proof.Machine.execFadd x r ftz s
  | .fsub x r ftz => Sys2Proof.Machine.execFsub x r ftz s
  | .fmul x r ftz => Sys2Proof.Machine.execFmul x r ftz s
  | .ffma x r ftz => Sys2Proof.Machine.execFfma x r ftz s
  | .fmin x ftz => Sys2Proof.Machine.execFmin x ftz s
  | .fmax x ftz => Sys2Proof.Machine.execFmax x ftz s
  | .fsetp x c ftz => Sys2Proof.Machine.execFsetp x c ftz s
  | .fcls x mask ftz => Sys2Proof.Machine.execFcls x mask ftz s
  | .frnd x r ftz => Sys2Proof.Machine.execFrnd x r ftz s
  | .fcvt x d src r ftz => Sys2Proof.Machine.execFcvt x d src r ftz s
  | .fadd2 x bf r ftz => Sys2Proof.Machine.execFadd2 x bf r ftz s
  | .fmul2 x bf r ftz => Sys2Proof.Machine.execFmul2 x bf r ftz s
  | .ffma2 x bf r ftz => Sys2Proof.Machine.execFfma2 x bf r ftz s
  | .dadd x r => Sys2Proof.Machine.execDadd x r s
  | .dmul x r => Sys2Proof.Machine.execDmul x r s
  | .dfma x r => Sys2Proof.Machine.execDfma x r s
  | .dsetp x c r => Sys2Proof.Machine.execDsetp x c r s
  | .rcp x ftz => Sys2Proof.Machine.execRcp x ftz s
  | .rcpA x ftz => Sys2Proof.Machine.execRcpA x ftz s
  | .rsq x ftz => Sys2Proof.Machine.execRsq x ftz s
  | .rsqA x ftz => Sys2Proof.Machine.execRsqA x ftz s
  | .sqrt x ftz => Sys2Proof.Machine.execSqrt x ftz s
  | .ex2 x ftz => Sys2Proof.Machine.execEx2 x ftz s
  | .lg2 x ftz => Sys2Proof.Machine.execLg2 x ftz s
  | .sin x ftz => Sys2Proof.Machine.execSin x ftz s
  | .cos x ftz => Sys2Proof.Machine.execCos x ftz s
  | .tanh x ftz => Sys2Proof.Machine.execTanh x ftz s
  | .bra x disp => Sys2Proof.Machine.execBra x disp s
  | .brx x => Sys2Proof.Machine.execBrx x s
  | .call x disp => Sys2Proof.Machine.execCall x disp s
  | .calli x => Sys2Proof.Machine.execCalli x s
  | .ret x => Sys2Proof.Machine.execRet x s
  | .ovcall x => Sys2Proof.Machine.execOvcall x s
  | .exit x => Sys2Proof.Machine.execExit x s
  | .yield x => Sys2Proof.Machine.execYield x s
  | .trap x code => Sys2Proof.Machine.execTrap x code s
  | .brk x code => Sys2Proof.Machine.execBrk x code s
  | .srd x r => Sys2Proof.Machine.execSrd x r s
  | .swrKsp x => Sys2Proof.Machine.execSwrKsp x s
  | .swrRngs x => Sys2Proof.Machine.execSwrRngs x s
  | .swrFabst x => Sys2Proof.Machine.execSwrFabst x s
  | .barArr x l n => Sys2Proof.Machine.execBarArr x l n s
  | .barWait x l n => Sys2Proof.Machine.execBarWait x l n s
  | .barSync x l n => Sys2Proof.Machine.execBarSync x l n s
  | .barTry x l n => Sys2Proof.Machine.execBarTry x l n s
  | .shld x => Sys2Proof.Machine.execShld x s
  | .shst x => Sys2Proof.Machine.execShst x s
  | .shset x f => Sys2Proof.Machine.execShset x f s
  | .shget x f => Sys2Proof.Machine.execShget x f s
  | .shfl x m wrel => Sys2Proof.Machine.execShfl x m wrel s
  | .vred x op masked r => Sys2Proof.Machine.execVred x op masked r s
  | .vredMr x r => Sys2Proof.Machine.execVredMr x r s
  | .vscan x op excl r => Sys2Proof.Machine.execVscan x op excl r s
  | .poll x m => Sys2Proof.Machine.execPoll x m s
  | .maskof x => Sys2Proof.Machine.execMaskof x s
  | .matchv x t => Sys2Proof.Machine.execMatchv x t s
  | .elect x => Sys2Proof.Machine.execElect x s
  | .vlut x fill n => Sys2Proof.Machine.execVlut x fill n s
  | .qpop x q => Sys2Proof.Machine.execQpop x q s
  | .ld x t px => Sys2Proof.Machine.execLd x t px s
  | .ldAcq x sc t px => Sys2Proof.Machine.execLdAcq x sc t px s
  | .st x t px => Sys2Proof.Machine.execSt x t px s
  | .stRel x sc t px => Sys2Proof.Machine.execStRel x sc t px s
  | .atom x sc o a t => Sys2Proof.Machine.execAtom x sc o a t s
  | .red x sc rel a t => Sys2Proof.Machine.execRed x sc rel a t s
  | .redm x sc rel => Sys2Proof.Machine.execRedm x sc rel s
  | .cas x sc o t => Sys2Proof.Machine.execCas x sc o t s
  | .waitmem x acq sc t => Sys2Proof.Machine.execWaitmem x acq sc t s
  | .fence x sc mask => Sys2Proof.Machine.execFence x sc mask s
  | .fenceSc x sc => Sys2Proof.Machine.execFenceSc x sc s
  | .probe x sc => Sys2Proof.Machine.execProbe x sc s
  | .remst x sc rel t px => Sys2Proof.Machine.execRemst x sc rel t px s
  | .remstL x t px => Sys2Proof.Machine.execRemstL x t px s
  | .rld x acq sc t px => Sys2Proof.Machine.execRld x acq sc t px s
  | .remred x sc rel a t => Sys2Proof.Machine.execRemred x sc rel a t s
  | .tcopy x => Sys2Proof.Machine.execTcopy x s
  | .tcopyMma x acc => Sys2Proof.Machine.execTcopyMma x acc s
  | .wbind x w => Sys2Proof.Machine.execWbind x w s
  | .wdrop x w => Sys2Proof.Machine.execWdrop x w s
  | .chain x n => Sys2Proof.Machine.execChain x n s
  | .publ x sc => Sys2Proof.Machine.execPubl x sc s
  | .ovl x => Sys2Proof.Machine.execOvl x s
  | .ovrel x => Sys2Proof.Machine.execOvrel x s
  | .launch x => Sys2Proof.Machine.execLaunch x s
  | .dbell x sc => Sys2Proof.Machine.execDbell x sc s
  | .dectab x => Sys2Proof.Machine.execDectab x s
  | .barExp x => Sys2Proof.Machine.execBarExp x s
  | .mma x acc sat => Sys2Proof.Machine.execMma x acc sat s
  | .mmaW x acc sat => Sys2Proof.Machine.execMmaW x acc sat s
  | .mmaNf x acc => Sys2Proof.Machine.execMmaNf x acc s
  | .accz x acc => Sys2Proof.Machine.execAccz x acc s
  | .accld x acc => Sys2Proof.Machine.execAccld x acc s
  | .accst x acc => Sys2Proof.Machine.execAccst x acc s
  | .drain x acc => Sys2Proof.Machine.execDrain x acc s
  | .drainMx x acc => Sys2Proof.Machine.execDrainMx x acc s
  | .agen x => Sys2Proof.Machine.execAgen x s
  | .aadd x => Sys2Proof.Machine.execAadd x s
  | .aloop x => Sys2Proof.Machine.execAloop x s
  | .aendl x => Sys2Proof.Machine.execAendl x s
  | .apush x q => Sys2Proof.Machine.execApush x q s
  | .agath x q => Sys2Proof.Machine.execAgath x q s
  | .acmp x c => Sys2Proof.Machine.execAcmp x c s
  | .abra x => Sys2Proof.Machine.execAbra x s
  | .await x q => Sys2Proof.Machine.execAwait x q s
  | .asig x => Sys2Proof.Machine.execAsig x s
  | .aend x => Sys2Proof.Machine.execAend x s
  | .srdp x r => Sys2Proof.Machine.execSrdp x r s
  | .swrp x r => Sys2Proof.Machine.execSwrp x r s
  | .tlbinvPage x => Sys2Proof.Machine.execTlbinvPage x s
  | .tlbinvCtx x => Sys2Proof.Machine.execTlbinvCtx x s
  | .tlbinvAll x => Sys2Proof.Machine.execTlbinvAll x s
  | .assayrd x => Sys2Proof.Machine.execAssayrd x s
  | .ctxsave x => Sys2Proof.Machine.execCtxsave x s
  | .ctxload x => Sys2Proof.Machine.execCtxload x s
  | .haltx x => Sys2Proof.Machine.execHaltx x s
  | .gatherForm core => Sys2Proof.Machine.execGatherForm core s
  | .trapEntry th => Sys2Proof.Machine.execTrapEntry th s
  | .ldDataLands id => Sys2Proof.Machine.execLdDataLands id s
  | .windowFillComplete blk win => Sys2Proof.Machine.execWindowFillComplete blk win s
  | .sfuQueueAccept core => Sys2Proof.Machine.execSfuQueueAccept core s
  | .sfuResultLands id => Sys2Proof.Machine.execSfuResultLands id s
  | .shldDataLands id => Sys2Proof.Machine.execShldDataLands id s
  | .qpopLands id => Sys2Proof.Machine.execQpopLands id s
  | .atomicValueLands id => Sys2Proof.Machine.execAtomicValueLands id s
  | .waitmemWake th => Sys2Proof.Machine.execWaitmemWake th s
  | .fenceComplete th id => Sys2Proof.Machine.execFenceComplete th id s
  | .probeComplete id => Sys2Proof.Machine.execProbeComplete id s
  | .barrierReinsert th => Sys2Proof.Machine.execBarrierReinsert th s
  | .apHandoff core => Sys2Proof.Machine.execApHandoff core s
  | .apProgramStart core => Sys2Proof.Machine.execApProgramStart core s
  | .apEntryWhole core queue => Sys2Proof.Machine.execApEntryWhole core queue s
  | .overlayLoadComplete core page => Sys2Proof.Machine.execOverlayLoadComplete core page s
  | .copyCommandComplete id => Sys2Proof.Machine.execCopyCommandComplete id s
  | .tcopyFollowOnIssue id => Sys2Proof.Machine.execTcopyFollowOnIssue id s
  | .chainComplete id => Sys2Proof.Machine.execChainComplete id s
  | .publSwap id => Sys2Proof.Machine.execPublSwap id s
  | .dectabComplete id => Sys2Proof.Machine.execDectabComplete id s
  | .launchDecided id => Sys2Proof.Machine.execLaunchDecided id s
  | .doorbellSend id => Sys2Proof.Machine.execDoorbellSend id s
  | .tlbinvComplete id returned => Sys2Proof.Machine.execTlbinvComplete id returned s
  | .matrixCommandComplete core id => Sys2Proof.Machine.execMatrixCommandComplete core id s
  | .mmaNfSquash core id => Sys2Proof.Machine.execMmaNfSquash core id s
  | .mmaNfCommit core id => Sys2Proof.Machine.execMmaNfCommit core id s
  | .contextQuiescent ctx => Sys2Proof.Machine.execContextQuiescent ctx s
  | .faultVerdict ctx => Sys2Proof.Machine.execFaultVerdict ctx s
  | .pageServiceComplete ctx => Sys2Proof.Machine.execPageServiceComplete ctx s
  | .pageServiceTimeout ctx => Sys2Proof.Machine.execPageServiceTimeout ctx s
  | .watchdogExpiry th => Sys2Proof.Machine.execWatchdogExpiry th s
  | .placementPass die => Sys2Proof.Machine.execPlacementPass die s
  | .preemptionTier2 ctx => Sys2Proof.Machine.execPreemptionTier2 ctx s
  | .contextSaveComplete ctx => Sys2Proof.Machine.execContextSaveComplete ctx s
  | .preemptionTier3Reset ctx => Sys2Proof.Machine.execPreemptionTier3Reset ctx s
  | .governorWindowEnd core energy => Sys2Proof.Machine.execGovernorWindowEnd core energy s
  | .stageFeed job => Sys2Proof.Machine.execStageFeed job s
  | .continuationBinning job stage => Sys2Proof.Machine.execContinuationBinning job stage s
  | .binFlushDry job stage => Sys2Proof.Machine.execBinFlushDry job stage s
  | .gridRetire grid => Sys2Proof.Machine.execGridRetire grid s
  | .lqsubWrite die q v => Sys2Proof.Machine.execLqsubWrite die q v s
  | .lqrackWrite die q v => Sys2Proof.Machine.execLqrackWrite die q v s
  | .lqcanWrite die q v => Sys2Proof.Machine.execLqcanWrite die q v s
  | .lqstatWrite die q v => Sys2Proof.Machine.execLqstatWrite die q v s
  | .lqcfgWrite die q v => Sys2Proof.Machine.execLqcfgWrite die q v s
  | .registerWrite r v => Sys2Proof.Machine.execRegisterWrite r v s
  | .notifyArrival vec => Sys2Proof.Machine.execNotifyArrival vec s
  | .apertureWake => Sys2Proof.Machine.execApertureWake s
  | .untranslatedDeviceRequest r => Sys2Proof.Machine.execUntranslatedDeviceRequest r s
  | .atsTranslationRequest fn pasid addr => Sys2Proof.Machine.execAtsTranslationRequest fn pasid addr s
  | .translatedRequest r => Sys2Proof.Machine.execTranslatedRequest r s
  | .priPageRequest fn pasid addr => Sys2Proof.Machine.execPriPageRequest fn pasid addr s
  | .remoteRequestServe r => Sys2Proof.Machine.execRemoteRequestServe r s
  | .rldResponseLands id r => Sys2Proof.Machine.execRldResponseLands id r s
  | .remoteTimeout id => Sys2Proof.Machine.execRemoteTimeout id s
  | .classLPacketReceive p => Sys2Proof.Machine.execClassLPacketReceive p s
  | .classLSendExpiry p => Sys2Proof.Machine.execClassLSendExpiry p s
  | .classLIngressExpiry p => Sys2Proof.Machine.execClassLIngressExpiry p s
  | .lossyBufferClose pa => Sys2Proof.Machine.execLossyBufferClose pa s
  | .stationLaneLoss station => Sys2Proof.Machine.execStationLaneLoss station s
  | .writeQueueAccept id => Sys2Proof.Machine.execWriteQueueAccept id s
  | .lineWrite line => Sys2Proof.Machine.execLineWrite line s
  | .lineRead line => Sys2Proof.Machine.execLineRead line s
  | .sparingCopyStart stack row => Sys2Proof.Machine.execSparingCopyStart stack row s
  | .sparingLineCopy stack row => Sys2Proof.Machine.execSparingLineCopy stack row s
  | .getVersion => Sys2Proof.Machine.execGetVersion s
  | .getCapabilities => Sys2Proof.Machine.execGetCapabilities s
  | .negotiateAlgorithms offered => Sys2Proof.Machine.execNegotiateAlgorithms offered s
  | .getDigests => Sys2Proof.Machine.execGetDigests s
  | .getCertificate slot => Sys2Proof.Machine.execGetCertificate slot s
  | .challenge nonce => Sys2Proof.Machine.execChallenge nonce s
  | .getMeasurements idx => Sys2Proof.Machine.execGetMeasurements idx s
  | .keyExchange offer => Sys2Proof.Machine.execKeyExchange offer s
  | .finish verify => Sys2Proof.Machine.execFinish verify s
  | .endSession => Sys2Proof.Machine.execEndSession s
  | .keyRelease ctx hash => Sys2Proof.Machine.execKeyRelease ctx hash s
  | .getStatement ctx => Sys2Proof.Machine.execGetStatement ctx s
  | .setbudget die mask nj => Sys2Proof.Machine.execSetbudget die mask nj s
  | .setthresh ctx thresh => Sys2Proof.Machine.execSetthresh ctx thresh s
  | .setcfg accid ports => Sys2Proof.Machine.execSetcfg accid ports s
  | .reset => Sys2Proof.Machine.execReset s
  | .migrate ctx acc die q => Sys2Proof.Machine.execMigrate ctx acc die q s
  | .migrationDigestReceived ctx digest => Sys2Proof.Machine.execMigrationDigestReceived ctx digest s
  | .migrationHandIn => Sys2Proof.Machine.execMigrationHandIn s
  | .migrationRefusal ctx => Sys2Proof.Machine.execMigrationRefusal ctx s
  | .statementSign ctx => Sys2Proof.Machine.execStatementSign ctx s
  | .thermalSample die temp => Sys2Proof.Machine.execThermalSample die temp s
  | .moduleReset => Sys2Proof.Machine.execModuleReset s
  | .firmwareFetch image signature => Sys2Proof.Machine.execFirmwareFetch image signature s
  | .stewardLockstepMismatch => Sys2Proof.Machine.execStewardLockstepMismatch s
  | .remoteAcknowledgement id nak => Sys2Proof.Machine.execRemoteAcknowledgement id nak s
  | .dpcContainment port => Sys2Proof.Machine.execDpcContainment port s
  | .moduleReplacementStatement ctx statement => Sys2Proof.Machine.execModuleReplacementStatement ctx statement s

end Sys2Proof.Machine
end

