-- ==== Sys2Proof/Machine/Step.lean ====
section
/-! DEFINITION. One step of the module: the next move of the agenda, or, when the agenda is empty, the move that `nextMove` finds;
and the placement of one instruction where the next step issues it. -/

namespace Sys2Proof.Machine

/-- Runs one move. An encoded instruction is issued only by a core or an AP. DESIGN CHOICE: log 3. -/
def runMove (s : State) (m : Move) : Res :=
  match m with
  | .elapse n => .next { s with clock := s.clock + n }
  | .event i => if i.cls.isSome then .refused .notAnEvent else exec i s
  | .issue k =>
    let s := { s with focus := k }
    match focusInstr s with
    | some i => exec i s
    | none => .next (stuckIssue s)
  | .burst id k => .next (burst s id k)
  | .fetchWord k off => .next (fetchWord s k off)
  | .mendTree n k => .next (mendTree s n k)
  | .readStatement c n => .next (readStatement s c n)
  | .enumerate _ | .bindPasid _ _ | .enableAts _ | .mapDoor _ _ | .openContext .. | .endContext _ | .bringUp | .migrateSend _ | .reserve | .hearRefusal _ _
  | .returnDigest | .carryRemote _ => .next (clerkMove s m)
  | .apIssue k n =>
    let s := { s with focus := k, focusAp := n }
    match apInstr s with
    | some i => exec i s
    | none => .next (stuckAp s)

/-- The power of every die is down after a thermal trip (R430). -/
def State.dark (s : State) : Bool := s.dies.all fun d => !d.powered

/-- One step. After a trip only a module reset, which power-good brings, is left. DESIGN CHOICE: log 1. -/
def step (s : State) : Host.Outcome State Fault Refusal :=
  let s := { s with clock := s.clock + 1, fresh := s.fresh + 1 }
  match s.agenda with
  | m :: rest => if s.dark && m != .event .moduleReset then .fault .poweredDown else runMove { s with agenda := rest } m
  | [] => if s.dark then .fault .poweredDown else
    let (m, s) := nextMove s
    runMove s m

/-- Places an instruction where the next step issues it. -/
def State.withFetchWord (s : State) (nbits w : Nat) : State := placeWord s nbits w

end Sys2Proof.Machine
end

