-- ==== Sys2Proof/Safety.lean ====
section
/-! DEFINITION. What claims say of states and steps: canonical memories, the die registers in range, a gathered set that nothing holds
back, and what the end of an instruction leaves alone. -/

namespace Sys2Proof.Machine

/-! ### Whole states -/

/-- Every memory of the module is in its canonical form. -/
def State.memWf (s : State) : Bool :=
  s.hbm.wf && s.device.wf && s.cores.all (fun e => e.2.store.wf) && s.allocs.all fun e => e.2.mem.wf

/-- THST of every die is one that R431 allows: STATE 0 to 2, TEMP at most 255. -/
def State.diesOk (s : State) : Bool := s.dies.length = 4 && s.dies.all fun d => d.thermal ≤ 2 && d.temp ≤ 255

/-- Bytes of an HBM line as a reader gets them, `none` for poison (R302, R303). -/
def State.lineAt (s : State) (line : Nat) : Option (List Byte) := hbmRead s (line * 64) 64

/-- A step that goes on. -/
def Goes (r : Res) : Prop := ∃ s, r = .next s

/-! ### Reading a state -/

/-- A register of a thread, if it is live (R37). -/
def regOf (s : State) (u n : Nat) : Option W32 := (s.threads.look u).bind fun t => t.regs.look n
/-- A predicate of a thread (R42). -/
def predOf (s : State) (u n : Nat) : Option Bool := (s.threads.look u).map (·.pred n)
/-- The program counter of a thread (R36). -/
def pcOf (s : State) (u : Nat) : Option W32 := (s.threads.look u).map (·.pc)
/-- The count of a completion flag of a thread (R44). -/
def flagAt (s : State) (u f : Nat) : Option Nat := (s.threads.look u).map (·.flags.getD f 0)

/-- One byte of memory: HBM as a reader gets it, device memory, or a scratchpad's storage. -/
def byteAt (s : State) (l : Loc) : Option Byte :=
  match l with
  | .hbm pa => (hbmRead s pa 1).bind (·.head?)
  | .device pa _ => some (s.device.read pa)
  | .alloc id off => (s.allocs.look id).map (·.mem.read off)

/-- One byte of a core's instruction store. -/
def storeByte (s : State) (core off : Nat) : Byte := (s.core core).store.read off

/-! ### The gathered set at issue -/

/-- The gathered set of the focus core is `g`, and it stands whole: its members are distinct threads of known blocks, with canonical
register maps. -/
def State.whole (s : State) (g : Gather) : Bool :=
  (s.core s.focus).gather == some g && decide g.members.Nodup && g.members.all fun u => match s.threads.look u with
    | some t => (s.blocks.look t.blk).isSome && t.regs.wf
    | none => false

/-- The members whose guard is true (R39). -/
def actors (i : Instr) (s : State) (g : Gather) : List Mb := active i (membersOf s g)

/-- What every instruction meets at issue lets this one pass: nothing is owed to a source (R43), no flag is full (R45), no source is
free (R40) and no member would pass MAXLIVE (R41). -/
def clear (i : Instr) (s : State) (g : Gather) : Bool :=
  s.whole g && !mustWait s i (actors i s g)
    && (actors i s g).all fun m => (freedTrap s i m).isNone && decide (liveAfter m.t i ≤ m.b.maxlive)

/-- No active member raises a floating-point exception that FPXC enables (R190). -/
def quietFp (i : Instr) (s : State) (g : Gather) (raised : Mb → Nat) : Bool :=
  (actors i s g).all fun m => !fpTraps (s.ctx m.b.ctx) (raised m)

/-- No member of the set is single-stepped or has a trap in waiting. -/
def unstepped (s : State) (g : Gather) : Bool := (membersOf s g).all fun m => !m.t.ss && m.t.trap.isNone

/-! ### What the end of an instruction leaves alone -/

/-- A thread but for what a clause's end, a wait or a trap entry changes: its state, age, PC, control stack, SS and what it
has observed. -/
def Thread.still (t : Thread) : Thread :=
  { t with
    st := .ready, since := 0, pc := 0, ksp := 0, ss := false, owed := [], trap := none, obs := [], obsRoutes := [], preObs := [],
    relWait := none, entering := false, stall := none }

/-- A thread but for its state, its age, the waits it owes and what it has observed. -/
def Thread.line (t : Thread) : Thread :=
  { t with st := .ready, since := 0, owed := [], obs := [], obsRoutes := [], preObs := [], relWait := none, stall := none }

/-- A core but for its gathered and kept sets. -/
def CoreRec.still (c : CoreRec) : CoreRec := { c with gather := none, kept := none }

/-- A context but for its halt line and its sticky floating-point bits. -/
def Context.still (k : Context) : Context := { k with halt := none, deferred := none, deferredStops := [], fpxc := 0 }

/-- A context but for its halt line. -/
def Context.calm (k : Context) : Context := { k with halt := none, deferred := none, deferredStops := [] }

/-- The module but for threads, cores, contexts, operations and stores in flight, and the counter of identifiers. -/
def State.still (s : State) : State :=
  { s with threads := [], cores := [], ctxs := [], pend := [], stores := [], nextId := 0 }

/-- Only threads, gathered sets, halt lines, sticky bits, and operations and stores in flight differ. -/
structure Apart (s t : State) : Prop where
  rest : t.still = s.still
  cores : ∀ k, (t.core k).still = (s.core k).still
  ctxs : ∀ c, (t.ctxs.look c).map Context.still = (s.ctxs.look c).map Context.still

/-- Only threads' control state, gathered sets, halt lines, sticky bits and stores in flight differ. -/
structure Calm (s t : State) : Prop where
  apart : Apart s t
  pend : t.pend = s.pend
  ctxs : ∀ c, (t.ctxs.look c).map Context.calm = (s.ctxs.look c).map Context.calm
  threads : ∀ u, (t.threads.look u).map Thread.still = (s.threads.look u).map Thread.still

/-- Only threads' states and observed sets and the gathered sets differ: nobody trapped. -/
structure Plain (s t : State) : Prop where
  stores : t.stores = s.stores
  nextId : t.nextId = s.nextId
  ctxs : t.ctxs = s.ctxs
  threads : ∀ u, (t.threads.look u).map Thread.line = (s.threads.look u).map Thread.line

end Sys2Proof.Machine
end

