-- ==== Sys2Proof/Certificates/Slice0/Obligations.lean ====
section
/-! DEFINITION. The statements for the provers, with the tables of results that they speak of. -/

open Sys2Proof Sys2Proof.Machine

namespace Sys2Proof.Claims

/-! ### What an instruction leaves in its destination -/

/-- The destination register holds the low word of a value, and the second register of a pair its high word (R151). -/
def received (t : State) (m : Mb) (i : Instr) (v : Nat) : Prop :=
  match i.x.dst with
  | .v n => regOf t m.u n = some (BitVec.ofNat 32 v)
      ∧ (i.sig.dst.width = 2 → regOf t m.u (n + 1) = some (BitVec.ofNat 32 (v / 2 ^ 32)))
  | _ => True

/-- The destination predicate holds a truth value; p7 still reads true (R42). -/
def settled (t : State) (m : Mb) (i : Instr) (b : Bool) : Prop :=
  match i.x.dst with
  | .p n => predOf t m.u n = some (b || n == 7)
  | _ => True

/-- The instruction completes with a result in every active member's destination. -/
def Completes (i : Instr) (s : State) (g : Gather) (ok : State → Mb → Prop) : Prop :=
  ∃ t, exec i s = .next t ∧ ∀ m ∈ actors i s g, ok t m

/-- Exact results of R152 and R161, before they are reduced: the type that they are reduced to, .sat and the value. -/
def exactResult : Instr → Option (ITy × Bool × (Mb → Int))
  | .iadd x t sat => some (t, sat, fun m => m.int t x.sa + m.int t x.sb)
  | .isub x t sat => some (t, sat, fun m => m.int t x.sa - m.int t x.sb)
  | .imul x t sat => some (t, sat, fun m => m.int t x.sa * m.int t x.sb)
  | .imulh x t => some (t, false, fun m => Int.fdiv (m.int t x.sa * m.int t x.sb) (2 ^ 32))
  | .imad x t sat => some (t, sat, fun m => m.int t x.sa * m.int t x.sb + m.int t x.sc)
  | .imadWide x t sat => some (if t = .s32 then .s64 else .n64, sat, fun m =>
      m.int t x.sa * m.int t x.sb + m.int (if t = .s32 then .s64 else .n64) x.sc)
  | .iadc x t _ => some (t, false, fun m => m.int t x.sa + m.int t x.sb + (if m.t.pval x.sc then 1 else 0))
  | .isbc x t _ => some (t, false, fun m => m.int t x.sa - m.int t x.sb - (if m.t.pval x.sc then 1 else 0))
  | .imin x t => some (t, false, fun m => min (m.int t x.sa) (m.int t x.sb))
  | .imax x t => some (t, false, fun m => max (m.int t x.sa) (m.int t x.sb))
  | .iabs x t => some (t, false, fun m => ((m.int t x.sa).natAbs : Int))
  | .ineg x t => some (t, false, fun m => - m.int t x.sa)
  | .cvti x t src sat => some (t, sat, fun m => m.int src x.sa)
  | _ => none

/-- The carry or borrow that an instruction gives, with its predicate (R152). -/
def carry : Instr → Option (Fin 8 × (Mb → Bool))
  | .iadc x t cp => some (cp, fun m =>
      decide (2 ^ t.width ≤ m.raw t.width x.sa + m.raw t.width x.sb + (if m.t.pval x.sc then 1 else 0)))
  | .isbc x t cp => some (cp, fun m =>
      decide (m.raw t.width x.sa < m.raw t.width x.sb + (if m.t.pval x.sc then 1 else 0)))
  | _ => none

/-- The results of R153 to R159 and R51, on the raw bits of the sources. -/
def bitwise : Instr → Mb → Nat → Prop
  | .and x t, m, v => v < 2 ^ t.width ∧ ∀ k < t.width, bit v k = (bit (m.raw t.width x.sa) k && bit (m.raw t.width x.sb) k)
  | .or x t, m, v => v < 2 ^ t.width ∧ ∀ k < t.width, bit v k = (bit (m.raw t.width x.sa) k || bit (m.raw t.width x.sb) k)
  | .xor x t, m, v => v < 2 ^ t.width ∧ ∀ k < t.width, bit v k = (bit (m.raw t.width x.sa) k ^^ bit (m.raw t.width x.sb) k)
  | .not x t, m, v => v < 2 ^ t.width ∧ ∀ k < t.width, bit v k = !bit (m.raw t.width x.sa) k
  | .bool3 x t tt, m, v => v < 2 ^ t.width ∧ ∀ k < t.width, bit v k = tt.getLsbD
      ((bit (m.raw t.width x.sa) k).toNat + 2 * (bit (m.raw t.width x.sb) k).toNat + 4 * (bit (m.raw t.width x.sc) k).toNat)
  | .shl x t, m, v => v = m.raw t.width x.sa * 2 ^ m.raw 32 x.sb % 2 ^ t.width
  | .shr x t, m, v => v = m.raw t.width x.sa / 2 ^ m.raw 32 x.sb
  | .sar x t, m, v => v = truncInt t.width (Int.fdiv (m.int t x.sa) (2 ^ m.raw 32 x.sb))
  | .rol x t, m, v => v = ((BitVec.ofNat t.width (m.raw t.width x.sa)).rotateLeft (m.raw 32 x.sb % t.width)).toNat
  | .fsh x right, m, v =>
      let y := m.raw 32 x.sa * 2 ^ 32 + m.raw 32 x.sb
      let n := m.raw 32 x.sc % 32
      v = if right then y / 2 ^ n % 2 ^ 32 else y * 2 ^ n / 2 ^ 32 % 2 ^ 32
  | .bfx x t, m, v =>
      let pos := m.raw 32 x.sb % 256
      let len := min (m.raw 32 x.sb / 256 % 256) 32
      let f := Int.toNat (Int.fmod (Int.fdiv (m.int t x.sa) (2 ^ pos)) (2 ^ len))
      v = if len = 0 then 0 else if t = .s32 then truncInt 32 (sextNat len f) else f
  | .bfi x, m, v =>
      let pos := m.raw 32 x.sc % 256
      let len := m.raw 32 x.sc / 256 % 256
      v < 2 ^ 32 ∧ ∀ k < 32, bit v k = if pos ≤ k ∧ k < pos + len then bit (m.raw 32 x.sa) (k - pos) else bit (m.raw 32 x.sb) k
  | .popc x t, m, v => v = ((List.range t.width).filter fun k => bit (m.raw t.width x.sa) k).length
  | .clz x t, m, v => v ≤ t.width ∧ (∀ k < v, bit (m.raw t.width x.sa) (t.width - 1 - k) = false)
      ∧ (v < t.width → bit (m.raw t.width x.sa) (t.width - 1 - v) = true)
  | .ctz x t, m, v => v ≤ t.width ∧ (∀ k < v, bit (m.raw t.width x.sa) k = false)
      ∧ (v < t.width → bit (m.raw t.width x.sa) v = true)
  | .brev x t, m, v => v < 2 ^ t.width ∧ ∀ k < t.width, bit v k = bit (m.raw t.width x.sa) (t.width - 1 - k)
  | .bperm x, m, v => v < 2 ^ 32 ∧ ∀ k < 4,
      let c := m.raw 32 x.sc / 2 ^ (8 * k) % 256
      let y := (m.raw 32 x.sb * 2 ^ 32 + m.raw 32 x.sa) / 2 ^ (8 * (c % 8)) % 256
      v / 2 ^ (8 * k) % 256 = (if c / 8 % 4 = 0 then y else if c / 8 % 4 = 1 then 0
        else if c / 8 % 4 = 2 then (if 0x80 ≤ y then 0xFF else 0) else 0xFF - y)
  | .sel x t, m, v => v = if m.t.pval x.sc then m.raw t.width x.sa else m.raw t.width x.sb
  | .mov x t, m, v => v = m.raw t.width x.sa
  | _, _, _ => False

/-- The predicates of R160 and R162. -/
def truth : Instr → Option (Mb → Bool)
  | .isetp x t .eq => some fun m => decide (m.int t x.sa = m.int t x.sb)
  | .isetp x t .ne => some fun m => decide (m.int t x.sa ≠ m.int t x.sb)
  | .isetp x t .lt => some fun m => decide (m.int t x.sa < m.int t x.sb)
  | .isetp x t .le => some fun m => decide (m.int t x.sa ≤ m.int t x.sb)
  | .isetp x t .gt => some fun m => decide (m.int t x.sa > m.int t x.sb)
  | .isetp x t .ge => some fun m => decide (m.int t x.sa ≥ m.int t x.sb)
  | .pand x => some fun m => m.t.pval x.sa && m.t.pval x.sb
  | .por x => some fun m => m.t.pval x.sa || m.t.pval x.sb
  | .pxor x => some fun m => m.t.pval x.sa ^^ m.t.pval x.sb
  | .pnot x => some fun m => !m.t.pval x.sa
  | .pmov x => some fun m => m.t.pval x.sa
  | _ => none

/-- The instructions of R153 to R159. -/
def isBits : Instr → Bool
  | .and .. | .or .. | .xor .. | .not .. | .bool3 .. | .shl .. | .shr .. | .sar .. | .rol .. | .fsh .. | .bfx .. | .bfi .. | .popc ..
  | .clz .. | .ctz .. | .brev .. | .bperm .. | .sel .. | .mov .. => true
  | _ => false

/-- An operation rounded under a mode: the value, the exceptions raised and the RNGS that is left (R187). -/
def once (r : Rnd) (m : Mb) (f : W32 → Nat × Nat) : Nat × Nat × W32 :=
  let d := if r = .sr then rngStep m.t.rngs else m.t.rngs
  ((f d).1, (f d).2, d)

/-- The results of R191 to R198: the value, the exceptions raised and the RNGS that is left. -/
def rounded : Instr → Option (Mb → Nat × Nat × W32)
  | .fadd x r z => some fun m => once r m fun d => fAdd f32 r z d (m.f32 x.sa) (m.f32 x.sb)
  | .fsub x r z => some fun m => once r m fun d => fSub f32 r z d (m.f32 x.sa) (m.f32 x.sb)
  | .fmul x r z => some fun m => once r m fun d => fMul f32 r z d (m.f32 x.sa) (m.f32 x.sb)
  | .ffma x r z => some fun m => once r m fun d => fFma f32 r z d (m.f32 x.sa) (m.f32 x.sb) (m.f32 x.sc)
  | .fmin x z => some fun m => once .rne m fun _ => fMinMax f32 false z (m.f32 x.sa) (m.f32 x.sb)
  | .fmax x z => some fun m => once .rne m fun _ => fMinMax f32 true z (m.f32 x.sa) (m.f32 x.sb)
  | .frnd x r z => some fun m => once r m fun _ => fRnd r z (m.f32 x.sa)
  | .fcvt x d src r z => some fun m => once r m fun g => fCvt d src r z g (m.t.val (cvtSrc src) x.sa)
  | .fadd2 x bf r z => some fun m => packed r m.t.rngs fun d o => fAdd (pk bf) r z d (m.half (pk bf) x.sa o) (m.half (pk bf) x.sb o)
  | .fmul2 x bf r z => some fun m => packed r m.t.rngs fun d o => fMul (pk bf) r z d (m.half (pk bf) x.sa o) (m.half (pk bf) x.sb o)
  | .ffma2 x bf r z => some fun m => packed r m.t.rngs fun d o =>
      fFma (pk bf) r z d (m.half (pk bf) x.sa o) (m.half (pk bf) x.sb o) (m.half (pk bf) x.sc o)
  | .dadd x r => some fun m => once r m fun d => fAdd f64 r false d (m.f64 x.sa) (m.f64 x.sb)
  | .dmul x r => some fun m => once r m fun d => fMul f64 r false d (m.f64 x.sa) (m.f64 x.sb)
  | .dfma x r => some fun m => once r m fun d => fFma f64 r false d (m.f64 x.sa) (m.f64 x.sb) (m.f64 x.sc)
  | _ => none

/-- The floating-point tests of R194 and R195, with the exceptions raised. -/
def tested : Instr → Option (Mb → Bool × Nat)
  | .fsetp x c z => some fun m => fSetp f32 c z (m.f32 x.sa) (m.f32 x.sb)
  | .dsetp x c _ => some fun m => fSetp f64 c false (m.f64 x.sa) (m.f64 x.sb)
  | .fcls x mask z => some fun m => (mask.getLsbD (fClass f32 (f32.flush z (m.f32 x.sa))), 0)
  | _ => none

/-- The special functions of R200 and R201 by their number. -/
def sfuFn : Instr → Option (Nat × Bool)
  | .rcp _ z => some (0, z) | .rcpA _ z => some (1, z) | .rsq _ z => some (2, z) | .rsqA _ z => some (3, z) | .sqrt _ z => some (4, z)
  | .ex2 _ z => some (5, z) | .lg2 _ z => some (6, z) | .sin _ z => some (7, z) | .cos _ z => some (8, z) | .tanh _ z => some (9, z)
  | _ => none

/-! ### Traps, faults and operations in flight -/

/-- A context runs: it is not halted, not saved and not being saved. -/
def running (s : State) (c : Nat) : Prop :=
  ∃ k, s.ctxs.look c = some k ∧ k.halt = none ∧ k.save = none ∧ (k.preempt.map (·.tier)).getD 0 < 2

/-- The halt line of a context is up, for a cause (R400). -/
def haltedBy (s : State) (c cause : Nat) : Prop := ((s.ctxs.look c).bind (·.halt)).map (·.cause.stop.cause) = some cause

/-- The handler of a member's context is valid, at a clause offset, and the member may enter it now (R394). -/
def handlerReady (s : State) (m : Mb) (h : Nat) : Prop :=
  owesSfu s m.u = false ∧ pushWaits s m.u = false ∧ (s.ctx m.b.ctx).traph.getLsbD 31 = true ∧ m.t.ksp.toNat ≠ m.b.stack
    ∧ stackShadow s m.b m.t.tid m.t.ksp.toNat = false ∧ h = bits (s.ctx m.b.ctx).traph.toNat 17 3 * 8

/-- The member stands at the handler, with SS clear and a trap frame of R393 pushed as a store of its own. -/
def trapped (s' : State) (m : Mb) (a h : Nat) (r : TrapReq) : Prop :=
  pcOf s' m.u = some (mkPc h 0)
    ∧ (s'.threads.look m.u).map (fun t => (t.ksp, t.ss, t.trap)) = some (m.t.ksp + 16, false, none)
    ∧ ∃ id st, s'.stores.look id = some st ∧ st.th = some m.u ∧ st.space = .alloc a ∧ st.path = 1
      ∧ st.off = m.b.data + m.t.tid * m.b.stack + m.t.ksp.toNat
      ∧ st.acc = .plain (leBytes 4 r.rpc.toNat ++ leBytes 1 3 ++ leBytes 1 r.cause ++ leBytes 1 r.code
          ++ leBytes 1 (r.flags % 32 + (if m.t.ss then 32 else 0)) ++ leBytes 1 m.t.preds.toNat ++ leBytes 3 0 ++ leBytes 4 r.detail)

/-- The member's operation is in flight with its flag raised and its destination live (R41, R44). -/
def launched (s s' : State) (i : Instr) (m : Mb) (op : POp) : Prop :=
  (∃ id p, s'.pend.look id = some p ∧ p.op = op ∧ p.core = m.b.core ∧ p.ctx = m.b.ctx ∧ p.pc = m.t.pc
      ∧ p.parts = [{ th := m.u, flag := flagOf s i, dst := dstRegs i, want := dstRegs i }])
    ∧ (∀ n ∈ dstRegs i, (regOf s' m.u n).isSome = true)
    ∧ ∀ f, flagOf s i = some f → flagAt s' m.u f = some (m.t.flags.getD f 0 + 1)

/-- A variable-latency instruction whose result is known at issue: it stands in flight with its flag raised, and owes the words of its destination
(R44); BAR.EXP names the barrier whose arrival it waits for (R266). -/
def answering (key : Option Nat) (s s' : State) (i : Instr) (m : Mb) (v : Nat) : Prop :=
  launched s s' i m (.answer key ((dstWords i.sig.dst i.x.dst v).map (·.2)))

/-- A part of an operation that can land: its thread is known and no EXIT waits for it. -/
def lander (s : State) (q : Part) : Prop :=
  s.pend.wf = true ∧ (∃ t, s.threads.look q.th = some t ∧ t.st ≠ .exiting ∧ t.flags.length = 12) ∧ (∀ f, q.flag = some f → f < 12)
    ∧ q.dst.Nodup

/-- The operation is gone, what it still owed is written, and its flag is lowered (R43, R44). -/
def landed (s s' : State) (id : Nat) (q : Part) (vals : List W32) : Prop :=
  s'.pend.look id = none
    ∧ (∀ (k n : Nat) (w : W32), q.dst[k]? = some n → vals[k]? = some w → n ∈ q.want → regOf s' q.th n = some w)
    ∧ (∀ n, n ∉ q.dst ∨ n ∉ q.want → regOf s' q.th n = regOf s q.th n)
    ∧ ∀ f, q.flag = some f → flagAt s' q.th f = (flagAt s q.th f).map (· - 1)

/-! ### Control and registers -/

def jumpTarget : Instr → Option (Mb → Int)
  | .bra _ d => some fun m => pcOff m.t.pc + 8 * d.toInt
  | .brx x => some fun m => m.raw 32 x.sa
  | _ => none

def callTarget : Instr → Option (Mb → Int)
  | .call _ d => some fun m => pcOff m.t.pc + 8 * d.toInt
  | .calli x => some fun m => m.raw 32 x.sa
  | _ => none

/-- Target, kind and token of a call that passes its checks (R146, R164). -/
def callOf (s : State) (i : Instr) (m : Mb) : Option (Nat × Nat × Nat) :=
  match i with
  | .ovcall x =>
    let tok := m.raw 32 x.sa
    let o := m.raw 32 x.sb
    match tokenEntry s m tok with
    | some e => if o % 8 = 0 ∧ o < e.len then some (bits tok 31 26 * 4096 + o, 2, tok) else none
    | none => none
  | i => match callTarget i with
    | some f => if f m % 8 = 0 ∧ 0 ≤ f m ∧ f m < 2 ^ 18 then some ((f m).toNat, 1, 0) else none
    | none => none

/-- The trap of TRAP and BRK (R169). -/
def softTrap (s : State) (i : Instr) (m : Mb) : Option TrapReq :=
  match i with
  | .trap _ code => some { cause := 1, code := code.toNat, flags := 0, detail := 0, rpc := nextSlotPc s i m }
  | .brk _ code => some { cause := 2, code := code.toNat, flags := 0, detail := 0, rpc := m.t.pc }
  | _ => none

/-- CLBLK of the kernel that a block runs (R77). -/
def clusterSize (s : State) (b : Block) : Nat :=
  (((s.codes.look b.code).bind fun c => c.kernels.find? (·.num == b.kernel)).map (·.clblk)).getD 1

/-- The value of a register that SRD or SRDP reads (R51, R390, R431), or of a shape field (R175). LCYC reads 0 at reset and is else a free value, the
model's choice: log 5. -/
def regValue (s : State) (i : Instr) : Option (Mb → Nat) :=
  match i with
  | .srd _ .lanew => some fun _ => 64
  | .srd _ .tid => some fun m => m.t.tid
  | .srd _ .gangid => some fun m => m.t.tid / 64
  | .srd _ .homelane => some fun m => m.t.tid % 64
  | .srd _ .nthreads => some fun m => m.b.threads
  | .srd _ .blockid => some fun m => m.b.blockId
  | .srd _ .nblocks => some fun m => m.b.nblocks
  | .srd _ .gridid => some fun m => m.b.gridId
  | .srd _ .ctxid => some fun m => m.b.ctx
  | .srd _ .corenum => some fun m => m.b.core
  | .srd _ .ksp => some fun m => m.t.ksp.toNat
  | .srd _ .ksb => some fun m => m.b.data + m.t.tid * m.b.stack
  | .srd _ .freedrd => some fun m => (freedrd s m.b).toNat
  | .srd _ .rngs => some fun m => m.t.rngs.toNat
  | .srd _ .fabst => some fun m => m.b.fabst.toNat
  | .srd _ .clusterid => some fun m => if m.b.grid = none then 0 else m.b.blockId / clusterSize s m.b
  | .srd _ .blkincl => some fun m => if m.b.grid = none then 0 else m.b.blockId % clusterSize s m.b
  | .srd _ .clblocks => some fun m => ((s.groups.look m.b.group).map (·.blocks.length)).getD 1
  | .srd _ .rplc0 => some fun m => ((s.ctx m.b.ctx).rplc.getD 0 (0 : W64)).toNat
  | .srd _ .rplc1 => some fun m => ((s.ctx m.b.ctx).rplc.getD 1 (0 : W64)).toNat
  | .srd _ .rplc2 => some fun m => ((s.ctx m.b.ctx).rplc.getD 2 (0 : W64)).toNat
  | .srd _ .rplc3 => some fun m => ((s.ctx m.b.ctx).rplc.getD 3 (0 : W64)).toNat
  | .srd _ .argp => some fun m => match s.jobs.look m.b.job with
      | some j => ofLe ((j.record.drop 32).take 8)
      | none => 0
  | .srd _ .lcyc => some fun m => if s.clock = 0 then 0 else Config.localCycles m.b.core s.clock
  | .srdp _ .fpxc => some fun m => (s.ctx m.b.ctx).fpxc.toNat
  | .srdp _ .fabcfg => some fun m => (s.ctx m.b.ctx).fabcfg.toNat
  | .srdp _ .trcfg => some fun m => (s.ctx m.b.ctx).trcfg.toNat
  | .srdp _ .traph => some fun m => (s.ctx m.b.ctx).traph.toNat
  | .srdp _ .stepc => some fun m => (s.ctx m.b.ctx).stepc.toNat
  | .srdp _ .wdog => some fun m => (s.ctx m.b.ctx).wdog.toNat
  | .srdp _ .fltpol => some fun m => (s.ctx m.b.ctx).fltpol.toNat
  | .srdp _ .fltlog => some fun m => (s.ctx m.b.ctx).fltlog.toNat
  | .srdp _ .fltcnt => some fun m => (s.ctx m.b.ctx).fltcnt.toNat
  | .srdp _ .govbud => some fun m => (s.core m.b.core).budgetNext % 2 ^ 16
  | .srdp _ .thst => some fun m => match s.dies[dieOf m.b.core]? with
      | some d => d.thermal % 4 * 2 ^ 8 + min d.temp 255
      | none => 0
  | .srdp _ .platcfg => some fun _ => s.steward.accid % 2 ^ 10 * 2 ^ 16 + s.steward.portCfg.toNat
  | .shget x f => some fun m =>
      let v := getField (m.shape x.sa) f
      if f = 6 ∨ f = 8 ∨ f = 10 ∨ f = 12 ∨ f = 14 then (if 2 ^ 39 ≤ v then v + (2 ^ 64 - 2 ^ 40) else v) else v
  | _ => none

/-- What SWRP leaves in the register it names; the read-only ones keep their value (R390). -/
def privWritten (r : PReg) (v : Nat) (k k' : Context) : Prop :=
  match r with
  | .fpxc => k'.fpxc = BitVec.ofNat 32 (v % 32) ||| (k.fpxc &&& 0x1F00 &&& ~~~(BitVec.ofNat 32 v))
  | .fabcfg => k'.fabcfg = BitVec.ofNat 32 (min (max (v % 32) 12) 24 + 256 * min (max (v / 256 % 32) 8) 20)
  | .traph => k'.traph = BitVec.ofNat 32 v &&& 0x8003FFF8
  | .stepc => k'.stepc = BitVec.ofNat 32 (v % 2)
  | .wdog => k'.wdog = BitVec.ofNat 32 (min (max (v % 64) 16) 40)
  | .fltpol => k'.fltpol = BitVec.ofNat 32 (v % 4)
  | .fltlog => k'.fltlog = BitVec.ofNat 64 v &&& 0xFFFFFFFFFFFFF00F
  | .trcfg => k'.trcfg = k.trcfg
  | .fltcnt => k'.fltcnt = k.fltcnt
  | .govbud | .thst | .platcfg => k'.calm = k.calm

/-- Fixed-latency class V instructions that raise no floating-point exception and transfer no control. -/
def plainV (i : Instr) : Bool :=
  (exactResult i).isSome || isBits i || (truth i).isSome || (match i with | .nop _ => true | _ => false)

/-- Instructions that only compute: class V with fixed latency, special-register reads, and class G but for QPOP. -/
def computes (i : Instr) : Bool :=
  plainV i || (rounded i).isSome || (tested i).isSome || (match i with
    | .srd .. | .srdp .. | .shget .. | .shfl .. | .vred .. | .vredMr .. | .vscan .. | .poll .. | .maskof .. | .matchv .. | .elect ..
    | .vlut .. => true
    | _ => false)

/-- Predicates that an instruction may write. -/
def dstPreds (i : Instr) : List Nat :=
  (match i.x.dst with | .p n => [n.val] | _ => []) ++ (match carry i with | some (p, _) => [p.val] | none => [])

/-! ### Gangs -/

/-- Lane-wise masks of a gang: bit `k` is set where an active member of lane `k` satisfies a test, and no other bit is. -/
def isMask (act : List Mb) (p : Mb → Bool) (v : Nat) : Prop :=
  v < 2 ^ 64 ∧ ∀ k, bit v k = act.any fun m => m.t.lane == k && p m

/-- The results of class G on registers (R207 to R216), for the active members and one of them. -/
def gangResult (i : Instr) (act : List Mb) (me : Mb) (v : Nat) : Prop :=
  match i with
  | .shfl x md wrel =>
    let b : Int := if wrel then ((64 / 2 ^ me.raw 32 x.sb : Nat) : Int) else me.raw 32 x.sb
    let j : Int := match md with
      | .up => me.t.lane - b
      | .down => me.t.lane + b
      | .xor => ((me.t.lane ^^^ b.toNat : Nat) : Int)
      | .idx => b
    ∃ src : Mb, v = src.raw 32 x.sa ∧ (if ∃ m ∈ act, (m.t.lane : Int) = j then src ∈ act ∧ (src.t.lane : Int) = j else src = me)
  | .vlut x fill n => v < 2 ^ 32 ∧ ∀ k < 4,
      let idx := me.raw 32 x.sb / 2 ^ (8 * k) % 256
      let base : Nat := match x.sa with | .v r => r.val | _ => 0
      v / 2 ^ (8 * k) % 256 = if idx < 4 * (n.val + 1) then (me.t.reg (base + idx / 4)).toNat / 2 ^ (8 * (idx % 4)) % 256 else fill.toNat
  | .vred x op masked r => v = (vredValue op r act x.sa (if masked then inMask x.sb else fun _ => true)).1
  | .vredMr x r => v = (vredMrValue r act x.sa x.sb).1
  | .vscan x op excl r => v = (scanValue op r act x.sa (if excl then me.t.lane else me.t.lane + 1)).1
  | .poll x .mask => isMask act (fun m => m.t.pval x.sa) v
  | .maskof _ => isMask act (fun _ => true) v
  | .matchv x t => isMask act (fun m => m.raw t.width x.sa == me.raw t.width x.sa) v
  | _ => False

/-- The class G instructions that compute. -/
def isGang : Instr → Bool
  | .shfl .. | .vlut .. | .vred .. | .vredMr .. | .vscan .. | .poll .. | .maskof .. | .matchv .. | .elect .. => true
  | _ => false

/-- The votes of R213 and the election of R216. -/
def gangTruth (i : Instr) (act : List Mb) (me : Mb) : Option Bool :=
  match i with
  | .poll x .every => some (act.all fun m => m.t.pval x.sa)
  | .poll x .some => some (act.any fun m => m.t.pval x.sa)
  | .poll x .agree => some (act.all (fun m => m.t.pval x.sa) || act.all fun m => !m.t.pval x.sa)
  | .elect _ => some (act.all fun m => decide (me.t.lane ≤ m.t.lane))
  | _ => none

/-- The members agree on the mask that they supply, where the instruction takes one (R211). -/
def masksAgree (i : Instr) (act : List Mb) : Prop :=
  match i with
  | .vred x _ true _ => maskMismatch x.sb act = none
  | .vredMr x _ => maskMismatch x.sb act = none
  | _ => True

/-! ### Barriers -/

/-- Every other member of the group has arrived in the barrier's phase or has exited, and nothing else is owed (R331). -/
def lastToArrive (s : State) (u : Nat) (l : Level) (inst n : Nat) : Prop :=
  let b := s.bars.lookD (barKey l inst n) {}
  b.owing = [] ∧ b.pendb = 0 ∧ b.ext ≤ b.extc
    ∧ ∀ v ∈ barMembers s l inst, v = u ∨ v ∈ b.arr ∨ (s.threads.look v).map (·.st) = some .exited

/-- Some other member of the group has neither arrived nor exited. -/
def someoneMissing (s : State) (u : Nat) (l : Level) (inst n : Nat) : Prop :=
  ∃ v ∈ barMembers s l inst, v ≠ u ∧ v ∉ (s.bars.lookD (barKey l inst n) {}).arr
    ∧ (∀ w, (v, w) ∉ (s.bars.lookD (barKey l inst n) {}).owing) ∧ ∃ t, s.threads.look v = some t ∧ t.st ≠ .exited

/-- What an arrival leaves (R331): the arrival is recorded in the phase, which ends with the last one. -/
def hasArrived (s s' : State) (u : Nat) (l : Level) (inst n : Nat) : Prop :=
  let b := s.bars.lookD (barKey l inst n) {}
  (s'.threads.look u).map (·.last.look (lastIdx l n)) = some (some b.phase)
    ∧ (someoneMissing s u l inst n → (s'.bars.lookD (barKey l inst n) {}).phase = b.phase)
    ∧ (lastToArrive s u l inst n → arriveNeeds s u (levelScope l) = [] → (s'.bars.lookD (barKey l inst n) {}).phase = b.phase + 1
        ∧ (s'.bars.lookD (barKey l inst n) {}).arr = [])

/-! ### Memory instructions -/

/-- The type and the acquire of a load. -/
def loadOf : Instr → Option (X × ITy × Option Scope × Option (Fin 8))
  | .ld x t px => some (x, t, none, px)
  | .ldAcq x sc t px => some (x, t, some sc, px)
  | _ => none

/-- The type, the width and the release of a store. -/
def storeOf : Instr → Option (X × ITy × Option Scope × Option (Fin 8))
  | .st x t px => some (x, t, none, px)
  | .stRel x sc t px => some (x, t, some sc, px)
  | _ => none

/-- The operation, address operand, release and width of an atomic or reduction at a point of coherence (R336 to R341). -/
def atomicOf (i : Instr) (m : Mb) : Option (Nat × Access × Option Scope × Nat) :=
  match i with
  | .atom x sc o a t => some (m.addr x.sa x.sb, .rmw a t (m.t.val (aopSrc a t) x.sc), if o = .rel ∨ o = .ar then some sc else none, t.bytes)
  | .cas x sc o t => some (m.addr x.sa .null, .cas t.bytes (m.t.ival t x.sb) (m.t.ival t x.sc), if o = .rel ∨ o = .ar then some sc else none,
      t.bytes)
  | .red x sc rel a t => some (m.addr x.sa x.sb, .rmw a t (m.t.val (aopSrc a t) x.sc), if rel then some sc else none, t.bytes)
  | .redm x sc rel => if bit (m.t.val (.int 64) x.dst) m.t.lane then
      some (m.addr x.sa x.sb, .rmw .fadd .b32 (redmValue x m), if rel then some sc else none, 4) else none
  | _ => none

/-- Nothing holds an access of the member back: no fence, acquire, window, scoreboard range or full table (R231, R234, R236, R316,
R342). -/
def unheld (s : State) (m : Mb) (a n : Nat) (write : Bool) : Prop :=
  reqWaits s (fun _ => some { addr := a, n := n, write := write }) [m] = false

/-- The access passes the checks of R222 on a list of paths. -/
def reachable (s : State) (m : Mb) (a n : Nat) (px : Option (Fin 8)) (paths : List Nat) (write : Bool) : Prop :=
  addrCheck s m.b a n px paths write = none

/-- A store, atomic or reduction of the member stands in its core's port (R313). -/
def ported (s' : State) (m : Mb) (a : Nat) (acc : Access) (rel : Option Scope) : Prop :=
  ∃ id st, s'.stores.look id = some st ∧ st.th = some m.u ∧ st.core = m.b.core ∧ st.ctx = m.b.ctx ∧ st.path = selOf a ∧ st.va = a
    ∧ st.off = offOf a ∧ st.space = spaceOf m.b (selOf a) ∧ st.acc = acc ∧ st.rel = rel

/-- Every byte of memory and of the instruction stores reads as before. -/
def memorySame (s s' : State) : Prop :=
  (∀ l, byteAt s' l = byteAt s l) ∧ ∀ k a, storeByte s' k a = storeByte s k a

/-- The place `k` bytes after another. -/
def locAt (l : Loc) (k : Nat) : Loc :=
  match l with
  | .hbm pa => .hbm (pa + k)
  | .device pa mem => .device (pa + k) mem
  | .alloc al off => .alloc al (off + k)

/-- A place of `n` bytes with plain memory behind it: bytes of one HBM line that is not poison, of CXL memory, or of a scratchpad that no publish buffer
covers; its memory is canonical. -/
def plainAt (s : State) (l : Loc) (n : Nat) : Prop :=
  match l with
  | .hbm pa => s.hbm.wf = true ∧ pa % 64 + n ≤ 64 ∧ linePoison s (lineOf pa) = false
  | .device _ mem => mem = 1 ∧ s.device.wf = true
  | .alloc al _ => (∃ a, s.allocs.look al = some a ∧ a.mem.wf = true) ∧ ∀ k p, (k, p) ∈ s.pubs → p.alloc ≠ al

/-- A place that is no device memory. -/
def onModule (l : Loc) : Prop := ∀ pa mem, l ≠ .device pa mem

/-- Exactly these bytes are written at a place: they read back, and every other byte of memory and of the instruction stores is as it was. -/
def wroteAt (s s' : State) (l : Loc) (bs : List Byte) : Prop :=
  (∀ k < bs.length, byteAt s' (locAt l k) = some (bs.getD k 0))
    ∧ (∀ x, (∀ k < bs.length, x ≠ locAt l k ∧ ∀ pa m m', locAt l k = .device pa m → x ≠ .device pa m') → byteAt s' x = byteAt s x)
    ∧ ∀ k c, storeByte s' k c = storeByte s k c

/-- The number that `n` bytes of memory at a place hold. -/
def numberAt (s : State) (l : Loc) (n : Nat) : Nat := ofLe ((List.range n).map fun k => (byteAt s (locAt l k)).getD 0)

/-- The access of a class M instruction: its address, its bytes, the path it names, the paths it accepts, and whether its own rule gives a reserved
selector the path fault (R174, R222, R226, R232, R336 to R340, R353). -/
def accessOf (i : Instr) (m : Mb) : Option (Nat × Nat × Option (Fin 8) × List Nat × Bool) :=
  match i with
  | .ld x t px => some (m.addr x.sa x.sb, t.bytes, px, [0, 1, 2, 3, 4, 6, 7], false)
  | .ldAcq x _ t px => some (m.addr x.sa x.sb, t.bytes, px, [0, 1, 2, 3, 4, 6, 7], false)
  | .st x t px => some (m.addr x.sa x.sb, t.bytes, px, [0, 1, 2, 3, 6], false)
  | .stRel x _ t px => some (m.addr x.sa x.sb, t.bytes, px, [0, 1, 2, 3, 6], false)
  | .waitmem x _ _ t => some (m.addr x.sa x.sb, t.bytes, none, [0, 1, 2, 3], false)
  | .shld x => some (m.addr x.sa .null, 64, none, [0, 1, 2, 3], true)
  | .shst x => some (m.addr x.sa .null, 64, none, [0, 1, 2, 3], true)
  | .atom x _ _ _ t => some (m.addr x.sa x.sb, t.bytes, none, [0, 1, 2, 3], true)
  | .red x _ _ _ t => some (m.addr x.sa x.sb, t.bytes, none, [0, 1, 2, 3], true)
  | .redm x _ _ => if redmIn x m then some (m.addr x.sa x.sb, 4, none, [0, 1, 2, 3], true) else none
  | .cas x _ _ t => some (m.addr x.sa .null, t.bytes, none, [0, 1, 2, 3], true)
  | .rld x _ _ t px => some (m.addr x.sa x.sb, t.bytes, px, [5], true)
  | .remst x _ _ t px => some (m.addr x.sa x.sb, t.bytes, px, [5], true)
  | .remstL x t px => some (m.addr x.sa x.sb, t.bytes, px, [5], true)
  | .remred x _ _ _ t => some (m.addr x.sa x.sb, t.bytes, none, [5], true)
  | _ => none

/-- A fault at issue: the halt line is up for a cause, and nothing was issued, sent or stored. -/
def stopsAt (i : Instr) (s : State) (m : Mb) (cause : Nat) : Prop :=
  ∃ s', exec i s = .next s' ∧ haltedBy s' m.b.ctx cause ∧ s'.stores = s.stores ∧ s'.pend = s.pend ∧ s'.bells = s.bells ∧ s'.out = s.out
    ∧ s'.sending = s.sending

/-! ### Waits, fences, the fabric -/

/-- A class R request leaves for its target (R348, R354). -/
def sent (s s' : State) (m : Mb) (a : Nat) (op : RemOp) : Prop :=
  ∃ station id, s'.out = s.out ++ [.remote station (bits a 59 50) {
    src := s.steward.accid, id := id, domain := (s.ctx m.b.ctx).domain, va := bits a 49 0, op := op }]

/-- A store, with or without a flag, or a reduction at another module: its request, its address, its release and its wait (R353, R354). -/
def remoteOf (i : Instr) (m : Mb) : Option (X × Nat × Option (Fin 8) × RemOp × Option Scope) :=
  match i with
  | .remst x sc rel t px => some (x, t.bytes, px, .store (leBytes t.bytes (m.t.ival t x.sc))
      (if x.dst = .null then none else some (bits (m.t.val (.int 64) x.dst) 49 0)), if rel then some sc else none)
  | .remred x sc rel a t => some (x, t.bytes, none, .red a t (m.t.val (aopSrc a t) x.sc), if rel then some sc else none)
  | _ => none

/-! ### Commands -/

/-- One active member, whose command has not been taken yet, issues the instruction, and nothing common holds it back. -/
def lone (i : Instr) (s : State) (g : Gather) (m : Mb) : Prop :=
  clear i s g = true ∧ actors i s g = [m] ∧ g.served = [] ∧ m.t.flags.length = 12

/-- A matrix command, with the shapes it reads and writes, whether its writes go to back halves, and its check (R277, R278). -/
def commandOf (s : State) (i : Instr) (m : Mb) : Option (Nat × MKind × List Shape × List Shape × Bool × Option Flt) :=
  match i with
  | .mma x acc sat => some (acc, .mma (m.shape x.sa) (m.shape x.sb) (scalesOf x m).1 (scalesOf x m).2 sat,
      [m.shape x.sa, m.shape x.sb] ++ (scalesOf x m).1.toList ++ (scalesOf x m).2.toList, [], false,
      mmaCheck s m.b (m.shape x.sa) (m.shape x.sb) (scalesOf x m).1 (scalesOf x m).2 false sat)
  | .mmaW x acc sat => some (acc, .mmaW (m.shape x.sa) (m.shape x.sb) (m.t.val (.int 32) x.sc) sat, [m.shape x.sa, m.shape x.sb], [], false,
      mmaWCheck s m.b (m.shape x.sa) (m.shape x.sb) sat)
  | .accz _ acc => some (acc, .accz, [], [], false, none)
  | .accld x acc => some (acc, .accld (m.shape x.sa), [m.shape x.sa], [], false, moveCheck s m.b (m.shape x.sa) [0, 0xD])
  | .accst x acc => some (acc, .accst (m.shape x.sa), [], [m.shape x.sa], false, moveCheck s m.b (m.shape x.sa) [0, 0xD])
  | .drain x acc => some (acc, .drain (m.shape x.sa), [], [m.shape x.sa], true, moveCheck s m.b (m.shape x.sa) [0, 1, 2])
  | .drainMx x acc => some (acc, .drainMx (m.shape x.sa) (m.shape x.sb), [], [m.shape x.sa, m.shape x.sb], true,
      drainMxCheck s m.b (m.shape x.sa) (m.shape x.sb))
  | _ => none

/-- A copy command: TCOPY, or TCOPY.MMA with the tile and the second operand of its product (R253, R255). -/
def copyFollow (i : Instr) (m : Mb) : Option (X × Option (Nat × Shape)) :=
  match i with
  | .tcopy x => some (x, none)
  | .tcopyMma x acc => some (x, some (acc.val, nextShape x m))
  | _ => none

/-! ### Access processors -/

/-- The focus AP runs, its block is known and the guard is true (R242, R243). -/
def apAt (i : Instr) (s : State) (a : Ap) (b : Block) : Prop :=
  s.ap s.focus s.focusAp = a ∧ s.focusAp < (s.core s.focus).aps.length ∧ a.running = true ∧ s.blocks.look a.blk = some b
    ∧ (a.cond i.x.gpred != i.x.gneg) = true

/-- The registers, conditions, loops and PC that an arithmetic or control instruction of an AP leaves (R246); `none` is the AP program
fault. -/
def apResult (s : State) (i : Instr) (a : Ap) (b : Block) : Option Ap :=
  let next := apNext s i a
  let after : W32 := mkPc ((s.core s.focus).nxt (pcOff a.pc)) 0
  match i with
  | .agen x => some { a.setA x.dst (agenAddr (shapeOfOp b x.sa) (sextNat 64 (a.val x.sb)) (sextNat 64 (a.val x.sc))) with pc := next }
  | .aadd x => some { a.setA x.dst ((a.val x.sa + a.val x.sb) % 2 ^ 64) with pc := next }
  | .aloop x => if a.loops.length < 4 then some { a with loops := (max (a.val x.sa % 2 ^ 32) 1, after) :: a.loops, pc := after } else none
  | .aendl _ => match a.loops with
    | [] => none
    | (n, start) :: rest => if n ≤ 1 then some { a with loops := rest, pc := after } else some { a with loops := (n - 1, start) :: rest, pc := start }
  | .acmp x c => some { a.setC x.dst (icmp c (sextNat 64 (a.val x.sa)) (sextNat 64 (a.val x.sb))) with pc := next }
  | .abra x =>
    let t : Int := pcOff a.pc + sextNat 64 (a.val x.sa)
    if t % 8 = 0 ∧ 0 ≤ t ∧ t < 2 ^ 18 then some { a with pc := mkPc t.toNat 0 } else none
  | .aend _ => some {}
  | _ => none

/-- The instructions that `apResult` speaks of. -/
def isApCompute : Instr → Bool
  | .agen .. | .aadd .. | .aloop .. | .aendl .. | .acmp .. | .abra .. | .aend .. => true
  | _ => false


/-! ## Decoding and the step -/

/-- Words written out in the worked encodings of the spec decode to the instructions they stand for. -/
def WorkedWordsDecode : Prop :=
  decodeWord .V 0x040140F83FE50000 (some 0x12345678) = .ok (.iadd {
    dst := .v 5, sa := .v 3, sb := .lit 0x12345678, lua := true, gneg := true, gpred := 2 } .s32 false)
  ∧ decodeWord .V 0x14C2024282E38001 none = .ok (.ffma {
    dst := .v 8, sa := .v 9, sb := .v 10, sc := .v 11, lua := true } .rz false)
  ∧ decodeWord .V 0x0D600068BFC38080 none = .ok (.isetp { dst := .p 0, sa := .v 1, sb := .k 10 } .s32 .lt)
  ∧ decodeWord .V 0x203FFFFFFFC00000 none = .ok (.bra { gpred := 0 } 0)
  ∧ decodeWord .G 0x004280853FC38028 none = .ok (.vredMr { dst := .v 10, sa := .v 2, sb := .v 20 } .rne)
  ∧ decodeWord .M 0x000200B83FC39F00 (some 0x40) = .ok (.ld { dst := .v 8, sa := .v 2, sb := .lit 0x40 } .b32 none)
  ∧ decodeWord .X 0x0001A2A241038000 none = .ok (.tcopy { dst := .v 6, sa := .q 2, sb := .q 1, sc := .v 4 })
  ∧ decodeWord .T 0x0081A3237FC00000 none = .ok (.mmaNf { dst := .v 6, sa := .q 4, sb := .q 5, gpred := 0 } 0)
  ∧ decodeWord .S 0x00013FFFFFC38040 none = .ok (.srdp { dst := .v 4 } .fpxc)

/-- Encoding loses nothing: the word of a well-formed instruction, with its literal if it names one, decodes to that instruction, and
so does a clause header. -/
def DecodeInvertsEncode : Prop :=
  (∀ (i : Instr) (c : Cls), i.cls = some c → wellFormed i = true →
    encodeWord i < 2 ^ 64 ∧ decodeWord c (encodeWord i) i.literal = .ok i)
  ∧ ∀ h : Header, 1 ≤ h.count → h.count ≤ 16 → encodeHeader h < 2 ^ 64 ∧ decodeHeader (encodeHeader h) = some h

/-- An issue move runs the instruction that the bytes at the gathered set's slot decode to; an AP's move runs that of its program; an
event move runs the event; and time alone passes in an elapse move. -/
def StepRunsTheDecodedInstruction : Prop :=
  (∀ (s : State) (k : Nat) (rest : List Move) (g : Gather) (h : Header) (i : Instr),
    s.agenda = .issue k :: rest → s.dark = false → (s.core k).gather = some g →
    decodeHeader (ofLe ((s.core k).store.readN g.off 8)) = some h → g.slot < h.count →
    decodeWord h.cls (ofLe ((s.core k).store.readN (g.off + 8 + 8 * g.slot) 8))
      (if g.slot + 1 < h.count then some (BitVec.ofNat 64 (ofLe ((s.core k).store.readN (g.off + 16 + 8 * g.slot) 8))) else none)
      = .ok i →
    i.isA = false →
    step s = exec i { s with clock := s.clock + 1, fresh := s.fresh + 1, agenda := rest, focus := k })
  ∧ (∀ (s : State) (k n : Nat) (rest : List Move) (i : Instr),
    s.agenda = .apIssue k n :: rest → s.dark = false →
    apInstrAt { s with clock := s.clock + 1, fresh := s.fresh + 1, agenda := rest, focus := k, focusAp := n } k n = some i →
    step s = exec i { s with clock := s.clock + 1, fresh := s.fresh + 1, agenda := rest, focus := k, focusAp := n })
  ∧ (∀ (s : State) (i : Instr) (rest : List Move),
    s.agenda = .event i :: rest → s.dark = false ∨ i = .moduleReset → i.cls = none →
    step s = exec i { s with clock := s.clock + 1, fresh := s.fresh + 1, agenda := rest })
  ∧ ∀ (s : State) (n : Nat) (rest : List Move), s.agenda = .elapse n :: rest → s.dark = false →
    step s = .next { s with clock := s.clock + 1 + n, fresh := s.fresh + 1, agenda := rest }

/-- After a thermal trip nothing but a module reset runs (R430): the step faults by name. -/
def DarkModuleStops : Prop :=
  ∀ s : State, s.dark = true → (∀ rest, s.agenda ≠ .event .moduleReset :: rest) → step s = .fault .poweredDown

/-! ## Class V -/

/-- R151: the reduction of an exact result to a type, and its extension to the 32 bits of a register. -/
def ReductionOfResults : Prop :=
  ∀ (t : ITy) (r : Int),
    (32 ≤ t.width ∨ t.signed = false → reduce t false r = (Int.emod r (2 ^ t.width)).toNat)
    ∧ (t.width < 32 → t.signed = true →
        (BitVec.ofNat 32 (reduce t false r)).toInt = Int.bmod r (2 ^ t.width) ∧ reduce t false r < 2 ^ 32)
    ∧ reduce t true r = reduce t false
        (min (max r (if t.signed then - 2 ^ (t.width - 1) else 0)) (if t.signed then 2 ^ (t.width - 1) - 1 else 2 ^ t.width - 1))

/-! ### Forms of the integer and predicate instructions -/

/-- A destination of a type: a register, an even one for 64 bits (R151). -/
def destOf (t : ITy) (o : Opnd) : Bool :=
  match o with
  | .v n => decide (t.width < 64) || n.val % 2 == 0
  | _ => false

/-- A data source of a type: a register, a pair for 64 bits, an inline constant or a literal (R61, R151). -/
def dataOf (t : ITy) (o : Opnd) : Bool :=
  match o with
  | .v n => decide (t.width < 64) || n.val % 2 == 0
  | .k _ => true
  | .lit w => decide (t.width = 64) || decide (w.toNat < 2 ^ 32)
  | _ => false

def predOpnd (o : Opnd) : Bool := match o with | .p _ => true | _ => false

/-- OPC and MOD of the instructions of R152 and R161. -/
def arithWord : Instr → Option (Nat × Nat)
  | .iadd _ t sat => some (0x010, t.code + 2 ^ 4 * sat.toNat)
  | .isub _ t sat => some (0x011, t.code + 2 ^ 4 * sat.toNat)
  | .imul _ t sat => some (0x012, t.code + 2 ^ 4 * sat.toNat)
  | .imulh _ t => some (0x013, t.code)
  | .imad _ t sat => some (0x014, t.code + 2 ^ 4 * sat.toNat)
  | .imadWide _ t sat => some (0x014, t.code + 2 ^ 4 * sat.toNat + 2 ^ 5)
  | .iadc _ t p => some (0x015, t.code + 2 ^ 6 * p.val)
  | .isbc _ t p => some (0x016, t.code + 2 ^ 6 * p.val)
  | .imin _ t => some (0x017, t.code)
  | .imax _ t => some (0x018, t.code)
  | .iabs _ t => some (0x019, t.code)
  | .ineg _ t => some (0x01A, t.code)
  | .cvti _ t src sat => some (0x037, t.code + 2 ^ 4 * sat.toNat + 2 ^ 6 * src.code)
  | _ => none

/-- Types and operand fields of the instructions of R152 and R161. -/
def arithForm : Instr → Bool
  | .iadd x t _ | .isub x t _ | .imul x t _ | .imin x t | .imax x t =>
      decide (t.code < 8) && destOf t x.dst && dataOf t x.sa && dataOf t x.sb && x.sc == .null
  | .imulh x t => (t == .s32 || t == .n32) && destOf t x.dst && dataOf t x.sa && dataOf t x.sb && x.sc == .null
  | .imad x t _ => (t == .s32 || t == .n32) && destOf t x.dst && dataOf t x.sa && dataOf t x.sb && dataOf t x.sc
  | .imadWide x t _ => (t == .s32 || t == .n32) && destOf .s64 x.dst && dataOf t x.sa && dataOf t x.sb && dataOf .s64 x.sc
  | .iadc x t _ | .isbc x t _ =>
      decide (t.code < 8) && destOf t x.dst && dataOf t x.sa && dataOf t x.sb && (predOpnd x.sc || x.sc == .null)
  | .iabs x t | .ineg x t => t.signed && destOf t x.dst && dataOf t x.sa && x.sb == .null && x.sc == .null
  | .cvti x t src _ => decide (t.code < 8) && decide (src.code < 8) && destOf t x.dst && dataOf src x.sa && x.sb == .null && x.sc == .null
  | _ => false

/-- OPC and MOD of the instructions of R153 to R160 and R162. -/
def bitWord : Instr → Option (Nat × Nat)
  | .and _ t => some (0x020, t.code) | .or _ t => some (0x021, t.code) | .xor _ t => some (0x022, t.code) | .not _ t => some (0x023, t.code)
  | .bool3 _ t tt => some (0x024, t.code + 2 ^ 6 * tt.toNat)
  | .shl _ t => some (0x028, t.code) | .shr _ t => some (0x029, t.code) | .sar _ t => some (0x02A, t.code) | .rol _ t => some (0x02B, t.code)
  | .fsh _ right => some (0x02C, 0x8 + 2 ^ 6 * right.toNat)
  | .bfx _ t => some (0x02D, t.code) | .bfi _ => some (0x02E, 0x8)
  | .popc _ t => some (0x02F, t.code) | .clz _ t => some (0x030, t.code) | .ctz _ t => some (0x031, t.code) | .brev _ t => some (0x032, t.code)
  | .bperm _ => some (0x033, 0x8) | .sel _ t => some (0x034, t.code)
  | .isetp _ t c => some (0x035, t.code + 2 ^ 6 * c.code)
  | .mov _ t => some (0x036, t.code)
  | .pand _ => some (0x040, 0) | .por _ => some (0x041, 0) | .pxor _ => some (0x042, 0) | .pnot _ => some (0x043, 0) | .pmov _ => some (0x044, 0)
  | _ => none

/-- Types and operand fields of the instructions of R153 to R160 and R162. -/
def bitForm : Instr → Bool
  | .and x t | .or x t | .xor x t => (t == .b32 || t == .b64) && destOf t x.dst && dataOf t x.sa && dataOf t x.sb && x.sc == .null
  | .not x t | .mov x t | .brev x t => (t == .b32 || t == .b64) && destOf t x.dst && dataOf t x.sa && x.sb == .null && x.sc == .null
  | .bool3 x t _ => (t == .b32 || t == .b64) && destOf t x.dst && dataOf t x.sa && dataOf t x.sb && dataOf t x.sc
  | .shl x t | .shr x t | .rol x t => (t == .b32 || t == .b64) && destOf t x.dst && dataOf t x.sa && dataOf .b32 x.sb && x.sc == .null
  | .sar x t => (t == .s32 || t == .s64) && destOf t x.dst && dataOf t x.sa && dataOf .b32 x.sb && x.sc == .null
  | .fsh x _ | .bfi x | .bperm x => destOf .b32 x.dst && dataOf .b32 x.sa && dataOf .b32 x.sb && dataOf .b32 x.sc
  | .bfx x t => (t == .s32 || t == .n32) && destOf .b32 x.dst && dataOf .b32 x.sa && dataOf .b32 x.sb && x.sc == .null
  | .popc x t | .clz x t | .ctz x t =>
      (t == .b32 || t == .b64) && destOf .b32 x.dst && dataOf t x.sa && x.sb == .null && x.sc == .null
  | .sel x t => (t == .b32 || t == .b64) && destOf t x.dst && dataOf t x.sa && dataOf t x.sb && predOpnd x.sc
  | .isetp x t c => decide (t.code < 8) && decide (c.code < 6) && predOpnd x.dst && dataOf t x.sa && dataOf t x.sb && x.sc == .null
  | .pand x | .por x | .pxor x => predOpnd x.dst && predOpnd x.sa && predOpnd x.sb && x.sc == .null
  | .pnot x | .pmov x => predOpnd x.dst && predOpnd x.sa && x.sb == .null && x.sc == .null
  | _ => false

/-- Opcode, MOD, types and operand fields are those of R152 and R161: an instruction's modifiers and operands are accepted exactly in its
form. -/
def ArithmeticForms : Prop :=
  ∀ (i : Instr) (opc mod : Nat), arithWord i = some (opc, mod) →
    ((i.modOk = true ∧ i.opsOk = true) ↔ (arithForm i = true ∧ i.luOk = true))
    ∧ (wellFormed i = true → bits (encodeWord i) 63 54 = opc ∧ bits (encodeWord i) 13 0 = mod)

/-- The same for the instructions of R153 to R160 and R162. -/
def BitForms : Prop :=
  ∀ (i : Instr) (opc mod : Nat), bitWord i = some (opc, mod) →
    ((i.modOk = true ∧ i.opsOk = true) ↔ (bitForm i = true ∧ i.luOk = true))
    ∧ (wellFormed i = true → bits (encodeWord i) 63 54 = opc ∧ bits (encodeWord i) 13 0 = mod)

/-- The integer that an inline code stands for (R62). -/
def inlineInt (k : Nat) : Option Int :=
  if k < 16 then some k else if k < 24 then some (15 - (k : Int)) else if k = 38 then some 64 else if k = 39 then some 63 else none

/-- The patterns of the real inline codes 0xB0 to 0xBD in the format of a width (R62, R63). -/
def inlineReal (width k : Nat) : Nat :=
  (match width with
    | 64 => [0x3FD0000000000000, 0x3FE0000000000000, 0x3FF0000000000000, 0x4000000000000000, 0x4010000000000000, 0x4020000000000000,
        0xBFE0000000000000, 0xBFF0000000000000, 0xC000000000000000, 0xC010000000000000, 0x3FE62E42FEFA39EF, 0x3FF71547652B82FE,
        0x400921FB54442D18, 0x3FC45F306DC9C883]
    | 16 => [0x3400, 0x3800, 0x3C00, 0x4000, 0x4400, 0x4800, 0xB800, 0xBC00, 0xC000, 0xC400, 0x398C, 0x3DC5, 0x4248, 0x3118]
    | _ => [0x3E800000, 0x3F000000, 0x3F800000, 0x40000000, 0x40800000, 0x41000000, 0xBF000000, 0xBF800000, 0xC0000000, 0xC0800000,
        0x3F317218, 0x3FB8AA3B, 0x40490FDB, 0x3E22F983]).getD (k - 24) 0

/-- What a source supplies for an integer type (R151): the low bits of a register, a pair for 64 bits, the low bits of a literal, an inline constant's
bits (R62, R63); read as two's complement for the signed types. A carry-in is its predicate, and false where none is named (R152). -/
def IntegerSources : Prop :=
  ∀ (m : Mb) (t : ITy) (o : Opnd),
    m.int t o = (if t.signed then Int.bmod (m.raw t.width o) (2 ^ t.width) else (m.raw t.width o % 2 ^ t.width : Nat))
    ∧ (∀ w, m.raw t.width (.lit w) = w.toNat % 2 ^ t.width)
    ∧ (∀ (n : Fin 128) w, m.t.regs.look n = some w → t.width ≤ 32 → m.raw t.width (.v n) = w.toNat % 2 ^ t.width)
    ∧ (∀ (n : Fin 128) w w', m.t.regs.look n = some w → m.t.regs.look (n + 1) = some w' → t.width = 64 →
        m.raw t.width (.v n) = w'.toNat * 2 ^ 32 + w.toNat)
    ∧ (∀ (n : Fin 40) z, inlineInt n = some z → m.raw t.width (.k n) = truncInt t.width z)
    ∧ (∀ n : Fin 40, inlineInt n = none → m.raw t.width (.k n) = inlineReal t.width n % 2 ^ t.width)
    ∧ m.t.pval .null = false ∧ ∀ n, m.t.pval (.p n) = m.t.pred n

/-- Under a false guard an instruction of R152 or R161 changes neither its destination nor a carry (R39). -/
def CarryUnderFalseGuard : Prop :=
  ∀ (s : State) (i : Instr) (g : Gather), (arithWord i).isSome = true → wellFormed i = true → clear i s g = true →
    ∃ s', exec i s = .next s' ∧ ∀ m ∈ membersOf s g, m.t.guard i.x = false →
      (∀ n, predOf s' m.u n = predOf s m.u n) ∧ ∀ n, n ∉ luRegs i → regOf s' m.u n = regOf s m.u n

/-- The arithmetic instructions of R152 and CVTI complete with their exact result, reduced, and IADC and ISBC with their carry. -/
def ArithmeticResults : Prop :=
  ∀ (s : State) (i : Instr) (g : Gather) (t : ITy) (sat : Bool) (f : Mb → Int),
    exactResult i = some (t, sat, f) → wellFormed i = true → clear i s g = true →
    Completes i s g fun s' m => received s' m i (reduce t sat (f m))
      ∧ ∀ p c, carry i = some (p, c) → predOf s' m.u p = some (c m || p == 7)

/-- The logic, shift, field, count, permute and copy instructions of R153 to R159 complete with the bits that the rules give. -/
def BitResults : Prop :=
  ∀ (s : State) (i : Instr) (g : Gather), isBits i = true → wellFormed i = true → clear i s g = true →
    Completes i s g fun s' m => ∃ v, bitwise i m v ∧ received s' m i v

/-- ISETP and the predicate instructions settle their destination predicate (R160, R162). -/
def PredicateResults : Prop :=
  ∀ (s : State) (i : Instr) (g : Gather) (f : Mb → Bool), truth i = some f → wellFormed i = true → clear i s g = true →
    Completes i s g fun s' m => settled s' m i (f m)

/-- A source p7 reads true, and an omitted carry reads false (R42, R152). -/
def SourceSeven : Prop := ∀ t : Thread, t.pval (.p 7) = true ∧ t.pval .null = false

/-- The floating-point instructions complete with the rounded result of their operation, with RNGS stepped once by each stochastic
rounding (R187) and the exceptions added to the sticky bits of FPXC (R189). -/
def FloatResults : Prop :=
  ∀ (s : State) (i : Instr) (g : Gather) (f : Mb → Nat × Nat × W32), rounded i = some f → wellFormed i = true →
    clear i s g = true → quietFp i s g (fun m => (f m).2.1) = true →
    Completes i s g fun s' m => received s' m i (f m).1 ∧ (s'.threads.look m.u).map (·.rngs) = some (f m).2.2
      ∧ (s.ctxs.has m.b.ctx = true → ∀ k < 5, bit (f m).2.1 k = true → (s'.ctx m.b.ctx).fpxc.getLsbD (8 + k) = true)

/-! ### Rounding, from the numbers alone -/

/-- The exponent field, the mantissa field and the sign of a code of a format with infinities (R178). -/
def expOf (f : Fmt) (c : Nat) : Nat := c / 2 ^ f.mb % 2 ^ f.eb
def manOf (f : Fmt) (c : Nat) : Nat := c % 2 ^ f.mb
def negOf (f : Fmt) (c : Nat) : Bool := bit c (f.eb + f.mb)

/-- A code is finite; a NaN; a signalling NaN (R178, R179). -/
def finiteCode (f : Fmt) (c : Nat) : Prop := c < 2 ^ f.bits ∧ expOf f c ≠ 2 ^ f.eb - 1
def nanOf (f : Fmt) (c : Nat) : Bool := decide (expOf f c = 2 ^ f.eb - 1) && decide (manOf f c ≠ 0)
def snanOf (f : Fmt) (c : Nat) : Bool := nanOf f c && !bit c (f.mb - 1)

/-- The value of a finite code in units of the format's least quantum, 2 to the 1 − bias − mantissa bits (R178, R179). -/
def units (f : Fmt) (c : Nat) : Int :=
  let n : Int := if expOf f c = 0 then manOf f c else (2 ^ f.mb + manOf f c : Nat) * 2 ^ (expOf f c - 1)
  if negOf f c then -n else n

/-- A zero, an infinity and the largest finite value of a sign, and the canonical NaN. -/
def zeroOf (f : Fmt) (neg : Bool) : Nat := if neg then 2 ^ (f.eb + f.mb) else 0
def infinityOf (f : Fmt) (neg : Bool) : Nat := zeroOf f neg + (2 ^ f.eb - 1) * 2 ^ f.mb
def largestOf (f : Fmt) (neg : Bool) : Nat := infinityOf f neg - 1
def quietNan (f : Fmt) : Nat := infinityOf f false + 2 ^ (f.mb - 1)

/-- A subnormal source under .ftz reads as a zero of its own sign (R186). -/
def readAs (f : Fmt) (ftz : Bool) (c : Nat) : Nat := if ftz && decide (expOf f c = 0) then zeroOf f (negOf f c) else c

/-- The magnitude of an exact value. -/
def mag (x : Int) : Int := x.natAbs

/-- `x ÷ k` units overflow under a mode: rounded with the exponent unbounded it exceeds the largest finite value (R184). -/
def overflows (f : Fmt) (r : Rnd) (x k : Int) : Prop :=
  let big := units f (largestOf f false)
  let gap : Int := 2 ^ (2 ^ f.eb - 3)
  match r with
  | .rne => k * (2 * big + gap) ≤ 2 * mag x
  | .rz => k * (big + gap) ≤ mag x
  | .rd => k * (big + gap) ≤ x ∨ x < - (k * big)
  | .ru => x ≤ - (k * (big + gap)) ∨ k * big < x
  | .sr => False

/-- `x ÷ k` units are tiny under a mode: rounded with the exponent unbounded they lie below the smallest normal value, and are not zero
(R186). -/
def tinyUnder (f : Fmt) (r : Rnd) (x k : Int) : Prop :=
  let n : Int := 2 ^ f.mb
  x ≠ 0 ∧ match r with
    | .rne => 4 * mag x < k * (4 * n - 1)
    | .rz => mag x < k * n
    | .rd => x < k * n ∧ - (k * (2 * n - 1)) ≤ 2 * x
    | .ru => - (k * n) < x ∧ 2 * x ≤ k * (2 * n - 1)
    | .sr => False

/-- A finite code is `x ÷ k` units rounded once: the nearest, a tie to the even mantissa; the neighbour nearer zero; the lower; the higher
(R184). -/
def neighbour (f : Fmt) (r : Rnd) (x k : Int) (v : Nat) : Prop :=
  finiteCode f v ∧ ∀ y, finiteCode f y → match r with
    | .rne => mag (x - k * units f v) ≤ mag (x - k * units f y)
        ∧ (mag (x - k * units f v) = mag (x - k * units f y) → units f y ≠ units f v → v % 2 = 0)
    | .rz => mag (k * units f v) ≤ mag x ∧ (mag (k * units f y) ≤ mag x → mag (units f y) ≤ mag (units f v))
    | .rd => k * units f v ≤ x ∧ (k * units f y ≤ x → units f y ≤ units f v)
    | .ru => x ≤ k * units f v ∧ (x ≤ k * units f y → units f v ≤ units f y)
    | .sr => False

/-- An exact value of `x ÷ k` units, not zero, gives a code and exceptions (R184 to R186, R188): the overflow table; a zero for a tiny result under .ftz;
else its neighbour, of its own sign, inexact where it is not the value itself, with underflow where it is tiny too. -/
def roundsTo (f : Fmt) (r : Rnd) (ftz : Bool) (x k : Int) (res : Nat × Nat) : Prop :=
  let neg := decide (x < 0)
  (overflows f r x k → res = (if r = .rz ∨ (r = .rd ∧ 0 < x) ∨ (r = .ru ∧ x < 0) then largestOf f neg else infinityOf f neg, 4 + 16))
  ∧ (¬ overflows f r x k → ftz = true → tinyUnder f r x k → res = (zeroOf f neg, 8 + 16))
  ∧ (¬ overflows f r x k → ftz = false ∨ ¬ tinyUnder f r x k →
      neighbour f r x k res.1 ∧ negOf f res.1 = neg
      ∧ (k * units f res.1 = x → res.2 = 0)
      ∧ (k * units f res.1 ≠ x → tinyUnder f r x k → res.2 = 8 + 16)
      ∧ (k * units f res.1 ≠ x → ¬ tinyUnder f r x k → res.2 = 16))

/-- Sums, differences, products and fused products of finite codes are rounded once from their exact value, an exact zero takes the sign of R185, and
a NaN operand gives the canonical NaN, invalid where it signals (R184 to R186, R188, R191). -/
def ExactThenRounded : Prop :=
  ∀ (f : Fmt) (r : Rnd) (ftz : Bool) (d : W32) (a b c : Nat), f = f16 ∨ f = bf16 ∨ f = f32 ∨ f = f64 → r ≠ .sr →
    a < 2 ^ f.bits → b < 2 ^ f.bits → c < 2 ^ f.bits →
    let x := units f (readAs f ftz a)
    let y := units f (readAs f ftz b)
    let z := units f (readAs f ftz c)
    let k : Int := 2 ^ (f.bias + f.mb - 1)
    let opposite := zeroOf f (decide (r = .rd))
    let raised := if snanOf f a || snanOf f b then 1 else 0
    (nanOf f a = true ∨ nanOf f b = true →
      fAdd f r ftz d a b = (quietNan f, raised) ∧ fSub f r ftz d a b = (quietNan f, raised) ∧ fMul f r ftz d a b = (quietNan f, raised)
      ∧ (fFma f r ftz d a b c).1 = quietNan f)
    ∧ (nanOf f c = true → (fFma f r ftz d a b c).1 = quietNan f)
    ∧ (finiteCode f a → finiteCode f b →
      (x + y ≠ 0 → roundsTo f r ftz (x + y) 1 (fAdd f r ftz d a b))
      ∧ (x + y = 0 → fAdd f r ftz d a b = (if negOf f a = negOf f b then zeroOf f (negOf f a) else opposite, 0))
      ∧ (x - y ≠ 0 → roundsTo f r ftz (x - y) 1 (fSub f r ftz d a b))
      ∧ (x - y = 0 → fSub f r ftz d a b = (if negOf f a ≠ negOf f b then zeroOf f (negOf f a) else opposite, 0))
      ∧ (x * y ≠ 0 → roundsTo f r ftz (x * y) k (fMul f r ftz d a b))
      ∧ (x * y = 0 → fMul f r ftz d a b = (zeroOf f (negOf f a != negOf f b), 0))
      ∧ (finiteCode f c → x * y + z * k ≠ 0 → roundsTo f r ftz (x * y + z * k) k (fFma f r ftz d a b c))
      ∧ (finiteCode f c → x * y + z * k = 0 →
          fFma f r ftz d a b c = (if (negOf f a != negOf f b) = negOf f c then zeroOf f (negOf f c) else opposite, 0)))

/-- What a comparison says of two numbers (R82). -/
def orderSays (c : Cmp) (x y : Int) : Bool :=
  match c with
  | .eq | .equ => decide (x = y)
  | .ne | .neu => decide (x ≠ y)
  | .lt | .ltu => decide (x < y)
  | .le | .leu => decide (x ≤ y)
  | .gt | .gtu => decide (y < x)
  | .ge | .geu => decide (y ≤ x)
  | .num => true
  | .nan => false

/-- What a comparison says where a source is a NaN (R82). -/
def unorderedSays (c : Cmp) : Bool := [Cmp.equ, .neu, .ltu, .leu, .gtu, .geu, .nan].contains c

/-- FMIN and FMAX select the smaller or the larger source, -0 below +0, and prefer a number to a NaN (R192). FSETP's comparison sees numbers alone, the
zeros alike, and a NaN as unordered; each raises invalid for a signalling NaN and nothing else (R193). FCLS finds one class (R183). -/
def SelectedAndClassed : Prop :=
  ∀ (ftz : Bool) (a b : Nat), a < 2 ^ 32 → b < 2 ^ 32 →
    let a' := readAs f32 ftz a
    let b' := readAs f32 ftz b
    let raised := if snanOf f32 a || snanOf f32 b then 1 else 0
    let e := expOf f32 a
    (∀ mx v, fMinMax f32 mx ftz a b = v → v.2 = raised
      ∧ (nanOf f32 a = true → nanOf f32 b = true → v.1 = quietNan f32)
      ∧ (nanOf f32 a = true → nanOf f32 b = false → v.1 = b') ∧ (nanOf f32 a = false → nanOf f32 b = true → v.1 = a')
      ∧ (nanOf f32 a = false → nanOf f32 b = false →
          (v.1 = a' ∨ v.1 = b') ∧ units f32 v.1 = (if mx then max (units f32 a') (units f32 b') else min (units f32 a') (units f32 b'))
          ∧ (units f32 a' = units f32 b' → negOf f32 a' ≠ negOf f32 b' → negOf f32 v.1 = !mx)))
    ∧ (∀ c v, fSetp f32 c ftz a b = v → v.2 = raised
      ∧ (nanOf f32 a = true ∨ nanOf f32 b = true → v.1 = unorderedSays c)
      ∧ (nanOf f32 a = false → nanOf f32 b = false → v.1 = orderSays c (units f32 a') (units f32 b')))
    ∧ fClass f32 a = (if nanOf f32 a then (if snanOf f32 a then 0 else 1)
        else if e = 255 then (if negOf f32 a then 2 else 9)
        else if e = 0 then (if manOf f32 a = 0 then (if negOf f32 a then 5 else 6) else if negOf f32 a then 4 else 7)
        else if negOf f32 a then 3 else 8)

/-- FSETP, DSETP and FCLS settle their destination predicate (R82, R194, R195). -/
def FloatPredicates : Prop :=
  ∀ (s : State) (i : Instr) (g : Gather) (f : Mb → Bool × Nat), tested i = some f → wellFormed i = true →
    clear i s g = true → quietFp i s g (fun m => (f m).2) = true →
    Completes i s g fun s' m => settled s' m i (f m).1
      ∧ (s.ctxs.has m.b.ctx = true → ∀ k < 5, bit (f m).2 k = true → (s'.ctx m.b.ctx).fpxc.getLsbD (8 + k) = true)

/-- A member's fp exception that FPXC enables traps before anything is written (R190): cause 6, the raised set, and the PC of the
instruction itself. -/
def EnabledExceptionTraps : Prop :=
  ∀ (s : State) (i : Instr) (g : Gather) (m : Mb) (f : Mb → Nat × Nat × W32) (a h : Nat),
    rounded i = some f → wellFormed i = true → clear i s g = true → g.members = [m.u] → actors i s g = [m] →
    fpTraps (s.ctx m.b.ctx) (f m).2.1 = true → m.b.a1 = some a → m.t.owed = [] → handlerReady s m h →
    ∃ s', exec i s = .next s' ∧ trapped s' m a h { cause := 6, code := 0, flags := (f m).2.1, detail := 0, rpc := m.t.pc }
      ∧ ∀ n, regOf s' m.u n = regOf s m.u n

/-- A special-function instruction raises its flag, makes its destination live and joins the SFU queue of its core (R44, R199). -/
def SfuIssues : Prop :=
  ∀ (s : State) (i : Instr) (g : Gather) (m : Mb) (fn : Nat) (ftz : Bool), sfuFn i = some (fn, ftz) → wellFormed i = true →
    clear i s g = true → actors i s g = [m] → quietFp i s g (fun m => (sfu fn ftz (m.f32 i.x.sa)).2) = true →
    m.t.flags.length = 12 →
    ∃ s', exec i s = .next s' ∧ launched s s' i m (.sfu fn (BitVec.ofNat 32 (m.f32 i.x.sa)) ftz false)

/-- The SFU queue accepts a core's sixteen oldest operations, and an accepted one lands with its value (R199 to R201). -/
def SfuLands : Prop :=
  (∀ (s : State) (core : Nat), ∃ s', exec (.sfuQueueAccept core) s = .next s' ∧ Apart s s' ∧ s'.threads = s.threads
    ∧ ∀ id p fn a z, s.pend.look id = some p → p.op = .sfu fn a z false → id ∈ (sfuWaiting s core).take 16 →
        s'.pend.look id = some { p with op := .sfu fn a z true })
  ∧ ∀ (s : State) (id : Nat) (p : Pend) (q : Part) (fn : Nat) (a : W32) (z : Bool),
    s.pend.look id = some p → p.op = .sfu fn a z true → p.parts = [q] → lander s q →
    ∃ s', exec (.sfuResultLands id) s = .next s' ∧ landed s s' id q [BitVec.ofNat 32 (sfu fn z a.toNat).1]

/-- Instructions that only compute touch nothing but their own destination, their frees, sticky bits and what every end of an instruction
touches: no other register, no other predicate, no flag, no byte of memory. -/
def ComputeFrame : Prop :=
  ∀ (s s' : State) (i : Instr), computes i = true → exec i s = .next s' →
    Apart s s' ∧ (∀ l, byteAt s' l = byteAt s l) ∧ (∀ k a, storeByte s' k a = storeByte s k a)
    ∧ (∀ u f, flagAt s' u f = flagAt s u f)
    ∧ (∀ u t n, s.threads.look u = some t → t.regs.wf = true → n ∉ dstRegs i → n ∉ luRegs i → regOf s' u n = regOf s u n)
    ∧ (∀ u n, n ∉ dstPreds i → predOf s' u n = predOf s u n)
    ∧ (plainV i = true → ∀ u, (s'.threads.look u).map (·.rngs) = (s.threads.look u).map (·.rngs))

/-- Encoded instructions of threads that neither move a thread's registers to memory and back, nor end or restore one, nor write a context's
privileged registers. -/
def leavesRegs (i : Instr) : Bool :=
  i.cls.isSome && !i.isA && (match i with
    | .probe .. | .ctxload .. | .ctxsave .. | .haltx .. | .swrp .. | .exit .. | .ret .. => false
    | _ => true)

/-- At issue an instruction changes no byte of memory, no accumulator, no flag but its own, no register but its destination and what it frees, and no
predicate but its destination; of a context, only the halt line and the sticky exception bits may change. -/
def IssueFrame : Prop :=
  ∀ (s s' : State) (i : Instr), leavesRegs i = true → exec i s = .next s' →
    (∀ l, byteAt s' l = byteAt s l) ∧ (∀ k, (s'.core k).acc = (s.core k).acc)
    ∧ (∀ c, (s'.ctxs.look c).map Context.still = (s.ctxs.look c).map Context.still)
    ∧ (∀ u f, flagOf s i ≠ some f → flagAt s' u f = flagAt s u f)
    ∧ (∀ u t n, s.threads.look u = some t → t.regs.wf = true → n ∉ dstRegs i → n ∉ luRegs i → regOf s' u n = regOf s u n)
    ∧ (∀ u n, n ∉ dstPreds i → predOf s' u n = predOf s u n)

/-- The rest of a thread's instructions. PROBE, in a set of issuing threads, is framed as IssueFrame says; RET changes predicates of its actors alone; EXIT
changes registers, predicates and flags of its actors alone where each leaves a thread of its block behind; SWRP changes the register that it
names alone among the privileged registers; HALTX, CTXSAVE and CTXLOAD change no privileged register of any context, no predicate and no register but
their destination and what they free; and none of them changes a byte of memory (R165, R168, R344, R390, R411). -/
def RemainingFrames : Prop :=
  ∀ (s s' : State) (i : Instr) (g : Gather) (x : X), (s.core s.focus).gather = some g → exec i s = .next s' →
    let memory := (∀ l, byteAt s' l = byteAt s l) ∧ ∀ k, (s'.core k).acc = (s.core k).acc
    let contexts := ∀ c, (s'.ctxs.look c).map Context.still = (s.ctxs.look c).map Context.still
    let flags := ∀ u f, flagOf s i ≠ some f → flagAt s' u f = flagAt s u f
    let regs := ∀ u t n, s.threads.look u = some t → t.regs.wf = true → n ∉ dstRegs i → n ∉ luRegs i → regOf s' u n = regOf s u n
    let preds := ∀ u n, predOf s' u n = predOf s u n
    let actor := fun u => ∃ m ∈ actors i s g, m.u = u
    (∀ sc, i = .probe x sc → (∀ m ∈ membersOf s g, m.t.st = .issuing) → memory ∧ contexts ∧ flags ∧ regs ∧ preds)
    ∧ (i = .ret x → memory ∧ contexts ∧ flags ∧ regs ∧ ∀ u n, ¬ actor u → predOf s' u n = predOf s u n)
    ∧ (i = .exit x → (∀ m ∈ actors i s g, ∃ u t, s.threads.look u = some t ∧ t.blk = m.t.blk ∧ u ∉ g.members ∧ t.st ≠ .exited) →
        memory ∧ contexts ∧ ∀ u, ¬ actor u → (∀ n, predOf s' u n = predOf s u n) ∧ (∀ f, flagAt s' u f = flagAt s u f)
          ∧ ∀ t n, s.threads.look u = some t → t.regs.wf = true → n ∉ luRegs i → regOf s' u n = regOf s u n)
    ∧ (∀ r, i = .swrp x r → memory ∧ flags ∧ regs ∧ preds
        ∧ (∀ r' c k, r' ≠ r → pregRead s' r' c k = pregRead s r' c k)
        ∧ ∀ c k, (∀ m ∈ actors i s g, m.b.ctx ≠ c) → pregRead s' r c k = pregRead s r c k)
    ∧ (i = .haltx x ∨ i = .ctxsave x → memory ∧ flags ∧ regs ∧ preds ∧ ∀ r c k, pregRead s' r c k = pregRead s r c k)
    ∧ (i = .ctxload x → (∀ l, byteAt s' l = byteAt s l) ∧ flags ∧ regs ∧ preds ∧ ∀ r c k, pregRead s' r c k = pregRead s r c k)

/-- A member whose guard is false only has its last-use registers freed (R39), and a member outside the set keeps every register. -/
def GuardedOff : Prop :=
  ∀ (s : State) (i : Instr) (g : Gather), plainV i = true → clear i s g = true →
    ∃ s', exec i s = .next s'
      ∧ (∀ m ∈ membersOf s g, m.t.guard i.x = false → ∀ n, regOf s' m.u n = if n ∈ luRegs i then none else regOf s m.u n)
      ∧ (∀ u, u ∉ g.members → ∀ n, regOf s' u n = regOf s u n)

/-- After an instruction that transfers no control, every member stands at the next slot or, after the last, at the next clause. -/
def NextInstruction : Prop :=
  ∀ (s : State) (i : Instr) (g : Gather), plainV i = true → clear i s g = true → unstepped s g = true →
    ∃ s', exec i s = .next s' ∧ ∀ m ∈ membersOf s g, pcOf s' m.u = some
      (if g.slot + slotsOf i < (curHeader s g).count then mkPc g.off (g.slot + slotsOf i)
       else mkPc (g.off + 8 * (bits ((s.core s.focus).word g.off) 59 56 + 2)) 0)

/-! ## Control -/

/-- BRA and BRX set the PC of every active member to their target, and the rest go on (R164). -/
def JumpsReachTheirTarget : Prop :=
  ∀ (s : State) (i : Instr) (g : Gather) (f : Mb → Int), jumpTarget i = some f → clear i s g = true → unstepped s g = true →
    (∀ m ∈ actors i s g, f m % 8 = 0 ∧ 0 ≤ f m ∧ f m < 2 ^ 18) →
    ∃ s', exec i s = .next s' ∧ (∀ m ∈ actors i s g, pcOf s' m.u = some (BitVec.ofNat 32 (f m).toNat))
      ∧ ∀ m ∈ membersOf s g, m.t.guard i.x = false →
          pcOf s' m.u = some (afterPc (s.core s.focus) (curHeader s g) g.off (g.slot + slotsOf i))

/-- A target that is no multiple of 8 in the store raises the bounds fault (R164): the halt line rises with cause 0x25, and no PC moves. -/
def BadTargetFaults : Prop :=
  ∀ (s : State) (i : Instr) (g : Gather) (m : Mb) (f : Mb → Int), jumpTarget i = some f ∨ callTarget i = some f → clear i s g = true →
    actors i s g = [m] → ¬ (f m % 8 = 0 ∧ 0 ≤ f m ∧ f m < 2 ^ 18) → running s m.b.ctx →
    (callTarget i ≠ none → stackWaits s [m] = false) →
    ∃ s', exec i s = .next s' ∧ haltedBy s' m.b.ctx 0x25 ∧ pcOf s' m.u = some m.t.pc

/-- CALL, CALLI and OVCALL push an entry of 16 bytes with the return PC as a store of the thread, and set the PC (R146, R163, R164). -/
def CallsPushAndGo : Prop :=
  ∀ (s : State) (i : Instr) (g : Gather) (m : Mb) (a pc kind token : Nat), callOf s i m = some (pc, kind, token) →
    clear i s g = true → actors i s g = [m] → unstepped s g = true → m.b.a1 = some a → m.t.ksp.toNat ≠ m.b.stack →
    stackShadow s m.b m.t.tid m.t.ksp.toNat = false → stackWaits s [m] = false →
    accWaits s m.b (stackAcc m.b m.t.tid m.t.ksp.toNat true) = false →
    ∃ s' id st, exec i s = .next s' ∧ pcOf s' m.u = some (mkPc pc 0)
      ∧ (s'.threads.look m.u).map (·.ksp) = some (m.t.ksp + 16)
      ∧ s'.stores.look id = some st ∧ st.th = some m.u ∧ st.space = .alloc a ∧ st.path = 1
      ∧ st.off = m.b.data + m.t.tid * m.b.stack + m.t.ksp.toNat
      ∧ st.acc = .plain (leBytes 4 ((s.core m.b.core).nxt (pcOff m.t.pc)) ++ leBytes 1 kind ++ leBytes 3 0 ++ leBytes 4 token ++ leBytes 4 0)

/-- RET pops the entry on top: the PC is its return PC and KSP falls by 16; from a trap frame the predicates and SS come back (R165,
R395). -/
def RetPops : Prop :=
  ∀ (s : State) (x : X) (g : Gather) (m : Mb) (a : Nat), clear (.ret x) s g = true → actors (.ret x) s g = [m] →
    unstepped s g = true → m.b.a1 = some a →
    stackWaits s [m] = false → accWaits s m.b (stackAcc m.b m.t.tid (m.t.ksp.toNat - 16) false) = false → loadAfter s m.u 1 (.alloc a) (ksb m.b m.t.tid + m.t.ksp.toNat - 16) 16 = [] → popFault s m = none →
    let e := topEntry s m.u
    ∃ s' t', exec (.ret x) s = .next s' ∧ s'.threads.look m.u = some t' ∧ t'.pc = BitVec.ofNat 32 (ofLe (e.take 4))
      ∧ t'.ksp = m.t.ksp - 16 ∧ (e.getD 4 0 ≠ 3 → t'.preds = m.t.preds ∧ t'.ss = false)
      ∧ (e.getD 4 0 = 3 → t'.preds = BitVec.ofNat 7 (e.getD 8 0).toNat ∧ t'.ss = bit (e.getD 7 0).toNat 5)

/-- EXIT of a thread whose flags read zero and whose commands are done retires it with its registers freed; the last of its block ends
the block (R28, R35). -/
def ExitRetires : Prop :=
  ∀ (s : State) (x : X) (g : Gather) (m : Mb), clear (.exit x) s g = true → actors (.exit x) s g = [m] → g.members = [m.u] →
    mayRetire s m.u m.t = true → s.threads.wf = true →
    ∃ s', exec (.exit x) s = .next s'
      ∧ ((∃ u t, s.threads.look u = some t ∧ u ≠ m.u ∧ t.blk = m.t.blk ∧ t.st ≠ .exited) →
          (s'.threads.look m.u).map (fun t => (t.st, t.regs, t.preds)) = some (.exited, [], 0))
      ∧ ((∀ u t, (u, t) ∈ s.threads → u ≠ m.u → t.blk = m.t.blk → t.st = .exited) →
          (s'.blocks.look m.t.blk).map (·.ended) = some true)

/-- YIELD completes, and its clause leaves no kept set (R133, R168). -/
def YieldKeepsNoSet : Prop :=
  ∀ (s : State) (x : X) (g : Gather), wellFormed (.yield x) = true → clear (.yield x) s g = true → actors (.yield x) s g ≠ [] → unstepped s g = true →
    ∃ s', exec (.yield x) s = .next s'
      ∧ (g.slot + 1 < (curHeader s g).count → (s'.core s.focus).gather = some { g with yielded := true, slot := g.slot + 1, served := [] })
      ∧ ((curHeader s g).count ≤ g.slot + 1 → (s'.core s.focus).gather = none ∧ (s'.core s.focus).kept = (s.core s.focus).kept)

/-- TRAP and BRK enter the handler of the context (R169, R392 to R394): TRAP returns to the next instruction, BRK to itself. -/
def TrapAndBreakEnterTheHandler : Prop :=
  ∀ (s : State) (i : Instr) (g : Gather) (m : Mb) (a h : Nat) (r : TrapReq), softTrap s i m = some r → clear i s g = true →
    g.members = [m.u] → actors i s g = [m] → m.b.a1 = some a → m.t.owed = [] → handlerReady s m h →
    ∃ s', exec i s = .next s' ∧ trapped s' m a h r

/-- A trap that waited for SFU results is entered once they are done (R394). -/
def WaitingTrapEnters : Prop :=
  ∀ (s : State) (m : Mb) (a h : Nat) (r : TrapReq), s.threads.look m.u = some m.t → s.blocks.look m.t.blk = some m.b →
    m.t.st = .trapWait → m.t.trap = some r → m.b.a1 = some a → handlerReady s m h →
    ∃ s', exec (.trapEntry m.u) s = .next s' ∧ trapped s' m a h r

/-- A trap without a valid handler is the unhandled-trap fault 0x34, and one that meets a full control stack is 0x2E (R394). -/
def TrapWithoutHandlerFaults : Prop :=
  ∀ (s : State) (m : Mb) (r : TrapReq), s.threads.look m.u = some m.t → s.blocks.look m.t.blk = some m.b →
    m.t.st = .trapWait → m.t.trap = some r → owesSfu s m.u = false → running s m.b.ctx →
    ∃ s', exec (.trapEntry m.u) s = .next s'
      ∧ ((s.ctx m.b.ctx).traph.getLsbD 31 = false → haltedBy s' m.b.ctx 0x34)
      ∧ ((s.ctx m.b.ctx).traph.getLsbD 31 = true → m.t.ksp.toNat = m.b.stack → haltedBy s' m.b.ctx 0x2E)

/-! ## Special and privileged registers -/

/-- SRD and SRDP complete with the value of the register they name (R51, R170, R390, R391). -/
def RegisterReads : Prop :=
  ∀ (s : State) (i : Instr) (g : Gather) (f : Mb → Nat), regValue s i = some f → wellFormed i = true → clear i s g = true →
    Completes i s g fun s' m => received s' m i (f m)

/-- SWR: KSP takes an aligned value within the stack, RNGS any value but zero, and FABST loses the bits written as 1 (R50, R52, R171). -/
def SpecialWrites : Prop :=
  (∀ (s : State) (x : X) (g : Gather) (m : Mb), clear (.swrKsp x) s g = true → actors (.swrKsp x) s g = [m] → unstepped s g = true →
    m.raw 32 x.sa % 16 = 0 → m.raw 32 x.sa ≤ m.b.stack →
    ∃ s', exec (.swrKsp x) s = .next s' ∧ (s'.threads.look m.u).map (·.ksp) = some (BitVec.ofNat 32 (m.raw 32 x.sa)))
  ∧ (∀ (s : State) (x : X) (g : Gather) (m : Mb), clear (.swrRngs x) s g = true → m ∈ actors (.swrRngs x) s g →
    ∃ s', exec (.swrRngs x) s = .next s' ∧ (s'.threads.look m.u).map (·.rngs)
      = some (if m.raw 32 x.sa = 0 then 0x6D2B79F5 else BitVec.ofNat 32 (m.raw 32 x.sa)))
  ∧ ∀ (s : State) (x : X) (g : Gather) (m : Mb), clear (.swrFabst x) s g = true → actors (.swrFabst x) s g = [m] →
    ∃ s', exec (.swrFabst x) s = .next s'
      ∧ (s'.blocks.look m.t.blk).map (·.fabst) = some (m.b.fabst &&& ~~~(BitVec.ofNat 32 (m.raw 32 x.sa)))

/-- SWRP stores the writable fields of its register, held to their limits, and clears bits written as 1 (R390, R391). -/
def PrivilegedWrites : Prop :=
  ∀ (s : State) (x : X) (r : PReg) (g : Gather) (m : Mb), clear (.swrp x r) s g = true → actors (.swrp x r) s g = [m] →
    s.ctxs.has m.b.ctx = true →
    ∃ s', exec (.swrp x r) s = .next s' ∧ privWritten r (m.raw 64 x.sa) (s.ctx m.b.ctx) (s'.ctx m.b.ctx)

/-! ## Barriers and shapes -/

/-- BAR.ARR and BAR.SYNC record the arrival, and the phase ends with the last arrival owed to it (R172, R331, R332). -/
def Arrivals : Prop :=
  ∀ (s : State) (i : Instr) (x : X) (l : Level) (n : Fin 16) (g : Gather) (m : Mb) (inst : Nat),
    i = .barArr x l n ∨ i = .barSync x l n → clear i s g = true → actors i s g = [m] → barInst s m.u l = some inst →
    arrived s m.u l n = false → m.u ∉ (s.bars.lookD (barKey l inst n) {}).arr → s.bars.wf = true →
    ∃ s', exec i s = .next s' ∧ hasArrived s s' m.u l inst n

/-- BAR.WAIT and BAR.SYNC at a clause's end leave the thread in Barrier-wait until the phase of its last arrival ends (R34, R173). -/
def BarrierWaits : Prop :=
  (∀ (s : State) (x : X) (l : Level) (n : Fin 16) (g : Gather) (m : Mb), wellFormed (.barWait x l n) = true →
    clear (.barWait x l n) s g = true → actors (.barWait x l n) s g = [m] → unstepped s g = true → m.t.owed = [] →
    waitFault s l n m = none → (curHeader s g).count ≤ g.slot + 1 →
    ∃ s', exec (.barWait x l n) s = .next s'
      ∧ (phaseDone s m.u l n = false → (s'.threads.look m.u).map (·.st) = some (.barWait l n))
      ∧ (phaseDone s m.u l n = true → ∃ t, s'.threads.look m.u = some t ∧ (t.st = .ready ∨ t.st = .flagWait ∨ t.st = .gangWait)))
  ∧ (∀ (s : State) (x : X) (l : Level) (n : Fin 16) (g : Gather) (m : Mb) (inst : Nat), wellFormed (.barSync x l n) = true →
    clear (.barSync x l n) s g = true → actors (.barSync x l n) s g = [m] → unstepped s g = true → m.t.owed = [] →
    barInst s m.u l = some inst → arrived s m.u l n = false → m.u ∉ (s.bars.lookD (barKey l inst n) {}).arr →
    someoneMissing s m.u l inst n → s.bars.wf = true → (curHeader s g).count ≤ g.slot + 1 →
    ∃ s', exec (.barSync x l n) s = .next s' ∧ (s'.threads.look m.u).map (·.st) = some (.barWait l n))
  ∧ ∀ (s : State) (x : X) (l : Level) (n : Fin 16) (g : Gather) (m : Mb), clear (.barTry x l n) s g = true →
    actors (.barTry x l n) s g = [m] → waitFault s l n m = none →
    ∃ s', exec (.barTry x l n) s = .next s' ∧ settled s' m (.barTry x l n) (phaseDone s m.u l n)

/-- The completion logic re-inserts a waiting thread once its phase has ended, with the cycle of the completion as its age, and leaves it
where it is before that (R333). -/
def BarrierReinserts : Prop :=
  ∀ (s : State) (u : Nat) (t : Thread) (l : Level) (n inst : Nat), s.threads.look u = some t → t.st = .barWait l n →
    s.stopped (s.thrCtx u) = false → barInst s u l = some inst →
    (phaseDone s u l n = false → exec (.barrierReinsert u) s = .next s)
    ∧ (phaseDone s u l n = true → t.owed = [(l, n)] → t.trap = none → ∃ s' t', exec (.barrierReinsert u) s = .next s'
        ∧ s'.threads.look u = some t' ∧ (t'.st = .ready ∨ t'.st = .flagWait ∨ t'.st = .gangWait) ∧ t'.owed = [] ∧ t'.regs = t.regs
        ∧ (t'.st = .ready ∨ t'.st = .gangWait → t'.since = (s.bars.lookD (barKey l inst n) {}).doneAt))

/-- An arrival twice in one phase, and a wait before any arrival, are barrier misuse (R334). -/
def BarrierMisuse : Prop :=
  ∀ (s : State) (i : Instr) (x : X) (l : Level) (n : Fin 16) (g : Gather) (m : Mb), clear i s g = true → actors i s g = [m] →
    running s m.b.ctx →
    ((i = .barArr x l n ∨ i = .barSync x l n) ∧ arrived s m.u l n = true)
      ∨ ((i = .barWait x l n ∨ i = .barTry x l n) ∧ m.t.last.look (lastIdx l n) = none) →
    ∃ s', exec i s = .next s' ∧ haltedBy s' m.b.ctx 0x2B

/-- SHSET stores a field, truncated to its width, and leaves every other field of the register and every other register (R175). -/
def ShapeFieldWrites : Prop :=
  ∀ (s : State) (x : X) (f : Fin 33) (n : Fin 16) (g : Gather) (m : Mb), x.dst = .q n → clear (.shset x f) s g = true →
    actors (.shset x f) s g = [m] →
    ∃ s' b', exec (.shset x f) s = .next s' ∧ s'.blocks.look m.t.blk = some b'
      ∧ getField (b'.shape n) f = m.raw (if fieldWide f then 64 else 32) x.sa % 2 ^ (shapeField f).2
      ∧ (∀ k < 33, k ≠ f.val → getField (b'.shape n) k = getField (m.b.shape n) k)
      ∧ ∀ k, k ≠ n.val → b'.shape k = m.b.shape k

/-! ## Class G -/

/-- Class G instructions complete with the result that the rules give each active member (R207 to R216). -/
def GangResults : Prop :=
  ∀ (s : State) (i : Instr) (g : Gather), isGang i = true → wellFormed i = true → clear i s g = true →
    ((actors i s g).map (·.t.lane)).Nodup → masksAgree i (actors i s g) →
    Completes i s g fun s' m =>
      (∀ b, gangTruth i (actors i s g) m = some b → settled s' m i b)
      ∧ (gangTruth i (actors i s g) m = none → ∃ v, gangResult i (actors i s g) m v ∧ received s' m i v)

/-- A lane-mask operand of R204: an even register. -/
def maskOpnd (o : Opnd) : Bool := destOf .b64 o

/-- OPC and MOD of the class G instructions of R207, R208 and R213 to R216. -/
def gangWord : Instr → Option (Nat × Nat)
  | .shfl _ md w => some (0, (match md with | .up => 0 | .down => 1 | .xor => 2 | .idx => 3) + 2 ^ 2 * w.toNat)
  | .poll _ md => some (3, match md with | .every => 0 | .some => 1 | .agree => 2 | .mask => 3)
  | .maskof _ => some (4, 0)
  | .matchv _ t => some (5, t.code)
  | .elect _ => some (6, 0)
  | .vlut _ fill n => some (7, fill.toNat + 2 ^ 8 * n.val)
  | _ => none

/-- Types and operand fields of these instructions. -/
def gangForm : Instr → Bool
  | .shfl x _ w => destOf .b32 x.dst && (match x.sa with | .v _ => true | _ => false)
      && (if w then (match x.sb with | .k n => decide (1 ≤ n.val ∧ n.val ≤ 7) | _ => false) else dataOf .b32 x.sb) && x.sc == .null
  | .poll x md => (if md = .mask then maskOpnd x.dst else predOpnd x.dst) && predOpnd x.sa && x.sb == .null && x.sc == .null
  | .maskof x => maskOpnd x.dst && x.sa == .null && x.sb == .null && x.sc == .null
  | .matchv x t => (t == .b32 || t == .b64) && maskOpnd x.dst && destOf t x.sa && x.sb == .null && x.sc == .null
  | .elect x => predOpnd x.dst && x.sa == .null && x.sb == .null && x.sc == .null
  | .vlut x _ n => destOf .b32 x.dst && (match x.sa with | .v r => decide (r.val + n.val ≤ 127) | _ => false) && dataOf .b32 x.sb && x.sc == .null
  | _ => false

/-- Opcode, MOD, types and operand fields are those of R207, R208 and R213 to R216. -/
def GangForms : Prop :=
  ∀ (i : Instr) (opc mod : Nat), gangWord i = some (opc, mod) →
    ((i.modOk = true ∧ i.opsOk = true) ↔ (gangForm i = true ∧ i.luOk = true))
    ∧ (wellFormed i = true → i.cls = some .G ∧ bits (encodeWord i) 63 54 = opc ∧ bits (encodeWord i) 13 0 = mod)

/-- With no active member they change no predicate, and no register but those freed (R203). -/
def NoActiveMember : Prop :=
  ∀ (s : State) (i : Instr) (g : Gather), (gangWord i).isSome = true → wellFormed i = true → clear i s g = true → actors i s g = [] →
    ∃ s', exec i s = .next s' ∧ ∀ m ∈ membersOf s g,
      (∀ n, predOf s' m.u n = predOf s m.u n) ∧ ∀ n, n ∉ luRegs i → regOf s' m.u n = regOf s m.u n

/-- The tree of VRED.IADD sums the present members modulo 2^32, and its bitwise forms fold them; no member gives the identity (R209). -/
def TreeReductions : Prop :=
  ∀ (act : List Mb) (o : Opnd) (p : Mb → Bool) (r : Rnd), (act.map (·.t.lane)).Nodup →
    (vredValue .iadd r act o p).1 = ((act.filter p).map fun m => m.raw 32 o).foldl (· + ·) 0 % 2 ^ 32
    ∧ (vredValue .xor r act o p).1 = ((act.filter p).map fun m => m.raw 32 o).foldl (· ^^^ ·) 0
    ∧ (vredValue .or r act o p).1 = ((act.filter p).map fun m => m.raw 32 o).foldl (· ||| ·) 0
    ∧ (vredValue .and r act o p).1 = ((act.filter p).map fun m => m.raw 32 o).foldl (· &&& ·) (2 ^ 32 - 1)
    ∧ (vredValue .nmax r act o p).1 = ((act.filter p).map fun m => m.raw 32 o).foldl max 0

/-- A masked reduction whose members supply different masks on the gang's lanes is a gang fault (R211). -/
def MaskMismatchFaults : Prop :=
  ∀ (s : State) (i : Instr) (x : X) (op : Rop) (r : Rnd) (g : Gather) (m : Mb) (f : Flt) (c : Nat),
    i = .vred x op true r ∨ i = .vredMr x r → clear i s g = true → maskMismatch x.sb (actors i s g) = some (m, f) → m.b.ctx = c →
    running s c → m ∈ membersOf s g → ∃ s', exec i s = .next s' ∧ haltedBy s' c 0x2A

/-- QPOP puts one operation for the whole gang in flight, and it lands with the head entry's words by lane, or with zeros once the queue is
closed and empty (R217). -/
def QueuePops : Prop :=
  (∀ (s : State) (x : X) (q : Fin 8) (g : Gather) (m : Mb), clear (.qpop x q) s g = true → actors (.qpop x q) s g = [m] →
    m.t.flags.length = 12 → ∃ s', exec (.qpop x q) s = .next s' ∧ launched s s' (.qpop x q) m (.qpop q.val))
  ∧ ∀ (s : State) (id : Nat) (p : Pend) (part : Part) (q : Nat), s.pend.look id = some p → p.op = .qpop q → p.parts = [part] →
    lander s part → ((s.ctxs.look p.ctx).map (·.save.isSome)) = some false →
    (∀ k y, (k, y) ∈ s.pend → k < id → y.core = p.core → y.op ≠ .qpop q) →
    (∀ e l ws, s.dq p.core q = e :: l → e.words = some ws → (s.core p.core).queues.length = 8 → q < 8 →
      ∃ s', exec (.qpopLands id) s = .next s'
        ∧ landed s s' id part [ws.getD (((s.threads.look part.th).map (·.lane)).getD 0) 0] ∧ s'.dq p.core q = l)
    ∧ (s.dq p.core q = [] → queueOpen s p.core q = false → ∃ s', exec (.qpopLands id) s = .next s' ∧ landed s s' id part [0])
    ∧ (s.dq p.core q = [] → queueOpen s p.core q = true → exec (.qpopLands id) s = .next s)

/-! ## Class M: loads, stores, atomics -/

/-- LD and LD.ACQ put a load of the member's effective address in flight (R226, R227); memory is untouched. -/
def LoadsIssue : Prop :=
  ∀ (s : State) (i : Instr) (g : Gather) (m : Mb) (x : X) (t : ITy) (acq : Option Scope) (px : Option (Fin 8)),
    loadOf i = some (x, t, acq, px) → clear i s g = true → actors i s g = [m] → m.t.flags.length = 12 → s.focus = m.b.core →
    reachable s m (m.addr x.sa x.sb) t.bytes px [0, 1, 2, 3, 4, 6, 7] false → unheld s m (m.addr x.sa x.sb) t.bytes false →
    let a := m.addr x.sa x.sb
    ∃ s', exec i s = .next s' ∧ memorySame s s'
      ∧ launched s s' i m (.ld (spaceOf m.b (selOf a)) (selOf a) a (if selOf a = 4 then bits a 47 0 else offOf a) t acq)

/-- A load lands with the bytes that memory and forwarding give it, extended to its type (R227), once what it follows is done. -/
def LoadsLand : Prop :=
  (∀ (s : State) (id : Nat) (p : Pend) (q : Part) (sp : Space) (path va off : Nat) (t : ITy) (acq : Option Scope) (bs : List Byte)
      (from_ : List Nat), s.pend.look id = some p → p.op = .ld sp path va off t acq → p.parts = [q] → lander s q →
    s.ready p.after = true → loadData s id p sp path va off t.bytes = .ok (bs, from_) →
    let v := ITy.write t (ITy.value t (ofLe bs))
    ∃ s', exec (.ldDataLands id) s = .next s' ∧ landed s s' id q [BitVec.ofNat 32 v, BitVec.ofNat 32 (v / 2 ^ 32)] ∧ memorySame s s')
  ∧ ∀ (s : State) (id : Nat) (p : Pend), s.pend.look id = some p → s.ready p.after = false →
    exec (.ldDataLands id) s = .next s ∧ exec (.shldDataLands id) s = .next s

/-- SHLD issues as a load of 64 bytes and lands in the block's shape register: eight words, each read on its own, in any order, as memory and
forwarding give it (R174, R176). -/
def ShapeLoads : Prop :=
  (∀ (s : State) (x : X) (g : Gather) (m : Mb) (n : Fin 16), x.dst = .q n → clear (.shld x) s g = true → actors (.shld x) s g = [m] →
    m.t.flags.length = 12 → s.focus = m.b.core →
    reachable s m (m.addr x.sa .null) 64 none [0, 1, 2, 3] false → unheld s m (m.addr x.sa .null) 64 false →
    let a := m.addr x.sa .null
    ∃ s', exec (.shld x) s = .next s' ∧ launched s s' (.shld x) m (.shld n.val (spaceOf m.b (selOf a)) (selOf a) a (offOf a) []))
  ∧ ∀ (s s1 : State) (id : Nat) (p : Pend) (q : Part) (n : Nat) (sp : Space) (path va off : Nat) (got all : AMap (List Byte)) (b : Block),
    s.pend.look id = some p → p.op = .shld n sp path va off got → p.parts = [q] → lander s q → s.ready p.after = true →
    got.wf = true → s.blocks.look p.blk = some b → b.q.wf = true →
    shldRest id p sp path va off (List.range 8) (s, got) = .ok (s1, all) →
    (∃ s' b', exec (.shldDataLands id) s = .next s' ∧ landed s s' id q [] ∧ memorySame s s' ∧ s'.blocks.look p.blk = some b'
      ∧ b'.shape n = BitVec.ofNat 512 (ofLe ((List.range 8).flatMap fun k => all.lookD k [])) ∧ ∀ k, k ≠ n → b'.shape k = b.shape k)
    ∧ (∀ k w, got.look k = some w → all.look k = some w)
    ∧ ∀ k < 8, got.has k = false → (∀ j < 8, j ≠ k → got.has j = true) → ∀ bs from_,
        readFwdAt s (some id) p.core (some p.thread) sp (va + 8 * k) (off + 8 * k) 8 = .ok (bs, from_) → all.look k = some bs

/-- ST and ST.REL stand in the core's port with the member's bytes at its effective address, and no byte of memory changes before the store
is accepted; on path 0x6 the Porter holds the store (R228, R313, R374). -/
def StoresIssue : Prop :=
  ∀ (s : State) (i : Instr) (g : Gather) (m : Mb) (x : X) (t : ITy) (rel : Option Scope) (px : Option (Fin 8)),
    storeOf i = some (x, t, rel, px) → clear i s g = true → actors i s g = [m] → unstepped s g = true → s.focus = m.b.core →
    reachable s m (m.addr x.sa x.sb) t.bytes px [0, 1, 2, 3, 6] true → unheld s m (m.addr x.sa x.sb) t.bytes true →
    porterFull s s.focus 1 = false →
    ∃ s', exec i s = .next s' ∧ memorySame s s'
      ∧ (selOf (m.addr x.sa x.sb) ≠ 6 → ported s' m (m.addr x.sa x.sb) (.plain (leBytes t.bytes (m.t.ival t x.sc))) rel)
      ∧ (selOf (m.addr x.sa x.sb) = 6 → ∃ id b, s'.bells.look id = some b ∧ b.th = some m.u ∧ b.addr = offOf (m.addr x.sa x.sb)
          ∧ b.width = t.bytes ∧ b.data = m.t.ival t x.sc % 2 ^ (8 * t.bytes))

/-- SHST stands in the port as eight stores of 8 bytes that cover the register, least significant first (R174). -/
def ShapeStores : Prop :=
  ∀ (s : State) (x : X) (g : Gather) (m : Mb), clear (.shst x) s g = true → actors (.shst x) s g = [m] → unstepped s g = true →
    s.focus = m.b.core →
    reachable s m (m.addr x.sa .null) 64 none [0, 1, 2, 3] true → unheld s m (m.addr x.sa .null) 64 true →
    ∃ s', exec (.shst x) s = .next s' ∧ memorySame s s'
      ∧ ∀ k < 8, ported s' m (m.addr x.sa .null + 8 * k) (.plain (leBytes 8 ((m.shape x.sb).toNat / 2 ^ (64 * k)))) none

/-- ATOM, CAS, RED and REDM stand in the port with their operation; ATOM and CAS also owe the old value (R336 to R340). -/
def AtomicsIssue : Prop :=
  ∀ (s : State) (i : Instr) (g : Gather) (m : Mb) (a n : Nat) (acc : Access) (rel : Option Scope),
    atomicOf i m = some (a, acc, rel, n) → clear i s g = true → actors i s g = [m] → unstepped s g = true → m.t.flags.length = 12 →
    s.focus = m.b.core → reachable s m a n none [0, 1, 2, 3] true → unheld s m a n true →
    ∃ s', exec i s = .next s' ∧ memorySame s s' ∧ ported s' m a acc rel
      ∧ ((∃ x sc o b t, i = .atom x sc o b t) ∨ (∃ x sc o t, i = .cas x sc o t) →
          (∃ sid t acq, launched s s' i m (.atom sid t none acq)))

/-- A class M instruction whose address fails a check stops there: a reserved selector raises the address fault, or the path fault where the instruction's
own rule says so; another path than the named or the accepted ones the path fault; a misaligned address the address fault; a scratchpad access that leaves
its allocation the bounds fault, and one that meets a SHADOW range the protection fault; a weight access to an unbound region the address fault, and past
its decoded length the bounds fault. Nothing is issued (R174, R221, R222, R226, R232, R337, R353). -/
def AccessFaults : Prop :=
  ∀ (s : State) (i : Instr) (g : Gather) (m : Mb) (a n : Nat) (px : Option (Fin 8)) (paths : List Nat) (strict : Bool),
    accessOf i m = some (a, n, px, paths, strict) → clear i s g = true → actors i s g = [m] → running s m.b.ctx →
    let taken := selOf a ∈ paths ∧ ∀ p : Fin 8, px = some p → p.val = selOf a
    (8 ≤ selOf a → stopsAt i s m (if strict then 0x24 else 0x23))
    ∧ (selOf a < 8 → ¬ taken → stopsAt i s m 0x24)
    ∧ (taken → a % n ≠ 0 → stopsAt i s m 0x23)
    ∧ (taken → a % n = 0 → 1 ≤ selOf a → selOf a ≤ 3 →
      (m.b.alloc (selOf a) = none → stopsAt i s m 0x25)
      ∧ ∀ al y, m.b.alloc (selOf a) = some al → s.allocs.look al = some y →
        (y.size < offOf a + n → stopsAt i s m 0x25)
        ∧ (offOf a + n ≤ y.size → (∃ k p, (k, p) ∈ s.pubs ∧ p.alloc = al ∧ offOf a < p.shadow + p.len ∧ p.shadow < offOf a + n) →
            stopsAt i s m 0x26))
    ∧ (taken → a % n = 0 → selOf a = 4 →
      ((s.ctx m.b.ctx).regions.look (bits a 59 48) = none → stopsAt i s m 0x23)
      ∧ ∀ r, (s.ctx m.b.ctx).regions.look (bits a 59 48) = some r → r.declen < bits a 47 0 + n → stopsAt i s m 0x25)

/-- A point of coherence accepts a plain store: in a scratchpad, an HBM line that is not poison and CXL memory its bytes are written at its place, and
every other byte of memory is as it was; at a device's registers it leaves the module as a write of its own (R295, R312, R364). -/
def AcceptedStoreWrites : Prop :=
  ∀ (s : State) (id : Nat) (st : Store) (bs : List Byte) (l : Loc), s.stores.look id = some st → s.stores.wf = true →
    st.acc = .plain bs → st.held = false → s.ready st.after = true → resolve s st.space st.va st.off true = .ok l → queueRoom s l = true →
    ∃ s', exec (.writeQueueAccept id) s = .next s' ∧ s'.stores.look id = none
      ∧ (plainAt s l bs.length → wroteAt s s' l bs)
      ∧ ∀ pa, l = .device pa 2 → s'.out = s.out ++ [.deviceWrite (bits pa 50 48) (bits pa 47 0) (ofLe bs) bs.length] ∧ memorySame s s'

/-- A point of coherence performs an atomic or a reduction as one step: the word becomes the result of the operation on its old value, the
old value goes to the operation that owes it, which lands with it; on device memory it is the protection fault (R312, R337 to R340). -/
def AtomicsPerform : Prop :=
  (∀ (s : State) (id r : Nat) (st : Store) (p : Pend) (t : ITy) (sid : Nat) (acq : Option Scope) (l : Loc),
    s.stores.look id = some st → s.stores.wf = true → st.held = false → s.ready st.after = true →
    st.acc.isPlain = false → st.ret = some r → s.pend.look r = some p → p.op = .atom sid t none acq →
    resolve s st.space st.va st.off true = .ok l → queueRoom s l = true → plainAt s l st.acc.len → onModule l →
    let old := numberAt s l st.acc.len
    ∃ s' p', exec (.writeQueueAccept id) s = .next s' ∧ s'.stores.look id = none ∧ s'.pend.look r = some p' ∧ p'.op = .atom sid t (some old) acq
      ∧ (∀ op ty b, st.acc = .rmw op ty b → wroteAt s s' l (leBytes ty.bytes (applyAop op ty old b)))
      ∧ ∀ w e new, st.acc = .cas w e new → (old = e → wroteAt s s' l (leBytes w new)) ∧ (old ≠ e → memorySame s s'))
  ∧ (∀ (s : State) (id : Nat) (st : Store) (op : Aop) (ty : ITy) (b : Nat) (l : Loc),
    s.stores.look id = some st → s.stores.wf = true → st.held = false → s.ready st.after = true →
    st.acc = .rmw op ty b → st.ret = none → resolve s st.space st.va st.off true = .ok l → queueRoom s l = true → plainAt s l ty.bytes → onModule l →
    (∀ k x, (k, x) ∈ s.stores → k ≠ id → x.acc.isPlain = true ∨ x.ret.isSome = true) →
    ∃ s', exec (.writeQueueAccept id) s = .next s' ∧ s'.stores.look id = none
      ∧ wroteAt s s' l (leBytes ty.bytes (applyAop op ty (numberAt s l ty.bytes) b)))
  ∧ (∀ (s : State) (id pa mem : Nat) (st : Store), s.stores.look id = some st → s.stores.wf = true → st.held = false →
    s.ready st.after = true → st.acc.isPlain = false → resolve s st.space st.va st.off true = .ok (.device pa mem) → running s st.ctx →
    ∃ s', exec (.writeQueueAccept id) s = .next s' ∧ s'.stores.look id = none ∧ haltedBy s' st.ctx 0x26 ∧ memorySame s s')
  ∧ ∀ (s : State) (id : Nat) (p : Pend) (q : Part) (sid v : Nat) (t : ITy) (acq : Option Scope), s.pend.look id = some p →
    p.op = .atom sid t (some v) acq → p.parts = [q] → lander s q →
    let w := ITy.write t (ITy.value t v)
    ∃ s', exec (.atomicValueLands id) s = .next s' ∧ landed s s' id q [BitVec.ofNat 32 w, BitVec.ofNat 32 (w / 2 ^ 32)]

/-- The integer operations of R338: ADD wraps, MIN and MAX compare under the type, and EXCH replaces. -/
def AtomicOperations : Prop :=
  ∀ (t : ITy) (old b : Nat), old < 2 ^ t.width → b < 2 ^ t.width →
    applyAop .add t old b = (old + b) % 2 ^ t.width ∧ applyAop .exch t old b = b
    ∧ ITy.value t (applyAop .min t old b) = min (ITy.value t old) (ITy.value t b)
    ∧ ITy.value t (applyAop .max t old b) = max (ITy.value t old) (ITy.value t b)
    ∧ (∀ k < t.width, bit (applyAop .and t old b) k = (bit old k && bit b k))
    ∧ (∀ k < t.width, bit (applyAop .or t old b) k = (bit old k || bit b k))
    ∧ ∀ k < t.width, bit (applyAop .xor t old b) k = (bit old k ^^ bit b k)

/-! ## Class M: waits, fences, probes, the fabric -/

/-- WAITMEM sleeps while the word equals the expected value, with nothing written, and completes with another value; a wake re-reads the
word (R232). -/
def WaitsOnMemory : Prop :=
  (∀ (s : State) (x : X) (acq : Bool) (sc : Scope) (t : ITy) (g : Gather) (m : Mb) (bs : List Byte) (from_ : List Nat),
    let i : Instr := .waitmem x acq sc t
    let a := m.addr x.sa x.sb
    clear i s g = true → actors i s g = [m] → reachable s m a t.bytes none [0, 1, 2, 3] false → unheld s m a t.bytes false →
    loadAfter s m.u (selOf a) (spaceOf m.b (selOf a)) (if selOf a = 0 then a else offOf a) t.bytes = [] →
    waitRead s x t m = .ok (bs, from_) →
    ∃ s', exec i s = .next s' ∧ memorySame s s'
      ∧ (ofLe bs = m.t.ival t x.sc → (s'.threads.look m.u).map (·.st) = some (.sleeping i) ∧ ∀ n, regOf s' m.u n = regOf s m.u n)
      ∧ (ofLe bs ≠ m.t.ival t x.sc → received s' m i (ITy.write t (ITy.value t (ofLe bs)))))
  ∧ ∀ (s : State) (x : X) (acq : Bool) (sc : Scope) (t : ITy) (m : Mb) (bs : List Byte) (from_ : List Nat) (h : Header),
    let i : Instr := .waitmem x acq sc t
    sleeper s m.u = some m → m.t.st = .sleeping i → s.stopped m.b.ctx = false → waitBlocked s x t m = false → waitRead s x t m = .ok (bs, from_) →
    (s.core m.b.core).header (pcOff m.t.pc) = some h → m.t.ss = false →
    ∃ s', exec (.waitmemWake m.u) s = .next s' ∧ memorySame s s'
      ∧ (ofLe bs = m.t.ival t x.sc → s'.threads = s.threads)
      ∧ (ofLe bs ≠ m.t.ival t x.sc → received s' m i (ITy.write t (ITy.value t (ofLe bs)))
          ∧ pcOf s' m.u = some (afterPc (s.core m.b.core) h (pcOff m.t.pc) (pcSlot m.t.pc + slotsOf i)))

/-- FENCE and FENCE.SC stand in their thread with what they wait for: the thread's accesses in flight on the masked paths, with device
stores at system scope alone; beside these they wait only for what earlier fences on mutual scopes and the probes of a scope beyond the core add (R310,
R318, R323, R324, R342, R343). They complete when all of it is performed as their scope asks, and not before. -/
def FencesWaitForTheirPrefix : Prop :=
  (∀ (s : State) (i : Instr) (x : X) (sc : Scope) (mask : Byte) (isSc : Bool) (g : Gather) (m : Mb),
    (i = .fence x sc mask ∧ isSc = false) ∨ (i = .fenceSc x sc ∧ mask = 0xFF ∧ isSc = true) →
    clear i s g = true → actors i s g = [m] → m.t.fences = [] →
    ∃ s' f, exec i s = .next s' ∧ memorySame s s' ∧ (s'.threads.look m.u).map (·.fences) = some [f]
      ∧ f.scope = sc ∧ f.mask = mask.toNat ∧ f.sc = isSc
      ∧ (∀ id ∈ prefixOf s m.u, inMaskId s mask.toNat id = true →
          Scope.local sc = true ∨ sc = .system ∨ ((s.stores.look id).map (·.held)).getD false = false → id ∈ f.waits)
      ∧ ∀ id ∈ f.waits, inMaskId s mask.toNat id = true
          ∧ (id ∈ prefixOf s m.u ∨ (∃ b ∈ takenBy s m.u sc mask.toNat, id ∈ b.pfx)
            ∨ (Scope.local sc = false ∧ ∃ r, idRoute s id = some r ∧ routeIn sc r = true
                ∧ (r ∈ routesOf s m.u ∨ ∃ b ∈ takenBy s m.u sc mask.toNat, r ∈ b.rts))))
  ∧ ∀ (s : State) (u id : Nat) (t : Thread) (f : Fence), s.threads.look u = some t → t.fences = [f] → f.id = id →
    (f.waits.all (s.passed f.scope) = false → exec (.fenceComplete u id) s = .next s)
    ∧ (f.waits.all (s.passed f.scope) = true → ∃ s', exec (.fenceComplete u id) s = .next s' ∧ memorySame s s'
        ∧ (s'.threads.look u).map (·.fences) = some [])

/-- A later access of the thread on a masked path, and a later fence, wait at issue for a fence that has not completed (R342). -/
def FencesHoldBack : Prop :=
  (∀ (s : State) (i : Instr) (g : Gather) (m : Mb) (x : X) (t : ITy) (rel : Option Scope) (px : Option (Fin 8)) (f : Fence),
    storeOf i = some (x, t, rel, px) → clear i s g = true → actors i s g = [m] → f ∈ m.t.fences → selOf (m.addr x.sa x.sb) = 0 →
    bit f.mask 0 = true → reachable s m (m.addr x.sa x.sb) t.bytes px [0, 1, 2, 3, 6] true →
    ∃ s', exec i s = .next s' ∧ s'.stores = s.stores ∧ memorySame s s' ∧ pcOf s' m.u = some m.t.pc)
  ∧ ∀ (s : State) (x : X) (sc : Scope) (g : Gather) (m : Mb), clear (.fenceSc x sc) s g = true → actors (.fenceSc x sc) s g = [m] →
    m.t.fences ≠ [] → ∃ s', exec (.fenceSc x sc) s = .next s' ∧ (s'.threads.look m.u).map (·.fences) = some m.t.fences
      ∧ pcOf s' m.u = some m.t.pc

/-- PROBE counts the routes that its thread has used within the scope, up to 255: none lands at once with zero, and else the count lands once
the traffic in flight on them is done (R323, R344). -/
def ProbesCountRoutes : Prop :=
  (∀ (s : State) (x : X) (sc : Scope) (g : Gather) (m : Mb), clear (.probe x sc) s g = true → actors (.probe x sc) s g = [m] →
    m.t.flags.length = 12 → m.t.st = .issuing →
    let n := min 255 (m.t.routes.filter (routeIn sc)).length
    ∃ s', exec (.probe x sc) s = .next s' ∧ memorySame s s'
      ∧ (n = 0 → received s' m (.probe x sc) 0)
      ∧ (n ≠ 0 → launched s s' (.probe x sc) m (.probe (probeWaits s m.u sc) n)))
  ∧ ∀ (s : State) (id : Nat) (p : Pend) (q : Part) (waits : List Nat) (n : Nat), s.pend.look id = some p → p.op = .probe waits n →
    p.parts = [q] → lander s q →
    (s.allDone waits = false → exec (.probeComplete id) s = .next s)
    ∧ (s.allDone waits = true → ∃ s', exec (.probeComplete id) s = .next s' ∧ landed s s' id q [BitVec.ofNat 32 n])

/-- RLD puts a remote load in flight and sends its request; REMST and REMRED hold a table entry and send theirs (R353, R354). -/
def RemoteRequests : Prop :=
  (∀ (s : State) (x : X) (acq : Bool) (sc : Scope) (t : ITy) (px : Option (Fin 8)) (g : Gather) (m : Mb),
    let a := m.addr x.sa x.sb
    clear (.rld x acq sc t px) s g = true → actors (.rld x acq sc t px) s g = [m] → m.t.flags.length = 12 → s.focus = m.b.core →
    reachable s m a t.bytes px [5] false → unheld s m a t.bytes false → farWaits s m a t.bytes = false →
    ∃ s', exec (.rld x acq sc t px) s = .next s' ∧ memorySame s s' ∧ sent s s' m a (.load t.bytes)
      ∧ launched s s' (.rld x acq sc t px) m (.rld (s.ctx m.b.ctx).domain (bits a 59 50) (bits a 49 0) t (if acq then some sc else none)))
  ∧ ∀ (s : State) (i : Instr) (x : X) (n : Nat) (px : Option (Fin 8)) (op : RemOp) (rel : Option Scope) (g : Gather) (m : Mb),
    let a := m.addr x.sa x.sb
    remoteOf i m = some (x, n, px, op, rel) → clear i s g = true → actors i s g = [m] → s.focus = m.b.core →
    reachable s m a n px [5] false → unheld s m a n true → relWaits s rel [m] = false → farWaits s m a n = false →
    (∀ sc r t q, i = .remst x sc r t q → flagFault x m = none ∧ ∀ f, flagAddr x m = some f → farWaits s m f 4 = false) →
    ∃ s' id p flag pfx rts, exec i s = .next s' ∧ memorySame s s' ∧ sent s s' m a op ∧ s'.pend.look id = some p
      ∧ p.op = .rst false (bits a 59 50) (bits a 49 0) n flag rel pfx rts
      ∧ p.parts = [{ th := m.u, flag := none, dst := [], want := [] }]

/-- REMST.L hands the member's bytes to the sending station as a packet for their segment of 256 bytes, with the byte enables of exactly those
bytes and the round it names (R356). -/
def LossyStoresAreSent : Prop :=
  ∀ (s : State) (x : X) (t : ITy) (px : Option (Fin 8)) (g : Gather) (m : Mb),
    let a := m.addr x.sa x.sb
    clear (.remstL x t px) s g = true → actors (.remstL x t px) s g = [m] → memWaits s m [5] = false →
    reachable s m a t.bytes px [5] false → 256 ≤ a % 2 ^ 15 → a % 2 ^ 15 < 16640 →
    ∃ s' k, exec (.remstL x t px) s = .next s' ∧ memorySame s s' ∧ s'.sending = s.sending ++ [k] ∧ k.target = bits a 59 50
      ∧ k.packet.va = bits (a - a % 256) 49 0 ∧ k.packet.round = BitVec.ofNat 16 (m.t.val (.int 32) x.dst)
      ∧ k.packet.domain = (s.ctx m.b.ctx).domain
      ∧ (∀ n < 256, k.packet.enables.getLsbD n = (decide (a % 256 ≤ n) && decide (n < a % 256 + t.bytes)))
      ∧ ∀ n < t.bytes, k.packet.payload.getD (a % 256 + n) 0 = (leBytes t.bytes (m.t.ival t x.sc)).getD n 0

/-! ## Class X -/

/-- TCOPY and TCOPY.MMA that pass their checks and find room put their copy in flight, with the product that follows (R253, R255). -/
def CopiesIssue : Prop :=
  ∀ (s : State) (i : Instr) (x : X) (f : Option (Nat × Shape)) (g : Gather) (m : Mb), copyFollow i m = some (x, f) → lone i s g m →
    copyCheck s m.b 0 (copyOf x m) = none →
    (∀ a q, f = some (a, q) → mmaCheck s m.b (m.shape x.sa) q none none false false = none) →
    cmdWaits s m [m.shape x.sb] [m.shape x.sa] (cmdHolds s m.b [m.shape x.sb] [m.shape x.sa]).length = false →
    (∀ a q, f = some (a, q) → memWaits s m [ShapeOf.path q] = false ∧ swapDue s m.b q = false) →
    ∃ s', exec i s = .next s' ∧ memorySame s s' ∧ launched s s' i m (.copy (copyOf x m) f false 0)

/-- CHAIN, PUBL, LAUNCH, DBELL and DECTAB that pass their checks put their command in flight (R115, R261, R262, R265, R373). -/
def CommandsIssue : Prop :=
  (∀ (s : State) (x : X) (n : Fin 8) (g : Gather) (m : Mb) (ops : List ChainOp), lone (.chain x n) s g m →
    chainOps s x (n.val + 1) m = .ok ops →
    cmdWaits s m (chainReads x m ops) [m.shape x.sa] (cmdHolds s m.b (chainReads x m ops) [m.shape x.sa]).length = false →
    chainListWaits s x (n.val + 1) m = false →
    ∃ s', exec (.chain x n) s = .next s' ∧ memorySame s s'
      ∧ launched s s' (.chain x n) m (.chain (m.shape x.sa) (m.shape x.sb) ops))
  ∧ (∀ (s : State) (x : X) (sc : Scope) (g : Gather) (m : Mb) (k : Nat), lone (.publ x sc) s g m → m.t.val (.int 32) x.sa < 16 →
    pubOf m.b (m.t.val (.int 32) x.sa) = some k → s.pubs.has k = true → memWaits s m [pubPath (m.t.val (.int 32) x.sa)] = false →
    ∃ s' before pfx rts, exec (.publ x sc) s = .next s' ∧ memorySame s s' ∧ launched s s' (.publ x sc) m (.publ k before sc pfx rts))
  ∧ (∀ (s : State) (x : X) (g : Gather) (m : Mb) (bs : List Byte) (from_ : List Nat), lone (.launch x) s g m →
    let a := m.t.val (.int 64) x.sa
    a % 128 = 0 → selOf a ≤ 3 → reachable s m a 128 none [0, 1, 2, 3] false → issueReadWaits s m a 128 = false →
    launchRead s m a = .ok (bs, from_) →
    ∃ s', exec (.launch x) s = .next s' ∧ memorySame s s' ∧ launched s s' (.launch x) m (.launch (m.t.val (.int 32) x.sb) bs m.b.grid))
  ∧ (∀ (s : State) (x : X) (sc : Scope) (g : Gather) (m : Mb), lone (.dbell x sc) s g m →
    reachable s m (m.addr x.sa x.sb) 4 none [6] true → memWaits s m [6] = false → porterFull s m.b.core 1 = false →
    ∃ s' k b, exec (.dbell x sc) s = .next s' ∧ memorySame s s' ∧ launched s s' (.dbell x sc) m (.dbell k)
      ∧ s'.bells.look k = some b ∧ b.addr = offOf (m.addr x.sa x.sb) ∧ b.width = 4 ∧ b.data = m.t.val (.int 32) x.sc ∧ b.th = some m.u)
  ∧ ∀ (s : State) (x : X) (g : Gather) (m : Mb), lone (.dectab x) s g m → m.t.val (.int 64) x.sb / 2 ^ 60 = 0 →
    m.t.val (.int 64) x.sb % 8 = 0 → memWaits s m [0] = false →
    ∃ s', exec (.dectab x) s = .next s' ∧ memorySame s s'
      ∧ launched s s' (.dectab x) m (.dectab (m.t.val (.int 32) x.sa) (m.t.val (.int 64) x.sb) (m.t.val (.int 64) x.sc))

/-- An answer lands with its words once it is due: at a free moment, but for BAR.EXP not before its thread's arrival at the barrier has ceased to owe its
prefix (R44, R266, R332). That the moment is free is the model's choice: log 24. -/
def AnswersLand : Prop :=
  (∀ (s : State) (id : Nat) (p : Pend) (q : Part) (key : Option Nat) (vals : List W32) (rest : List Move), s.agenda = .burst id 0 :: rest →
    s.dark = false → s.pend.look id = some p → p.op = .answer key vals → p.parts = [q] → lander s q →
    let s0 := { s with clock := s.clock + 1, fresh := s.fresh + 1, agenda := rest }
    (key = none → ∃ s', step s = .next s' ∧ landed s s' id q vals)
    ∧ ∀ k, key = some k →
      ((∃ need, (q.th, need) ∈ (s.bars.lookD k {}).owing) → step s = .next s0)
      ∧ ((∀ need, (q.th, need) ∉ (s.bars.lookD k {}).owing) → ∃ s', step s = .next s' ∧ landed s s' id q vals))

/-- WBIND binds a window Absent over its destination and answers 0, or answers 2 or 3 and binds nothing; WDROP unbinds it and answers whether it
was unbound (R257). -/
def Windows : Prop :=
  (∀ (s : State) (x : X) (w : Fin 16) (g : Gather) (m : Mb), lone (.wbind x w) s g m → winFilling m w = false →
    copyCheck s m.b 1 (copyOf x m) = none →
    m.b.windows.length = 16 →
    let st := bindStatus s m.b w (m.shape x.sa)
    ∃ s' b', exec (.wbind x w) s = .next s' ∧ answering none s s' (.wbind x w) m st ∧ s'.blocks.look m.t.blk = some b'
      ∧ (st = 0 → ∃ y, b'.windows[w.val]? = some y ∧ y.st = .absent ∧ y.path = ShapeOf.path (m.shape x.sa) ∧ y.copy = some (copyOf x m))
      ∧ (st ≠ 0 → b' = m.b) ∧ ∀ k, k ≠ w.val → b'.windows[k]? = m.b.windows[k]?)
  ∧ ∀ (s : State) (x : X) (w : Fin 16) (g : Gather) (m : Mb), lone (.wdrop x w) s g m → winFilling m w = false →
    m.b.windows.length = 16 →
    ∃ s' b', exec (.wdrop x w) s = .next s' ∧ s'.blocks.look m.t.blk = some b' ∧ b'.windows[w.val]? = some {}
      ∧ answering none s s' (.wdrop x w) m (if ((m.b.windows[w.val]?).map (·.st)) = some .unbound then 1 else 0)
      ∧ ∀ k, k ≠ w.val → b'.windows[k]? = m.b.windows[k]?

/-- OVL answers at once for an overlay that is unknown (4), resident (its token) or whose home is taken (2), and else its load is in flight with
its home pages Loading; OVREL frees a resident overlay that is not busy (0), and answers 1 or 4 otherwise (R142, R145). -/
def OverlayCommands : Prop :=
  (∀ (s : State) (x : X) (g : Gather) (m : Mb), lone (.ovl x) s g m → memWaits s m [0, 7] = false →
    let n := m.t.val (.int 32) x.sa
    let o := if n ≤ 1023 then overlayOf s m.b.code n else none
    ∃ s', exec (.ovl x) s = .next s'
      ∧ (o = none → answering none s s' (.ovl x) m 4)
      ∧ (∀ v, o = some v → isResident s m.b.core m.b.code v = true → answering none s s' (.ovl x) m (token v).toNat)
      ∧ (∀ v, o = some v → isResident s m.b.core m.b.code v = false → isLoading s m.b.core m.b.code v = false →
          homeTaken s m.b.core v = true → answering none s s' (.ovl x) m 2)
      ∧ (∀ v, o = some v → isResident s m.b.core m.b.code v = false → isLoading s m.b.core m.b.code v = false →
          homeTaken s m.b.core v = false → launched s s' (.ovl x) m (.ovl n)
            ∧ ∀ p ∈ v.pages, (s'.core m.b.core).home.look p = some (.loading m.b.code v.num))
      ∧ (∀ v, o = some v → isLoading s m.b.core m.b.code v = true → launched s s' (.ovl x) m (.ovl n)))
  ∧ ∀ (s : State) (x : X) (g : Gather) (m : Mb) (v : Overlay), lone (.ovrel x) s g m →
    let tok := m.t.val (.int 32) x.sa
    overlayOf s m.b.code (bits tok 19 10) = some v → (s.core m.b.core).home.wf = true →
    ∃ s', exec (.ovrel x) s = .next s'
      ∧ (bit tok 0 = false ∨ v.home ≠ bits tok 31 26 ∨ isResident s m.b.core m.b.code v = false → answering none s s' (.ovrel x) m 4)
      ∧ (bit tok 0 = true → v.home = bits tok 31 26 → isResident s m.b.core m.b.code v = true →
          overlayBusy s m.b.core m.b.code v = true → answering none s s' (.ovrel x) m 1)
      ∧ (bit tok 0 = true → v.home = bits tok 31 26 → isResident s m.b.core m.b.code v = true →
          overlayBusy s m.b.core m.b.code v = false → answering none s s' (.ovrel x) m 0
            ∧ ∀ p ∈ v.pages, (s'.core m.b.core).home.look p = none)

/-- BAR.EXP adds its count to the barrier's pending bytes, answers the total, installs its watch and arrives (R266). -/
def ExpectedBytes : Prop :=
  ∀ (s : State) (x : X) (g : Gather) (m : Mb) (l : Level) (n inst a : Nat), lone (.barExp x) s g m → barDesig x m = (l, n) →
    bits (m.t.val (.int 32) x.sa) 31 6 = 0 → n < levelLimit l → barInst s m.u l = some inst → arrived s m.u l n = false →
    let base := m.t.val (.int 64) x.sb
    let count := m.t.val (.int 64) x.sc
    let b := s.bars.lookD (barKey l inst n) {}
    1 ≤ selOf base → selOf base ≤ 3 → m.b.alloc (selOf base) = some a → b.pendb + count < 2 ^ 56 → 0 < count →
    (∀ y, s.allocs.look a = some y → portWatches s y < Config.watches) → memWaits s m [selOf base] = false →
    ∃ s', exec (.barExp x) s = .next s' ∧ answering (some (barKey l inst n)) s s' (.barExp x) m (b.pendb + count)
      ∧ (s'.threads.look m.u).map (·.last.look (lastIdx l n)) = some (some b.phase)
      ∧ (s'.bars.lookD (barKey l inst n) {}).phase = b.phase
      ∧ (s'.bars.lookD (barKey l inst n) {}).pendb = b.pendb + count
      ∧ (a, offOf base, offOf base + count) ∈ (s'.bars.lookD (barKey l inst n) {}).watch

/-! ## Class T -/

/-- A matrix instruction that passes its checks and finds room stands last in the array's queue, and its status is owed (R271, R277, R278). -/
def MatrixCommandsQueue : Prop :=
  (∀ (s : State) (i : Instr) (g : Gather) (m : Mb) (acc : Nat) (k : MKind) (rd wr : List Shape) (back : Bool),
    commandOf s i m = some (acc, k, rd, wr, back, none) → lone i s g m → arrayRoom s m.b.core = true → matWaits s m rd wr back = false →
    ∃ s' c, exec i s = .next s' ∧ memorySame s s' ∧ (s'.core m.b.core).mcmds = (s.core m.b.core).mcmds ++ [c] ∧ c.acc = acc ∧ c.kind = k
      ∧ launched s s' i m (.matrix c.id))
  ∧ ∀ (s : State) (x : X) (acc : Fin 32) (g : Gather) (m : Mb), lone (.mmaNf x acc) s g m →
    mmaCheck s m.b (m.shape x.sa) (m.shape x.sb) none none true false = none → arrayRoom s m.b.core = true →
    stagingRoom s m.b.core = true → holdRoom s m.b.core (retained s m x).length = true →
    matWaits s m [m.shape x.sa, m.shape x.sb] [] false = false →
    ((s.core m.b.core).mcmds.all fun d => d.id < s.nextId) = true →
    ∃ s' c, exec (.mmaNf x acc) s = .next s' ∧ memorySame s s' ∧ (s'.core m.b.core).mcmds = (s.core m.b.core).mcmds ++ [c]
      ∧ c.acc = acc.val ∧ c.kind = .mmaNf (m.shape x.sa) (m.shape x.sb) ∧ c.rung = getField (m.shape x.sa) 27 ∧ c.att = 1
      ∧ launched s s' (.mmaNf x acc) m (.matrix c.id)

/-! ## Class A -/

/-- The arithmetic and control instructions of an access processor leave the registers, conditions, loops and PC that R246 gives, and no other
register of it or of another; what R247 forbids raises its fault. -/
def ApResults : Prop :=
  ∀ (s : State) (i : Instr) (a : Ap) (b : Block), isApCompute i = true → wellFormed i = true → apAt i s a b → running s b.ctx →
    (∀ x, i = .agen x → owesShape s a.blk (shapeRegs i) = false ∧ shapeOk (shapeOfOp b x.sa) = true ∧ regionOk (shapeOfOp b x.sa) = true) →
    (∀ a', apResult s i a b = some a' → ∃ s', exec i s = .next s' ∧ s'.ap s.focus s.focusAp = a' ∧ memorySame s s'
      ∧ (∀ n, n ≠ s.focusAp → s'.ap s.focus n = s.ap s.focus n) ∧ s'.threads = s.threads)
    ∧ (apResult s i a b = none → ∃ s' c, exec i s = .next s' ∧ haltedBy s' b.ctx c ∧ (c = 0x33 ∨ c = 0x20)
        ∧ s'.ap s.focus s.focusAp = a)

/-- A false guard only moves an access processor to its next instruction (R243). -/
def ApGuardedOff : Prop :=
  ∀ (s : State) (i : Instr) (a : Ap) (b : Block), i.isA = true → s.ap s.focus s.focusAp = a →
    s.focusAp < (s.core s.focus).aps.length → a.running = true → s.blocks.look a.blk = some b → a.cond i.x.gpred = i.x.gneg →
    ∃ s', exec i s = .next s' ∧ s'.ap s.focus s.focusAp = { a with pc := apNext s i a } ∧ memorySame s s' ∧ s'.threads = s.threads

/-- APUSH and AGATH reserve an entry of 64 words behind the queue's others; AWAIT passes once the queue is no longer than its count; ASIG stores
its word as a release at block scope once the AP's entries are whole (R246, R247). -/
def ApQueues : Prop :=
  (∀ (s : State) (x : X) (q : Fin 8) (a : Ap) (b : Block), apAt (.apush x q) s a b → a.queues.getLsbD q = true →
    (s.dq s.focus q).length < 64 → wordsFault s b (rowAddrs (a.val x.sa)) [0, 1, 2, 3, 4] false = none →
    accWaits s b (wordsAcc (rowAddrs (a.val x.sa)) false) = false → (s.core s.focus).queues.length = 8 →
    ∃ s' e, exec (.apush x q) s = .next s' ∧ s'.dq s.focus q = s.dq s.focus q ++ [e] ∧ e.words = none
      ∧ e.addrs = (List.range 64).map (fun k => (a.val x.sa + 4 * k) % 2 ^ 64) ∧ e.ap = s.focusAp ∧ memorySame s s')
  ∧ (∀ (s : State) (x : X) (q : Fin 8) (a : Ap) (b : Block) (is from_ : List Nat), apAt (.agath x q) s a b → a.queues.getLsbD q = true →
    (s.dq s.focus q).length < 64 → wordsFault s b (rowAddrs (a.val x.sb)) [0, 1, 2, 3, 4] false = none →
    accWaits s b (wordsAcc (rowAddrs (a.val x.sb)) false) = false → s.live a.obs = [] → apRmw s b (rowAddrs (a.val x.sb)) = false →
    apAccst s b (rowAddrs (a.val x.sb)) = [] →
    apWords s b (rowAddrs (a.val x.sb)) = .ok (is, from_) →
    wordsFault s b (is.map fun k => (a.val x.sa + 4 * k) % 2 ^ 64) [0, 1, 2, 3, 4] false = none →
    accWaits s b (wordsAcc (is.map fun k => (a.val x.sa + 4 * k) % 2 ^ 64) false) = false → (s.core s.focus).queues.length = 8 →
    ∃ s' e, exec (.agath x q) s = .next s' ∧ s'.dq s.focus q = s.dq s.focus q ++ [e] ∧ e.words = none
      ∧ e.addrs = is.map (fun k => (a.val x.sa + 4 * k) % 2 ^ 64) ∧ e.ap = s.focusAp ∧ memorySame s s')
  ∧ (∀ (s : State) (x : X) (q : Fin 8) (a : Ap) (b : Block), apAt (.await x q) s a b → a.queues.getLsbD q = true →
    ((s.dq s.focus q).length ≤ a.val x.sa → ∃ s', exec (.await x q) s = .next s' ∧ s'.ap s.focus s.focusAp = { a with pc := apNext s (.await x q) a })
    ∧ (a.val x.sa < (s.dq s.focus q).length → exec (.await x q) s = .next s))
  ∧ ∀ (s : State) (x : X) (a : Ap) (b : Block), apAt (.asig x) s a b →
    addrCheck s b (a.val x.sa) 4 none [1, 2, 3] true = none → accWaits s b (wordsAcc [a.val x.sa] true) = false →
    ((s.core s.focus).queues.any fun l => l.any fun e => e.ap == s.focusAp && e.words.isNone) = false →
    ∃ s' id st, exec (.asig x) s = .next s' ∧ s'.stores.look id = some st ∧ st.th = none ∧ st.va = a.val x.sa ∧ st.path = selOf (a.val x.sa)
      ∧ st.off = offOf (a.val x.sa) ∧ st.acc = .plain (leBytes 4 (a.val x.sb)) ∧ st.rel = some .block ∧ memorySame s s'

/-- A full data queue makes APUSH wait with nothing changed (R246). -/
def ApQueueFullWaits : Prop :=
  ∀ (s : State) (x : X) (q : Fin 8) (a : Ap) (b : Block), apAt (.apush x q) s a b → a.queues.getLsbD q = true →
    64 ≤ (s.dq s.focus q).length → exec (.apush x q) s = .next s

/-- A set at an A clause hands each block's lowest-lane registers v0 to v7 to the start queue and goes on to the next clause; the head request
starts on an idle AP whose queues nobody holds; and an entry becomes whole with the words it names (R242, R244, R246). -/
def ApProgramsStart : Prop :=
  (∀ (s : State) (k : Nat) (g : Gather) (m : Mb), (s.core k).gather = some g → membersOf s g = [m] → g.members = [m.u] →
    (curHeader { s with focus := k } g).cls = .A → owesReg s m.u (List.range 9) = false →
    memWaits s m [0, 1, 2, 3, 4] = false →
    (s.core k).startq.length < 16 → m.t.ss = false → m.t.trap = none →
    ∃ s' r, exec (.apHandoff k) s = .next s' ∧ (s'.core k).startq = (s.core k).startq ++ [r] ∧ r.blk = m.t.blk
      ∧ r.pc = mkPc (pcOff m.t.pc) 0 ∧ (∀ n < 4, (r.a.getD n (0 : W64)).toNat = (m.t.regs.lookD (2 * n + 1) (0 : W32)).toNat * 2 ^ 32 + (m.t.regs.lookD (2 * n) (0 : W32)).toNat)
      ∧ r.queues = BitVec.ofNat 8 (m.t.regs.lookD 8 (0 : W32)).toNat
      ∧ pcOf s' m.u = some (mkPc ((s.core k).nxt g.off) 0) ∧ memorySame s s')
  ∧ (∀ (s : State) (k n : Nat) (r : Start) (l : List Start), (s.core k).startq = r :: l →
    (∀ j < n, ((s.core k).aps[j]?).map (·.running) ≠ some false) → ((s.core k).aps[n]?).map (·.running) = some false → n < 4 →
    (∀ a ∈ (s.core k).aps, a.running = true → a.queues &&& r.queues = 0) →
    s.stopped (((s.blocks.look r.blk).map (·.ctx)).getD 0) = false →
    ∃ s', exec (.apProgramStart k) s = .next s' ∧ (s'.core k).startq = l ∧ memorySame s s'
      ∧ s'.ap k n = { running := true, pc := r.pc, a := r.a, queues := r.queues, blk := r.blk, obs := r.obs })
  ∧ ∀ (s : State) (k q : Nat) (e : QEntry) (l : List QEntry) (b : Block) (ws from_ : List Nat), s.dq k q = e :: l → e.words = none →
    s.blocks.look e.blk = some b → s.ready e.after = true → ((s.ctxs.look b.ctx).map (·.save.isSome)) = some false →
    apRmw s b e.addrs = false → apWords s b e.addrs = .ok (ws, from_) → q < (s.core k).queues.length →
    ∃ s', exec (.apEntryWhole k q) s = .next s' ∧ s'.dq k q = { e with words := some (ws.map (BitVec.ofNat 32)) } :: l ∧ memorySame s s'

/-! ## The picker -/

/-- The members of the next gather are the oldest candidate's: they stand at one PC, and the candidate chosen has the least key (R129, R130). -/
def PickIsOldest : Prop :=
  (∀ (l : List Cand) (c : Cand), oldest l = some c → c ∈ l ∧ ∀ d ∈ l, keysLt d.key c.key = false)
  ∧ ∀ (s : State) (core u v : Nat), s.threads.wf = true → u ∈ pickSet s core → v ∈ pickSet s core → pcOf s u = pcOf s v

/-- A picked set whose fetch and clause pass becomes the core's gathered set, with every member issuing (R130, R133, R147). -/
def GathersForm : Prop :=
  ∀ (s : State) (core c u : Nat) (us : List Nat) (pc : W32) (h : Header), (s.core core).owner = some c → (s.core core).gather = none →
    s.stopped c = false → core < Config.cores → mismatch s core = none → pickSet (recheck s core) core = u :: us →
    pcOf s u = some pc →
    let s1 := (recheck s core).updCore core fun k => { k with kept := none }
    (∀ v ∈ u :: us, fetchOf s1 core v = .ok h) → clauseFault s1 core (pcOff pc) h = none →
    ((s1.core core).instr (pcOff pc) (pcSlot pc)).isSome = true →
    ∃ s', exec (.gatherForm core) s = .next s' ∧ memorySame s s'
      ∧ (s'.core core).gather = some { members := u :: us, off := pcOff pc, slot := pcSlot pc } ∧ (s'.core core).kept = none
      ∧ ∀ v ∈ u :: us, (s'.threads.look v).map (·.st) = some .issuing

/-! ## Commands that complete -/

/-- A tile copy that may run writes what it gathers, releases its ranges and lands its status, or leaves its follow-on product to come; one
that cannot read or write faults (R250, R251, R254, R255). -/
def CopiesComplete : Prop :=
  ∀ (s : State) (id : Nat) (p : Pend) (b : Block) (c : Copy) (f : Option (Nat × Shape)) (st : W32) (w : Wrote),
    s.pend.look id = some p → p.op = .copy c f false st → s.blocks.look p.blk = some b → cmdReady s p = true → copyRest s p b c = w →
    w.full = false →
    (∀ q, w.fail = none → f = none → p.parts = [q] → lander s q →
      ∃ s', exec (.copyCommandComplete id) s = .next s' ∧ landed s s' id q [copyStatus 0 (copyClips c) w.bytes] ∧ ∀ l, byteAt s' l = byteAt w.s l)
    ∧ (w.fail = none → f ≠ none → s.pend.wf = true →
      ∃ s', exec (.copyCommandComplete id) s = .next s' ∧ (∀ l, byteAt s' l = byteAt w.s l)
        ∧ s'.pend.look id = some { p with op := .copy c f true (copyStatus 0 (copyClips c) w.bytes) })
    ∧ ∀ e va, w.fail = some (e, va) → running w.s p.ctx →
      ∃ s', exec (.copyCommandComplete id) s = .next s' ∧ haltedBy s' p.ctx e.cause

/-- The product that follows a TCOPY.MMA takes the last place in the array's queue once the copy has written its last byte
and the windows that its operands touch are Present (R234, R255, R271). -/
def FollowOnsIssue : Prop :=
  ∀ (s : State) (id acc : Nat) (p : Pend) (c : Copy) (qb : Shape) (st : W32), s.pend.look id = some p → p.op = .copy c (some (acc, qb)) true st →
    enginesRun s p.ctx = true → arrayRoom s p.core = true → (∀ d ∈ (s.core p.core).mcmds, d.pend ≠ some id) →
    followOnWaits s p c qb = false →
    ∃ s' d, exec (.tcopyFollowOnIssue id) s = .next s' ∧ memorySame s s' ∧ (s'.core p.core).mcmds = (s.core p.core).mcmds ++ [d]
      ∧ d.acc = acc ∧ d.kind = .mma c.qd qb none none false ∧ d.pend = some id

/-- A window's fill that may run writes its copy, and the window is Present (R234); one whose source meets a SHADOW range is a protection fault (R264). -/
def FillsComplete : Prop :=
  ∀ (s : State) (blk win id : Nat) (p : Pend) (b : Block) (c : Copy) (w : Wrote) (x : Window),
    (s.pend.find? fun (_, p) => p.blk == blk && (match p.op with | .wbind w _ => w == win | _ => false)) = some (id, p) →
    s.pend.wf = true → p.op = .wbind win (some c) → s.blocks.look blk = some b → b.windows[win]? = some x → cmdReady s p = true →
    (fillShadow s b c = false → copyRest s p b c = w → w.full = false → w.fail = none →
      ∃ s' b', exec (.windowFillComplete blk win) s = .next s' ∧ s'.pend.look id = none ∧ s'.blocks.look blk = some b'
        ∧ b'.windows[win]? = some { x with st := .present } ∧ (∀ k, k ≠ win → b'.windows[k]? = b.windows[k]?)
        ∧ ∀ l, byteAt s' l = byteAt w.s l)
    ∧ (fillShadow s b c = true → running s p.ctx → ∃ s', exec (.windowFillComplete blk win) s = .next s' ∧ haltedBy s' p.ctx 0x26 ∧ memorySame s s')

/-- A chain that may run writes its elements, lands its status, and sets the sticky bits of the exceptions that it raised (R262, R263). -/
def ChainsComplete : Prop :=
  ∀ (s : State) (id raised : Nat) (p : Pend) (q : Part) (b : Block) (qd qs : Shape) (ops : List ChainOp) (w : Wrote),
    s.pend.look id = some p → p.op = .chain qd qs ops → p.parts = [q] → lander s q → s.blocks.look p.blk = some b → cmdReady s p = true →
    chainRun s b p.writer qd qs ops (remaining qd (sizes qs) p.landed) = (w, raised) → w.full = false → w.fail = none →
    ∃ s', exec (.chainComplete id) s = .next s' ∧ landed s s' id q [copyStatus 0 false (w.bytes + p.wrote)]
      ∧ (∀ l, byteAt s' l = byteAt w.s l)
      ∧ (s.ctxs.has p.ctx = true → ∀ k < 5, bit (raised ||| p.raised) k = true → (s'.ctx p.ctx).fpxc.getLsbD (8 + k) = true)

/-- PUBL swaps the halves of its buffer in one step and lands the new generation with the front half's number (R265). -/
def SwapsComplete : Prop :=
  ∀ (s : State) (id k : Nat) (p : Pend) (q : Part) (before : List Nat) (sc : Scope) (pfx rts : NSet) (b : Pub),
    s.pend.look id = some p → p.op = .publ k before sc pfx rts →
    p.parts = [q] → lander s q → s.allDone (before ++ p.after) = true → enginesRun s p.ctx = true → s.pubs.look k = some b →
    (∀ i x k' l c' u r, (i, x) ∈ s.pend → i < id → x.op = .publ k' l c' u r → k' ≠ k) →
    (Scope.local sc = true → ∀ i ∈ pfx, i = id ∨ s.passed sc i = true) →
    ∃ s', exec (.publSwap id) s = .next s' ∧ s'.pubs.look k = some { b with front := !b.front, gen := b.gen + 1 }
      ∧ landed s s' id q [BitVec.ofNat 32 ((b.gen + 1).toNat * 2 ^ 16 + (!b.front).toNat)]

/-- DECTAB binds its region where the tables it reads are good, and lands the status that says so (R261). -/
def TablesBind : Prop :=
  ∀ (s : State) (id region va len : Nat) (p : Pend) (q : Part), s.pend.look id = some p → p.op = .dectab region va len → p.parts = [q] →
    lander s q → cmdReady s p = true → regionBusy s p.ctx region = false →
    (4095 < region → ∃ s', exec (.dectabComplete id) s = .next s' ∧ landed s s' id q [3] ∧ s'.ctxs = s.ctxs)
    ∧ ∀ st r k, region ≤ 4095 → regionOf (ownView s p.writer.th) p.ctx va len = .ok (st, r) → s.ctxs.look p.ctx = some k →
      ∃ s' k', exec (.dectabComplete id) s = .next s' ∧ landed s s' id q [BitVec.ofNat 32 st] ∧ s'.ctxs.look p.ctx = some k'
        ∧ (st = 0 → k'.regions.look region = some r) ∧ (st ≠ 0 → k'.regions = k.regions)

/-- A launch is decided after the earlier ones of its set or thread: status, slot and sequence number of the steward pair's answer land (R115). -/
def LaunchesDecide : Prop :=
  ∀ (s : State) (id q : Nat) (p : Pend) (part : Part) (record : List Byte) (grid : Option Nat), s.pend.look id = some p →
    p.op = .launch q record grid → p.parts = [part] → lander s part → cmdReady s p = true →
    (∀ k o q' r g, (k, o) ∈ s.pend → k < id → o.op = .launch q' r g → o.issue ≠ p.issue ∧ ∀ a ∈ o.parts, a.th ≠ part.th) →
    let r := (stewardLaunch s (dieOf p.core) q p.ctx record grid (if grid.isSome then none else (s.blocks.look p.blk).map (·.job))).1
    (∃ s', exec (.launchDecided id) s = .next s'
      ∧ landed s s' id part [BitVec.ofNat 32 (r.1 * 65536 + r.2.1), BitVec.ofNat 32 r.2.2])
    ∧ (15 < q ∨ (s.queue (dieOf p.core) q).en = false ∨ (s.queue (dieOf p.core) q).devq = false ∨ (s.queue (dieOf p.core) q).owner ≠ p.ctx →
        r = (0x0A, 0xFFFF, 0))

/-- A doorbell that may be sent writes its door's device, and its DBELL lands 0; where the link is down, it lands 2 and nothing is written
(R373, R374). -/
def DoorbellsSend : Prop :=
  ∀ (s : State) (id r m : Nat) (b : Bell) (d : Door) (p : Pend) (q : Part), s.bells.look id = some b → s.bells.wf = true → b.ret = some r →
    (∀ k x, (k, x) ∈ s.bells → k < id → x.die ≠ b.die ∨ x.addr ≠ b.addr) → s.allDone b.waits = true → porterAt b.addr b.width = some (.door m) →
    s.doors.look m = some d → s.pend.look r = some p → p.parts = [q] → lander s q →
    ∃ s', exec (.doorbellSend id) s = .next s' ∧ s'.bells.look id = none
      ∧ (Config.linkDown d.port s.fresh = false → landed s s' r q [0] ∧ s'.out = s.out ++ [.deviceWrite d.port d.addr b.data 4]
          ∧ (s'.doors.look m).map (·.value) = some (BitVec.ofNat 32 b.data))
      ∧ (Config.linkDown d.port s.fresh = true → landed s s' r q [2] ∧ s'.out = s.out ∧ s'.doors = s.doors)

/-- A TLBINV removes the cached translations that it names and asks every affected function; it lands 0 at once where there is none, and else
when they have answered; 2^27 cycles after the requests it lands 1, with ATS taken from functions that were silent (R371). -/
def InvalidationsComplete : Prop :=
  ∀ (s : State) (id kind va : Nat) (p : Pend) (q : Part) (returned : Bool) (sent : Option Nat), s.pend.look id = some p →
    p.op = .tlbinv kind va sent → p.parts = [q] → lander s q → cmdReady s p = true →
    (sent = none → ∃ s', exec (.tlbinvComplete id returned) s = .next s' ∧ (∀ t ∈ s'.tlb, tlbHit kind p.ctx va t = false)
      ∧ (∀ f c, (f, c) ∈ affectedPairs s kind p.ctx → .atsInvalidate f c va (if kind = 0 then 4096 else 0) ∈ s'.out)
      ∧ (affectedFns s kind p.ctx = [] → landed s s' id q [0])
      ∧ (affectedFns s kind p.ctx ≠ [] → s'.pend.look id = some { p with op := .tlbinv kind va (some s.clock) }))
    ∧ ∀ at_, sent = some at_ →
      (returned = true ∨ affectedFns s kind p.ctx = [] →
        ∃ s', exec (.tlbinvComplete id returned) s = .next s' ∧ landed s s' id q [0] ∧ s'.ats = s.ats)
      ∧ (returned = false → affectedFns s kind p.ctx ≠ [] → s.clock < at_ + 2 ^ 27 → exec (.tlbinvComplete id returned) s = .next s)
      ∧ (returned = false → affectedFns s kind p.ctx ≠ [] → at_ + 2 ^ 27 ≤ s.clock →
        ∃ s', exec (.tlbinvComplete id returned) s = .next s' ∧ landed s s' id q [1]
          ∧ (∃ f ∈ affectedFns s kind p.ctx, f ∈ s'.atsLost ∧ f ∉ s'.ats) ∧ ∀ f ∈ s'.ats, f ∈ s.ats)

/-- An overlay's load reads its bytes, and makes its pages Resident with them where their hash is the manifest's; else the pages are Free
and the hash fault 0x31 is raised (R143). -/
def OverlayLoads : Prop :=
  ∀ (s : State) (core page code n ctx : Nat) (k : Code) (o : Overlay) (bytes : List Byte), (s.core core).home.look page = some (.loading code n) →
    (s.core core).owner = some ctx → s.codes.look code = some k → overlayOf s code n = some o → o.home = page → running s ctx →
    ovlBytes s core ctx k o = .ok bytes → (s.core core).store.wf = true → (s.core core).home.wf = true →
    ((s.core core).fetched = [] → engineBytes s (.global ctx) (k.addr + o.off) o.len = .ok bytes)
    ∧ ∃ s', exec (.overlayLoadComplete core page) s = .next s'
      ∧ (sha256 bytes = o.hash → (∀ i < bytes.length, storeByte s' core (page * 4096 + i) = bytes.getD i 0)
          ∧ ∀ p ∈ o.pages, (s'.core core).home.look p = some (.resident code n o.len o.sperm))
      ∧ (sha256 bytes ≠ o.hash → haltedBy s' ctx 0x31 ∧ ∀ p ∈ o.pages, (s'.core core).home.look p = none)

/-- The first command on its tile runs: ACCZ zeroes its tile and no other and lands 0, and a product leaves the words that its update gives
(R271, R275, R278). -/
def MatrixCommandsRun : Prop :=
  ∀ (s : State) (core id pid d : Nat) (c : MCmd) (b : Block) (p : Pend) (q : Part), (s.core core).mcmds.find? (·.id == id) = some c →
    s.blocks.look c.blk = some b → matReady s core c = true → c.pend = some pid → s.pend.look pid = some p → p.op = .matrix d → p.parts = [q] →
    lander s q →
    (c.kind = .accz → (s.core core).acc.wf = true → ∃ s', exec (.matrixCommandComplete core id) s = .next s' ∧ landed s s' pid q [0] ∧ memorySame s s'
      ∧ ∀ t m n, m < 64 → n < 64 → accGet (s'.core core).acc t m n = if t = c.acc then 0 else accGet (s.core core).acc t m n)
    ∧ (∀ x sa sb sat a b', c.kind = .mma a b' sa sb sat → matOf c = some x → isIntFmt (ShapeOf.fmt x.qa) = false →
      ∀ acc, mmaFloat (c.view s) b x c.acc (x.k / 32 - c.kblock) c.kblock (s.core core).acc = (acc, none) →
      ∃ s', exec (.matrixCommandComplete core id) s = .next s' ∧ landed s s' pid q [0] ∧ memorySame s s' ∧ (s'.core core).acc = acc)

/-- An attempt of MMA.NF over its budget below the stop rung is squashed: the command goes on at the next rung, the tile is as it was, and the
replay counter of the rung rises (R283, R284). One that is not commits its tile, and its status lands (R278, R286). -/
def NarrowFirst : Prop :=
  ∀ (s : State) (core id : Nat) (c : MCmd) (x : Mat) (y : Attempt), (s.core core).mcmds.find? (·.id == id) = some c →
    nfAttempt s core c = some (x, y) → y.fail = none →
    (∀ k, y.squashed = true → c.rung < 4 → s.ctxs.look c.ctx = some k → k.rplc.length = 4 →
      ∃ s' k', exec (.mmaNfSquash core id) s = .next s' ∧ memorySame s s' ∧ (s'.core core).acc = (s.core core).acc
        ∧ (s'.core core).mcmds.find? (·.id == id) = some { c with rung := c.rung + 1, att := c.att + 1, kblock := 0 }
        ∧ s'.ctxs.look c.ctx = some k' ∧ (k'.rplc.getD c.rung 0).toNat = min ((k.rplc.getD c.rung 0).toNat + 1) (2 ^ 64 - 1))
    ∧ ∀ pid d p q, y.squashed = false → c.pend = some pid → s.pend.look pid = some p → p.op = .matrix d → p.parts = [q] → lander s q →
      ∃ s', exec (.mmaNfCommit core id) s = .next s' ∧ memorySame s s' ∧ (s'.core core).acc = y.acc
        ∧ (s'.core core).mcmds.find? (·.id == id) = none
        ∧ landed s s' pid q [nfStatus (if y.g.over x.qa then 2 else 1) c.rung c.att y.g]

/-! ## Contexts and the steward's instructions -/

/-- TLBINV hands its invalidation over; its form over all contexts needs SYS (R371). -/
def InvalidationsIssue : Prop :=
  (∀ (s : State) (x : X) (g : Gather) (m : Mb), lone (.tlbinvPage x) s g m → m.t.val (.int 64) x.sa / 2 ^ 60 = 0 →
    ∃ s', exec (.tlbinvPage x) s = .next s' ∧ memorySame s s' ∧ launched s s' (.tlbinvPage x) m (.tlbinv 0 (m.t.val (.int 64) x.sa) none))
  ∧ (∀ (s : State) (x : X) (g : Gather) (m : Mb), lone (.tlbinvCtx x) s g m →
    ∃ s', exec (.tlbinvCtx x) s = .next s' ∧ memorySame s s' ∧ launched s s' (.tlbinvCtx x) m (.tlbinv 1 0 none))
  ∧ ∀ (s : State) (x : X) (g : Gather) (m : Mb), lone (.tlbinvAll x) s g m →
    ((s.ctx m.b.ctx).sys = true → ∃ s', exec (.tlbinvAll x) s = .next s' ∧ memorySame s s' ∧ launched s s' (.tlbinvAll x) m (.tlbinv 2 0 none))
    ∧ ((s.ctx m.b.ctx).sys = false → running s m.b.ctx → ∃ s', exec (.tlbinvAll x) s = .next s' ∧ haltedBy s' m.b.ctx 0x26)

/-- ASSAYRD reads a counter of the thread's context: decoded bytes and MACs of a region, MACs of none, the last signed statement and the tier-3
resets (R420). -/
def CountersRead : Prop :=
  ∀ (s : State) (x : X) (g : Gather) (m : Mb) (v : Nat), lone (.assayrd x) s g m → wellFormed (.assayrd x) = true →
    let k := s.ctx m.b.ctx
    let region := m.t.val (.int 32) x.sa
    (region ≤ 4095 ∧ m.t.val (.int 32) x.sb = 0 ∧ v = k.bytes.lookD region 0)
      ∨ (region ≤ 4095 ∧ m.t.val (.int 32) x.sb = 1 ∧ v = k.macs.lookD region 0)
      ∨ (m.t.val (.int 32) x.sb = 2 ∧ v = k.umac) ∨ (m.t.val (.int 32) x.sb = 3 ∧ v = k.lastSigned)
      ∨ (m.t.val (.int 32) x.sb = 4 ∧ v = k.resets) →
    ∃ s', exec (.assayrd x) s = .next s' ∧ memorySame s s' ∧ answering none s s' (.assayrd x) m v

/-- CTXSAVE, CTXLOAD and HALTX answer 1 for a context that they may not name; CTXSAVE starts the save of another running context; CTXLOAD resumes
what HALTX halted and restores what is saved; HALTX raises the halt line with cause 0x36 (R411). -/
def ContextInstructions : Prop :=
  (∀ (s : State) (x : X) (g : Gather) (m : Mb), lone (.ctxsave x) s g m → wellFormed (.ctxsave x) = true →
    let c := namedCtx x m
    ∃ s', exec (.ctxsave x) s = .next s'
      ∧ (badCtx s m c = true → answering none s s' (.ctxsave x) m 1)
      ∧ (badCtx s m c = false → c = m.b.ctx → answering none s s' (.ctxsave x) m 5)
      ∧ (badCtx s m c = false → c ≠ m.b.ctx → (s.ctx c).save.isSome = true → answering none s s' (.ctxsave x) m 2)
      ∧ (badCtx s m c = false → c ≠ m.b.ctx → (s.ctx c).save = none → launched s s' (.ctxsave x) m (.ctxsave c)
          ∧ ∃ p, (s'.ctx c).preempt = some p ∧ 2 ≤ p.tier))
  ∧ (∀ (s : State) (x : X) (g : Gather) (m : Mb), lone (.ctxload x) s g m → wellFormed (.ctxload x) = true →
    let c := namedCtx x m
    ∃ s', exec (.ctxload x) s = .next s'
      ∧ (badCtx s m c = true → answering none s s' (.ctxload x) m 1)
      ∧ (badCtx s m c = false → c = m.b.ctx → answering none s s' (.ctxload x) m 5)
      ∧ (badCtx s m c = false → c ≠ m.b.ctx → haltedInPlace (s.ctx c) = true → answering none s s' (.ctxload x) m 0 ∧ (s'.ctx c).halt = none)
      ∧ (badCtx s m c = false → c ≠ m.b.ctx → haltedInPlace (s.ctx c) = false → (s.ctx c).save = none → answering none s s' (.ctxload x) m 2)
      ∧ (badCtx s m c = false → c ≠ m.b.ctx → (s.ctx c).save.isSome = true → mayRestore s c = false ∨ restore s c = none →
          answering none s s' (.ctxload x) m 4 ∧ (s'.ctx c).save = (s.ctx c).save)
      ∧ (badCtx s m c = false → c ≠ m.b.ctx → (s.ctx c).save.isSome = true → mayRestore s c = true → (restore s c).isSome = true →
          answering none s s' (.ctxload x) m 0 ∧ (s'.ctx c).save = none))
  ∧ ∀ (s : State) (x : X) (g : Gather) (m : Mb), lone (.haltx x) s g m → wellFormed (.haltx x) = true → unstepped s g = true →
    m.t.pc = mkPc g.off g.slot →
    let c := namedCtx x m
    ∃ s', exec (.haltx x) s = .next s'
      ∧ (badCtx s m c = true → received s' m (.haltx x) 1)
      ∧ (badCtx s m c = false → c ≠ m.b.ctx → (s.ctx c).halt.isSome ∨ (s.ctx c).save.isSome ∨ 2 ≤ ((s.ctx c).preempt.map (·.tier)).getD 0 →
          received s' m (.haltx x) 2)
      ∧ (badCtx s m c = false → running s c → received s' m (.haltx x) 0 ∧ haltedBy s' c 0x36)

/-- A context is dead on the module: none of its blocks, operations, stores or partitions is left, only Held jobs wait, and nothing halts it. -/
def killed (s' : State) (c : Nat) : Prop :=
  (∀ e ∈ s'.blocks, e.2.ctx ≠ c) ∧ (∀ e ∈ s'.pend, e.2.ctx ≠ c) ∧ (∀ e ∈ s'.stores, e.2.ctx ≠ c) ∧ (∀ e ∈ s'.parts, e.2.ctx ≠ c)
    ∧ (∀ e ∈ s'.jobs, e.2.ctx = c → e.2.st = .held) ∧ (s'.ctxs.look c).bind (·.halt) = none

/-- A halted context whose accesses have drained is quiescent: its first cause and every other stopped engine get a stop record, numbered by
FLTCNT; until then it stays halted as it is (R400 to R402). -/
def HaltsBecomeQuiet : Prop :=
  ∀ (s : State) (c : Nat) (k : Context) (h : Halt), s.ctxs.look c = some k → k.halt = some h → h.quiet = false →
    let l := haltStops (unholdCtx s c) c h
    (drained (unholdCtx s c) c = true →
      ∃ s' k', exec (.contextQuiescent c) s = .next s' ∧ s'.ctxs.look c = some k' ∧ k'.halt = some { h with quiet := true }
        ∧ k'.records = k.records ++ l.mapIdx (fun i r => { r with fseq := (k.fltcnt + BitVec.ofNat 32 i).toNat })
        ∧ k'.fltcnt = k.fltcnt + BitVec.ofNat 32 l.length ∧ (h.recorded = false → l.head? = some h.cause.stop))
    ∧ (drained (unholdCtx s c) c = false → exec (.contextQuiescent c) s = .next (unholdCtx s c))

/-- The verdict on a quiescent context: page service where FLTPOL asks for it, else delivery of cause 7 where the fault is eligible and the
handler valid, and else a kill (R403, R404). -/
def Verdicts : Prop :=
  ∀ (s : State) (c : Nat) (k : Context) (h : Halt), s.ctxs.look c = some k → k.halt = some h → h.quiet = true → h.serving = none →
    h.cause.stop.cause ≠ 0x36 → s.jobs.wf = true → s.parts.wf = true →
    (h.cause.stop.cause = 0x35 → k.fltpol.getLsbD 1 = true → h.cause.service = true →
      ∃ s', exec (.faultVerdict c) s = .next s' ∧ (s'.ctxs.look c).bind (·.halt) = some { h with serving := some s.clock })
    ∧ (∀ m a at_, h.cause.stop.cause ≠ 0x35 → h.cause.eligible = true → k.fltpol.getLsbD 0 = true → h.cause.members = [m.u] →
      s.threads.look m.u = some m.t → s.blocks.look m.t.blk = some m.b → m.b.ctx = c → m.b.a1 = some a → m.t.owed = [] →
      handlerReady s m at_ →
      ∃ s', exec (.faultVerdict c) s = .next s' ∧ (s'.ctxs.look c).bind (·.halt) = none
        ∧ trapped s' m a at_ { cause := 7, code := 0, flags := 0, detail := h.cause.stop.cause, rpc := h.cause.stop.pc })
    ∧ (h.cause.stop.cause ≠ 0x35 ∨ k.fltpol.getLsbD 1 = false ∨ h.cause.service = false →
      h.cause.eligible = false ∨ k.fltpol.getLsbD 0 = false ∨ k.traph.getLsbD 31 = false →
      ∃ s', exec (.faultVerdict c) s = .next s' ∧ killed s' c)

/-- Page service resumes the context once its page is mapped, within 2^24 cycles, and is given up after them (R404). -/
def PageService : Prop :=
  ∀ (s : State) (c at_ : Nat) (k : Context) (h : Halt), s.ctxs.look c = some k → k.halt = some h → h.serving = some at_ →
    s.jobs.wf = true → s.parts.wf = true →
    (s.clock < at_ + 2 ^ 24 → ∀ l, walk s c h.cause.stop.va = .ok l →
      ∃ s', exec (.pageServiceComplete c) s = .next s' ∧ (s'.ctxs.look c).bind (·.halt) = none)
    ∧ (s.clock < at_ + 2 ^ 24 → ∃ s', exec (.pageServiceComplete c) s = .next s'
      ∧ ((s'.ctxs.look c).bind (·.halt) = none ↔ ∃ l, walk s' c h.cause.stop.va = .ok l))
    ∧ (at_ + 2 ^ 24 ≤ s.clock → exec (.pageServiceComplete c) s = .next s)
    ∧ (s.clock < at_ + 2 ^ 24 → exec (.pageServiceTimeout c) s = .next s)
    ∧ (at_ + 2 ^ 24 ≤ s.clock → ∃ s', exec (.pageServiceTimeout c) s = .next s' ∧ killed s' c)

/-- A thread whose wait has lasted 2^LIMIT cycles raises the watchdog fault 0x2C, and no earlier; a wait at a barrier whose phase has ended raises none
(R398, R412). -/
def WatchdogExpires : Prop :=
  ∀ (s : State) (u w x : Nat) (t : Thread) (b : Block), s.threads.look u = some t → s.blocks.look t.blk = some b → running s b.ctx →
    waitOf t = some (w, x) →
    (s.clock < x + 2 ^ ((s.ctx b.ctx).wdog.toNat % 64) → exec (.watchdogExpiry u) s = .next s)
    ∧ (x + 2 ^ ((s.ctx b.ctx).wdog.toNat % 64) ≤ s.clock → (∀ l n, t.st = .barWait l n → phaseDone s u l n = false) →
        ∃ s', exec (.watchdogExpiry u) s = .next s' ∧ haltedBy s' b.ctx 0x2C)
    ∧ ∀ l n, t.st = .barWait l n → phaseDone s u l n = true → exec (.watchdogExpiry u) s = .next s

/-- Pre-emption: tier 1 passes to tier 2 at its deadline, which stops every core of the context at an instruction boundary; a drained context is
saved with its partitions released; and after the deadline of tier 2 it is reset, with its work dropped and the reset counted (R405 to R407). -/
def Preemption : Prop :=
  (∀ (s : State) (c : Nat) (k : Context) (p : Preempt), s.ctxs.look c = some k → k.preempt = some p → p.tier = 1 →
    (s.clock < p.at_ + deadline1 p.prio → exec (.preemptionTier2 c) s = .next s)
    ∧ (p.at_ + deadline1 p.prio ≤ s.clock → ∃ s', exec (.preemptionTier2 c) s = .next s'
        ∧ (s'.ctxs.look c).bind (·.preempt) = some { tier := 2, prio := p.prio, at_ := s.clock, work := p.work }
        ∧ ∀ n, (s.core n).owner = some c → (s'.core n).gather = none))
  ∧ (∀ (s : State) (c : Nat) (k : Context) (p : Preempt), s.ctxs.look c = some k → k.preempt = some p → p.tier = 2 → saveReady s c = true →
    s.parts.wf = true →
    s.clock < p.at_ + 2 * 2 ^ bits k.fabcfg.toNat 4 0 + 48000 → (∀ e ∈ s.pend, e.2.op ≠ .ctxsave c) →
    ∃ s' k', exec (.contextSaveComplete c) s = .next s' ∧ s'.ctxs.look c = some k' ∧ k'.save.isSome = true ∧ k'.preempt = none
      ∧ ∀ e ∈ s'.parts, e.2.ctx ≠ c)
  ∧ ∀ (s : State) (c : Nat) (k : Context) (p : Preempt), s.ctxs.look c = some k → k.preempt = some p → p.tier = 2 →
    (∀ e ∈ s.pend, e.2.op ≠ .ctxsave c) → s.jobs.wf = true → s.parts.wf = true →
    (s.clock < p.at_ + 2 * 2 ^ bits k.fabcfg.toNat 4 0 + 48000 → exec (.preemptionTier3Reset c) s = .next s)
    ∧ (p.at_ + 2 * 2 ^ bits k.fabcfg.toNat 4 0 + 48000 ≤ s.clock → ∃ s' k', exec (.preemptionTier3Reset c) s = .next s' ∧ killed s' c
        ∧ s'.ctxs.look c = some k' ∧ k'.resets = min (k.resets + 1) counterMax ∧ k'.forced = true
        ∧ ∃ r ∈ k'.records, r.cause = 0x37)

/-! ## Launch queues, placement, pipelines -/

/-- A response stands in the ring at the next RSEQ, where the ring had room, and nothing waits (R101). -/
def answered (s s' : State) (die q : Nat) (bytes : List Byte) : Prop :=
  let x := s.queue die q
  (s'.queue die q).rseq = x.rseq + 1 ∧ (s'.queue die q).waiting = []
    ∧ ∀ pa, resolve s (.global x.owner) (x.rbase.toNat + (x.rseq + 1).toNat % 2 ^ x.lgnr * 16)
        (x.rbase.toNat + (x.rseq + 1).toNat % 2 ^ x.lgnr * 16) true = .ok (.hbm pa) →
      queueRoom s (.hbm pa) = true → pa % 16 = 0 → linePoison s (lineOf pa) = false → s.hbm.wf = true → hbmRead s' pa 16 = some (leBytes 4 (x.rseq + 1).toNat ++ bytes)

/-- A write of LQSUB reads the record of the slot. One that is not ahead of LQACK is refused with 0x02, one further ahead than the next with 0x01;
the next one moves LQACK, and is refused with 0x04 where its slot is taken, with what its checks give, or accepted into the slot (R97 to R102). -/
def LaunchRecords : Prop :=
  ∀ (s : State) (die q idx : Nat) (b : List Byte),
    let x := s.queue die q
    let v := BitVec.ofNat 32 idx
    x.devq = false → x.en = true → x.stat.getLsbD 1 = false → x.waiting = [] → x.room = true → idx < 2 ^ x.lgn → idx < 65535 →
    engineBytes s (.global x.owner) (x.base.toNat + 128 * idx) 128 = .ok b →
    let r : Rec := ⟨b⟩
    let seq := BitVec.ofNat 32 r.seq
    let s1 := s.setQueue die q { x with sub := v, ack := seq }
    ∃ s', exec (.lqsubWrite die q v) s = .next s'
      ∧ (ahead seq x.ack = false → (s'.queue die q).ack = x.ack ∧ answered s s' die q (respBytes r.seq idx .refused 2 x.ack.toNat))
      ∧ (ahead seq x.ack = true → ahead seq (x.ack + 1) = true → (s'.queue die q).ack = x.ack ∧ (s'.queue die q).stat.getLsbD 0 = true
          ∧ answered s s' die q (respBytes r.seq idx .refused 1 (x.ack + 1).toNat))
      ∧ (seq = x.ack + 1 → (s'.queue die q).ack = seq
          ∧ (slotCode s die q idx ≠ 0 → answered s s' die q (respBytes r.seq idx .refused 4 (slotCode s die q idx)))
          ∧ (slotCode s die q idx = 0 → ∀ st d, checkRecord s1 die q x.owner (some idx) r = .error (st, d) →
              answered s s' die q (respBytes r.seq idx .refused st d))
          ∧ (slotCode s die q idx = 0 → ∀ p, checkRecord s1 die q x.owner (some idx) r = .ok p →
              answered s s' die q (respBytes r.seq idx .accepted 0 0)
                ∧ ∃ i j, (s'.queue die q).slots.look idx = some i ∧ s'.jobs.look i = some j ∧ j.seq = seq ∧ j.record = b
                  ∧ j.st = if r.npred = 0 then .ready else .held))

/-- A write of LQSUB does nothing on a disabled queue, on one whose responses wait for room, and on a device queue, where it sets a bit of
LQSTAT; an index that names no slot is refused with 0x03 (R100). -/
def LaunchRecordsTurnedAway : Prop :=
  ∀ (s : State) (die q : Nat) (v : W32),
    let x := s.queue die q
    x.en = false ∨ x.devq = true ∨ x.stat.getLsbD 1 = true ∨ 2 ^ x.lgn ≤ v.toNat ∨ v.toNat = 65535 →
    ∃ s', exec (.lqsubWrite die q v) s = .next s' ∧ (s'.queue die q).sub = v ∧ (s'.queue die q).ack = x.ack ∧ s'.jobs = s.jobs
      ∧ (x.devq = true → (s'.queue die q).stat = x.stat ||| 4)
      ∧ (x.en = true → x.devq = false → x.stat.getLsbD 1 = false → x.waiting = [] → x.room = true →
          answered s s' die q (respBytes 0 (slotField v.toNat) .refused 3 v.toNat))

/-- The other queue registers (R95, R96, R101, R106): LQRACK takes a value between itself and LQRSEQ and frees the ring, and another sets ERR;
LQCAN cancels a Held job; LQSTAT clears the bits written as one but RFULL; LQCFG starts a queue afresh when EN rises, which it does only once
bring-up has reached its last step (R432). -/
def QueueRegisters : Prop :=
  (∀ (s : State) (die q : Nat) (v : W32),
    let x := s.queue die q
    x.waiting = [] →
    (ahead v x.rseq = false → ahead x.rack v = false → ∃ s', exec (.lqrackWrite die q v) s = .next s' ∧ (s'.queue die q).rack = v
        ∧ ((s'.queue die q).room = true → (s'.queue die q).stat.getLsbD 1 = false))
    ∧ (ahead v x.rseq = true ∨ ahead x.rack v = true → ∃ s', exec (.lqrackWrite die q v) s = .next s' ∧ (s'.queue die q).rack = x.rack
        ∧ (s'.queue die q).stat = x.stat ||| 8))
  ∧ (∀ (s : State) (die q i : Nat) (v : W32) (j : Job),
    let x := s.queue die q
    slotJob s die q v.toNat = some (i, j) → j.die = die → j.queue = q → j.slot = v.toNat → v.toNat < 65536 → x.waiting = [] → x.room = true →
    s.jobs.wf = true → x.slots.wf = true →
    (j.st ≠ .held → ∃ s', exec (.lqcanWrite die q v) s = .next s' ∧ s'.jobs = s.jobs ∧ (s'.queue die q).slots = x.slots)
    ∧ (j.st = .held → ∃ s', exec (.lqcanWrite die q v) s = .next s' ∧ s'.jobs.look i = none ∧ (s'.queue die q).slots.look v.toNat = none
        ∧ answered s s' die q (respBytes j.seq.toNat v.toNat .cancelled 0 0)))
  ∧ (∀ (s : State) (die q : Nat) (v : W32), ∃ s', exec (.lqstatWrite die q v) s = .next s'
      ∧ ∀ n, (s'.queue die q).stat.getLsbD n = ((s.queue die q).stat.getLsbD n && !(v.getLsbD n && (n == 0 || n == 2 || n == 3))))
  ∧ ∀ (s : State) (die q : Nat) (v : W32),
    let x := s.queue die q
    ∃ s', exec (.lqcfgWrite die q v) s = .next s'
      ∧ (x.en = true ∨ v.getLsbD 16 = false ∨ s.steward.up = true → (s'.queue die q).cfg = v &&& 0xFFF3FFC7)
      ∧ (x.en = false → s.steward.up = false → (s'.queue die q).cfg = v &&& 0xFFF2FFC7)
      ∧ (x.en = true ∨ v.getLsbD 16 = false ∨ s.steward.up = false →
          (s'.queue die q).ack = x.ack ∧ (s'.queue die q).slots = x.slots)
      ∧ (x.en = false → v.getLsbD 16 = true → s.steward.up = true → (s'.queue die q).ack = 0 ∧ (s'.queue die q).rseq = 0 ∧ (s'.queue die q).rack = 0
          ∧ (s'.queue die q).stat = 0 ∧ (s'.queue die q).slots = [])

/-- A write of a plain register leaves the value in its writable bits and nothing else (R95, R370, R375). -/
def RegisterWrites : Prop :=
  ∀ (s : State) (v : W64),
    (∀ d q, ∃ s', exec (.registerWrite (.lqbase d q) v) s = .next s' ∧ s'.queue d q = { s.queue d q with base := v })
    ∧ (∀ d q, ∃ s', exec (.registerWrite (.lqrbase d q) v) s = .next s' ∧ s'.queue d q = { s.queue d q with rbase := v })
    ∧ (∀ c k, s.ctxs.look c = some k → ∃ s', exec (.registerWrite (.trcfg c) v) s = .next s'
        ∧ s'.ctxs.look c = some { k with trcfg := v &&& 0x000FFFFFFFFFF003 })
    ∧ (∀ n, n < 4096 → (s.notify.filter fun e => e.1 != n && sameBinding { s.notify.lookD n {} with hi := v } e.2).length < 63 →
        ∃ s', exec (.registerWrite (.notifyHi n) v) s = .next s' ∧ s'.notify.look n = some { s.notify.lookD n {} with hi := v })
    ∧ ∀ n, n < 4096 → v.getLsbD 0 = false → ∃ s', exec (.registerWrite (.notifyLo n) v) s = .next s'
        ∧ s'.notify.look n = some { s.notify.lookD n {} with lo := v &&& 0xFFFF0FFF00FFFF07 }

/-- A placement pass makes its first waiting grid Resident where one of its context's partitions, or one newly formed, holds it; and it releases
the partitions that the steward pair assigned to a context with no more work (R116, R119). -/
def PlacementPasses : Prop :=
  (∀ (s : State) (die id : Nat) (ds : List Nat) (w : WItem) (ws : List WItem) (s2 : State), s.grids.wf = true →
    let s1 := markForced (grantClaims (endDrains s)) die
    workOf s1 die = w :: ws → w.work = .grid id → placeWork s1 w = some (ds, s2) →
    ∃ s', exec (.placementPass die) s = .next s' ∧ (s'.grids.look id).map (·.st) = some .resident)
  ∧ ∀ (s : State) (die id : Nat) (p : Part2), s.jobs = [] → s.grids = [] → s.blocks = [] → (∀ e ∈ s.ctxs, e.2.save = none) →
    s.parts.look id = some p → s.parts.wf = true → p.steward = true → p.die = die →
    ∃ s', exec (.placementPass die) s = .next s' ∧ s'.parts.look id = none

/-- Stage 0 takes the items that its queue has room for; an item is binned by its PC, or raises the malformed-shape fault where it may not be;
and a dry-fed continuation stage closes its bins (R121, R126, R128). -/
def PipelinesFeed : Prop :=
  (∀ (s : State) (job : Nat) (j : Job) (st : Stage) (rest : List Stage) (l : List (List Byte)), s.jobs.look job = some j →
    j.stages = st :: rest → j.st ≠ .held → placeable s j.ctx = true →
    let n := min (st.depth - st.queue.length) (j.r.nitems - j.fed)
    readItems s j.ctx j.r.items st.itemsz j.fed n = .ok l →
    ∃ s' j', exec (.stageFeed job) s = .next s' ∧ memorySame s s' ∧ s'.jobs.look job = some j' ∧ j'.fed = j.fed + n
      ∧ j'.stages = { st with queue := st.queue ++ l } :: rest)
  ∧ (∀ (s : State) (job stage : Nat) (j : Job) (st : Stage) (b : List Byte) (rest : List (List Byte)), s.jobs.look job = some j →
    j.stages[stage]? = some st → st.queue = b :: rest → st.cont = true → running s j.ctx →
    ∃ s' j', exec (.continuationBinning job stage) s = .next s' ∧ s'.jobs.look job = some j'
      ∧ (itemOk s j.code b = true → j'.stages[stage]? = some (binItem { st with queue := rest } b))
      ∧ (itemOk s j.code b = false → haltedBy s' j.ctx 0x27 ∧ j'.stages[stage]? = some { st with queue := rest }))
  ∧ ∀ (s : State) (job stage : Nat) (j : Job) (st : Stage), s.jobs.look job = some j → j.stages[stage]? = some st → st.cont = true →
    st.queue = [] →
    (dryFed s job j stage = false → exec (.binFlushDry job stage) s = .next s)
    ∧ (dryFed s job j stage = true → ∃ s' j', exec (.binFlushDry job stage) s = .next s' ∧ s'.jobs.look job = some j'
        ∧ j'.stages[stage]? = some { st with closed := st.closed ++ st.bins.map (·.2), bins := [] })

/-- The items of a stage's bins and closed gangs. -/
def binned (st : Stage) : Nat := ((st.bins.map fun e => e.2.length) ++ st.closed.map (·.length)).foldl (· + ·) 0

/-- Binning loses no item, keeps at most 16 bins of fewer than 64 items each, one for each PC, and closes a gang at 64 (R126, R127). -/
def BinsKeepItems : Prop :=
  ∀ (st : Stage) (b : List Byte), (st.bins.map (·.1)).Nodup → st.bins.length ≤ 16 → (∀ e ∈ st.bins, e.2.length < 64) →
    binned (binItem st b) = binned st + 1 ∧ ((binItem st b).bins.map (·.1)).Nodup ∧ (binItem st b).bins.length ≤ 16
      ∧ (∀ e ∈ (binItem st b).bins, e.2.length < 64) ∧ (binItem st b).queue = st.queue

/-- At the end of a window a core takes its next budget, and each stage with blocks on it moves its estimate an eighth of the way to the mean that
was measured for them (R124). -/
def GovernorWindows : Prop :=
  ∀ (s : State) (core : Nat) (energy : List (Nat × Nat)),
    ∃ s', exec (.governorWindowEnd core energy) s = .next s' ∧ (s'.core core).budget = (s.core core).budgetNext
      ∧ ∀ job j i st, s.jobs.look job = some j → j.stages[i]? = some st →
        ∃ j' st', s'.jobs.look job = some j' ∧ j'.stages[i]? = some st'
          ∧ ((∀ e ∈ stageBlocks s job i, e.2.core ≠ core) → st' = st)
          ∧ ∀ k b e, (stageBlocks s job i).filter (fun e => e.2.core == core) = [(k, b)] → energy.find? (·.1 == k) = some (k, e) →
              st' = { st with est := st.est - st.est / 8 + e / 8 }

/-- What the completion release of a grid waits for is done: the list that it took when it began, or, where it begins now, the one that it takes. -/
def released (s : State) (blks obs routes : List Nat) (relsc : Nat) (closing : Option (List Nat)) : Prop :=
  match closing with
  | some w => s.allDone w = true
  | none => let r := beginClose s blks obs routes relsc; r.2.allDone r.1 = true

/-- A grid retires once the accesses that its retirement waits for are done, and waits until they are: it is Ended with its allocation released; with the
last grid of its job the job is done, its response, statement and one release for a successor follow; and a pipeline job that has nothing left to do is
done in the same way (R33, R105, R107, R416, R421). -/
def GridsRetire : Prop :=
  (∀ (s : State) (id : Nat) (g : Grid) (j : Job), s.grids.look id = some g → g.retiring = true → s.jobs.look g.job = some j → s.jobs.wf = true →
    (∀ w, g.closing = some w → s.allDone w = false → exec (.gridRetire id) s = .next s)
    ∧ (released s g.blocks g.obs g.routes j.r.relsc g.closing → (∀ e ∈ s.jobs, e.2.parent ≠ some id ∧ e.2.parentJob ≠ some g.job) →
      ((∃ k ∈ j.grids, k ≠ id ∧ (s.grids.look k).map (·.st) ≠ some .ended) →
        ∃ s', exec (.gridRetire id) s = .next s' ∧ s'.jobs.look g.job = some j
          ∧ (s'.grids.look id).map (fun g => (g.st, g.alloc, g.retiring)) = some (.ended, none, false))
      ∧ ((∀ k ∈ j.grids, k ≠ id → (s.grids.look k).map (·.st) = some .ended) → id ∈ j.grids → j.succ = [] → ∀ k, s.ctxs.look j.ctx = some k →
        ∃ s' k', exec (.gridRetire id) s = .next s' ∧ s'.jobs.look g.job = none ∧ s'.grids.look id = none ∧ s'.ctxs.look j.ctx = some k'
          ∧ k'.sseq = k.sseq + 1 ∧ k'.lastJseq = j.seq)
      ∧ ∀ n slot y, (∀ k ∈ j.grids, k ≠ id → (s.grids.look k).map (·.st) = some .ended) → id ∈ j.grids → j.succ = [(slot, y.seq)] →
        slotJob s j.die j.queue slot = some (n, y) → y.st = .held → n ≠ g.job → slot ≠ j.slot → (s.queue j.die j.queue).waiting = [] →
        j.slot < 65536 →
        ∃ s' y', exec (.gridRetire id) s = .next s' ∧ s'.jobs.look n = some y'
          ∧ (y.count ≤ 1 → y'.st = .ready) ∧ (1 < y.count → y'.st = .held ∧ y'.count = y.count - 1)))
  ∧ ∀ (s : State) (id : Nat) (j : Job), s.grids.look id = none → s.jobs.look id = some j → s.jobs.wf = true →
    (pipeEnded s id j = false → exec (.gridRetire id) s = .next s)
    ∧ (pipeEnded s id j = true → (∀ e ∈ s.jobs, e.2.parentJob ≠ some id) →
      released s (AMap.sel s.blocks fun _ b => b.job == id) j.obs j.routes j.r.relsc j.closing → j.succ = [] →
      ∀ k, s.ctxs.look j.ctx = some k → ∃ s' k', exec (.gridRetire id) s = .next s' ∧ s'.jobs.look id = none ∧ s'.ctxs.look j.ctx = some k'
        ∧ k'.sseq = k.sseq + 1 ∧ k'.lastJseq = j.seq)

/-! ## Memory behind the controllers -/

/-- The versions on the tree path of a frame have risen by one, modulo their widths (R298). -/
def pathRaised (s s' : State) (fr : Nat) : Prop :=
  s'.ver1.lookD fr 0 = (s.ver1.lookD fr 0 + 1) % 2 ^ 40 ∧ s'.ver2.lookD (fr / 8) 0 = (s.ver2.lookD (fr / 8) 0 + 1) % 2 ^ 56
    ∧ s'.ver3.lookD (fr / 64) 0 = (s.ver3.lookD (fr / 64) 0 + 1) % 2 ^ 56
    ∧ s'.root.lookD (fr / 512) 0 = (s.root.lookD (fr / 512) 0 + 1) % 2 ^ 64

/-- A line write begins with a checked read of the line, which leaves all as it was where the array reports nothing. It raises the versions on its tree path
and its minor counter; at 127 the frame's MAJOR rises, the minors start again and the reductions pending to the line are part of the step; past the
last MAJOR the frame is poisoned whole; in a frame with ZP the initialisation comes first; a write of all 64 bytes ends the line's poison; and any other
write to a line that does not check is discarded, touches no counter, and leaves the line poison with what stood there (R298, R301, R303, R308). -/
def LineWrites : Prop :=
  ∀ (s : State) (line : Nat) (w : LineWr) (rest : List LineWr), s.wq.any (fun w => w.line == line) = true →
    let s0 := arrayCheck s line
    popLine s0.wq line = some (w, rest) →
    let fr := line / 64
    let i := line % 64
    let f := s0.frames.lookD fr {}
    let last := f.major + 1 < 2 ^ 64
    let lost := !w.full && (if f.zp then !s0.keys.has f.keyid || treeFailed s0 fr else arrayPoison s0 line f)
    (Config.arrayError s.fresh = 0 → s0 = { s with fresh := s.fresh + 1 })
    ∧ (Config.arrayError s.fresh = 2 → ∀ g, s.frames.look fr = some g → g.zp = false → line ∈ s0.poison)
    ∧ ∃ s', exec (.lineWrite line) s = .next s'
      ∧ (f.zp = false → lost = true → s'.frames = s0.frames ∧ s'.ver1 = s0.ver1 ∧ s'.ver2 = s0.ver2 ∧ s'.ver3 = s0.ver3 ∧ s'.root = s0.root
          ∧ line ∈ s'.poison
          ∧ (popLine rest line = none → s'.hbm = s0.hbm.writeN (line * 64) w.old ∧ s'.wq = rest)
          ∧ (popLine rest line ≠ none → s'.hbm = s0.hbm))
      ∧ (lost = false → s'.hbm = s0.hbm)
      ∧ (f.zp = false → lost = false → f.minorOf i ≠ 127 → pathRaised s0 s' fr ∧ s'.wq = rest
          ∧ (s'.frames.look fr).map (fun f' => (f'.major, f'.minorOf i)) = some (f.major, f.minorOf i + 1)
          ∧ (∀ f', s'.frames.look fr = some f' → ∀ n, n ≠ i → f'.minorOf n = f.minorOf n)
          ∧ (w.full = true → line ∉ s'.poison))
      ∧ (f.zp = false → lost = false → f.minorOf i = 127 → s'.wq = rest.filter (fun x => !(x.line == line && x.red))
          ∧ (last → pathRaised s0 s' fr
            ∧ ∃ f', s'.frames.look fr = some f' ∧ f'.major = f.major + 1 ∧ f'.minorOf i = 1 ∧ ∀ n, n ≠ i → f'.minorOf n = 0)
          ∧ (¬ last → ∀ n < 64, fr * 64 + n ∈ s'.poison))
      ∧ (f.zp = true → ¬ last → ∀ n < 64, fr * 64 + n ∈ s'.poison)
      ∧ (f.zp = true → last → lost = false →
          ∃ f', s'.frames.look fr = some f' ∧ f'.zp = false ∧ f'.major = f.major + 1 ∧ f'.minorOf i = 1 ∧ ∀ n, n ≠ i → f'.minorOf n = 0)
      ∧ (f.zp = true → last → lost = true → line ∈ s'.poison
          ∧ ∃ f', s'.frames.look fr = some f' ∧ f'.zp = false ∧ f'.major = f.major + 1 ∧ ∀ n, f'.minorOf n = 0)

/-- A line read returns the line as it then stands, or poison; in a frame with ZP, and from the queue, it checks nothing and changes nothing else
(R295, R302). -/
def LineReads : Prop :=
  ∀ (s : State) (line : Nat), ∃ s', exec (.lineRead line) s = .next s' ∧ s'.lineOut = some (line, s'.lineAt line)
    ∧ ((∃ f, s.frames.look (line / 64) = some f ∧ f.zp = true) ∨ s.wq.any (fun w => w.line == line) = true →
        s' = { s with fresh := s.fresh + 1, lineOut := some (line, s.lineAt line) })

/-- A sparing copy takes the next spare row, copies the row's 32 lines one by one, and ends with the row in the repair table, a measured item
(R304, R305, R307). -/
def RowsAreSpared : Prop :=
  (∀ (s : State) (stack row : Nat),
    let r := s.stack stack
    stack < 16 → row < 2 ^ 25 → r.copying.has row = false → (∀ e ∈ r.repair, e.1 ≠ row) → r.used ≠ 1024 →
    ∃ s', exec (.sparingCopyStart stack row) s = .next s' ∧ memorySame s s'
      ∧ (s'.stack stack).used = r.used + 1 ∧ (s'.stack stack).copying.look row = some { p := 0, spare := r.used })
  ∧ ∀ (s : State) (stack row : Nat) (c : Sparing),
    let r := s.stack stack
    r.copying.look row = some c → r.copying.wf = true →
    ∃ s', exec (.sparingLineCopy stack row) s = .next s'
      ∧ (c.p + 1 < 32 → (s'.stack stack).copying.look row = some { c with p := c.p + 1 } ∧ s'.steward = s.steward)
      ∧ (c.p + 1 = 32 → (s'.stack stack).copying.look row = none ∧ (∃ e ∈ (s'.stack stack).repair, e.1 = row ∧ e.2.1 = c.spare)
          ∧ s'.steward.changes = s.steward.changes + 1)

/-! ## Other modules, devices, notify vectors -/

/-- A served class R request: a load answers with its bytes, a store is performed in HBM with its flag raised after it, and a request of an
unknown domain is refused (R348, R354, R355). -/
def RemoteRequestsServed : Prop :=
  (∀ (s : State) (r : RemReq) (c n : Nat) (l : Loc) (b : List Byte), domainCtx s r.domain = some c → r.op = .load n →
    resolve s (.global c) r.va r.va false = .ok l → locRead (ownView s (loopThread s r)) l n = .ok b →
    ∃ s', exec (.remoteRequestServe r) s = .next s' ∧ memorySame s s' ∧ s'.out = s.out ++ [.remoteReply r.id (.data (ofLe b))])
  ∧ (∀ (s : State) (r : RemReq) (c pa : Nat) (b : List Byte) (flag : Option Nat), domainCtx s r.domain = some c → r.op = .store b flag →
    resolve s (.global c) r.va r.va true = .ok (.hbm pa) → queueRoom s (.hbm pa) = true → s.hbm.wf = true → linePoison s (lineOf pa) = false →
    0 < b.length → pa % 64 + b.length ≤ 64 →
    (∀ f, flag = some f → ∃ pf, resolve s (.global c) f f true = .ok (.hbm pf) ∧ pf % 4 = 0 ∧ lineOf pf ≠ lineOf pa
      ∧ linePoison s (lineOf pf) = false ∧ queued s (ownerOf pf) + 1 < Config.writeQueue) →
    ∃ s', exec (.remoteRequestServe r) s = .next s' ∧ s'.out = s.out ++ [.remoteAck r.id false] ∧ hbmRead s' pa b.length = some b
      ∧ ∀ f pf w, flag = some f → resolve s (.global c) f f true = .ok (.hbm pf) → hbmRead s pf 4 = some w →
          hbmRead s' pf 4 = some (leBytes 4 (ofLe w + 1)))
  ∧ ∀ (s : State) (r : RemReq), domainCtx s r.domain = none →
    (∀ n, r.op = .load n → ∃ s', exec (.remoteRequestServe r) s = .next s' ∧ memorySame s s' ∧ s'.out = s.out ++ [.remoteReply r.id .nak])
    ∧ ((∀ n, r.op ≠ .load n) → ∃ s', exec (.remoteRequestServe r) s = .next s' ∧ memorySame s s' ∧ s'.out = s.out ++ [.remoteAck r.id true])

/-- A response that comes in time lands: the bytes, or all ones with NAK set in FABST, and poison faults; after 2^RTO cycles the operation ends with all
ones and TMO; and an acknowledgement ends a remote store or reduction (R351, R354, R355, R360). -/
def RemoteRequestsReturn : Prop :=
  ∀ (s : State) (id : Nat) (p : Pend) (q : Part) (b : Block), s.pend.look id = some p → p.parts = [q] → lander s q →
    s.blocks.look p.blk = some b →
    (∀ d tg va t acq, p.op = .rld d tg va t acq → s.clock ≤ remoteDue s p →
      (∀ v, ∃ s', exec (.rldResponseLands id (.data v)) s = .next s'
        ∧ landed s s' id q [BitVec.ofNat 32 (ITy.write t (ITy.value t v)), BitVec.ofNat 32 (ITy.write t (ITy.value t v) / 2 ^ 32)])
      ∧ (∃ s', exec (.rldResponseLands id .nak) s = .next s' ∧ landed s s' id q (allOnes t)
          ∧ (s'.blocks.look p.blk).map (·.fabst.getLsbD 1) = some true)
      ∧ (running s p.ctx → ∀ line, ∃ s', exec (.rldResponseLands id (.poison line)) s = .next s' ∧ haltedBy s' p.ctx 0x29 ∧ s'.pend.look id = none))
    ∧ (∀ d tg va t acq, p.op = .rld d tg va t acq → remoteDue s p ≤ s.clock →
        ∃ s', exec (.remoteTimeout id) s = .next s' ∧ landed s s' id q (allOnes t) ∧ (s'.blocks.look p.blk).map (·.fabst.getLsbD 0) = some true)
    ∧ (s.clock < remoteDue s p → exec (.remoteTimeout id) s = .next s)
    ∧ ∀ x tgt va n flag rel pfx rts, p.op = .rst x tgt va n flag rel pfx rts →
      (s.clock ≤ remoteDue s p → ∀ nak, ∃ s', exec (.remoteAcknowledgement id nak) s = .next s' ∧ s'.pend.look id = none
        ∧ (s'.blocks.look p.blk).map (·.fabst) = some (if nak then b.fabst ||| 2 else b.fabst))
      ∧ (remoteDue s p ≤ s.clock → ∃ s', exec (.remoteTimeout id) s = .next s' ∧ s'.pend.look id = none
          ∧ (s'.blocks.look p.blk).map (·.fabst) = some (b.fabst ||| 1))

/-- A class L packet for an Armed buffer opens it with the packet's bytes; a packet that waits past its lifetime is dropped, at the sender and at the
receiver; and a buffer closes when it is complete or its window is over, with STATE 3 (R356 to R358). -/
def LossyBuffers : Prop :=
  (∀ (s : State) (p : Packet) (t : Nat) (rest : List (Nat × Packet)) (b : Buf), takeIngress s.ingress p = some (t, rest) → s.clock < t + 2 ^ p.lttl →
    bufOf s p = some b → s.lossy.look b.pa = none → recNat b.hdr 15 1 = 1 → recNat b.hdr 12 2 = p.round.toNat → p.crc = crc32c (packetBytes p) →
    256 ≤ p.va % 2 ^ 15 → (p.va % 2 ^ 15 - 256) / 256 < recNat b.hdr 14 1 → headerBad b.hdr = false →
    (openBuffers s (ownerOf b.pa / 2)).length < 256 → queueRoom s (.hbm b.pa) = true → s.hbm.wf = true → b.pa % 64 = 0 → linePoison s (lineOf b.pa) = false →
    ∃ s' x, exec (.classLPacketReceive p) s = .next s' ∧ s'.ingress = rest ∧ s'.lossy.look b.pa = some x ∧ x.opened = s.clock
      ∧ x.win = recNat b.hdr 16 4 ∧ x.nseg = recNat b.hdr 14 1 ∧ x.got.look ((p.va % 2 ^ 15 - 256) / 256) = some p.enables
      ∧ hbmRead s' (b.pa + 15) 1 = some [2])
  ∧ (∀ (s : State) (p : Packet) (t : Nat) (rest : List (Nat × Packet)), takeIngress s.ingress p = some (t, rest) → t + 2 ^ p.lttl ≤ s.clock →
    ∃ s', exec (.classLIngressExpiry p) s = .next s' ∧ s'.ingress = rest ∧ memorySame s s' ∧ s'.lossy = s.lossy)
  ∧ (∀ (s : State) (p : Packet) (x : Sending) (rest : List Sending), takeSending s.sending p = some (x, rest) →
    ∃ s', exec (.classLSendExpiry p) s = .next s' ∧ s'.sending = rest ∧ memorySame s s'
      ∧ s'.out = s.out ++ (if p.sent + 2 ^ p.lttl ≤ s.clock then [] else [.lossy x.station x.target p]))
  ∧ ∀ (s : State) (pa : Nat) (x : Lossy) (k : Context), s.lossy.look pa = some x → s.lossy.wf = true → s.ctxs.look x.ctx = some k → k.ended = false →
    (allSegs x = false → s.clock < x.opened + x.win → exec (.lossyBufferClose pa) s = .next s)
    ∧ (allSegs x = true ∨ x.opened + x.win ≤ s.clock → s.wq.length + 4 * x.nseg + 2 ≤ Config.writeQueue → s.hbm.wf = true → pa % 64 = 0 → linePoison s (lineOf pa) = false →
      ∃ s', exec (.lossyBufferClose pa) s = .next s' ∧ s'.lossy.look pa = none ∧ hbmRead s' (pa + 15) 1 = some [3])

/-- A station that loses a lane runs at x1, and the steward is told once (R347). -/
def LanesAreLost : Prop :=
  ∀ (s : State) (n : Nat), n < 32 → ∃ s', exec (.stationLaneLoss n) s = .next s' ∧ memorySame s s' ∧ n ∈ s'.lanesLost
    ∧ s'.out = s.out ++ (if n ∈ s.lanesLost then [] else [.report 0 n 0])

/-- A message write to a gated aperture, also one that is gated as it arrives, is latched; one to an awake aperture is held where its group has not
started, or counts as an external arrival; waking delivers every latched write; and a device's message write into the aperture is such an arrival
(R362, R376, R377). -/
def Notifications : Prop :=
  (∀ (s : State) (vec : Nat) (v : Vector), vec < 4096 → s.notify.look vec = some v → s.gated = true →
    ∃ s', exec (.notifyArrival vec) s = .next s' ∧ s'.notify.look vec = some (if v.latched then { v with queued := v.queued + 1 } else v.setBit 23 true))
  ∧ (∀ (s : State) (vec : Nat) (v : Vector), vec < 4096 → s.notify.look vec = some v → s.gated = false → v.named = true →
    v.valid = true → namedGroup s v = .waiting → v.held < 63 →
    ∃ s', exec (.notifyArrival vec) s = .next s' ∧ (Config.pick s.fresh % 2 = 0 → (s'.notify.look vec).map (·.held) = some (v.held + 1))
      ∧ (Config.pick s.fresh % 2 = 1 → s'.gated = true ∧ s'.bars = s.bars))
  ∧ (∀ (s : State) (vec ctx key : Nat) (v : Vector) (b : Barrier), vec < 4096 → s.notify.look vec = some v → s.gated = false → v.named = true →
    v.valid = true → namedGroup s v = .group ctx key → s.stopped ctx = false → s.bars.look key = some b → b.extc + 1 < b.ext → b.ext ≤ 63 →
    ∃ s', exec (.notifyArrival vec) s = .next s' ∧ (Config.pick s.fresh % 2 = 0 → (s'.bars.look key).map (·.extc) = some (b.extc + 1))
      ∧ (Config.pick s.fresh % 2 = 1 → s'.gated = true ∧ s'.bars = s.bars))
  ∧ (∀ (s : State), s.gated = true →
    ∃ s', exec .apertureWake s = .next s' ∧ s'.gated = false ∧ ∀ n v, s'.notify.look n = some v → v.latched = false)
  ∧ ∀ (s : State) (r : DevReq) (v : Nat) (b : List Byte), r.pasid = none → apertureVec r.addr = some v → r.op = .write b →
    exec (.untranslatedDeviceRequest r) s = exec (.notifyArrival v) s

/-- Requests of devices: one under a bound PASID reads through its context's tables, a translated one reads frames of its contexts alone, and any other is
answered Unsupported and reported; ATS and PRI answer what the tables give; and containment of a port ends the doorbells held for it
(R363 to R366, R379). -/
def DeviceRequests : Prop :=
  (∀ (s : State) (r : DevReq) (p c n : Nat) (ls : List (Loc × Nat)) (b : List Byte), r.pasid = some p → s.pasids.look (bindKey r.fn p) = some c →
    r.op = .read n → n ≤ 4096 → devPlaces (ctxPlace s c false) (n / 64 + 2) r.addr n = some ls → devRead s ls = some b →
    ∃ s', exec (.untranslatedDeviceRequest r) s = .next s' ∧ memorySame s s' ∧ s'.out = s.out ++ [.deviceReply true b])
  ∧ (∀ (s : State) (r : DevReq) (p : Nat), r.pasid = some p → s.pasids.look (bindKey r.fn p) = none →
    ∃ s', exec (.untranslatedDeviceRequest r) s = .next s' ∧ memorySame s s' ∧ s'.out = s.out ++ [.deviceReply false [], .report 0x65 r.fn 0])
  ∧ (∀ (s : State) (r : DevReq) (n : Nat), r.op = .read n →
    (∀ ls b, n ≤ 4096 → devPlaces (ownPlace s r.fn) (n / 64 + 2) r.addr n = some ls → devRead s ls = some b →
      ∃ s', exec (.translatedRequest r) s = .next s' ∧ memorySame s s' ∧ s'.out = s.out ++ [.deviceReply true b])
    ∧ (s.ats.contains r.fn = false → 0 < n →
      ∃ s', exec (.translatedRequest r) s = .next s' ∧ memorySame s s' ∧ s'.out = s.out ++ [.deviceReply false [], .report 0x65 r.fn 0]))
  ∧ (∀ (s : State) (fn pasid addr c : Nat) (l : Leaf), s.pasids.look (bindKey fn pasid) = some c → (s.ctx c).atsen = true →
    s.atsLost.contains fn = false → translate s c addr = .ok l →
    ∃ s', exec (.atsTranslationRequest fn pasid addr) s = .next s' ∧ memorySame s s'
      ∧ s'.out = s.out ++ [if l.dev then .atsReply l.pa (l.rd.toNat + 2 * l.wr.toNat) (2 ^ (12 + 2 * l.size)) else .atsReply 0 0 0])
  ∧ (∀ (s : State) (fn pasid addr c : Nat), s.pasids.look (bindKey fn pasid) = some c →
    ∃ s' ok, exec (.priPageRequest fn pasid addr) s = .next s' ∧ s'.out = s.out ++ [.priReply ok] ∧ (ok = true ↔ ∃ l, walk s' c addr = .ok l))
  ∧ ∀ (s : State) (port : Nat), s.bells.wf = true → ∃ s', exec (.dpcContainment port) s = .next s' ∧ (∀ e ∈ s'.bells, bellPort s e.2 port = false)
      ∧ .report 0x79 port 0 ∈ s'.out

/-! ## The steward pair's channel -/

/-- The requests of the measurement protocol: whether the session's state allows one, the answer's code and body, and what the steward then holds (R306,
R307, R433). -/
def spdmRequest (s : State) : Instr → Option (Bool × Nat × List Byte × (Steward → Steward))
  | .getVersion => some (true, 0x04, Config.spdm 0x84 [], fun w => { w with version := true })
  | .getCapabilities => some (s.steward.version, 0x61, Config.spdm 0xE1 [], id)
  | .negotiateAlgorithms o => some (s.steward.version && bit o 0 && bit o 1, 0x63, Config.spdm 0xE3 (leBytes 4 o), fun w => { w with algorithms := true })
  | .getDigests => some (s.steward.algorithms, 0x01, sha256 (chainOf 0) ++ sha256 (chainOf 1), id)
  | .getCertificate n => some (s.steward.algorithms && decide (n < 2), 0x02, chainOf n, id)
  | .challenge nonce => some (s.steward.algorithms, 0x03, Config.spdm 0x83 nonce ++ Config.sign 0 (nonce ++ Config.spdm 0x83 nonce), id)
  | .getMeasurements i =>
    let body := leBytes 1 i ++ (match measurement s i with | some b => leBytes 1 1 ++ b | none => leBytes 1 0)
    some (true, 0x60, body, fun w => if w.session then { w with lastMeas := some body, changesAt := w.changes } else w)
  | .keyExchange o => some (s.steward.algorithms, 0x64, Config.spdm 0xE4 o ++ Config.sign 0 o,
      fun w => { w with pendingKey := true, session := false, lastMeas := none })
  | .finish v => some (s.steward.pendingKey && Config.verify 2 v [], 0x65, Config.spdm 0xE5 [],
      fun w => { w with pendingKey := false, session := true, lastMeas := none })
  | .endSession => some (s.steward.session, 0x6C, Config.spdm 0xEC [], fun w => { w with session := false, lastMeas := none })
  | _ => none

/-- The requests that a steward in recovery still answers. -/
def alwaysAnswered : Instr → Bool
  | .getVersion | .getMeasurements _ => true
  | _ => false

/-- After bring-up a request is answered in order and refused out of order; a steward in recovery answers nothing, and after the third failed fetch
GET_VERSION and GET_MEASUREMENTS alone (R306, R432, R433). -/
def MeasurementRequests : Prop :=
  ∀ (s : State) (i : Instr) (ok : Bool) (code : Nat) (body : List Byte) (f : Steward → Steward), spdmRequest s i = some (ok, code, body, f) →
    (s.steward.up = true → ok = true → exec i s = .next { s with steward := f s.steward, out := s.out ++ [.spdm code body] })
    ∧ (s.steward.up = true → ok = false → exec i s = .next { s with out := s.out ++ [.error 4] })
    ∧ (s.steward.up = false → s.steward.dead = false → exec i s = .next s)
    ∧ (s.steward.dead = true → exec i s = if alwaysAnswered i then
        .next { s with steward := f s.steward, out := s.out ++ [.spdm code body] } else .next s)

/-- The vendor-defined requests of R307 and R433. -/
def isVendor : Instr → Bool
  | .keyRelease .. | .getStatement _ | .setbudget .. | .setthresh .. | .setcfg .. | .reset | .migrate .. | .moduleReplacementStatement .. => true
  | _ => false

/-- A request of a secured session that is granted, but for what it changes. -/
def granted (s s' : State) : Prop := s'.out = s.out ++ [.spdm 0x7E []] ∧ memorySame s s'

/-- A secured session on a steward that is up. -/
def secured (s : State) : Prop := s.steward.up = true ∧ s.steward.session = true

/-- Vendor-defined requests are refused outside a secured session, and within it do what R433 says: key release against the last measurement (R307),
statements on request (R421), budgets, thresholds, the platform configuration, a module reset, and the start of a migration (R426). -/
def VendorRequests : Prop :=
  (∀ (s : State) (i : Instr), isVendor i = true → s.steward.up = true → s.steward.session = false →
    exec i s = .next { s with out := s.out ++ [.error 4] })
  ∧ (∀ (s : State) (c : Nat) (k : Context) (m hash : List Byte), secured s → 1 ≤ c → c < 4096 → s.ctxs.look c = some k → k.ended = false →
    s.steward.lastMeas = some m →
    (sha256 m = hash → s.steward.changes = s.steward.changesAt →
      ∃ s', exec (.keyRelease c hash) s = .next s' ∧ s'.keys.has c = true ∧ (s.keys.has c = true → s'.keys = s.keys)
        ∧ s'.out = s.out ++ [.spdm 0x7E []])
    ∧ (sha256 m ≠ hash ∨ s.steward.changes ≠ s.steward.changesAt → exec (.keyRelease c hash) s = .next { s with out := s.out ++ [.error 4] }))
  ∧ (∀ (s : State) (c : Nat) (k : Context), secured s → s.ctxs.look c = some k →
    ∃ s' k' st, exec (.getStatement c) s = .next s' ∧ granted s s' ∧ s'.ctxs.look c = some k' ∧ k'.sseq = k.sseq + 1
      ∧ k'.statements = k.statements ++ [st] ∧ st.sseq = k.sseq + 1 ∧ st.kind = 1 ∧ st.sig = none)
  ∧ (∀ (s : State) (die mask nj : Nat), secured s → die < 4 → mask < 2 ^ 192 → 256 ≤ nj → nj ≤ 65535 →
    ∃ s', exec (.setbudget die mask nj) s = .next s' ∧ granted s s'
      ∧ ∀ n, (s'.core n).budgetNext = if n / 192 = die ∧ bit mask (n % 192) = true then nj else (s.core n).budgetNext)
  ∧ (∀ (s : State) (c t : Nat), secured s → 1 ≤ c → c < 4096 → ctxFree s c = true → t = 0 ∨ (2 ^ 51 ≤ t ∧ t ≤ 2 ^ 63) →
    ∃ s', exec (.setthresh c t) s = .next s' ∧ granted s s' ∧ s'.steward.thresh.look c = some t)
  ∧ (∀ (s : State) (acc ports : Nat), secured s → acc < 1024 → ports < 2 ^ 16 →
    ∃ s', exec (.setcfg acc ports) s = .next s' ∧ granted s s' ∧ s'.steward.nextAccid = acc ∧ s'.steward.nextPortCfg = BitVec.ofNat 16 ports
      ∧ s'.steward.accid = s.steward.accid)
  ∧ (∀ (s : State), secured s →
    (resetReady s = true → ∃ s', exec .reset s = .next s' ∧ s'.ctxs = [] ∧ s'.steward.step = 1 ∧ s'.clock = 0)
    ∧ (resetReady s = false → ∃ s', exec .reset s = .next s' ∧ granted s s' ∧ s'.steward.resetAsked = true ∧ s'.ctxs = s.ctxs))
  ∧ (∀ (s : State) (c acc die q : Nat) (k : Context), secured s → s.ctxs.look c = some k → k.ended = false → s.migrations.has c = false → acc < 1024 →
    die < 4 → q < 16 →
    (migrateBad s c = true → exec (.migrate c acc die q) s = .next { s with out := s.out ++ [.error 4] })
    ∧ (migrateBad s c = false → ∃ s' k', exec (.migrate c acc die q) s = .next s'
        ∧ s'.migrations.look c = some { ctx := c, acc := acc, die := die, queue := q } ∧ s'.ctxs.look c = some k'
        ∧ (k'.save.isSome = true ∨ ∃ p, k'.preempt = some p ∧ 2 ≤ p.tier)))
  ∧ ∀ (s : State) (c : Nat) (k : Context) (b : List Byte), secured s → s.ctxs.look c = some k → k.sseq = 0 →
    ∃ s' k', exec (.moduleReplacementStatement c b) s = .next s' ∧ s'.ctxs.look c = some k'
      ∧ (stmtOk b = true → k'.sseq = recNat b 48 8 ∧ k'.umac = recNat b 120 8 ∧ k'.gap = true)
      ∧ (stmtOk b = false → k' = k)

/-- The oldest unsigned statement of a context is signed with 7,856 bytes, unless another context's statement of kind 3 comes first, is chained to the one
before it, and stands in frames of KEYID 0 (R422, R424). -/
def StatementsAreSigned : Prop :=
  ∀ (s : State) (c : Nat) (k : Context) (st : Statement), s.ctxs.look c = some k → k.unsigned = some st →
    (st.kind ≠ 3 → (∃ e ∈ s.ctxs, (e.2.unsigned.map (·.kind)) = some 3) → exec (.statementSign c) s = .next s)
    ∧ (st.kind = 3 ∨ (∀ e ∈ s.ctxs, (e.2.unsigned.map (·.kind)) ≠ some 3) → k.statements.length ≤ 256 → 256 ≤ st.body.length →
      ∃ s' k' x, exec (.statementSign c) s = .next s' ∧ s'.device = s.device ∧ s'.allocs = s.allocs ∧ s'.ctxs.look c = some k' ∧ x ∈ k'.statements
        ∧ x.sseq = st.sseq ∧ x.sig = some (pad 7856 (Config.sign 1 x.body)) ∧ (x.body.drop 56).take 32 = pad 32 (if st.sseq = 1 then [] else k.prev)
        ∧ k'.prev = sha256 (x.body ++ pad 7856 (Config.sign 1 x.body)) ∧ k'.lastSigned = st.sseq
        ∧ x.frames.length = cdiv (x.body.length + 7856) 4096
        ∧ ∀ f ∈ x.frames, ∃ y, s'.frames.look f = some y ∧ y.keyid = 0 ∧ y.free = false)

/-- A context that the steward pair creates stands at the reset values of R390 with the threshold set for its number; one that it ends, with no job left,
gets its statement of kind 5 and loses its key, its lossy buffers and its bindings (R300, R390, R417, R421, R433). When either happens is the model's
choice: log 1. -/
def ContextsOpenAndEnd : Prop :=
  (∀ (s : State) (c base pages : Nat) (dom : W16), s.steward.up = true → 1 ≤ c → c < 4096 → ctxFree s c = true → 0 < pages → base + pages ≤ 64 →
    ∃ k, (openContext s c base pages dom).ctxs.look c = some k ∧ k.isbase = base ∧ k.ispages = pages ∧ k.domain = dom ∧ k.fpxc = 0
      ∧ k.fabcfg = 0xE14 ∧ k.trcfg = 0 ∧ k.traph = 0 ∧ k.stepc = 0 ∧ k.wdog = 30 ∧ k.fltpol = 0 ∧ k.fltlog = 0 ∧ k.fltcnt = 0
      ∧ k.thresh = s.steward.thresh.lookD c 0 ∧ k.sseq = 0 ∧ k.statements = [])
  ∧ ∀ (s : State) (c : Nat) (k : Context), s.steward.up = true → s.ctxs.look c = some k → k.ended = false → (∀ e ∈ s.jobs, e.2.ctx ≠ c) →
    s.migrations.has c = false → s.keys.wf = true →
    let s' := endContext s c
    s'.keys.look c = none ∧ (∀ e ∈ s'.lossy, e.2.ctx ≠ c) ∧ (∀ e ∈ s'.pasids, e.2 ≠ c)
      ∧ ∃ k' st, s'.ctxs.look c = some k' ∧ k'.ended = true ∧ k'.statements = k.statements ++ [st] ∧ st.kind = 5 ∧ st.sseq = k.sseq + 1

/-- A migration: the digest of what was sent hands the saved context over, or leaves it saved where it does not check; a signed refusal ends the
migration, with a statement of kind 5 after the hand-over; and a hand-in installs the context with its chain under the number reserved for it, with
every frame of it no longer zero-pending, or is refused with a signed refusal (R425, R426). -/
def Migrations : Prop :=
  (∀ (s : State) (c : Nat) (d b : List Byte) (m : Migration) (k : Context), s.migrations.look c = some m → m.handedOver = false →
    s.ctxs.look c = some k → k.save.isSome = true → s.keys.wf = true → s.jobs.wf = true → s.migrations.wf = true →
    (m.sent = none → exec (.migrationDigestReceived c d) s = .next s)
    ∧ (m.sent = some b →
      let ok := Config.peerVerifies s.fresh = true ∧ d = sha256 b
      (¬ ok → ∃ s', exec (.migrationDigestReceived c d) s = .next s' ∧ s'.migrations.look c = none ∧ s'.ctxs.look c = some k ∧ memorySame s s')
      ∧ (ok → ∃ s' k', exec (.migrationDigestReceived c d) s = .next s' ∧ s'.ctxs.look c = some k'
          ∧ s'.migrations.look c = some { m with handedOver := true } ∧ k'.ended = true ∧ k'.save = none ∧ s'.keys.look c = none
          ∧ (∃ st ∈ k'.statements, st.kind = 4 ∧ st.sseq = k.sseq + 1) ∧ ∀ e ∈ s'.jobs, e.2.ctx ≠ c)))
  ∧ (∀ (s : State) (c : Nat) (m : Migration) (k : Context), s.migrations.look c = some m → s.ctxs.look c = some k → s.migrations.wf = true →
    (m.refusal.any (Config.verify 1 (refusalBody c)) = false → exec (.migrationRefusal c) s = .next s)
    ∧ (m.refusal.any (Config.verify 1 (refusalBody c)) = true →
      ∃ s' k', exec (.migrationRefusal c) s = .next s' ∧ s'.migrations.look c = none ∧ s'.ctxs.look c = some k'
        ∧ (m.handedOver = false → k' = k)
        ∧ (m.handedOver = true → ∃ st, k'.statements = k.statements ++ [st] ∧ st.kind = 5 ∧ st.sseq = k.sseq + 1)))
  ∧ ∀ (s : State) (m : Incoming), s.incoming = some m →
    (m.own = none ∨ handInOk m = false →
      ∃ s', exec .migrationHandIn s = .next s' ∧ s'.incoming = none ∧ s'.ctxs = s.ctxs ∧ s'.jobs = s.jobs
        ∧ s'.out = s.out ++ [.peer m.src 0x7F (refusalBody m.ctx ++ Config.sign 1 (refusalBody m.ctx))])
    ∧ ∀ own, m.own = some own → handInOk m = true →
      (m.jobs = [] → ∃ s', exec .migrationHandIn s = .next s' ∧ s'.incoming = none ∧ s'.ctxs.look own = some (handInCtx s m)
        ∧ (∀ r ∈ m.runs, ∀ i < r.2.1, ∃ x, s'.frames.look (r.2.2 + i) = some x ∧ x.zp = false ∧ x.keyid = (s.frames.lookD (r.2.2 + i) {}).keyid)
        ∧ ∀ t ∈ m.tables, ∃ x, s'.frames.look t.2 = some x ∧ x.zp = false ∧ x.keyid = (s.frames.lookD t.2 {}).keyid)
      ∧ ∀ i j n, m.jobs = [(i, j)] → (s.queue m.die m.queue).en = true → freeSlot (s.queue m.die m.queue) = some n →
        ∃ s', exec .migrationHandIn s = .next s' ∧ s'.ctxs.look own = some (handInCtx s m)
          ∧ s'.jobs.look i = some { j with ctx := own, die := m.die, queue := m.queue, slot := n, st := .running }

/-- A thermal sample sets the die's report: Emergency from 105 degrees, Hot from 95, each left 5 degrees below; from 115 the module powers down
and every context is lost (R430, R431). -/
def ThermalSamples : Prop :=
  ∀ (s : State) (die temp : Nat) (d : Die), s.dies[die]? = some d → die < 4 → d.thermal ≤ 2 →
    (temp < 115 → ∃ s' d', exec (.thermalSample die temp) s = .next s' ∧ memorySame s s' ∧ s'.dies[die]? = some d' ∧ d'.temp = temp ∧ d'.sampled = true
      ∧ (∀ n, n ≠ die → s'.dies[n]? = s.dies[n]?)
      ∧ d'.thermal = if 105 ≤ temp then 2 else if 100 < temp then (if d.thermal = 2 then 2 else 1) else if 95 ≤ temp then 1
          else if 90 < temp then min d.thermal 1 else 0)
    ∧ (115 ≤ temp → ∃ s', exec (.thermalSample die temp) s = .next s' ∧ s'.ctxs = [] ∧ s'.dark = true)

/-- A module reset loses contexts, jobs, threads and keys and starts bring-up again with the stored configuration; an image that verifies is taken into
die 0's scratchpad and bring-up goes on from step 4; a third failure leaves the pair in recovery, where a mismatch of its cores puts it. Step 4 waits for
every die's first sample, then draws the keys and zeroes the metadata; step 5 takes the accelerator ID; step 6 trains and enumerates, and the steward is up
(R16, R348, R431, R432, R434). -/
def BringUp : Prop :=
  (∀ (s : State), s.steward.resetAsked = false ∨ resetReady s = true →
    ∃ s', exec .moduleReset s = .next s' ∧ s'.ctxs = [] ∧ s'.jobs = [] ∧ s'.threads = [] ∧ s'.keys = [] ∧ s'.clock = 0 ∧ s'.steward.step = 1
      ∧ s'.dies = State.reset.dies ∧ s'.steward.nextAccid = s.steward.nextAccid ∧ s'.steward.nextPortCfg = s.steward.nextPortCfg)
  ∧ (∀ (s : State) (image sig : List Byte),
    let read := { s.steward with nvme := Config.flashFails s.fresh, ports := [] }
    (s.steward.recovery = true → s.steward.tries < 3 → ∃ s', exec (.firmwareFetch image sig) s = .next s' ∧ s'.ctxs = s.ctxs
      ∧ (Config.verify 0 image sig = true → s'.steward = { read with step := 4, recovery := false, image := image, firmware := sha256 image })
      ∧ (Config.verify 0 image sig = false → s'.steward = { read with tries := s.steward.tries + 1 }))
    ∧ (s.steward.recovery = false ∨ s.steward.tries = 3 → exec (.firmwareFetch image sig) s = .next s))
  ∧ (∀ (s : State), s.steward.recovery = false →
    (s.steward.step = 4 → (∃ d ∈ s.dies, d.sampled = false) → bringUp s = s)
    ∧ (s.steward.step = 4 → (∀ d ∈ s.dies, d.sampled = true) → (bringUp s).steward.step = 5 ∧ (bringUp s).keys.keys = [0] ∧ (bringUp s).frames = []
        ∧ (bringUp s).hbm = [] ∧ (bringUp s).wq = [] ∧ (bringUp s).ver1 = [] ∧ (bringUp s).ver2 = [] ∧ (bringUp s).ver3 = [] ∧ (bringUp s).root = [])
    ∧ (s.steward.step = 5 → s.steward.idTaken = false → (bringUp s).steward.step = 6 ∧ (bringUp s).steward.accid = s.steward.nextAccid
        ∧ (bringUp s).steward.portCfg = s.steward.nextPortCfg)
    ∧ (s.steward.step = 6 → (clerkMove s (.enumerate [])).steward.up = true ∧ (clerkMove s (.enumerate [])).steward.clerks = true
        ∧ (clerkMove s (.enumerate [])).steward.image = [] ∧ (clerkMove s (.enumerate [])).steward.ports.keys = List.range 8))
  ∧ ∀ (s : State), ∃ s', exec .stewardLockstepMismatch s = .next s' ∧ memorySame s s' ∧ s'.steward.step = 1 ∧ s'.steward.recovery = true
      ∧ s'.steward.session = false ∧ s'.steward.tries = 0 ∧ s'.steward.clerks = false

/-! ## Reset -/

/-- After a module reset there is no context, job or thread; every launch-queue register reads zero, every AP data queue is empty and Closed, and no
AP runs; accumulators are zero; a context starts with FABCFG and WDOG at their defaults; and no line of HBM reads as anything but poison. -/
def ResetState : Prop :=
  State.reset.ctxs = [] ∧ State.reset.jobs = [] ∧ State.reset.threads = [] ∧ State.reset.clock = 0 ∧ State.reset.steward.step = 1
  ∧ (∀ d q off, lqRead (State.reset.queue d q) off = 0)
  ∧ (∀ k q, State.reset.dq k q = [] ∧ queueOpen State.reset k q = false)
  ∧ (∀ k n, (State.reset.ap k n).running = false) ∧ (∀ k t m n, accGet (State.reset.core k).acc t m n = 0)
  ∧ (∀ c, (State.reset.ctx c).fabcfg = 0xE14 ∧ (State.reset.ctx c).wdog = 30 ∧ (State.reset.ctx c).traph = 0 ∧ (State.reset.ctx c).fltcnt = 0)
  ∧ (∀ line, State.reset.lineAt line = none) ∧ State.reset.memWf = true

/-- The thermal report of every die is one that R431 allows after a reset. -/
def ResetKeepsDies : Prop := State.reset.diesOk = true

/-- Every step keeps the thermal report of every die one that R431 allows. -/
def StepKeepsDies : Prop := ∀ s s' : State, s.diesOk = true → step s = .next s' → s'.diesOk = true

end Sys2Proof.Claims

/-! ## The statements -/

/-- Words of the spec's worked encodings decode to the instructions they stand for (R58 to R63). -/
def Obligations.WorkedWordsDecode : Prop := Sys2Proof.Claims.WorkedWordsDecode

/-- Decoding inverts encoding, for every well-formed instruction and every clause header (R54 to R63). -/
def Obligations.DecodeInvertsEncode : Prop := Sys2Proof.Claims.DecodeInvertsEncode

/-- A step runs what the bytes at the slot decode to, or the agenda's event; a module that tripped stands still (R130, R430). The model's choices: log 1, 3. -/
def Obligations.StepRunsTheDecodedInstruction : Prop := Sys2Proof.Claims.StepRunsTheDecodedInstruction ∧ Sys2Proof.Claims.DarkModuleStops

/-- Integer arithmetic: its forms and words, its sources, its exact result, reduced, and its carry (R151, R152, R161). -/
def Obligations.ArithmeticResults : Prop := Sys2Proof.Claims.ArithmeticForms ∧ Sys2Proof.Claims.IntegerSources ∧ Sys2Proof.Claims.ReductionOfResults ∧ Sys2Proof.Claims.ArithmeticResults ∧ Sys2Proof.Claims.CarryUnderFalseGuard

/-- Logic, shifts, fields, counts, copies and predicates: their forms and words, and the bits of their rules (R153 to R160, R162). -/
def Obligations.BitAndPredicateResults : Prop := Sys2Proof.Claims.BitForms ∧ Sys2Proof.Claims.BitResults ∧ Sys2Proof.Claims.PredicateResults ∧ Sys2Proof.Claims.SourceSeven

/-- Floating-point arithmetic and tests (R187 to R198). The model's choices: log 54. -/
def Obligations.FloatResults : Prop := Sys2Proof.Claims.FloatResults ∧ Sys2Proof.Claims.FloatPredicates ∧ Sys2Proof.Claims.ExactThenRounded ∧ Sys2Proof.Claims.SelectedAndClassed

/-- Enabled exceptions, TRAP and BRK enter the handler with their frame (R169, R190, R392 to R394). -/
def Obligations.TrapsEnterTheHandler : Prop := Sys2Proof.Claims.EnabledExceptionTraps ∧ Sys2Proof.Claims.TrapAndBreakEnterTheHandler

/-- A trap that waited is entered, or faults where no handler can take it (R394). -/
def Obligations.WaitingTraps : Prop := Sys2Proof.Claims.WaitingTrapEnters ∧ Sys2Proof.Claims.TrapWithoutHandlerFaults

/-- Special functions issue, are accepted in order and land (R44, R199 to R201). The model's choices: log 10. -/
def Obligations.SfuOperations : Prop := Sys2Proof.Claims.SfuIssues ∧ Sys2Proof.Claims.SfuLands

/-- What instructions leave alone at issue. -/
def Obligations.Frames : Prop := Sys2Proof.Claims.ComputeFrame ∧ Sys2Proof.Claims.IssueFrame ∧ Sys2Proof.Claims.RemainingFrames

/-- Members whose guard is false, and the next instruction (R36, R39). -/
def Obligations.IssueOfTheSet : Prop := Sys2Proof.Claims.GuardedOff ∧ Sys2Proof.Claims.NextInstruction

/-- Branches (R164). -/
def Obligations.JumpsReachTheirTarget : Prop := Sys2Proof.Claims.JumpsReachTheirTarget

/-- Bad targets, barrier misuse and mask mismatches raise their fault (R164, R211, R334). -/
def Obligations.ControlFaults : Prop := Sys2Proof.Claims.BadTargetFaults ∧ Sys2Proof.Claims.BarrierMisuse ∧ Sys2Proof.Claims.MaskMismatchFaults

/-- Calls push and returns pop (R49, R163 to R165, R395). -/
def Obligations.ControlStack : Prop := Sys2Proof.Claims.CallsPushAndGo ∧ Sys2Proof.Claims.RetPops

/-- EXIT retires its thread, and YIELD keeps no set (R28, R35, R133, R168). The model's choices: log 32. -/
def Obligations.ExitAndYield : Prop := Sys2Proof.Claims.ExitRetires ∧ Sys2Proof.Claims.YieldKeepsNoSet

/-- Special and privileged registers and shape fields read as their rules say (R51, R170, R175, R390, R391). The model's choices: log 5, 60. -/
def Obligations.RegisterReads : Prop := Sys2Proof.Claims.RegisterReads

/-- Writes of special and privileged registers (R50, R52, R171, R390, R391). -/
def Obligations.SpecialRegisterWrites : Prop := Sys2Proof.Claims.SpecialWrites ∧ Sys2Proof.Claims.PrivilegedWrites

/-- Barrier arrivals (R172, R331, R332). The model's choices: log 55. -/
def Obligations.Arrivals : Prop := Sys2Proof.Claims.Arrivals

/-- Barrier waits and their end (R34, R173, R333). The model's choices: log 55. -/
def Obligations.BarrierWaits : Prop := Sys2Proof.Claims.BarrierWaits ∧ Sys2Proof.Claims.BarrierReinserts

/-- Shape fields, loads and stores of shape registers (R174 to R176). The model's choices: log 43. -/
def Obligations.ShapeRegisters : Prop := Sys2Proof.Claims.ShapeFieldWrites ∧ Sys2Proof.Claims.ShapeLoads ∧ Sys2Proof.Claims.ShapeStores

/-- Class G results, with the sums of the reduction tree (R207 to R216). -/
def Obligations.GangResults : Prop := Sys2Proof.Claims.GangForms ∧ Sys2Proof.Claims.GangResults ∧ Sys2Proof.Claims.TreeReductions ∧ Sys2Proof.Claims.NoActiveMember

/-- QPOP (R217). -/
def Obligations.QueuePops : Prop := Sys2Proof.Claims.QueuePops

/-- Loads issue and land (R225 to R227). The model's choices: log 41. -/
def Obligations.Loads : Prop := Sys2Proof.Claims.LoadsIssue ∧ Sys2Proof.Claims.LoadsLand

/-- Stores issue, and write when their point of coherence accepts them (R228, R312, R313, R374). The model's choices: log 41. -/
def Obligations.Stores : Prop := Sys2Proof.Claims.StoresIssue ∧ Sys2Proof.Claims.AcceptedStoreWrites

/-- Checks of an address (R221, R222). The model's choices: log 18. -/
def Obligations.AccessFaults : Prop := Sys2Proof.Claims.AccessFaults

/-- Atomics issue, are performed as one step and land (R312, R336 to R340). The model's choices: log 45, 46. -/
def Obligations.Atomics : Prop := Sys2Proof.Claims.AtomicsIssue ∧ Sys2Proof.Claims.AtomicsPerform ∧ Sys2Proof.Claims.AtomicOperations

/-- WAITMEM sleeps and wakes (R232). The model's choices: log 33. -/
def Obligations.WaitsOnMemory : Prop := Sys2Proof.Claims.WaitsOnMemory

/-- Fences wait for their prefix and hold back what follows (R318, R342, R343). The model's choices: log 42. -/
def Obligations.Fences : Prop := Sys2Proof.Claims.FencesWaitForTheirPrefix ∧ Sys2Proof.Claims.FencesHoldBack

/-- PROBE counts routes (R323, R344). The model's choices: log 42. -/
def Obligations.Probes : Prop := Sys2Proof.Claims.ProbesCountRoutes

/-- Class R requests and class L packets leave (R353, R354, R356). The model's choices: log 47, 48. -/
def Obligations.RemoteRequestsLeave : Prop := Sys2Proof.Claims.RemoteRequests ∧ Sys2Proof.Claims.LossyStoresAreSent

/-- Commands of class X are handed over (R115, R253, R255, R261, R262, R265, R373). The model's choices: log 23. -/
def Obligations.CommandsIssue : Prop := Sys2Proof.Claims.CopiesIssue ∧ Sys2Proof.Claims.CommandsIssue

/-- Windows and BAR.EXP (R257, R266). The model's choices: log 24. -/
def Obligations.WindowsAndExpectedBytes : Prop := Sys2Proof.Claims.Windows ∧ Sys2Proof.Claims.ExpectedBytes ∧ Sys2Proof.Claims.AnswersLand

/-- OVL and OVREL (R142, R145). The model's choices: log 24. -/
def Obligations.OverlayCommands : Prop := Sys2Proof.Claims.OverlayCommands

/-- Matrix commands take their place in the array's queue (R271, R277, R278). The model's choices: log 23. -/
def Obligations.MatrixCommandsQueue : Prop := Sys2Proof.Claims.MatrixCommandsQueue

/-- Access processors: arithmetic, loops, branches and guards (R243, R246, R247). -/
def Obligations.ApArithmetic : Prop := Sys2Proof.Claims.ApResults ∧ Sys2Proof.Claims.ApGuardedOff

/-- Access processors: data queues and signals (R246, R247). The model's choices: log 26. -/
def Obligations.ApQueues : Prop := Sys2Proof.Claims.ApQueues ∧ Sys2Proof.Claims.ApQueueFullWaits

/-- Access processors: hand-off, start and entries (R242, R244, R246). The model's choices: log 26. -/
def Obligations.ApProgramsStart : Prop := Sys2Proof.Claims.ApProgramsStart

/-- The picker takes the oldest candidate, and its set issues (R129, R130, R133, R147). The model's choices: log 34, 64. -/
def Obligations.Picker : Prop := Sys2Proof.Claims.PickIsOldest ∧ Sys2Proof.Claims.GathersForm

/-- Copies, follow-on products, window fills and chains complete (R234, R250 to R255, R262, R263). The model's choices: log 20, 21. -/
def Obligations.EnginesComplete : Prop := Sys2Proof.Claims.CopiesComplete ∧ Sys2Proof.Claims.FollowOnsIssue ∧ Sys2Proof.Claims.FillsComplete ∧ Sys2Proof.Claims.ChainsComplete

/-- PUBL, DECTAB, LAUNCH, DBELL and TLBINV complete (R115, R261, R265, R371, R373). The model's choices: log 25, 57. -/
def Obligations.CommandsComplete : Prop := Sys2Proof.Claims.SwapsComplete ∧ Sys2Proof.Claims.TablesBind ∧ Sys2Proof.Claims.LaunchesDecide ∧ Sys2Proof.Claims.DoorbellsSend ∧ Sys2Proof.Claims.InvalidationsComplete

/-- Overlay loads (R143). The model's choices: log 44. -/
def Obligations.OverlayLoads : Prop := Sys2Proof.Claims.OverlayLoads

/-- Matrix commands run; narrow-first attempts squash and commit (R271, R275, R278, R283, R284, R286). The model's choices: log 20, 53. -/
def Obligations.MatrixRuns : Prop := Sys2Proof.Claims.MatrixCommandsRun ∧ Sys2Proof.Claims.NarrowFirst

/-- TLBINV, ASSAYRD, CTXSAVE, CTXLOAD and HALTX (R371, R411, R420). The model's choices: log 24, 39. -/
def Obligations.StewardInstructions : Prop := Sys2Proof.Claims.InvalidationsIssue ∧ Sys2Proof.Claims.CountersRead ∧ Sys2Proof.Claims.ContextInstructions

/-- Quiescence, the verdict, page service and the watchdog (R398, R400 to R404). The model's choices: log 36, 37, 38. -/
def Obligations.HaltedContexts : Prop := Sys2Proof.Claims.HaltsBecomeQuiet ∧ Sys2Proof.Claims.Verdicts ∧ Sys2Proof.Claims.PageService ∧ Sys2Proof.Claims.WatchdogExpires

/-- Tiers 1 to 3 of pre-emption (R405 to R407). The model's choices: log 39. -/
def Obligations.Preemption : Prop := Sys2Proof.Claims.Preemption

/-- Records handed over through LQSUB (R97 to R102). The model's choices: log 27, 31, 63, 67, 68. -/
def Obligations.LaunchRecords : Prop := Sys2Proof.Claims.LaunchRecords ∧ Sys2Proof.Claims.LaunchRecordsTurnedAway

/-- Writes of queue registers and of plain registers (R95, R96, R101, R106, R370, R375). The model's choices: log 31, 61, 68. -/
def Obligations.QueueRegisters : Prop := Sys2Proof.Claims.QueueRegisters ∧ Sys2Proof.Claims.RegisterWrites

/-- Placement passes (R116, R119). The model's choices: log 30. -/
def Obligations.PlacementPasses : Prop := Sys2Proof.Claims.PlacementPasses

/-- Feeding, binning and the governor's window (R121, R124, R126 to R128). The model's choices: log 28, 56. -/
def Obligations.Pipelines : Prop := Sys2Proof.Claims.PipelinesFeed ∧ Sys2Proof.Claims.BinsKeepItems ∧ Sys2Proof.Claims.GovernorWindows

/-- Retirement of grids and jobs (R33, R105, R107, R416, R421). The model's choices: log 42. -/
def Obligations.GridsRetire : Prop := Sys2Proof.Claims.GridsRetire

/-- Line writes and reads behind a controller, and row sparing (R298, R301, R302, R304, R305). The model's choices: log 14, 15, 16. -/
def Obligations.MemoryLines : Prop := Sys2Proof.Claims.LineWrites ∧ Sys2Proof.Claims.LineReads ∧ Sys2Proof.Claims.RowsAreSpared

/-- Class R requests served and answered (R325, R348, R351, R354, R355, R360). The model's choices: log 48. -/
def Obligations.RemoteModules : Prop := Sys2Proof.Claims.RemoteRequestsServed ∧ Sys2Proof.Claims.RemoteRequestsReturn

/-- Class L packets and buffers, and station lanes (R347, R356 to R358). The model's choices: log 47. -/
def Obligations.LossyBuffers : Prop := Sys2Proof.Claims.LossyBuffers ∧ Sys2Proof.Claims.LanesAreLost

/-- Message writes, device requests, ATS, PRI and containment (R362 to R366, R376, R377, R379). The model's choices: log 49. -/
def Obligations.DevicesAndNotifications : Prop := Sys2Proof.Claims.Notifications ∧ Sys2Proof.Claims.DeviceRequests

/-- The measurement protocol (R306, R432, R433). The model's choices: log 12. -/
def Obligations.MeasurementRequests : Prop := Sys2Proof.Claims.MeasurementRequests

/-- Vendor-defined requests (R307, R421, R425, R426, R433). The model's choices: log 11. -/
def Obligations.VendorRequests : Prop := Sys2Proof.Claims.VendorRequests

/-- Signing, and the steps of a migration (R422, R424 to R426). The model's choices: log 1, 52, 69. -/
def Obligations.StatementsAndMigrations : Prop := Sys2Proof.Claims.StatementsAreSigned ∧ Sys2Proof.Claims.ContextsOpenAndEnd ∧ Sys2Proof.Claims.Migrations

/-- Thermal samples, module reset and bring-up (R16, R430 to R432, R434). The model's choices: log 1, 50, 51. -/
def Obligations.HeatAndBringUp : Prop := Sys2Proof.Claims.ThermalSamples ∧ Sys2Proof.Claims.BringUp

/-- The module after a reset (R95, R245, R270, R390, R431). The model's choices: log 7, 8. -/
def Obligations.ResetState : Prop := Sys2Proof.Claims.ResetState ∧ Sys2Proof.Claims.ResetKeepsDies

/-- An invariant of every step (R430, R431). -/
def Obligations.StepKeepsDies : Prop := Sys2Proof.Claims.StepKeepsDies
end

