-- ==== Sys2Proof/Laws/Map.lean ====
section
/-! SUPPORT. Laws of the two sparse containers: reads after writes, and the canonical forms that every operation keeps. -/

namespace Sys2Proof

namespace AMap
variable {α : Type}

theorem look_put_same (m : AMap α) (a : Nat) (x : α) : look (put m a x) a = some x := by
  induction m with
  | nil => simp [put, look]
  | cons e m ih =>
    obtain ⟨k, v⟩ := e
    simp only [put]
    split
    · simp [look]
    · split
      · simp [look]
      · rename_i h1 h2
        simp [look, h1, h2, ih]

theorem look_put_other (m : AMap α) {a b : Nat} (x : α) (h : b ≠ a) : look (put m a x) b = look m b := by
  induction m with
  | nil => simp [put, look, h]
  | cons e m ih =>
    obtain ⟨k, v⟩ := e
    simp only [put]
    split
    · rename_i h1
      by_cases hb : b < a
      · have : b < k := by omega
        simp [look, h, hb, this, Nat.ne_of_lt this]
      · simp [look, h, hb]
    · split
      · rename_i h1 h2
        subst h2
        simp [look, h]
      · simp only [look, ih]

@[simp] theorem look_put (m : AMap α) (a b : Nat) (x : α) : look (put m a x) b = if b = a then some x else look m b := by
  split
  · rename_i h; subst h; exact look_put_same m b x
  · rename_i h; exact look_put_other m x h

@[simp] theorem look_upd (m : AMap α) (a b : Nat) (f : α → α) :
    look (upd m a f) b = if b = a then (look m b).map f else look m b := by
  unfold upd
  split
  · rename_i v h
    rw [look_put]
    split
    · rename_i e; subst e; simp [h]
    · rfl
  · rename_i h
    split
    · rename_i e; subst e; simp [h]
    · rfl

theorem wfFrom_mono {m : AMap α} {lo lo' : Nat} (h : lo' ≤ lo) (w : wfFrom lo m = true) : wfFrom lo' m = true := by
  cases m with
  | nil => rfl
  | cons e m =>
    obtain ⟨k, v⟩ := e
    simp only [wfFrom, Bool.and_eq_true, decide_eq_true_eq] at w ⊢
    exact ⟨by omega, w.2⟩

theorem look_lt_wf {m : AMap α} {lo b : Nat} (w : wfFrom lo m = true) (h : b < lo) : look m b = none := by
  cases m with
  | nil => rfl
  | cons e m =>
    obtain ⟨k, v⟩ := e
    simp only [wfFrom, Bool.and_eq_true, decide_eq_true_eq] at w
    have : b < k := by omega
    simp [look, this, Nat.ne_of_lt this]

theorem wfFrom_put {m : AMap α} {lo a : Nat} (x : α) (w : wfFrom lo m = true) (h : lo ≤ a) : wfFrom lo (put m a x) = true := by
  induction m generalizing lo with
  | nil => simp [put, wfFrom, h]
  | cons e m ih =>
    obtain ⟨k, v⟩ := e
    simp only [wfFrom, Bool.and_eq_true, decide_eq_true_eq] at w
    simp only [put]
    split
    · simp only [wfFrom, Bool.and_eq_true, decide_eq_true_eq]
      exact ⟨h, by omega, w.2⟩
    · split
      · rename_i h1 h2
        subst h2
        simp only [wfFrom, Bool.and_eq_true, decide_eq_true_eq]
        exact ⟨h, w.2⟩
      · simp only [wfFrom, Bool.and_eq_true, decide_eq_true_eq]
        exact ⟨w.1, ih w.2 (by omega)⟩

theorem wfFrom_del {m : AMap α} {lo : Nat} (a : Nat) (w : wfFrom lo m = true) : wfFrom lo (del m a) = true := by
  induction m generalizing lo with
  | nil => rfl
  | cons e m ih =>
    obtain ⟨k, v⟩ := e
    have w' := w
    simp only [wfFrom, Bool.and_eq_true, decide_eq_true_eq] at w
    simp only [del]
    split
    · exact w'
    · split
      · exact wfFrom_mono (by omega) w.2
      · simp only [wfFrom, Bool.and_eq_true, decide_eq_true_eq]
        exact ⟨w.1, ih w.2⟩

theorem wf_put {m : AMap α} (a : Nat) (x : α) (w : wf m = true) : wf (put m a x) = true := wfFrom_put x w (Nat.zero_le a)
theorem wf_del {m : AMap α} (a : Nat) (w : wf m = true) : wf (del m a) = true := wfFrom_del a w
theorem wf_upd {m : AMap α} (a : Nat) (f : α → α) (w : wf m = true) : wf (upd m a f) = true := by
  unfold upd
  split
  · exact wf_put a _ w
  · exact w

theorem look_del_from {m : AMap α} {lo : Nat} (a b : Nat) (w : wfFrom lo m = true) :
    look (del m a) b = if b = a then none else look m b := by
  induction m generalizing lo with
  | nil => simp [del, look]
  | cons e m ih =>
    obtain ⟨k, v⟩ := e
    simp only [wfFrom, Bool.and_eq_true, decide_eq_true_eq] at w
    simp only [del]
    split
    · rename_i h
      split
      · rename_i e; subst e
        simp [look, h, Nat.ne_of_lt h]
      · rfl
    · split
      · rename_i h1 h2
        subst h2
        split
        · rename_i e; subst e
          exact look_lt_wf w.2 (by omega)
        · rename_i hb
          by_cases hlt : b < a
          · simp [look, hb, hlt, look_lt_wf w.2 (show b < a + 1 by omega)]
          · simp [look, hb, hlt]
      · simp only [look, ih w.2]
        split
        · rename_i h1 h2 hk
          rw [if_neg (by omega)]
        · split <;> rename_i h1 h2 h3 h4
          · split <;> rfl
          · rfl

theorem look_del {m : AMap α} (a b : Nat) (w : wf m = true) : look (del m a) b = if b = a then none else look m b :=
  look_del_from a b w

end AMap

namespace Mem

theorem wfFrom_mono {m : Mem} {lo lo' : Nat} (h : lo' ≤ lo) (w : wfFrom lo m = true) : wfFrom lo' m = true := by
  cases m with
  | nil => rfl
  | cons e m =>
    obtain ⟨k, v⟩ := e
    simp only [wfFrom, Bool.and_eq_true, decide_eq_true_eq] at w ⊢
    exact ⟨⟨by omega, w.1.2⟩, w.2⟩

theorem read_lt_wf {m : Mem} {lo b : Nat} (w : wfFrom lo m = true) (h : b < lo) : read m b = 0 := by
  cases m with
  | nil => rfl
  | cons e m =>
    obtain ⟨k, v⟩ := e
    simp only [wfFrom, Bool.and_eq_true, decide_eq_true_eq] at w
    have : b < k := by omega
    simp [read, this, Nat.ne_of_lt this]

theorem wfFrom_erase {m : Mem} {lo : Nat} (a : Nat) (w : wfFrom lo m = true) : wfFrom lo (erase m a) = true := by
  induction m generalizing lo with
  | nil => rfl
  | cons e m ih =>
    obtain ⟨k, v⟩ := e
    have w' := w
    simp only [wfFrom, Bool.and_eq_true, decide_eq_true_eq] at w
    simp only [erase]
    split
    · exact w'
    · split
      · exact wfFrom_mono (by omega) w.2
      · simp only [wfFrom, Bool.and_eq_true, decide_eq_true_eq]
        exact ⟨w.1, ih w.2⟩

theorem wfFrom_insert {m : Mem} {lo a : Nat} {b : Byte} (w : wfFrom lo m = true) (h : lo ≤ a) (hb : b ≠ 0) :
    wfFrom lo (insert m a b) = true := by
  induction m generalizing lo with
  | nil => simpa [insert, wfFrom, h] using hb
  | cons e m ih =>
    obtain ⟨k, v⟩ := e
    simp only [wfFrom, Bool.and_eq_true, decide_eq_true_eq] at w
    simp only [insert]
    split
    · simp only [wfFrom, Bool.and_eq_true, decide_eq_true_eq]
      exact ⟨⟨h, hb⟩, ⟨by omega, w.1.2⟩, w.2⟩
    · split
      · rename_i h1 h2
        subst h2
        simp only [wfFrom, Bool.and_eq_true, decide_eq_true_eq]
        exact ⟨⟨h, hb⟩, w.2⟩
      · simp only [wfFrom, Bool.and_eq_true, decide_eq_true_eq]
        exact ⟨w.1, ih w.2 (by omega)⟩

theorem wf_write {m : Mem} (a : Nat) (b : Byte) (w : wf m = true) : wf (write m a b) = true := by
  unfold write
  split
  · exact wfFrom_erase a w
  · rename_i h; exact wfFrom_insert w (Nat.zero_le a) h

theorem wf_writeN {m : Mem} (a : Nat) (l : List Byte) (w : wf m = true) : wf (writeN m a l) = true := by
  induction l generalizing m a with
  | nil => exact w
  | cons b l ih => exact ih (a + 1) (wf_write a b w)

theorem wfFrom_filter {m : Mem} {lo : Nat} (p : Host.Cell → Bool) (w : wfFrom lo m = true) : wfFrom lo (m.filter p) = true := by
  induction m generalizing lo with
  | nil => rfl
  | cons e m ih =>
    obtain ⟨k, v⟩ := e
    simp only [wfFrom, Bool.and_eq_true, decide_eq_true_eq] at w
    simp only [List.filter]
    split
    · simp only [wfFrom, Bool.and_eq_true, decide_eq_true_eq]
      exact ⟨w.1, ih w.2⟩
    · exact wfFrom_mono (by omega) (ih w.2)

theorem wf_clear {m : Mem} (lo hi : Nat) (w : wf m = true) : wf (clear m lo hi) = true := wfFrom_filter _ w

theorem wf_foldl {β : Type} (f : Mem → β → Mem) (hf : ∀ m x, wf m = true → wf (f m x) = true) (l : List β) {m : Mem}
    (w : wf m = true) : wf (l.foldl f m) = true := by
  induction l generalizing m with
  | nil => exact w
  | cons x l ih => exact ih (hf m x w)

theorem read_erase {m : Mem} {lo : Nat} (a b : Nat) (w : wfFrom lo m = true) :
    read (erase m a) b = if b = a then 0 else read m b := by
  induction m generalizing lo with
  | nil => simp [erase, read]
  | cons e m ih =>
    obtain ⟨k, v⟩ := e
    simp only [wfFrom, Bool.and_eq_true, decide_eq_true_eq] at w
    simp only [erase]
    split
    · rename_i h
      split
      · rename_i e; subst e
        simp [read, h, Nat.ne_of_lt h]
      · rfl
    · split
      · rename_i h1 h2
        subst h2
        split
        · rename_i e; subst e
          exact read_lt_wf w.2 (by omega)
        · rename_i hb
          by_cases hlt : b < a
          · simp [read, hb, hlt, read_lt_wf w.2 (show b < a + 1 by omega)]
          · simp [read, hb, hlt]
      · simp only [read, ih w.2]
        split
        · rename_i h1 h2 hk
          rw [if_neg (by omega)]
        · split <;> rename_i h1 h2 h3 h4
          · split <;> rfl
          · rfl

theorem read_insert (m : Mem) (a b : Nat) (x : Byte) : read (insert m a x) b = if b = a then x else read m b := by
  induction m with
  | nil =>
    by_cases h : b = a
    · simp [insert, read, h]
    · simp [insert, read, h]
  | cons e m ih =>
    obtain ⟨k, v⟩ := e
    simp only [insert]
    split
    · rename_i h1
      by_cases h : b = a
      · simp [read, h]
      · by_cases hb : b < a
        · have : b < k := by omega
          simp [read, h, hb, this, Nat.ne_of_lt this]
        · simp [read, h, hb]
    · split
      · rename_i h1 h2
        subst h2
        by_cases h : b = a
        · simp [read, h]
        · simp [read, h]
      · rename_i h1 h2
        simp only [read, ih]
        by_cases hk : b = k
        · rw [if_pos hk, if_pos hk, if_neg (by omega)]
        · rw [if_neg hk, if_neg hk]
          by_cases hb : b < k
          · rw [if_pos hb, if_pos hb, if_neg (by omega)]
          · rw [if_neg hb, if_neg hb]

/-- A byte that was written is read back, and every other byte is as it was. -/
theorem read_write {m : Mem} (a b : Nat) (x : Byte) (w : wf m = true) :
    read (write m a x) b = if b = a then x else read m b := by
  unfold write
  split
  · rename_i h; rw [read_erase a b w, h]
  · exact read_insert m a b x

/-- A run that was written is read back, and every byte outside it is as it was. -/
theorem read_writeN {m : Mem} (a b : Nat) (l : List Byte) (w : wf m = true) :
    read (writeN m a l) b = if a ≤ b ∧ b < a + l.length then l.getD (b - a) 0 else read m b := by
  induction l generalizing m a with
  | nil =>
    have h : ¬ (a ≤ b ∧ b < a + 0) := by omega
    simp only [writeN, List.length_nil, if_neg h]
  | cons x l ih =>
    simp only [writeN, List.length_cons]
    rw [ih (a + 1) (wf_write a x w), read_write a b x w]
    by_cases h : b = a
    · subst h
      rw [if_neg (by omega), if_pos rfl, if_pos (by omega)]
      simp
    · by_cases h2 : a + 1 ≤ b ∧ b < a + 1 + l.length
      · rw [if_pos h2, if_pos (by omega)]
        obtain ⟨n, rfl⟩ : ∃ n, b = a + 1 + n := ⟨b - (a + 1), by omega⟩
        have e1 : a + 1 + n - (a + 1) = n := by omega
        have e2 : a + 1 + n - a = n + 1 := by omega
        rw [e1, e2]
        simp
      · rw [if_neg h2, if_neg h, if_neg (by omega)]

/-- Two canonical memories that read alike are the same list. -/
theorem ext_from {m m' : Mem} {lo : Nat} (w : wfFrom lo m = true) (w' : wfFrom lo m' = true)
    (h : ∀ a, read m a = read m' a) : m = m' := by
  induction m generalizing lo m' with
  | nil =>
    cases m' with
    | nil => rfl
    | cons e m' =>
      obtain ⟨k, v⟩ := e
      simp only [wfFrom, Bool.and_eq_true, decide_eq_true_eq] at w'
      have := h k
      simp [read] at this
      exact absurd this.symm w'.1.2
  | cons e m ih =>
    obtain ⟨k, v⟩ := e
    simp only [wfFrom, Bool.and_eq_true, decide_eq_true_eq] at w
    cases m' with
    | nil =>
      have := h k
      simp [read] at this
      exact absurd this w.1.2
    | cons e' m' =>
      obtain ⟨k', v'⟩ := e'
      simp only [wfFrom, Bool.and_eq_true, decide_eq_true_eq] at w'
      have hk : k = k' := by
        rcases Nat.lt_trichotomy k k' with hl | he | hg
        · have := h k
          simp [read, hl, Nat.ne_of_lt hl] at this
          exact absurd this w.1.2
        · exact he
        · have := h k'
          simp [read, hg, Nat.ne_of_lt hg] at this
          exact absurd this.symm w'.1.2
      subst hk
      have hv : v = v' := by simpa [read] using h k
      subst hv
      have : m = m' := ih w.2 w'.2 fun a => by
        by_cases ha : a ≤ k
        · rw [read_lt_wf w.2 (by omega), read_lt_wf w'.2 (by omega)]
        · have := h a
          simpa [read, show ¬ a = k by omega, show ¬ a < k by omega] using this
      rw [this]

theorem ext {m m' : Mem} (w : wf m = true) (w' : wf m' = true) (h : ∀ a, read m a = read m' a) : m = m' := ext_from w w' h

end Mem
end Sys2Proof
end

