-- ==== Sys2Proof/Laws/State.lean ====
section
/-! SUPPORT. What each named update of the state leaves in each field: one lemma per field per update. -/

namespace Sys2Proof.Machine.State

variable (s : State)

/-! ### setCore -/

@[simp] theorem setCore_clock (k : Nat) (c : CoreRec) : (s.setCore k c).clock = s.clock := rfl
@[simp] theorem setCore_agenda (k : Nat) (c : CoreRec) : (s.setCore k c).agenda = s.agenda := rfl
@[simp] theorem setCore_focus (k : Nat) (c : CoreRec) : (s.setCore k c).focus = s.focus := rfl
@[simp] theorem setCore_focusAp (k : Nat) (c : CoreRec) : (s.setCore k c).focusAp = s.focusAp := rfl
@[simp] theorem setCore_nextId (k : Nat) (c : CoreRec) : (s.setCore k c).nextId = s.nextId := rfl
@[simp] theorem setCore_fresh (k : Nat) (c : CoreRec) : (s.setCore k c).fresh = s.fresh := rfl
@[simp] theorem setCore_cores (k : Nat) (c : CoreRec) : (s.setCore k c).cores = s.cores.put k c := rfl
@[simp] theorem setCore_threads (k : Nat) (c : CoreRec) : (s.setCore k c).threads = s.threads := rfl
@[simp] theorem setCore_blocks (k : Nat) (c : CoreRec) : (s.setCore k c).blocks = s.blocks := rfl
@[simp] theorem setCore_groups (k : Nat) (c : CoreRec) : (s.setCore k c).groups = s.groups := rfl
@[simp] theorem setCore_grids (k : Nat) (c : CoreRec) : (s.setCore k c).grids = s.grids := rfl
@[simp] theorem setCore_jobs (k : Nat) (c : CoreRec) : (s.setCore k c).jobs = s.jobs := rfl
@[simp] theorem setCore_codes (k : Nat) (c : CoreRec) : (s.setCore k c).codes = s.codes := rfl
@[simp] theorem setCore_ctxs (k : Nat) (c : CoreRec) : (s.setCore k c).ctxs = s.ctxs := rfl
@[simp] theorem setCore_parts (k : Nat) (c : CoreRec) : (s.setCore k c).parts = s.parts := rfl
@[simp] theorem setCore_queues (k : Nat) (c : CoreRec) : (s.setCore k c).queues = s.queues := rfl
@[simp] theorem setCore_allocs (k : Nat) (c : CoreRec) : (s.setCore k c).allocs = s.allocs := rfl
@[simp] theorem setCore_bars (k : Nat) (c : CoreRec) : (s.setCore k c).bars = s.bars := rfl
@[simp] theorem setCore_pubs (k : Nat) (c : CoreRec) : (s.setCore k c).pubs = s.pubs := rfl
@[simp] theorem setCore_pend (k : Nat) (c : CoreRec) : (s.setCore k c).pend = s.pend := rfl
@[simp] theorem setCore_stores (k : Nat) (c : CoreRec) : (s.setCore k c).stores = s.stores := rfl
@[simp] theorem setCore_redoStores (k : Nat) (c : CoreRec) : (s.setCore k c).redoStores = s.redoStores := rfl
@[simp] theorem setCore_redoLoads (k : Nat) (c : CoreRec) : (s.setCore k c).redoLoads = s.redoLoads := rfl
@[simp] theorem setCore_claims (k : Nat) (c : CoreRec) : (s.setCore k c).claims = s.claims := rfl
@[simp] theorem setCore_rels (k : Nat) (c : CoreRec) : (s.setCore k c).rels = s.rels := rfl
@[simp] theorem setCore_traces (k : Nat) (c : CoreRec) : (s.setCore k c).traces = s.traces := rfl
@[simp] theorem setCore_scLog (k : Nat) (c : CoreRec) : (s.setCore k c).scLog = s.scLog := rfl
@[simp] theorem setCore_hbm (k : Nat) (c : CoreRec) : (s.setCore k c).hbm = s.hbm := rfl
@[simp] theorem setCore_device (k : Nat) (c : CoreRec) : (s.setCore k c).device = s.device := rfl
@[simp] theorem setCore_frames (k : Nat) (c : CoreRec) : (s.setCore k c).frames = s.frames := rfl
@[simp] theorem setCore_ver1 (k : Nat) (c : CoreRec) : (s.setCore k c).ver1 = s.ver1 := rfl
@[simp] theorem setCore_ver2 (k : Nat) (c : CoreRec) : (s.setCore k c).ver2 = s.ver2 := rfl
@[simp] theorem setCore_ver3 (k : Nat) (c : CoreRec) : (s.setCore k c).ver3 = s.ver3 := rfl
@[simp] theorem setCore_root (k : Nat) (c : CoreRec) : (s.setCore k c).root = s.root := rfl
@[simp] theorem setCore_poison (k : Nat) (c : CoreRec) : (s.setCore k c).poison = s.poison := rfl
@[simp] theorem setCore_treeBad (k : Nat) (c : CoreRec) : (s.setCore k c).treeBad = s.treeBad := rfl
@[simp] theorem setCore_keys (k : Nat) (c : CoreRec) : (s.setCore k c).keys = s.keys := rfl
@[simp] theorem setCore_metaKey (k : Nat) (c : CoreRec) : (s.setCore k c).metaKey = s.metaKey := rfl
@[simp] theorem setCore_wq (k : Nat) (c : CoreRec) : (s.setCore k c).wq = s.wq := rfl
@[simp] theorem setCore_lineOut (k : Nat) (c : CoreRec) : (s.setCore k c).lineOut = s.lineOut := rfl
@[simp] theorem setCore_stackRecs (k : Nat) (c : CoreRec) : (s.setCore k c).stackRecs = s.stackRecs := rfl
@[simp] theorem setCore_tlb (k : Nat) (c : CoreRec) : (s.setCore k c).tlb = s.tlb := rfl
@[simp] theorem setCore_hdm (k : Nat) (c : CoreRec) : (s.setCore k c).hdm = s.hdm := rfl
@[simp] theorem setCore_bells (k : Nat) (c : CoreRec) : (s.setCore k c).bells = s.bells := rfl
@[simp] theorem setCore_doors (k : Nat) (c : CoreRec) : (s.setCore k c).doors = s.doors := rfl
@[simp] theorem setCore_notify (k : Nat) (c : CoreRec) : (s.setCore k c).notify = s.notify := rfl
@[simp] theorem setCore_gated (k : Nat) (c : CoreRec) : (s.setCore k c).gated = s.gated := rfl
@[simp] theorem setCore_pasids (k : Nat) (c : CoreRec) : (s.setCore k c).pasids = s.pasids := rfl
@[simp] theorem setCore_ats (k : Nat) (c : CoreRec) : (s.setCore k c).ats = s.ats := rfl
@[simp] theorem setCore_atsLost (k : Nat) (c : CoreRec) : (s.setCore k c).atsLost = s.atsLost := rfl
@[simp] theorem setCore_lanesLost (k : Nat) (c : CoreRec) : (s.setCore k c).lanesLost = s.lanesLost := rfl
@[simp] theorem setCore_sending (k : Nat) (c : CoreRec) : (s.setCore k c).sending = s.sending := rfl
@[simp] theorem setCore_ingress (k : Nat) (c : CoreRec) : (s.setCore k c).ingress = s.ingress := rfl
@[simp] theorem setCore_lossy (k : Nat) (c : CoreRec) : (s.setCore k c).lossy = s.lossy := rfl
@[simp] theorem setCore_out (k : Nat) (c : CoreRec) : (s.setCore k c).out = s.out := rfl
@[simp] theorem setCore_dies (k : Nat) (c : CoreRec) : (s.setCore k c).dies = s.dies := rfl
@[simp] theorem setCore_steward (k : Nat) (c : CoreRec) : (s.setCore k c).steward = s.steward := rfl
@[simp] theorem setCore_migrations (k : Nat) (c : CoreRec) : (s.setCore k c).migrations = s.migrations := rfl
@[simp] theorem setCore_incoming (k : Nat) (c : CoreRec) : (s.setCore k c).incoming = s.incoming := rfl

/-! ### updCore -/

@[simp] theorem updCore_clock (k : Nat) (f : CoreRec → CoreRec) : (s.updCore k f).clock = s.clock := rfl
@[simp] theorem updCore_agenda (k : Nat) (f : CoreRec → CoreRec) : (s.updCore k f).agenda = s.agenda := rfl
@[simp] theorem updCore_focus (k : Nat) (f : CoreRec → CoreRec) : (s.updCore k f).focus = s.focus := rfl
@[simp] theorem updCore_focusAp (k : Nat) (f : CoreRec → CoreRec) : (s.updCore k f).focusAp = s.focusAp := rfl
@[simp] theorem updCore_nextId (k : Nat) (f : CoreRec → CoreRec) : (s.updCore k f).nextId = s.nextId := rfl
@[simp] theorem updCore_fresh (k : Nat) (f : CoreRec → CoreRec) : (s.updCore k f).fresh = s.fresh := rfl
@[simp] theorem updCore_cores (k : Nat) (f : CoreRec → CoreRec) : (s.updCore k f).cores = s.cores.put k (f (s.core k)) := rfl
@[simp] theorem updCore_threads (k : Nat) (f : CoreRec → CoreRec) : (s.updCore k f).threads = s.threads := rfl
@[simp] theorem updCore_blocks (k : Nat) (f : CoreRec → CoreRec) : (s.updCore k f).blocks = s.blocks := rfl
@[simp] theorem updCore_groups (k : Nat) (f : CoreRec → CoreRec) : (s.updCore k f).groups = s.groups := rfl
@[simp] theorem updCore_grids (k : Nat) (f : CoreRec → CoreRec) : (s.updCore k f).grids = s.grids := rfl
@[simp] theorem updCore_jobs (k : Nat) (f : CoreRec → CoreRec) : (s.updCore k f).jobs = s.jobs := rfl
@[simp] theorem updCore_codes (k : Nat) (f : CoreRec → CoreRec) : (s.updCore k f).codes = s.codes := rfl
@[simp] theorem updCore_ctxs (k : Nat) (f : CoreRec → CoreRec) : (s.updCore k f).ctxs = s.ctxs := rfl
@[simp] theorem updCore_parts (k : Nat) (f : CoreRec → CoreRec) : (s.updCore k f).parts = s.parts := rfl
@[simp] theorem updCore_queues (k : Nat) (f : CoreRec → CoreRec) : (s.updCore k f).queues = s.queues := rfl
@[simp] theorem updCore_allocs (k : Nat) (f : CoreRec → CoreRec) : (s.updCore k f).allocs = s.allocs := rfl
@[simp] theorem updCore_bars (k : Nat) (f : CoreRec → CoreRec) : (s.updCore k f).bars = s.bars := rfl
@[simp] theorem updCore_pubs (k : Nat) (f : CoreRec → CoreRec) : (s.updCore k f).pubs = s.pubs := rfl
@[simp] theorem updCore_pend (k : Nat) (f : CoreRec → CoreRec) : (s.updCore k f).pend = s.pend := rfl
@[simp] theorem updCore_stores (k : Nat) (f : CoreRec → CoreRec) : (s.updCore k f).stores = s.stores := rfl
@[simp] theorem updCore_redoStores (k : Nat) (f : CoreRec → CoreRec) : (s.updCore k f).redoStores = s.redoStores := rfl
@[simp] theorem updCore_redoLoads (k : Nat) (f : CoreRec → CoreRec) : (s.updCore k f).redoLoads = s.redoLoads := rfl
@[simp] theorem updCore_claims (k : Nat) (f : CoreRec → CoreRec) : (s.updCore k f).claims = s.claims := rfl
@[simp] theorem updCore_rels (k : Nat) (f : CoreRec → CoreRec) : (s.updCore k f).rels = s.rels := rfl
@[simp] theorem updCore_traces (k : Nat) (f : CoreRec → CoreRec) : (s.updCore k f).traces = s.traces := rfl
@[simp] theorem updCore_scLog (k : Nat) (f : CoreRec → CoreRec) : (s.updCore k f).scLog = s.scLog := rfl
@[simp] theorem updCore_hbm (k : Nat) (f : CoreRec → CoreRec) : (s.updCore k f).hbm = s.hbm := rfl
@[simp] theorem updCore_device (k : Nat) (f : CoreRec → CoreRec) : (s.updCore k f).device = s.device := rfl
@[simp] theorem updCore_frames (k : Nat) (f : CoreRec → CoreRec) : (s.updCore k f).frames = s.frames := rfl
@[simp] theorem updCore_ver1 (k : Nat) (f : CoreRec → CoreRec) : (s.updCore k f).ver1 = s.ver1 := rfl
@[simp] theorem updCore_ver2 (k : Nat) (f : CoreRec → CoreRec) : (s.updCore k f).ver2 = s.ver2 := rfl
@[simp] theorem updCore_ver3 (k : Nat) (f : CoreRec → CoreRec) : (s.updCore k f).ver3 = s.ver3 := rfl
@[simp] theorem updCore_root (k : Nat) (f : CoreRec → CoreRec) : (s.updCore k f).root = s.root := rfl
@[simp] theorem updCore_poison (k : Nat) (f : CoreRec → CoreRec) : (s.updCore k f).poison = s.poison := rfl
@[simp] theorem updCore_treeBad (k : Nat) (f : CoreRec → CoreRec) : (s.updCore k f).treeBad = s.treeBad := rfl
@[simp] theorem updCore_keys (k : Nat) (f : CoreRec → CoreRec) : (s.updCore k f).keys = s.keys := rfl
@[simp] theorem updCore_metaKey (k : Nat) (f : CoreRec → CoreRec) : (s.updCore k f).metaKey = s.metaKey := rfl
@[simp] theorem updCore_wq (k : Nat) (f : CoreRec → CoreRec) : (s.updCore k f).wq = s.wq := rfl
@[simp] theorem updCore_lineOut (k : Nat) (f : CoreRec → CoreRec) : (s.updCore k f).lineOut = s.lineOut := rfl
@[simp] theorem updCore_stackRecs (k : Nat) (f : CoreRec → CoreRec) : (s.updCore k f).stackRecs = s.stackRecs := rfl
@[simp] theorem updCore_tlb (k : Nat) (f : CoreRec → CoreRec) : (s.updCore k f).tlb = s.tlb := rfl
@[simp] theorem updCore_hdm (k : Nat) (f : CoreRec → CoreRec) : (s.updCore k f).hdm = s.hdm := rfl
@[simp] theorem updCore_bells (k : Nat) (f : CoreRec → CoreRec) : (s.updCore k f).bells = s.bells := rfl
@[simp] theorem updCore_doors (k : Nat) (f : CoreRec → CoreRec) : (s.updCore k f).doors = s.doors := rfl
@[simp] theorem updCore_notify (k : Nat) (f : CoreRec → CoreRec) : (s.updCore k f).notify = s.notify := rfl
@[simp] theorem updCore_gated (k : Nat) (f : CoreRec → CoreRec) : (s.updCore k f).gated = s.gated := rfl
@[simp] theorem updCore_pasids (k : Nat) (f : CoreRec → CoreRec) : (s.updCore k f).pasids = s.pasids := rfl
@[simp] theorem updCore_ats (k : Nat) (f : CoreRec → CoreRec) : (s.updCore k f).ats = s.ats := rfl
@[simp] theorem updCore_atsLost (k : Nat) (f : CoreRec → CoreRec) : (s.updCore k f).atsLost = s.atsLost := rfl
@[simp] theorem updCore_lanesLost (k : Nat) (f : CoreRec → CoreRec) : (s.updCore k f).lanesLost = s.lanesLost := rfl
@[simp] theorem updCore_sending (k : Nat) (f : CoreRec → CoreRec) : (s.updCore k f).sending = s.sending := rfl
@[simp] theorem updCore_ingress (k : Nat) (f : CoreRec → CoreRec) : (s.updCore k f).ingress = s.ingress := rfl
@[simp] theorem updCore_lossy (k : Nat) (f : CoreRec → CoreRec) : (s.updCore k f).lossy = s.lossy := rfl
@[simp] theorem updCore_out (k : Nat) (f : CoreRec → CoreRec) : (s.updCore k f).out = s.out := rfl
@[simp] theorem updCore_dies (k : Nat) (f : CoreRec → CoreRec) : (s.updCore k f).dies = s.dies := rfl
@[simp] theorem updCore_steward (k : Nat) (f : CoreRec → CoreRec) : (s.updCore k f).steward = s.steward := rfl
@[simp] theorem updCore_migrations (k : Nat) (f : CoreRec → CoreRec) : (s.updCore k f).migrations = s.migrations := rfl
@[simp] theorem updCore_incoming (k : Nat) (f : CoreRec → CoreRec) : (s.updCore k f).incoming = s.incoming := rfl

/-! ### updThr -/

@[simp] theorem updThr_clock (u : Nat) (f : Thread → Thread) : (s.updThr u f).clock = s.clock := rfl
@[simp] theorem updThr_agenda (u : Nat) (f : Thread → Thread) : (s.updThr u f).agenda = s.agenda := rfl
@[simp] theorem updThr_focus (u : Nat) (f : Thread → Thread) : (s.updThr u f).focus = s.focus := rfl
@[simp] theorem updThr_focusAp (u : Nat) (f : Thread → Thread) : (s.updThr u f).focusAp = s.focusAp := rfl
@[simp] theorem updThr_nextId (u : Nat) (f : Thread → Thread) : (s.updThr u f).nextId = s.nextId := rfl
@[simp] theorem updThr_fresh (u : Nat) (f : Thread → Thread) : (s.updThr u f).fresh = s.fresh := rfl
@[simp] theorem updThr_cores (u : Nat) (f : Thread → Thread) : (s.updThr u f).cores = s.cores := rfl
@[simp] theorem updThr_threads (u : Nat) (f : Thread → Thread) : (s.updThr u f).threads = s.threads.upd u f := rfl
@[simp] theorem updThr_blocks (u : Nat) (f : Thread → Thread) : (s.updThr u f).blocks = s.blocks := rfl
@[simp] theorem updThr_groups (u : Nat) (f : Thread → Thread) : (s.updThr u f).groups = s.groups := rfl
@[simp] theorem updThr_grids (u : Nat) (f : Thread → Thread) : (s.updThr u f).grids = s.grids := rfl
@[simp] theorem updThr_jobs (u : Nat) (f : Thread → Thread) : (s.updThr u f).jobs = s.jobs := rfl
@[simp] theorem updThr_codes (u : Nat) (f : Thread → Thread) : (s.updThr u f).codes = s.codes := rfl
@[simp] theorem updThr_ctxs (u : Nat) (f : Thread → Thread) : (s.updThr u f).ctxs = s.ctxs := rfl
@[simp] theorem updThr_parts (u : Nat) (f : Thread → Thread) : (s.updThr u f).parts = s.parts := rfl
@[simp] theorem updThr_queues (u : Nat) (f : Thread → Thread) : (s.updThr u f).queues = s.queues := rfl
@[simp] theorem updThr_allocs (u : Nat) (f : Thread → Thread) : (s.updThr u f).allocs = s.allocs := rfl
@[simp] theorem updThr_bars (u : Nat) (f : Thread → Thread) : (s.updThr u f).bars = s.bars := rfl
@[simp] theorem updThr_pubs (u : Nat) (f : Thread → Thread) : (s.updThr u f).pubs = s.pubs := rfl
@[simp] theorem updThr_pend (u : Nat) (f : Thread → Thread) : (s.updThr u f).pend = s.pend := rfl
@[simp] theorem updThr_stores (u : Nat) (f : Thread → Thread) : (s.updThr u f).stores = s.stores := rfl
@[simp] theorem updThr_redoStores (u : Nat) (f : Thread → Thread) : (s.updThr u f).redoStores = s.redoStores := rfl
@[simp] theorem updThr_redoLoads (u : Nat) (f : Thread → Thread) : (s.updThr u f).redoLoads = s.redoLoads := rfl
@[simp] theorem updThr_claims (u : Nat) (f : Thread → Thread) : (s.updThr u f).claims = s.claims := rfl
@[simp] theorem updThr_rels (u : Nat) (f : Thread → Thread) : (s.updThr u f).rels = s.rels := rfl
@[simp] theorem updThr_traces (u : Nat) (f : Thread → Thread) : (s.updThr u f).traces = s.traces := rfl
@[simp] theorem updThr_scLog (u : Nat) (f : Thread → Thread) : (s.updThr u f).scLog = s.scLog := rfl
@[simp] theorem updThr_hbm (u : Nat) (f : Thread → Thread) : (s.updThr u f).hbm = s.hbm := rfl
@[simp] theorem updThr_device (u : Nat) (f : Thread → Thread) : (s.updThr u f).device = s.device := rfl
@[simp] theorem updThr_frames (u : Nat) (f : Thread → Thread) : (s.updThr u f).frames = s.frames := rfl
@[simp] theorem updThr_ver1 (u : Nat) (f : Thread → Thread) : (s.updThr u f).ver1 = s.ver1 := rfl
@[simp] theorem updThr_ver2 (u : Nat) (f : Thread → Thread) : (s.updThr u f).ver2 = s.ver2 := rfl
@[simp] theorem updThr_ver3 (u : Nat) (f : Thread → Thread) : (s.updThr u f).ver3 = s.ver3 := rfl
@[simp] theorem updThr_root (u : Nat) (f : Thread → Thread) : (s.updThr u f).root = s.root := rfl
@[simp] theorem updThr_poison (u : Nat) (f : Thread → Thread) : (s.updThr u f).poison = s.poison := rfl
@[simp] theorem updThr_treeBad (u : Nat) (f : Thread → Thread) : (s.updThr u f).treeBad = s.treeBad := rfl
@[simp] theorem updThr_keys (u : Nat) (f : Thread → Thread) : (s.updThr u f).keys = s.keys := rfl
@[simp] theorem updThr_metaKey (u : Nat) (f : Thread → Thread) : (s.updThr u f).metaKey = s.metaKey := rfl
@[simp] theorem updThr_wq (u : Nat) (f : Thread → Thread) : (s.updThr u f).wq = s.wq := rfl
@[simp] theorem updThr_lineOut (u : Nat) (f : Thread → Thread) : (s.updThr u f).lineOut = s.lineOut := rfl
@[simp] theorem updThr_stackRecs (u : Nat) (f : Thread → Thread) : (s.updThr u f).stackRecs = s.stackRecs := rfl
@[simp] theorem updThr_tlb (u : Nat) (f : Thread → Thread) : (s.updThr u f).tlb = s.tlb := rfl
@[simp] theorem updThr_hdm (u : Nat) (f : Thread → Thread) : (s.updThr u f).hdm = s.hdm := rfl
@[simp] theorem updThr_bells (u : Nat) (f : Thread → Thread) : (s.updThr u f).bells = s.bells := rfl
@[simp] theorem updThr_doors (u : Nat) (f : Thread → Thread) : (s.updThr u f).doors = s.doors := rfl
@[simp] theorem updThr_notify (u : Nat) (f : Thread → Thread) : (s.updThr u f).notify = s.notify := rfl
@[simp] theorem updThr_gated (u : Nat) (f : Thread → Thread) : (s.updThr u f).gated = s.gated := rfl
@[simp] theorem updThr_pasids (u : Nat) (f : Thread → Thread) : (s.updThr u f).pasids = s.pasids := rfl
@[simp] theorem updThr_ats (u : Nat) (f : Thread → Thread) : (s.updThr u f).ats = s.ats := rfl
@[simp] theorem updThr_atsLost (u : Nat) (f : Thread → Thread) : (s.updThr u f).atsLost = s.atsLost := rfl
@[simp] theorem updThr_lanesLost (u : Nat) (f : Thread → Thread) : (s.updThr u f).lanesLost = s.lanesLost := rfl
@[simp] theorem updThr_sending (u : Nat) (f : Thread → Thread) : (s.updThr u f).sending = s.sending := rfl
@[simp] theorem updThr_ingress (u : Nat) (f : Thread → Thread) : (s.updThr u f).ingress = s.ingress := rfl
@[simp] theorem updThr_lossy (u : Nat) (f : Thread → Thread) : (s.updThr u f).lossy = s.lossy := rfl
@[simp] theorem updThr_out (u : Nat) (f : Thread → Thread) : (s.updThr u f).out = s.out := rfl
@[simp] theorem updThr_dies (u : Nat) (f : Thread → Thread) : (s.updThr u f).dies = s.dies := rfl
@[simp] theorem updThr_steward (u : Nat) (f : Thread → Thread) : (s.updThr u f).steward = s.steward := rfl
@[simp] theorem updThr_migrations (u : Nat) (f : Thread → Thread) : (s.updThr u f).migrations = s.migrations := rfl
@[simp] theorem updThr_incoming (u : Nat) (f : Thread → Thread) : (s.updThr u f).incoming = s.incoming := rfl

/-! ### updBlk -/

@[simp] theorem updBlk_clock (b : Nat) (f : Block → Block) : (s.updBlk b f).clock = s.clock := rfl
@[simp] theorem updBlk_agenda (b : Nat) (f : Block → Block) : (s.updBlk b f).agenda = s.agenda := rfl
@[simp] theorem updBlk_focus (b : Nat) (f : Block → Block) : (s.updBlk b f).focus = s.focus := rfl
@[simp] theorem updBlk_focusAp (b : Nat) (f : Block → Block) : (s.updBlk b f).focusAp = s.focusAp := rfl
@[simp] theorem updBlk_nextId (b : Nat) (f : Block → Block) : (s.updBlk b f).nextId = s.nextId := rfl
@[simp] theorem updBlk_fresh (b : Nat) (f : Block → Block) : (s.updBlk b f).fresh = s.fresh := rfl
@[simp] theorem updBlk_cores (b : Nat) (f : Block → Block) : (s.updBlk b f).cores = s.cores := rfl
@[simp] theorem updBlk_threads (b : Nat) (f : Block → Block) : (s.updBlk b f).threads = s.threads := rfl
@[simp] theorem updBlk_blocks (b : Nat) (f : Block → Block) : (s.updBlk b f).blocks = s.blocks.upd b f := rfl
@[simp] theorem updBlk_groups (b : Nat) (f : Block → Block) : (s.updBlk b f).groups = s.groups := rfl
@[simp] theorem updBlk_grids (b : Nat) (f : Block → Block) : (s.updBlk b f).grids = s.grids := rfl
@[simp] theorem updBlk_jobs (b : Nat) (f : Block → Block) : (s.updBlk b f).jobs = s.jobs := rfl
@[simp] theorem updBlk_codes (b : Nat) (f : Block → Block) : (s.updBlk b f).codes = s.codes := rfl
@[simp] theorem updBlk_ctxs (b : Nat) (f : Block → Block) : (s.updBlk b f).ctxs = s.ctxs := rfl
@[simp] theorem updBlk_parts (b : Nat) (f : Block → Block) : (s.updBlk b f).parts = s.parts := rfl
@[simp] theorem updBlk_queues (b : Nat) (f : Block → Block) : (s.updBlk b f).queues = s.queues := rfl
@[simp] theorem updBlk_allocs (b : Nat) (f : Block → Block) : (s.updBlk b f).allocs = s.allocs := rfl
@[simp] theorem updBlk_bars (b : Nat) (f : Block → Block) : (s.updBlk b f).bars = s.bars := rfl
@[simp] theorem updBlk_pubs (b : Nat) (f : Block → Block) : (s.updBlk b f).pubs = s.pubs := rfl
@[simp] theorem updBlk_pend (b : Nat) (f : Block → Block) : (s.updBlk b f).pend = s.pend := rfl
@[simp] theorem updBlk_stores (b : Nat) (f : Block → Block) : (s.updBlk b f).stores = s.stores := rfl
@[simp] theorem updBlk_redoStores (b : Nat) (f : Block → Block) : (s.updBlk b f).redoStores = s.redoStores := rfl
@[simp] theorem updBlk_redoLoads (b : Nat) (f : Block → Block) : (s.updBlk b f).redoLoads = s.redoLoads := rfl
@[simp] theorem updBlk_claims (b : Nat) (f : Block → Block) : (s.updBlk b f).claims = s.claims := rfl
@[simp] theorem updBlk_rels (b : Nat) (f : Block → Block) : (s.updBlk b f).rels = s.rels := rfl
@[simp] theorem updBlk_traces (b : Nat) (f : Block → Block) : (s.updBlk b f).traces = s.traces := rfl
@[simp] theorem updBlk_scLog (b : Nat) (f : Block → Block) : (s.updBlk b f).scLog = s.scLog := rfl
@[simp] theorem updBlk_hbm (b : Nat) (f : Block → Block) : (s.updBlk b f).hbm = s.hbm := rfl
@[simp] theorem updBlk_device (b : Nat) (f : Block → Block) : (s.updBlk b f).device = s.device := rfl
@[simp] theorem updBlk_frames (b : Nat) (f : Block → Block) : (s.updBlk b f).frames = s.frames := rfl
@[simp] theorem updBlk_ver1 (b : Nat) (f : Block → Block) : (s.updBlk b f).ver1 = s.ver1 := rfl
@[simp] theorem updBlk_ver2 (b : Nat) (f : Block → Block) : (s.updBlk b f).ver2 = s.ver2 := rfl
@[simp] theorem updBlk_ver3 (b : Nat) (f : Block → Block) : (s.updBlk b f).ver3 = s.ver3 := rfl
@[simp] theorem updBlk_root (b : Nat) (f : Block → Block) : (s.updBlk b f).root = s.root := rfl
@[simp] theorem updBlk_poison (b : Nat) (f : Block → Block) : (s.updBlk b f).poison = s.poison := rfl
@[simp] theorem updBlk_treeBad (b : Nat) (f : Block → Block) : (s.updBlk b f).treeBad = s.treeBad := rfl
@[simp] theorem updBlk_keys (b : Nat) (f : Block → Block) : (s.updBlk b f).keys = s.keys := rfl
@[simp] theorem updBlk_metaKey (b : Nat) (f : Block → Block) : (s.updBlk b f).metaKey = s.metaKey := rfl
@[simp] theorem updBlk_wq (b : Nat) (f : Block → Block) : (s.updBlk b f).wq = s.wq := rfl
@[simp] theorem updBlk_lineOut (b : Nat) (f : Block → Block) : (s.updBlk b f).lineOut = s.lineOut := rfl
@[simp] theorem updBlk_stackRecs (b : Nat) (f : Block → Block) : (s.updBlk b f).stackRecs = s.stackRecs := rfl
@[simp] theorem updBlk_tlb (b : Nat) (f : Block → Block) : (s.updBlk b f).tlb = s.tlb := rfl
@[simp] theorem updBlk_hdm (b : Nat) (f : Block → Block) : (s.updBlk b f).hdm = s.hdm := rfl
@[simp] theorem updBlk_bells (b : Nat) (f : Block → Block) : (s.updBlk b f).bells = s.bells := rfl
@[simp] theorem updBlk_doors (b : Nat) (f : Block → Block) : (s.updBlk b f).doors = s.doors := rfl
@[simp] theorem updBlk_notify (b : Nat) (f : Block → Block) : (s.updBlk b f).notify = s.notify := rfl
@[simp] theorem updBlk_gated (b : Nat) (f : Block → Block) : (s.updBlk b f).gated = s.gated := rfl
@[simp] theorem updBlk_pasids (b : Nat) (f : Block → Block) : (s.updBlk b f).pasids = s.pasids := rfl
@[simp] theorem updBlk_ats (b : Nat) (f : Block → Block) : (s.updBlk b f).ats = s.ats := rfl
@[simp] theorem updBlk_atsLost (b : Nat) (f : Block → Block) : (s.updBlk b f).atsLost = s.atsLost := rfl
@[simp] theorem updBlk_lanesLost (b : Nat) (f : Block → Block) : (s.updBlk b f).lanesLost = s.lanesLost := rfl
@[simp] theorem updBlk_sending (b : Nat) (f : Block → Block) : (s.updBlk b f).sending = s.sending := rfl
@[simp] theorem updBlk_ingress (b : Nat) (f : Block → Block) : (s.updBlk b f).ingress = s.ingress := rfl
@[simp] theorem updBlk_lossy (b : Nat) (f : Block → Block) : (s.updBlk b f).lossy = s.lossy := rfl
@[simp] theorem updBlk_out (b : Nat) (f : Block → Block) : (s.updBlk b f).out = s.out := rfl
@[simp] theorem updBlk_dies (b : Nat) (f : Block → Block) : (s.updBlk b f).dies = s.dies := rfl
@[simp] theorem updBlk_steward (b : Nat) (f : Block → Block) : (s.updBlk b f).steward = s.steward := rfl
@[simp] theorem updBlk_migrations (b : Nat) (f : Block → Block) : (s.updBlk b f).migrations = s.migrations := rfl
@[simp] theorem updBlk_incoming (b : Nat) (f : Block → Block) : (s.updBlk b f).incoming = s.incoming := rfl

/-! ### updCtx -/

@[simp] theorem updCtx_clock (c : Nat) (f : Context → Context) : (s.updCtx c f).clock = s.clock := rfl
@[simp] theorem updCtx_agenda (c : Nat) (f : Context → Context) : (s.updCtx c f).agenda = s.agenda := rfl
@[simp] theorem updCtx_focus (c : Nat) (f : Context → Context) : (s.updCtx c f).focus = s.focus := rfl
@[simp] theorem updCtx_focusAp (c : Nat) (f : Context → Context) : (s.updCtx c f).focusAp = s.focusAp := rfl
@[simp] theorem updCtx_nextId (c : Nat) (f : Context → Context) : (s.updCtx c f).nextId = s.nextId := rfl
@[simp] theorem updCtx_fresh (c : Nat) (f : Context → Context) : (s.updCtx c f).fresh = s.fresh := rfl
@[simp] theorem updCtx_cores (c : Nat) (f : Context → Context) : (s.updCtx c f).cores = s.cores := rfl
@[simp] theorem updCtx_threads (c : Nat) (f : Context → Context) : (s.updCtx c f).threads = s.threads := rfl
@[simp] theorem updCtx_blocks (c : Nat) (f : Context → Context) : (s.updCtx c f).blocks = s.blocks := rfl
@[simp] theorem updCtx_groups (c : Nat) (f : Context → Context) : (s.updCtx c f).groups = s.groups := rfl
@[simp] theorem updCtx_grids (c : Nat) (f : Context → Context) : (s.updCtx c f).grids = s.grids := rfl
@[simp] theorem updCtx_jobs (c : Nat) (f : Context → Context) : (s.updCtx c f).jobs = s.jobs := rfl
@[simp] theorem updCtx_codes (c : Nat) (f : Context → Context) : (s.updCtx c f).codes = s.codes := rfl
@[simp] theorem updCtx_ctxs (c : Nat) (f : Context → Context) : (s.updCtx c f).ctxs = s.ctxs.upd c f := rfl
@[simp] theorem updCtx_parts (c : Nat) (f : Context → Context) : (s.updCtx c f).parts = s.parts := rfl
@[simp] theorem updCtx_queues (c : Nat) (f : Context → Context) : (s.updCtx c f).queues = s.queues := rfl
@[simp] theorem updCtx_allocs (c : Nat) (f : Context → Context) : (s.updCtx c f).allocs = s.allocs := rfl
@[simp] theorem updCtx_bars (c : Nat) (f : Context → Context) : (s.updCtx c f).bars = s.bars := rfl
@[simp] theorem updCtx_pubs (c : Nat) (f : Context → Context) : (s.updCtx c f).pubs = s.pubs := rfl
@[simp] theorem updCtx_pend (c : Nat) (f : Context → Context) : (s.updCtx c f).pend = s.pend := rfl
@[simp] theorem updCtx_stores (c : Nat) (f : Context → Context) : (s.updCtx c f).stores = s.stores := rfl
@[simp] theorem updCtx_redoStores (c : Nat) (f : Context → Context) : (s.updCtx c f).redoStores = s.redoStores := rfl
@[simp] theorem updCtx_redoLoads (c : Nat) (f : Context → Context) : (s.updCtx c f).redoLoads = s.redoLoads := rfl
@[simp] theorem updCtx_claims (c : Nat) (f : Context → Context) : (s.updCtx c f).claims = s.claims := rfl
@[simp] theorem updCtx_rels (c : Nat) (f : Context → Context) : (s.updCtx c f).rels = s.rels := rfl
@[simp] theorem updCtx_traces (c : Nat) (f : Context → Context) : (s.updCtx c f).traces = s.traces := rfl
@[simp] theorem updCtx_scLog (c : Nat) (f : Context → Context) : (s.updCtx c f).scLog = s.scLog := rfl
@[simp] theorem updCtx_hbm (c : Nat) (f : Context → Context) : (s.updCtx c f).hbm = s.hbm := rfl
@[simp] theorem updCtx_device (c : Nat) (f : Context → Context) : (s.updCtx c f).device = s.device := rfl
@[simp] theorem updCtx_frames (c : Nat) (f : Context → Context) : (s.updCtx c f).frames = s.frames := rfl
@[simp] theorem updCtx_ver1 (c : Nat) (f : Context → Context) : (s.updCtx c f).ver1 = s.ver1 := rfl
@[simp] theorem updCtx_ver2 (c : Nat) (f : Context → Context) : (s.updCtx c f).ver2 = s.ver2 := rfl
@[simp] theorem updCtx_ver3 (c : Nat) (f : Context → Context) : (s.updCtx c f).ver3 = s.ver3 := rfl
@[simp] theorem updCtx_root (c : Nat) (f : Context → Context) : (s.updCtx c f).root = s.root := rfl
@[simp] theorem updCtx_poison (c : Nat) (f : Context → Context) : (s.updCtx c f).poison = s.poison := rfl
@[simp] theorem updCtx_treeBad (c : Nat) (f : Context → Context) : (s.updCtx c f).treeBad = s.treeBad := rfl
@[simp] theorem updCtx_keys (c : Nat) (f : Context → Context) : (s.updCtx c f).keys = s.keys := rfl
@[simp] theorem updCtx_metaKey (c : Nat) (f : Context → Context) : (s.updCtx c f).metaKey = s.metaKey := rfl
@[simp] theorem updCtx_wq (c : Nat) (f : Context → Context) : (s.updCtx c f).wq = s.wq := rfl
@[simp] theorem updCtx_lineOut (c : Nat) (f : Context → Context) : (s.updCtx c f).lineOut = s.lineOut := rfl
@[simp] theorem updCtx_stackRecs (c : Nat) (f : Context → Context) : (s.updCtx c f).stackRecs = s.stackRecs := rfl
@[simp] theorem updCtx_tlb (c : Nat) (f : Context → Context) : (s.updCtx c f).tlb = s.tlb := rfl
@[simp] theorem updCtx_hdm (c : Nat) (f : Context → Context) : (s.updCtx c f).hdm = s.hdm := rfl
@[simp] theorem updCtx_bells (c : Nat) (f : Context → Context) : (s.updCtx c f).bells = s.bells := rfl
@[simp] theorem updCtx_doors (c : Nat) (f : Context → Context) : (s.updCtx c f).doors = s.doors := rfl
@[simp] theorem updCtx_notify (c : Nat) (f : Context → Context) : (s.updCtx c f).notify = s.notify := rfl
@[simp] theorem updCtx_gated (c : Nat) (f : Context → Context) : (s.updCtx c f).gated = s.gated := rfl
@[simp] theorem updCtx_pasids (c : Nat) (f : Context → Context) : (s.updCtx c f).pasids = s.pasids := rfl
@[simp] theorem updCtx_ats (c : Nat) (f : Context → Context) : (s.updCtx c f).ats = s.ats := rfl
@[simp] theorem updCtx_atsLost (c : Nat) (f : Context → Context) : (s.updCtx c f).atsLost = s.atsLost := rfl
@[simp] theorem updCtx_lanesLost (c : Nat) (f : Context → Context) : (s.updCtx c f).lanesLost = s.lanesLost := rfl
@[simp] theorem updCtx_sending (c : Nat) (f : Context → Context) : (s.updCtx c f).sending = s.sending := rfl
@[simp] theorem updCtx_ingress (c : Nat) (f : Context → Context) : (s.updCtx c f).ingress = s.ingress := rfl
@[simp] theorem updCtx_lossy (c : Nat) (f : Context → Context) : (s.updCtx c f).lossy = s.lossy := rfl
@[simp] theorem updCtx_out (c : Nat) (f : Context → Context) : (s.updCtx c f).out = s.out := rfl
@[simp] theorem updCtx_dies (c : Nat) (f : Context → Context) : (s.updCtx c f).dies = s.dies := rfl
@[simp] theorem updCtx_steward (c : Nat) (f : Context → Context) : (s.updCtx c f).steward = s.steward := rfl
@[simp] theorem updCtx_migrations (c : Nat) (f : Context → Context) : (s.updCtx c f).migrations = s.migrations := rfl
@[simp] theorem updCtx_incoming (c : Nat) (f : Context → Context) : (s.updCtx c f).incoming = s.incoming := rfl

/-! ### updJob -/

@[simp] theorem updJob_clock (j : Nat) (f : Job → Job) : (s.updJob j f).clock = s.clock := rfl
@[simp] theorem updJob_agenda (j : Nat) (f : Job → Job) : (s.updJob j f).agenda = s.agenda := rfl
@[simp] theorem updJob_focus (j : Nat) (f : Job → Job) : (s.updJob j f).focus = s.focus := rfl
@[simp] theorem updJob_focusAp (j : Nat) (f : Job → Job) : (s.updJob j f).focusAp = s.focusAp := rfl
@[simp] theorem updJob_nextId (j : Nat) (f : Job → Job) : (s.updJob j f).nextId = s.nextId := rfl
@[simp] theorem updJob_fresh (j : Nat) (f : Job → Job) : (s.updJob j f).fresh = s.fresh := rfl
@[simp] theorem updJob_cores (j : Nat) (f : Job → Job) : (s.updJob j f).cores = s.cores := rfl
@[simp] theorem updJob_threads (j : Nat) (f : Job → Job) : (s.updJob j f).threads = s.threads := rfl
@[simp] theorem updJob_blocks (j : Nat) (f : Job → Job) : (s.updJob j f).blocks = s.blocks := rfl
@[simp] theorem updJob_groups (j : Nat) (f : Job → Job) : (s.updJob j f).groups = s.groups := rfl
@[simp] theorem updJob_grids (j : Nat) (f : Job → Job) : (s.updJob j f).grids = s.grids := rfl
@[simp] theorem updJob_jobs (j : Nat) (f : Job → Job) : (s.updJob j f).jobs = s.jobs.upd j f := rfl
@[simp] theorem updJob_codes (j : Nat) (f : Job → Job) : (s.updJob j f).codes = s.codes := rfl
@[simp] theorem updJob_ctxs (j : Nat) (f : Job → Job) : (s.updJob j f).ctxs = s.ctxs := rfl
@[simp] theorem updJob_parts (j : Nat) (f : Job → Job) : (s.updJob j f).parts = s.parts := rfl
@[simp] theorem updJob_queues (j : Nat) (f : Job → Job) : (s.updJob j f).queues = s.queues := rfl
@[simp] theorem updJob_allocs (j : Nat) (f : Job → Job) : (s.updJob j f).allocs = s.allocs := rfl
@[simp] theorem updJob_bars (j : Nat) (f : Job → Job) : (s.updJob j f).bars = s.bars := rfl
@[simp] theorem updJob_pubs (j : Nat) (f : Job → Job) : (s.updJob j f).pubs = s.pubs := rfl
@[simp] theorem updJob_pend (j : Nat) (f : Job → Job) : (s.updJob j f).pend = s.pend := rfl
@[simp] theorem updJob_stores (j : Nat) (f : Job → Job) : (s.updJob j f).stores = s.stores := rfl
@[simp] theorem updJob_redoStores (j : Nat) (f : Job → Job) : (s.updJob j f).redoStores = s.redoStores := rfl
@[simp] theorem updJob_redoLoads (j : Nat) (f : Job → Job) : (s.updJob j f).redoLoads = s.redoLoads := rfl
@[simp] theorem updJob_claims (j : Nat) (f : Job → Job) : (s.updJob j f).claims = s.claims := rfl
@[simp] theorem updJob_rels (j : Nat) (f : Job → Job) : (s.updJob j f).rels = s.rels := rfl
@[simp] theorem updJob_traces (j : Nat) (f : Job → Job) : (s.updJob j f).traces = s.traces := rfl
@[simp] theorem updJob_scLog (j : Nat) (f : Job → Job) : (s.updJob j f).scLog = s.scLog := rfl
@[simp] theorem updJob_hbm (j : Nat) (f : Job → Job) : (s.updJob j f).hbm = s.hbm := rfl
@[simp] theorem updJob_device (j : Nat) (f : Job → Job) : (s.updJob j f).device = s.device := rfl
@[simp] theorem updJob_frames (j : Nat) (f : Job → Job) : (s.updJob j f).frames = s.frames := rfl
@[simp] theorem updJob_ver1 (j : Nat) (f : Job → Job) : (s.updJob j f).ver1 = s.ver1 := rfl
@[simp] theorem updJob_ver2 (j : Nat) (f : Job → Job) : (s.updJob j f).ver2 = s.ver2 := rfl
@[simp] theorem updJob_ver3 (j : Nat) (f : Job → Job) : (s.updJob j f).ver3 = s.ver3 := rfl
@[simp] theorem updJob_root (j : Nat) (f : Job → Job) : (s.updJob j f).root = s.root := rfl
@[simp] theorem updJob_poison (j : Nat) (f : Job → Job) : (s.updJob j f).poison = s.poison := rfl
@[simp] theorem updJob_treeBad (j : Nat) (f : Job → Job) : (s.updJob j f).treeBad = s.treeBad := rfl
@[simp] theorem updJob_keys (j : Nat) (f : Job → Job) : (s.updJob j f).keys = s.keys := rfl
@[simp] theorem updJob_metaKey (j : Nat) (f : Job → Job) : (s.updJob j f).metaKey = s.metaKey := rfl
@[simp] theorem updJob_wq (j : Nat) (f : Job → Job) : (s.updJob j f).wq = s.wq := rfl
@[simp] theorem updJob_lineOut (j : Nat) (f : Job → Job) : (s.updJob j f).lineOut = s.lineOut := rfl
@[simp] theorem updJob_stackRecs (j : Nat) (f : Job → Job) : (s.updJob j f).stackRecs = s.stackRecs := rfl
@[simp] theorem updJob_tlb (j : Nat) (f : Job → Job) : (s.updJob j f).tlb = s.tlb := rfl
@[simp] theorem updJob_hdm (j : Nat) (f : Job → Job) : (s.updJob j f).hdm = s.hdm := rfl
@[simp] theorem updJob_bells (j : Nat) (f : Job → Job) : (s.updJob j f).bells = s.bells := rfl
@[simp] theorem updJob_doors (j : Nat) (f : Job → Job) : (s.updJob j f).doors = s.doors := rfl
@[simp] theorem updJob_notify (j : Nat) (f : Job → Job) : (s.updJob j f).notify = s.notify := rfl
@[simp] theorem updJob_gated (j : Nat) (f : Job → Job) : (s.updJob j f).gated = s.gated := rfl
@[simp] theorem updJob_pasids (j : Nat) (f : Job → Job) : (s.updJob j f).pasids = s.pasids := rfl
@[simp] theorem updJob_ats (j : Nat) (f : Job → Job) : (s.updJob j f).ats = s.ats := rfl
@[simp] theorem updJob_atsLost (j : Nat) (f : Job → Job) : (s.updJob j f).atsLost = s.atsLost := rfl
@[simp] theorem updJob_lanesLost (j : Nat) (f : Job → Job) : (s.updJob j f).lanesLost = s.lanesLost := rfl
@[simp] theorem updJob_sending (j : Nat) (f : Job → Job) : (s.updJob j f).sending = s.sending := rfl
@[simp] theorem updJob_ingress (j : Nat) (f : Job → Job) : (s.updJob j f).ingress = s.ingress := rfl
@[simp] theorem updJob_lossy (j : Nat) (f : Job → Job) : (s.updJob j f).lossy = s.lossy := rfl
@[simp] theorem updJob_out (j : Nat) (f : Job → Job) : (s.updJob j f).out = s.out := rfl
@[simp] theorem updJob_dies (j : Nat) (f : Job → Job) : (s.updJob j f).dies = s.dies := rfl
@[simp] theorem updJob_steward (j : Nat) (f : Job → Job) : (s.updJob j f).steward = s.steward := rfl
@[simp] theorem updJob_migrations (j : Nat) (f : Job → Job) : (s.updJob j f).migrations = s.migrations := rfl
@[simp] theorem updJob_incoming (j : Nat) (f : Job → Job) : (s.updJob j f).incoming = s.incoming := rfl

/-! ### updGrid -/

@[simp] theorem updGrid_clock (g : Nat) (f : Grid → Grid) : (s.updGrid g f).clock = s.clock := rfl
@[simp] theorem updGrid_agenda (g : Nat) (f : Grid → Grid) : (s.updGrid g f).agenda = s.agenda := rfl
@[simp] theorem updGrid_focus (g : Nat) (f : Grid → Grid) : (s.updGrid g f).focus = s.focus := rfl
@[simp] theorem updGrid_focusAp (g : Nat) (f : Grid → Grid) : (s.updGrid g f).focusAp = s.focusAp := rfl
@[simp] theorem updGrid_nextId (g : Nat) (f : Grid → Grid) : (s.updGrid g f).nextId = s.nextId := rfl
@[simp] theorem updGrid_fresh (g : Nat) (f : Grid → Grid) : (s.updGrid g f).fresh = s.fresh := rfl
@[simp] theorem updGrid_cores (g : Nat) (f : Grid → Grid) : (s.updGrid g f).cores = s.cores := rfl
@[simp] theorem updGrid_threads (g : Nat) (f : Grid → Grid) : (s.updGrid g f).threads = s.threads := rfl
@[simp] theorem updGrid_blocks (g : Nat) (f : Grid → Grid) : (s.updGrid g f).blocks = s.blocks := rfl
@[simp] theorem updGrid_groups (g : Nat) (f : Grid → Grid) : (s.updGrid g f).groups = s.groups := rfl
@[simp] theorem updGrid_grids (g : Nat) (f : Grid → Grid) : (s.updGrid g f).grids = s.grids.upd g f := rfl
@[simp] theorem updGrid_jobs (g : Nat) (f : Grid → Grid) : (s.updGrid g f).jobs = s.jobs := rfl
@[simp] theorem updGrid_codes (g : Nat) (f : Grid → Grid) : (s.updGrid g f).codes = s.codes := rfl
@[simp] theorem updGrid_ctxs (g : Nat) (f : Grid → Grid) : (s.updGrid g f).ctxs = s.ctxs := rfl
@[simp] theorem updGrid_parts (g : Nat) (f : Grid → Grid) : (s.updGrid g f).parts = s.parts := rfl
@[simp] theorem updGrid_queues (g : Nat) (f : Grid → Grid) : (s.updGrid g f).queues = s.queues := rfl
@[simp] theorem updGrid_allocs (g : Nat) (f : Grid → Grid) : (s.updGrid g f).allocs = s.allocs := rfl
@[simp] theorem updGrid_bars (g : Nat) (f : Grid → Grid) : (s.updGrid g f).bars = s.bars := rfl
@[simp] theorem updGrid_pubs (g : Nat) (f : Grid → Grid) : (s.updGrid g f).pubs = s.pubs := rfl
@[simp] theorem updGrid_pend (g : Nat) (f : Grid → Grid) : (s.updGrid g f).pend = s.pend := rfl
@[simp] theorem updGrid_stores (g : Nat) (f : Grid → Grid) : (s.updGrid g f).stores = s.stores := rfl
@[simp] theorem updGrid_redoStores (g : Nat) (f : Grid → Grid) : (s.updGrid g f).redoStores = s.redoStores := rfl
@[simp] theorem updGrid_redoLoads (g : Nat) (f : Grid → Grid) : (s.updGrid g f).redoLoads = s.redoLoads := rfl
@[simp] theorem updGrid_claims (g : Nat) (f : Grid → Grid) : (s.updGrid g f).claims = s.claims := rfl
@[simp] theorem updGrid_rels (g : Nat) (f : Grid → Grid) : (s.updGrid g f).rels = s.rels := rfl
@[simp] theorem updGrid_traces (g : Nat) (f : Grid → Grid) : (s.updGrid g f).traces = s.traces := rfl
@[simp] theorem updGrid_scLog (g : Nat) (f : Grid → Grid) : (s.updGrid g f).scLog = s.scLog := rfl
@[simp] theorem updGrid_hbm (g : Nat) (f : Grid → Grid) : (s.updGrid g f).hbm = s.hbm := rfl
@[simp] theorem updGrid_device (g : Nat) (f : Grid → Grid) : (s.updGrid g f).device = s.device := rfl
@[simp] theorem updGrid_frames (g : Nat) (f : Grid → Grid) : (s.updGrid g f).frames = s.frames := rfl
@[simp] theorem updGrid_ver1 (g : Nat) (f : Grid → Grid) : (s.updGrid g f).ver1 = s.ver1 := rfl
@[simp] theorem updGrid_ver2 (g : Nat) (f : Grid → Grid) : (s.updGrid g f).ver2 = s.ver2 := rfl
@[simp] theorem updGrid_ver3 (g : Nat) (f : Grid → Grid) : (s.updGrid g f).ver3 = s.ver3 := rfl
@[simp] theorem updGrid_root (g : Nat) (f : Grid → Grid) : (s.updGrid g f).root = s.root := rfl
@[simp] theorem updGrid_poison (g : Nat) (f : Grid → Grid) : (s.updGrid g f).poison = s.poison := rfl
@[simp] theorem updGrid_treeBad (g : Nat) (f : Grid → Grid) : (s.updGrid g f).treeBad = s.treeBad := rfl
@[simp] theorem updGrid_keys (g : Nat) (f : Grid → Grid) : (s.updGrid g f).keys = s.keys := rfl
@[simp] theorem updGrid_metaKey (g : Nat) (f : Grid → Grid) : (s.updGrid g f).metaKey = s.metaKey := rfl
@[simp] theorem updGrid_wq (g : Nat) (f : Grid → Grid) : (s.updGrid g f).wq = s.wq := rfl
@[simp] theorem updGrid_lineOut (g : Nat) (f : Grid → Grid) : (s.updGrid g f).lineOut = s.lineOut := rfl
@[simp] theorem updGrid_stackRecs (g : Nat) (f : Grid → Grid) : (s.updGrid g f).stackRecs = s.stackRecs := rfl
@[simp] theorem updGrid_tlb (g : Nat) (f : Grid → Grid) : (s.updGrid g f).tlb = s.tlb := rfl
@[simp] theorem updGrid_hdm (g : Nat) (f : Grid → Grid) : (s.updGrid g f).hdm = s.hdm := rfl
@[simp] theorem updGrid_bells (g : Nat) (f : Grid → Grid) : (s.updGrid g f).bells = s.bells := rfl
@[simp] theorem updGrid_doors (g : Nat) (f : Grid → Grid) : (s.updGrid g f).doors = s.doors := rfl
@[simp] theorem updGrid_notify (g : Nat) (f : Grid → Grid) : (s.updGrid g f).notify = s.notify := rfl
@[simp] theorem updGrid_gated (g : Nat) (f : Grid → Grid) : (s.updGrid g f).gated = s.gated := rfl
@[simp] theorem updGrid_pasids (g : Nat) (f : Grid → Grid) : (s.updGrid g f).pasids = s.pasids := rfl
@[simp] theorem updGrid_ats (g : Nat) (f : Grid → Grid) : (s.updGrid g f).ats = s.ats := rfl
@[simp] theorem updGrid_atsLost (g : Nat) (f : Grid → Grid) : (s.updGrid g f).atsLost = s.atsLost := rfl
@[simp] theorem updGrid_lanesLost (g : Nat) (f : Grid → Grid) : (s.updGrid g f).lanesLost = s.lanesLost := rfl
@[simp] theorem updGrid_sending (g : Nat) (f : Grid → Grid) : (s.updGrid g f).sending = s.sending := rfl
@[simp] theorem updGrid_ingress (g : Nat) (f : Grid → Grid) : (s.updGrid g f).ingress = s.ingress := rfl
@[simp] theorem updGrid_lossy (g : Nat) (f : Grid → Grid) : (s.updGrid g f).lossy = s.lossy := rfl
@[simp] theorem updGrid_out (g : Nat) (f : Grid → Grid) : (s.updGrid g f).out = s.out := rfl
@[simp] theorem updGrid_dies (g : Nat) (f : Grid → Grid) : (s.updGrid g f).dies = s.dies := rfl
@[simp] theorem updGrid_steward (g : Nat) (f : Grid → Grid) : (s.updGrid g f).steward = s.steward := rfl
@[simp] theorem updGrid_migrations (g : Nat) (f : Grid → Grid) : (s.updGrid g f).migrations = s.migrations := rfl
@[simp] theorem updGrid_incoming (g : Nat) (f : Grid → Grid) : (s.updGrid g f).incoming = s.incoming := rfl

/-! ### emit -/

@[simp] theorem emit_clock (m : Msg) : (s.emit m).clock = s.clock := rfl
@[simp] theorem emit_agenda (m : Msg) : (s.emit m).agenda = s.agenda := rfl
@[simp] theorem emit_focus (m : Msg) : (s.emit m).focus = s.focus := rfl
@[simp] theorem emit_focusAp (m : Msg) : (s.emit m).focusAp = s.focusAp := rfl
@[simp] theorem emit_nextId (m : Msg) : (s.emit m).nextId = s.nextId := rfl
@[simp] theorem emit_fresh (m : Msg) : (s.emit m).fresh = s.fresh := rfl
@[simp] theorem emit_cores (m : Msg) : (s.emit m).cores = s.cores := rfl
@[simp] theorem emit_threads (m : Msg) : (s.emit m).threads = s.threads := rfl
@[simp] theorem emit_blocks (m : Msg) : (s.emit m).blocks = s.blocks := rfl
@[simp] theorem emit_groups (m : Msg) : (s.emit m).groups = s.groups := rfl
@[simp] theorem emit_grids (m : Msg) : (s.emit m).grids = s.grids := rfl
@[simp] theorem emit_jobs (m : Msg) : (s.emit m).jobs = s.jobs := rfl
@[simp] theorem emit_codes (m : Msg) : (s.emit m).codes = s.codes := rfl
@[simp] theorem emit_ctxs (m : Msg) : (s.emit m).ctxs = s.ctxs := rfl
@[simp] theorem emit_parts (m : Msg) : (s.emit m).parts = s.parts := rfl
@[simp] theorem emit_queues (m : Msg) : (s.emit m).queues = s.queues := rfl
@[simp] theorem emit_allocs (m : Msg) : (s.emit m).allocs = s.allocs := rfl
@[simp] theorem emit_bars (m : Msg) : (s.emit m).bars = s.bars := rfl
@[simp] theorem emit_pubs (m : Msg) : (s.emit m).pubs = s.pubs := rfl
@[simp] theorem emit_pend (m : Msg) : (s.emit m).pend = s.pend := rfl
@[simp] theorem emit_stores (m : Msg) : (s.emit m).stores = s.stores := rfl
@[simp] theorem emit_redoStores (m : Msg) : (s.emit m).redoStores = s.redoStores := rfl
@[simp] theorem emit_redoLoads (m : Msg) : (s.emit m).redoLoads = s.redoLoads := rfl
@[simp] theorem emit_claims (m : Msg) : (s.emit m).claims = s.claims := rfl
@[simp] theorem emit_rels (m : Msg) : (s.emit m).rels = s.rels := rfl
@[simp] theorem emit_traces (m : Msg) : (s.emit m).traces = s.traces := rfl
@[simp] theorem emit_scLog (m : Msg) : (s.emit m).scLog = s.scLog := rfl
@[simp] theorem emit_hbm (m : Msg) : (s.emit m).hbm = s.hbm := rfl
@[simp] theorem emit_device (m : Msg) : (s.emit m).device = s.device := rfl
@[simp] theorem emit_frames (m : Msg) : (s.emit m).frames = s.frames := rfl
@[simp] theorem emit_ver1 (m : Msg) : (s.emit m).ver1 = s.ver1 := rfl
@[simp] theorem emit_ver2 (m : Msg) : (s.emit m).ver2 = s.ver2 := rfl
@[simp] theorem emit_ver3 (m : Msg) : (s.emit m).ver3 = s.ver3 := rfl
@[simp] theorem emit_root (m : Msg) : (s.emit m).root = s.root := rfl
@[simp] theorem emit_poison (m : Msg) : (s.emit m).poison = s.poison := rfl
@[simp] theorem emit_treeBad (m : Msg) : (s.emit m).treeBad = s.treeBad := rfl
@[simp] theorem emit_keys (m : Msg) : (s.emit m).keys = s.keys := rfl
@[simp] theorem emit_metaKey (m : Msg) : (s.emit m).metaKey = s.metaKey := rfl
@[simp] theorem emit_wq (m : Msg) : (s.emit m).wq = s.wq := rfl
@[simp] theorem emit_lineOut (m : Msg) : (s.emit m).lineOut = s.lineOut := rfl
@[simp] theorem emit_stackRecs (m : Msg) : (s.emit m).stackRecs = s.stackRecs := rfl
@[simp] theorem emit_tlb (m : Msg) : (s.emit m).tlb = s.tlb := rfl
@[simp] theorem emit_hdm (m : Msg) : (s.emit m).hdm = s.hdm := rfl
@[simp] theorem emit_bells (m : Msg) : (s.emit m).bells = s.bells := rfl
@[simp] theorem emit_doors (m : Msg) : (s.emit m).doors = s.doors := rfl
@[simp] theorem emit_notify (m : Msg) : (s.emit m).notify = s.notify := rfl
@[simp] theorem emit_gated (m : Msg) : (s.emit m).gated = s.gated := rfl
@[simp] theorem emit_pasids (m : Msg) : (s.emit m).pasids = s.pasids := rfl
@[simp] theorem emit_ats (m : Msg) : (s.emit m).ats = s.ats := rfl
@[simp] theorem emit_atsLost (m : Msg) : (s.emit m).atsLost = s.atsLost := rfl
@[simp] theorem emit_lanesLost (m : Msg) : (s.emit m).lanesLost = s.lanesLost := rfl
@[simp] theorem emit_sending (m : Msg) : (s.emit m).sending = s.sending := rfl
@[simp] theorem emit_ingress (m : Msg) : (s.emit m).ingress = s.ingress := rfl
@[simp] theorem emit_lossy (m : Msg) : (s.emit m).lossy = s.lossy := rfl
@[simp] theorem emit_out (m : Msg) : (s.emit m).out = s.out ++ [m] := rfl
@[simp] theorem emit_dies (m : Msg) : (s.emit m).dies = s.dies := rfl
@[simp] theorem emit_steward (m : Msg) : (s.emit m).steward = s.steward := rfl
@[simp] theorem emit_migrations (m : Msg) : (s.emit m).migrations = s.migrations := rfl
@[simp] theorem emit_incoming (m : Msg) : (s.emit m).incoming = s.incoming := rfl

/-! ### setQueue -/

@[simp] theorem setQueue_clock (d q : Nat) (x : Queue) : (s.setQueue d q x).clock = s.clock := rfl
@[simp] theorem setQueue_agenda (d q : Nat) (x : Queue) : (s.setQueue d q x).agenda = s.agenda := rfl
@[simp] theorem setQueue_focus (d q : Nat) (x : Queue) : (s.setQueue d q x).focus = s.focus := rfl
@[simp] theorem setQueue_focusAp (d q : Nat) (x : Queue) : (s.setQueue d q x).focusAp = s.focusAp := rfl
@[simp] theorem setQueue_nextId (d q : Nat) (x : Queue) : (s.setQueue d q x).nextId = s.nextId := rfl
@[simp] theorem setQueue_fresh (d q : Nat) (x : Queue) : (s.setQueue d q x).fresh = s.fresh := rfl
@[simp] theorem setQueue_cores (d q : Nat) (x : Queue) : (s.setQueue d q x).cores = s.cores := rfl
@[simp] theorem setQueue_threads (d q : Nat) (x : Queue) : (s.setQueue d q x).threads = s.threads := rfl
@[simp] theorem setQueue_blocks (d q : Nat) (x : Queue) : (s.setQueue d q x).blocks = s.blocks := rfl
@[simp] theorem setQueue_groups (d q : Nat) (x : Queue) : (s.setQueue d q x).groups = s.groups := rfl
@[simp] theorem setQueue_grids (d q : Nat) (x : Queue) : (s.setQueue d q x).grids = s.grids := rfl
@[simp] theorem setQueue_jobs (d q : Nat) (x : Queue) : (s.setQueue d q x).jobs = s.jobs := rfl
@[simp] theorem setQueue_codes (d q : Nat) (x : Queue) : (s.setQueue d q x).codes = s.codes := rfl
@[simp] theorem setQueue_ctxs (d q : Nat) (x : Queue) : (s.setQueue d q x).ctxs = s.ctxs := rfl
@[simp] theorem setQueue_parts (d q : Nat) (x : Queue) : (s.setQueue d q x).parts = s.parts := rfl
@[simp] theorem setQueue_queues (d q : Nat) (x : Queue) : (s.setQueue d q x).queues = s.queues.put (queueKey d q) x := rfl
@[simp] theorem setQueue_allocs (d q : Nat) (x : Queue) : (s.setQueue d q x).allocs = s.allocs := rfl
@[simp] theorem setQueue_bars (d q : Nat) (x : Queue) : (s.setQueue d q x).bars = s.bars := rfl
@[simp] theorem setQueue_pubs (d q : Nat) (x : Queue) : (s.setQueue d q x).pubs = s.pubs := rfl
@[simp] theorem setQueue_pend (d q : Nat) (x : Queue) : (s.setQueue d q x).pend = s.pend := rfl
@[simp] theorem setQueue_stores (d q : Nat) (x : Queue) : (s.setQueue d q x).stores = s.stores := rfl
@[simp] theorem setQueue_redoStores (d q : Nat) (x : Queue) : (s.setQueue d q x).redoStores = s.redoStores := rfl
@[simp] theorem setQueue_redoLoads (d q : Nat) (x : Queue) : (s.setQueue d q x).redoLoads = s.redoLoads := rfl
@[simp] theorem setQueue_claims (d q : Nat) (x : Queue) : (s.setQueue d q x).claims = s.claims := rfl
@[simp] theorem setQueue_rels (d q : Nat) (x : Queue) : (s.setQueue d q x).rels = s.rels := rfl
@[simp] theorem setQueue_traces (d q : Nat) (x : Queue) : (s.setQueue d q x).traces = s.traces := rfl
@[simp] theorem setQueue_scLog (d q : Nat) (x : Queue) : (s.setQueue d q x).scLog = s.scLog := rfl
@[simp] theorem setQueue_hbm (d q : Nat) (x : Queue) : (s.setQueue d q x).hbm = s.hbm := rfl
@[simp] theorem setQueue_device (d q : Nat) (x : Queue) : (s.setQueue d q x).device = s.device := rfl
@[simp] theorem setQueue_frames (d q : Nat) (x : Queue) : (s.setQueue d q x).frames = s.frames := rfl
@[simp] theorem setQueue_ver1 (d q : Nat) (x : Queue) : (s.setQueue d q x).ver1 = s.ver1 := rfl
@[simp] theorem setQueue_ver2 (d q : Nat) (x : Queue) : (s.setQueue d q x).ver2 = s.ver2 := rfl
@[simp] theorem setQueue_ver3 (d q : Nat) (x : Queue) : (s.setQueue d q x).ver3 = s.ver3 := rfl
@[simp] theorem setQueue_root (d q : Nat) (x : Queue) : (s.setQueue d q x).root = s.root := rfl
@[simp] theorem setQueue_poison (d q : Nat) (x : Queue) : (s.setQueue d q x).poison = s.poison := rfl
@[simp] theorem setQueue_treeBad (d q : Nat) (x : Queue) : (s.setQueue d q x).treeBad = s.treeBad := rfl
@[simp] theorem setQueue_keys (d q : Nat) (x : Queue) : (s.setQueue d q x).keys = s.keys := rfl
@[simp] theorem setQueue_metaKey (d q : Nat) (x : Queue) : (s.setQueue d q x).metaKey = s.metaKey := rfl
@[simp] theorem setQueue_wq (d q : Nat) (x : Queue) : (s.setQueue d q x).wq = s.wq := rfl
@[simp] theorem setQueue_lineOut (d q : Nat) (x : Queue) : (s.setQueue d q x).lineOut = s.lineOut := rfl
@[simp] theorem setQueue_stackRecs (d q : Nat) (x : Queue) : (s.setQueue d q x).stackRecs = s.stackRecs := rfl
@[simp] theorem setQueue_tlb (d q : Nat) (x : Queue) : (s.setQueue d q x).tlb = s.tlb := rfl
@[simp] theorem setQueue_hdm (d q : Nat) (x : Queue) : (s.setQueue d q x).hdm = s.hdm := rfl
@[simp] theorem setQueue_bells (d q : Nat) (x : Queue) : (s.setQueue d q x).bells = s.bells := rfl
@[simp] theorem setQueue_doors (d q : Nat) (x : Queue) : (s.setQueue d q x).doors = s.doors := rfl
@[simp] theorem setQueue_notify (d q : Nat) (x : Queue) : (s.setQueue d q x).notify = s.notify := rfl
@[simp] theorem setQueue_gated (d q : Nat) (x : Queue) : (s.setQueue d q x).gated = s.gated := rfl
@[simp] theorem setQueue_pasids (d q : Nat) (x : Queue) : (s.setQueue d q x).pasids = s.pasids := rfl
@[simp] theorem setQueue_ats (d q : Nat) (x : Queue) : (s.setQueue d q x).ats = s.ats := rfl
@[simp] theorem setQueue_atsLost (d q : Nat) (x : Queue) : (s.setQueue d q x).atsLost = s.atsLost := rfl
@[simp] theorem setQueue_lanesLost (d q : Nat) (x : Queue) : (s.setQueue d q x).lanesLost = s.lanesLost := rfl
@[simp] theorem setQueue_sending (d q : Nat) (x : Queue) : (s.setQueue d q x).sending = s.sending := rfl
@[simp] theorem setQueue_ingress (d q : Nat) (x : Queue) : (s.setQueue d q x).ingress = s.ingress := rfl
@[simp] theorem setQueue_lossy (d q : Nat) (x : Queue) : (s.setQueue d q x).lossy = s.lossy := rfl
@[simp] theorem setQueue_out (d q : Nat) (x : Queue) : (s.setQueue d q x).out = s.out := rfl
@[simp] theorem setQueue_dies (d q : Nat) (x : Queue) : (s.setQueue d q x).dies = s.dies := rfl
@[simp] theorem setQueue_steward (d q : Nat) (x : Queue) : (s.setQueue d q x).steward = s.steward := rfl
@[simp] theorem setQueue_migrations (d q : Nat) (x : Queue) : (s.setQueue d q x).migrations = s.migrations := rfl
@[simp] theorem setQueue_incoming (d q : Nat) (x : Queue) : (s.setQueue d q x).incoming = s.incoming := rfl

/-! ### newId -/

@[simp] theorem newId_fst : s.newId.1 = s.nextId := rfl
@[simp] theorem newId_clock : s.newId.2.clock = s.clock := rfl
@[simp] theorem newId_agenda : s.newId.2.agenda = s.agenda := rfl
@[simp] theorem newId_focus : s.newId.2.focus = s.focus := rfl
@[simp] theorem newId_focusAp : s.newId.2.focusAp = s.focusAp := rfl
@[simp] theorem newId_nextId : s.newId.2.nextId = s.nextId + 1 := rfl
@[simp] theorem newId_fresh : s.newId.2.fresh = s.fresh := rfl
@[simp] theorem newId_cores : s.newId.2.cores = s.cores := rfl
@[simp] theorem newId_threads : s.newId.2.threads = s.threads := rfl
@[simp] theorem newId_blocks : s.newId.2.blocks = s.blocks := rfl
@[simp] theorem newId_groups : s.newId.2.groups = s.groups := rfl
@[simp] theorem newId_grids : s.newId.2.grids = s.grids := rfl
@[simp] theorem newId_jobs : s.newId.2.jobs = s.jobs := rfl
@[simp] theorem newId_codes : s.newId.2.codes = s.codes := rfl
@[simp] theorem newId_ctxs : s.newId.2.ctxs = s.ctxs := rfl
@[simp] theorem newId_parts : s.newId.2.parts = s.parts := rfl
@[simp] theorem newId_queues : s.newId.2.queues = s.queues := rfl
@[simp] theorem newId_allocs : s.newId.2.allocs = s.allocs := rfl
@[simp] theorem newId_bars : s.newId.2.bars = s.bars := rfl
@[simp] theorem newId_pubs : s.newId.2.pubs = s.pubs := rfl
@[simp] theorem newId_pend : s.newId.2.pend = s.pend := rfl
@[simp] theorem newId_stores : s.newId.2.stores = s.stores := rfl
@[simp] theorem newId_redoStores : s.newId.2.redoStores = s.redoStores := rfl
@[simp] theorem newId_redoLoads : s.newId.2.redoLoads = s.redoLoads := rfl
@[simp] theorem newId_claims : s.newId.2.claims = s.claims := rfl
@[simp] theorem newId_rels : s.newId.2.rels = s.rels := rfl
@[simp] theorem newId_traces : s.newId.2.traces = s.traces := rfl
@[simp] theorem newId_scLog : s.newId.2.scLog = s.scLog := rfl
@[simp] theorem newId_hbm : s.newId.2.hbm = s.hbm := rfl
@[simp] theorem newId_device : s.newId.2.device = s.device := rfl
@[simp] theorem newId_frames : s.newId.2.frames = s.frames := rfl
@[simp] theorem newId_ver1 : s.newId.2.ver1 = s.ver1 := rfl
@[simp] theorem newId_ver2 : s.newId.2.ver2 = s.ver2 := rfl
@[simp] theorem newId_ver3 : s.newId.2.ver3 = s.ver3 := rfl
@[simp] theorem newId_root : s.newId.2.root = s.root := rfl
@[simp] theorem newId_poison : s.newId.2.poison = s.poison := rfl
@[simp] theorem newId_treeBad : s.newId.2.treeBad = s.treeBad := rfl
@[simp] theorem newId_keys : s.newId.2.keys = s.keys := rfl
@[simp] theorem newId_metaKey : s.newId.2.metaKey = s.metaKey := rfl
@[simp] theorem newId_wq : s.newId.2.wq = s.wq := rfl
@[simp] theorem newId_lineOut : s.newId.2.lineOut = s.lineOut := rfl
@[simp] theorem newId_stackRecs : s.newId.2.stackRecs = s.stackRecs := rfl
@[simp] theorem newId_tlb : s.newId.2.tlb = s.tlb := rfl
@[simp] theorem newId_hdm : s.newId.2.hdm = s.hdm := rfl
@[simp] theorem newId_bells : s.newId.2.bells = s.bells := rfl
@[simp] theorem newId_doors : s.newId.2.doors = s.doors := rfl
@[simp] theorem newId_notify : s.newId.2.notify = s.notify := rfl
@[simp] theorem newId_gated : s.newId.2.gated = s.gated := rfl
@[simp] theorem newId_pasids : s.newId.2.pasids = s.pasids := rfl
@[simp] theorem newId_ats : s.newId.2.ats = s.ats := rfl
@[simp] theorem newId_atsLost : s.newId.2.atsLost = s.atsLost := rfl
@[simp] theorem newId_lanesLost : s.newId.2.lanesLost = s.lanesLost := rfl
@[simp] theorem newId_sending : s.newId.2.sending = s.sending := rfl
@[simp] theorem newId_ingress : s.newId.2.ingress = s.ingress := rfl
@[simp] theorem newId_lossy : s.newId.2.lossy = s.lossy := rfl
@[simp] theorem newId_out : s.newId.2.out = s.out := rfl
@[simp] theorem newId_dies : s.newId.2.dies = s.dies := rfl
@[simp] theorem newId_steward : s.newId.2.steward = s.steward := rfl
@[simp] theorem newId_migrations : s.newId.2.migrations = s.migrations := rfl
@[simp] theorem newId_incoming : s.newId.2.incoming = s.incoming := rfl

/-! ### draw -/

@[simp] theorem draw_fst : s.draw.1 = s.fresh := rfl
@[simp] theorem draw_clock : s.draw.2.clock = s.clock := rfl
@[simp] theorem draw_agenda : s.draw.2.agenda = s.agenda := rfl
@[simp] theorem draw_focus : s.draw.2.focus = s.focus := rfl
@[simp] theorem draw_focusAp : s.draw.2.focusAp = s.focusAp := rfl
@[simp] theorem draw_nextId : s.draw.2.nextId = s.nextId := rfl
@[simp] theorem draw_fresh : s.draw.2.fresh = s.fresh + 1 := rfl
@[simp] theorem draw_cores : s.draw.2.cores = s.cores := rfl
@[simp] theorem draw_threads : s.draw.2.threads = s.threads := rfl
@[simp] theorem draw_blocks : s.draw.2.blocks = s.blocks := rfl
@[simp] theorem draw_groups : s.draw.2.groups = s.groups := rfl
@[simp] theorem draw_grids : s.draw.2.grids = s.grids := rfl
@[simp] theorem draw_jobs : s.draw.2.jobs = s.jobs := rfl
@[simp] theorem draw_codes : s.draw.2.codes = s.codes := rfl
@[simp] theorem draw_ctxs : s.draw.2.ctxs = s.ctxs := rfl
@[simp] theorem draw_parts : s.draw.2.parts = s.parts := rfl
@[simp] theorem draw_queues : s.draw.2.queues = s.queues := rfl
@[simp] theorem draw_allocs : s.draw.2.allocs = s.allocs := rfl
@[simp] theorem draw_bars : s.draw.2.bars = s.bars := rfl
@[simp] theorem draw_pubs : s.draw.2.pubs = s.pubs := rfl
@[simp] theorem draw_pend : s.draw.2.pend = s.pend := rfl
@[simp] theorem draw_stores : s.draw.2.stores = s.stores := rfl
@[simp] theorem draw_redoStores : s.draw.2.redoStores = s.redoStores := rfl
@[simp] theorem draw_redoLoads : s.draw.2.redoLoads = s.redoLoads := rfl
@[simp] theorem draw_claims : s.draw.2.claims = s.claims := rfl
@[simp] theorem draw_rels : s.draw.2.rels = s.rels := rfl
@[simp] theorem draw_traces : s.draw.2.traces = s.traces := rfl
@[simp] theorem draw_scLog : s.draw.2.scLog = s.scLog := rfl
@[simp] theorem draw_hbm : s.draw.2.hbm = s.hbm := rfl
@[simp] theorem draw_device : s.draw.2.device = s.device := rfl
@[simp] theorem draw_frames : s.draw.2.frames = s.frames := rfl
@[simp] theorem draw_ver1 : s.draw.2.ver1 = s.ver1 := rfl
@[simp] theorem draw_ver2 : s.draw.2.ver2 = s.ver2 := rfl
@[simp] theorem draw_ver3 : s.draw.2.ver3 = s.ver3 := rfl
@[simp] theorem draw_root : s.draw.2.root = s.root := rfl
@[simp] theorem draw_poison : s.draw.2.poison = s.poison := rfl
@[simp] theorem draw_treeBad : s.draw.2.treeBad = s.treeBad := rfl
@[simp] theorem draw_keys : s.draw.2.keys = s.keys := rfl
@[simp] theorem draw_metaKey : s.draw.2.metaKey = s.metaKey := rfl
@[simp] theorem draw_wq : s.draw.2.wq = s.wq := rfl
@[simp] theorem draw_lineOut : s.draw.2.lineOut = s.lineOut := rfl
@[simp] theorem draw_stackRecs : s.draw.2.stackRecs = s.stackRecs := rfl
@[simp] theorem draw_tlb : s.draw.2.tlb = s.tlb := rfl
@[simp] theorem draw_hdm : s.draw.2.hdm = s.hdm := rfl
@[simp] theorem draw_bells : s.draw.2.bells = s.bells := rfl
@[simp] theorem draw_doors : s.draw.2.doors = s.doors := rfl
@[simp] theorem draw_notify : s.draw.2.notify = s.notify := rfl
@[simp] theorem draw_gated : s.draw.2.gated = s.gated := rfl
@[simp] theorem draw_pasids : s.draw.2.pasids = s.pasids := rfl
@[simp] theorem draw_ats : s.draw.2.ats = s.ats := rfl
@[simp] theorem draw_atsLost : s.draw.2.atsLost = s.atsLost := rfl
@[simp] theorem draw_lanesLost : s.draw.2.lanesLost = s.lanesLost := rfl
@[simp] theorem draw_sending : s.draw.2.sending = s.sending := rfl
@[simp] theorem draw_ingress : s.draw.2.ingress = s.ingress := rfl
@[simp] theorem draw_lossy : s.draw.2.lossy = s.lossy := rfl
@[simp] theorem draw_out : s.draw.2.out = s.out := rfl
@[simp] theorem draw_dies : s.draw.2.dies = s.dies := rfl
@[simp] theorem draw_steward : s.draw.2.steward = s.steward := rfl
@[simp] theorem draw_migrations : s.draw.2.migrations = s.migrations := rfl
@[simp] theorem draw_incoming : s.draw.2.incoming = s.incoming := rfl

end Sys2Proof.Machine.State
end

