-- ==== Sys2Proof/Laws/Calm.lean ====
section
/-! SUPPORT. What a clause's end, a barrier wait, a trap entry and a context fault can do: they are `Calm`. -/

namespace Sys2Proof.Machine

namespace Apart

theorem refl (s : State) : Apart s s := ⟨rfl, fun _ => rfl, fun _ => rfl⟩

theorem trans {a b c : State} (h : Apart a b) (k : Apart b c) : Apart a c :=
  ⟨k.rest.trans h.rest, fun n => (k.cores n).trans (h.cores n), fun n => (k.ctxs n).trans (h.ctxs n)⟩

theorem after {a b c : State} (k : Apart b c) (h : Apart a b) : Apart a c := h.trans k

theorem foldl {β : Type} (f : State → β → State) (hf : ∀ s x, Apart s (f s x)) (l : List β) (s : State) : Apart s (l.foldl f s) := by
  induction l generalizing s with
  | nil => exact refl s
  | cons x l ih => exact (hf s x).trans (ih (f s x))

/-- Threads, operations and stores in flight and the counter of identifiers may differ. -/
theorem parts (s : State) (th : AMap Thread) (p : AMap Pend) (st : AMap Store) (n : Nat) :
    Apart s { s with threads := th, pend := p, stores := st, nextId := n } := ⟨rfl, fun _ => rfl, fun _ => rfl⟩

theorem updThr (s : State) (u : Nat) (f : Thread → Thread) : Apart s (s.updThr u f) := ⟨rfl, fun _ => rfl, fun _ => rfl⟩

/-- Sticky bits may differ. -/
theorem updCtx (s : State) (c : Nat) (f : Context → Context) (hf : ∀ k, (f k).still = k.still) : Apart s (s.updCtx c f) := by
  refine ⟨rfl, fun _ => rfl, fun n => ?_⟩
  simp only [State.updCtx_ctxs, AMap.look_upd]
  split
  · simp [Option.map_map, Function.comp_def, hf]
  · rfl

end Apart

namespace Calm

theorem refl (s : State) : Calm s s := ⟨Apart.refl s, rfl, fun _ => rfl, fun _ => rfl⟩

theorem trans {a b c : State} (h : Calm a b) (k : Calm b c) : Calm a c :=
  ⟨h.apart.trans k.apart, k.pend.trans h.pend, fun n => (k.ctxs n).trans (h.ctxs n), fun u => (k.threads u).trans (h.threads u)⟩

theorem after {a b c : State} (k : Calm b c) (h : Calm a b) : Calm a c := h.trans k

theorem foldl {β : Type} (f : State → β → State) (hf : ∀ s x, Calm s (f s x)) (l : List β) (s : State) : Calm s (l.foldl f s) := by
  induction l generalizing s with
  | nil => exact refl s
  | cons x l ih => exact (hf s x).trans (ih (f s x))

/-- An update of one thread's control state. -/
theorem updThr (s : State) (u : Nat) (f : Thread → Thread) (hf : ∀ t, (f t).still = t.still) : Calm s (s.updThr u f) := by
  refine ⟨Apart.updThr s u f, rfl, fun _ => rfl, fun v => ?_⟩
  simp only [State.updThr_threads, AMap.look_upd]
  split
  · simp [Option.map_map, Function.comp_def, hf]
  · rfl

/-- An update of one core's sets. -/
theorem updCore (s : State) (k : Nat) (f : CoreRec → CoreRec) (hf : ∀ c, (f c).still = c.still) : Calm s (s.updCore k f) := by
  refine ⟨⟨rfl, fun n => ?_, fun _ => rfl⟩, rfl, fun _ => rfl, fun _ => rfl⟩
  simp only [State.core, State.updCore_cores, AMap.lookD, AMap.look_put]
  split
  · rename_i h; subst h; simp [hf]
  · rfl

/-- A context is written with a halt line or a deferred cause. -/
theorem putCtx (s : State) (c : Nat) (k k' : Context) (h : s.ctxs.look c = some k) (hk : k'.calm = k.calm) :
    Calm s { s with ctxs := s.ctxs.put c k' } := by
  have key (n : Nat) : ((s.ctxs.put c k').look n).map Context.calm = (s.ctxs.look n).map Context.calm := by
    simp only [AMap.look_put]
    split
    · rename_i e; subst e; simp [h, hk]
    · rfl
  refine ⟨⟨rfl, fun _ => rfl, fun n => ?_⟩, rfl, key, fun _ => rfl⟩
  have e := congrArg (Option.map Context.still) (key n)
  simp only [Option.map_map] at e
  exact e

theorem becomeReady (s : State) (u : Nat) : Calm s (becomeReady s u) := by
  unfold Machine.becomeReady
  split
  · exact refl s
  · rename_i t h
    refine ⟨⟨rfl, fun _ => rfl, fun _ => rfl⟩, rfl, fun _ => rfl, fun v => ?_⟩
    simp only [AMap.look_put]
    split
    · rename_i e; subst e; simp [h, Thread.still]
    · rfl

theorem setCore (s : State) (k : Nat) (c : CoreRec) (h : c.still = (s.core k).still) : Calm s (s.setCore k c) := by
  refine ⟨⟨rfl, fun n => ?_, fun _ => rfl⟩, rfl, fun _ => rfl, fun _ => rfl⟩
  simp only [State.core, State.setCore_cores, AMap.lookD, AMap.look_put]
  split
  · rename_i e; subst e; simpa [State.core, AMap.lookD] using h
  · rfl

theorem dissolve (s : State) (core : Nat) : Calm s (dissolve s core) := by
  unfold Machine.dissolve
  dsimp only
  refine (foldl _ (fun s u => ?_) _ _).after (setCore s core _ rfl)
  split
  · split
    · exact becomeReady s u
    · exact refl s
  · exact refl s

theorem raiseFault (s : State) (ctx : Nat) (c : Cause) : Calm s (raiseFault s ctx c) := by
  unfold Machine.raiseFault
  split
  · exact refl s
  · rename_i k h
    split
    · exact putCtx s ctx k _ h rfl
    · split
      · exact putCtx s ctx k _ h rfl
      · dsimp only
        exact (foldl _ (fun s n => dissolve s n) _ _).after (putCtx s ctx k _ h rfl)

theorem faultThread (s : State) (u cause va detail : Nat) (ms : List Nat) (e v : Bool) :
    Calm s (faultThread s u cause va detail ms e v) := raiseFault _ _ _

theorem faultLate (s : State) (u core : Nat) (pc : W32) (ctx : Nat) (f : Fail) (va : Nat) : Calm s (faultLate s u core pc ctx f va) :=
  raiseFault _ _ _

/-- Stores in flight and the counter of identifiers may differ. -/
theorem stores (s : State) (n : Nat) (st : AMap Store) : Calm s { s with nextId := n, stores := st } :=
  ⟨⟨rfl, fun _ => rfl, fun _ => rfl⟩, rfl, fun _ => rfl, fun _ => rfl⟩

theorem issueStore (s : State) (st : Store) : Calm s (issueStore s st).2 := by
  unfold Machine.issueStore
  dsimp only
  split
  · exact stores s _ _
  · exact stores s _ _

theorem push (s : State) (u : Nat) (b : List Byte) : Calm s (push s u b) := by
  unfold Machine.push
  split
  · exact refl s
  · split
    · exact refl s
    · split
      · exact refl s
      · dsimp only
        exact (updThr _ _ _ (by intro; rfl)).after (issueStore _ _)

theorem takeTrap (s : State) (u : Nat) (r : TrapReq) : Calm s (takeTrap s u r) := by
  unfold Machine.takeTrap
  split
  · exact refl s
  · split
    · exact refl s
    · have h1 : Calm s (s.updThr u fun t => { t with trap := none }) := updThr _ _ _ fun _ => rfl
      have h2 (s : State) : Calm s (s.updThr u fun t => { t with st := .ready, since := s.clock }) := updThr _ _ _ fun _ => rfl
      dsimp only
      split
      · exact (raiseFault _ _ _).after ((h2 _).after h1)
      · split
        · exact (raiseFault _ _ _).after ((h2 _).after h1)
        · split
          · exact (raiseFault _ _ _).after ((h2 _).after h1)
          · exact (becomeReady _ _).after ((updThr _ _ _ (by intro; rfl)).after ((push _ _ _).after h1))

theorem beginTrap (s : State) (u : Nat) (r : TrapReq) : Calm s (beginTrap s u r) := by
  unfold Machine.beginTrap
  split
  · exact updThr _ _ _ (by intro; rfl)
  · exact takeTrap s u r

theorem acquireBar (s : State) (u : Nat) (l : Level) (n : Nat) : Calm s (acquireBar s u l n) := by
  unfold Machine.acquireBar
  split
  · exact refl s
  · exact updThr _ _ _ (by intro; rfl)

theorem takeWaits (s : State) (u : Nat) (l : List (Level × Nat)) : Calm s (takeWaits s u l) := by
  induction l generalizing s with
  | nil =>
    unfold Machine.takeWaits
    have h : Calm s (s.updThr u fun t => { t with owed := [] }) := updThr _ _ _ fun _ => rfl
    dsimp only
    split
    · exact (beginTrap _ _ _).after h
    · exact (becomeReady _ _).after h
  | cons e l ih =>
    obtain ⟨lv, n⟩ := e
    unfold Machine.takeWaits
    split
    · exact (ih _).after (acquireBar _ _ _ _)
    · exact updThr _ _ _ (by intro; rfl)

theorem leaveFor (s : State) (u : Nat) (r : TrapReq) : Calm s (leaveFor s u r) := by
  unfold Machine.leaveFor
  exact (takeWaits _ _ _).after ((updThr _ _ _ (by intro; rfl)).after (updCore _ _ _ (by intro; rfl)))

theorem stallSet (s : State) (ms : List Mb) : Calm s (stallSet s ms) := by
  unfold Machine.stallSet
  exact foldl _ (fun s m => updThr _ _ _ (by intro; rfl)) _ _

theorem stepTraps (s : State) (h : Header) (ms : List Mb) : Calm s (stepTraps s h ms) := by
  unfold Machine.stepTraps
  dsimp only
  split
  · exact (dissolve _ _).after (foldl _ (fun s m => leaveFor _ _ _) _ _)
  · exact foldl _ (fun s m => leaveFor _ _ _) _ _

theorem endClause (s : State) (g : Gather) (h : Header) : Calm s (endClause s g h) := by
  unfold Machine.endClause
  have h1 : Calm s (s.updCore s.focus fun c => { c with gather := none }) := updCore _ _ _ fun _ => rfl
  have h2 (o : Nat → List (Level × Nat)) (s : State) : Calm s (g.members.foldl (fun s u => Machine.takeWaits s u (o u)) s) :=
    foldl _ (fun s u => takeWaits s u _) _ _
  dsimp only
  split
  · exact (updCore _ _ _ (by intro; rfl)).after ((h2 _ _).after h1)
  · exact (h2 _ _).after h1

/-- All that the end of an instruction can do. -/
theorem advance (s : State) (i : Instr) (g : Gather) (ms : List Mb) (ts : List (Nat × W32)) : Calm s (advance s i g ms ts) := by
  unfold Machine.advance
  dsimp only
  have key (x : State) (n : Nat) (h : Calm s x) : Calm s (match (x.core x.focus).gather with
      | none => x
      | some g' =>
        if g'.members.isEmpty then x.updCore x.focus fun c => { c with gather := none }
        else if n < (curHeader s g).count then x.updCore x.focus fun c => { c with gather := some { g' with slot := n, served := [] } }
        else Machine.endClause x g' (curHeader s g)) := by
    split
    · exact h
    · split
      · exact (updCore _ _ _ (by intro; rfl)).after h
      · split
        · exact (updCore _ _ _ (by intro; rfl)).after h
        · exact (endClause _ _ _).after h
  exact key _ _ ((stepTraps _ _ _).after (foldl _ (fun s u => updThr s u _ (by intro; rfl)) _ _))

end Calm
end Sys2Proof.Machine
end

