-- ==== Sys2Proof/Laws/PerInstr.lean ====
section
/-! SUPPORT. The family `Rereads`: every encoded instruction is read back from its class, opcode and MOD, whatever its operands. -/

namespace Sys2Proof

/-! ### Codes read back -/

@[simp] theorem ITy.of_code (t : ITy) : ITy.ofCode t.code = some t := by cases t <;> rfl
@[simp] theorem Cmp.of_code (c : Cmp) : Cmp.ofCode c.code = some c := by cases c <;> rfl
@[simp] theorem Rnd.of_code (r : Rnd) : Rnd.ofCode r.code = some r := by cases r <;> rfl
@[simp] theorem Scope.of_code (s : Scope) : Scope.ofCode s.code = some s := by cases s <;> rfl
@[simp] theorem Ord4.of_code (o : Ord4) : Ord4.ofCode o.code = some o := by cases o <;> rfl
@[simp] theorem FFmt.of_code (f : FFmt) : FFmt.ofCode f.code = some f := by cases f <;> rfl
@[simp] theorem Rop.of_code (o : Rop) : Rop.ofCode o.code = some o := by cases o <;> rfl
@[simp] theorem Aop.of_code (o : Aop) : Aop.ofCode o.code = some o := by cases o <;> rfl
@[simp] theorem Level.of_code (l : Level) : Level.ofCode l.code = some l := by cases l <;> rfl
@[simp] theorem SReg.of_code (r : SReg) : SReg.ofCode r.code = some r := by cases r <;> rfl
@[simp] theorem PReg.of_code (r : PReg) : PReg.ofCode r.code = some r := by cases r <;> rfl
@[simp] theorem Cls.of_code (c : Cls) : Cls.ofCode c.code = some c := by cases c <;> rfl
@[simp] theorem fin?_val {n : Nat} (i : Fin n) : fin? n i.val = some i := by simp [fin?]
@[simp] theorem pathxOf_code (p : Option (Fin 8)) : pathxOf (pathxCode p) = some p := by
  cases p with
  | none => rfl
  | some n => simp [pathxOf, pathxCode]

theorem ITy.code_lt (t : ITy) : t.code < 16 := by cases t <;> decide
theorem Cmp.code_lt (c : Cmp) : c.code < 16 := by cases c <;> decide
theorem Rnd.code_lt (r : Rnd) : r.code < 8 := by cases r <;> decide
theorem Scope.code_lt (s : Scope) : s.code < 8 := by cases s <;> decide
theorem Ord4.code_lt (o : Ord4) : o.code < 4 := by cases o <;> decide
theorem FFmt.code_lt (f : FFmt) : f.code < 16 := by cases f <;> decide
theorem Rop.code_lt (o : Rop) : o.code < 16 := by cases o <;> decide
theorem Aop.code_lt (o : Aop) : o.code < 16 := by cases o <;> decide
theorem Level.code_lt (l : Level) : l.code < 4 := by cases l <;> decide
theorem SReg.code_lt (r : SReg) : r.code < 256 := by cases r <;> decide
theorem PReg.code_lt (r : PReg) : r.code < 256 := by cases r <;> decide
theorem pathxCode_lt (p : Option (Fin 8)) : pathxCode p < 16 := by
  cases p with
  | none => decide
  | some n => simp [pathxCode]; omega

/-! ### Fields of a sum -/

theorem bits_eq (x hi lo : Nat) : bits x hi lo = x / 2 ^ lo % 2 ^ (hi + 1 - lo) := by simp [bits, Nat.shiftRight_eq_div_pow]

theorem bit_eq (x i : Nat) : bit x i = decide (x / 2 ^ i % 2 = 1) := by
  simp [bit, Nat.testBit, Nat.shiftRight_eq_div_pow, Nat.one_and_eq_mod_two, Bool.beq_eq_decide_eq]

/-- A field at bit `lo` with smaller fields below it and anything above it. -/
theorem bits_field {x hi lo n : Nat} (a b c : Nat) (hx : x = a + 2 ^ lo * (b + 2 ^ n * c)) (ha : a < 2 ^ lo) (hb : b < 2 ^ n)
    (hn : hi + 1 - lo = n) : bits x hi lo = b := by
  rw [bits_eq, hn, hx, Nat.add_mul_div_left _ _ (Nat.two_pow_pos lo), Nat.div_eq_of_lt ha, Nat.zero_add, Nat.add_mul_mod_self_left,
    Nat.mod_eq_of_lt hb]

/-- One bit of a sum. -/
theorem bit_field {x i : Nat} (a : Nat) (b : Bool) (c : Nat) (hx : x = a + 2 ^ i * (b.toNat + 2 * c)) (ha : a < 2 ^ i) :
    bit x i = b := by
  rw [bit_eq, hx, Nat.add_mul_div_left _ _ (Nat.two_pow_pos i), Nat.div_eq_of_lt ha, Nat.zero_add, Nat.add_mul_mod_self_left]
  cases b <;> rfl

/-- The fields of a class M MOD (R88). -/
theorem mMod_parts {a o t u : Nat} (ha : a < 8) (ho : o < 4) (ht : t < 16) (hu : u < 16) :
    mMod a o t u < 2 ^ 13 ∧ bits (mMod a o t u) 2 0 = a ∧ bits (mMod a o t u) 4 3 = o ∧ bits (mMod a o t u) 8 5 = t
      ∧ bits (mMod a o t u) 12 9 = u ∧ bits (mMod a o t u) 13 9 = u ∧ bit (mMod a o t u) 3 = decide (o % 2 = 1)
      ∧ bit (mMod a o t u) 4 = decide (o / 2 = 1) ∧ bit (mMod a o t u) 13 = false := by
  simp only [bits_eq, bit_eq, mMod, decide_eq_decide, decide_eq_false_iff_not]
  omega

/-- LEVEL and NUM of a barrier instruction (R85). -/
theorem barMod_parts (l : Level) (n : Fin 16) :
    barMod l n < 2 ^ 14 ∧ bits (barMod l n) 1 0 = l.code ∧ bits (barMod l n) 5 2 = n.val := by
  have := l.code_lt
  simp only [bits_eq, barMod]
  omega

/-- A MOD field that fills MOD from bit 0. -/
theorem bits_low {x hi : Nat} (h : x < 2 ^ (hi + 1)) : bits x hi 0 = x := by
  rw [bits_eq, Nat.pow_zero, Nat.div_one, Nat.sub_zero, Nat.mod_eq_of_lt h]

/-- A MOD field above one of `n` bits. -/
theorem bits_above {a b hi n : Nat} (ha : a < 2 ^ n) (hb : b < 2 ^ (hi + 1 - n)) : bits (a + 2 ^ n * b) hi n = b := by
  rw [bits_eq, Nat.add_mul_div_left _ _ (Nat.two_pow_pos n), Nat.div_eq_of_lt ha, Nat.zero_add, Nat.mod_eq_of_lt hb]

namespace Laws.Rereads

/-- An instruction's class, opcode and MOD are fields of a word, and give the instruction back over its own operands; over others they give
one with the same modifiers (R58, R80). -/
def Statement (i : Instr) : Prop :=
  ∀ c opc mod, codeOf i = some (c, opc, mod) → opc < 2 ^ 10 ∧ mod < 2 ^ 14 ∧ ∀ x : X, ∃ i', ofFields c opc mod x = some i' ∧ i'.x = x
    ∧ i'.modOk = i.modOk ∧ i'.isVL = i.isVL ∧ (x = i.x → i' = i)

/-- The statement from the reader's answer for every operand fields `x`. -/
theorem intro_ {i : Instr} (f : X → Instr) (c : Cls) (opc mod : Nat) (hc : ∀ x, codeOf (f x) = some (c, opc, mod)) (hi : f i.x = i)
    (hx : ∀ x, (f x).x = x) (hm : ∀ x, (f x).modOk = i.modOk) (hv : ∀ x, (f x).isVL = i.isVL) (ho : opc < 2 ^ 10) (hb : mod < 2 ^ 14)
    (r : ModReader) (hl : opReader c opc = some r) (hr : ∀ x, r mod x = some (f x)) : Statement i := by
  intro c' opc' mod' h
  have h0 := hc i.x
  rw [hi, h] at h0
  simp only [Option.some.injEq, Prod.mk.injEq] at h0
  obtain ⟨rfl, rfl, rfl⟩ := h0
  refine ⟨ho, hb, fun x => ⟨f x, ?_, hx x, hm x, hv x, ?_⟩⟩
  · simp [ofFields, hl, hr, hc]
  · rintro rfl
    exact hi

/-- A step without an encoding. -/
theorem event {i : Instr} (h : codeOf i = none) : Statement i := by
  intro c opc mod h'
  simp [h] at h'

theorem nop (x : X) : Statement (.nop x) :=
  intro_ (.nop ·) .V 0x000 _ (fun _ => rfl) rfl (fun _ => rfl) (fun _ => rfl) (fun _ => rfl)
    (by decide) (by decide) _ rfl (fun _ => by rfl)
theorem iadd (x : X) (t : ITy) (sat : Bool) : Statement (.iadd x t sat) :=
  intro_ (.iadd · t sat) .V 0x010 _ (fun _ => rfl) rfl (fun _ => rfl) (fun _ => rfl) (fun _ => rfl)
    (by decide) (by cases t <;> cases sat <;> decide) _ rfl (fun _ => by cases t <;> cases sat <;> rfl)
theorem isub (x : X) (t : ITy) (sat : Bool) : Statement (.isub x t sat) :=
  intro_ (.isub · t sat) .V 0x011 _ (fun _ => rfl) rfl (fun _ => rfl) (fun _ => rfl) (fun _ => rfl)
    (by decide) (by cases t <;> cases sat <;> decide) _ rfl (fun _ => by cases t <;> cases sat <;> rfl)
theorem imul (x : X) (t : ITy) (sat : Bool) : Statement (.imul x t sat) :=
  intro_ (.imul · t sat) .V 0x012 _ (fun _ => rfl) rfl (fun _ => rfl) (fun _ => rfl) (fun _ => rfl)
    (by decide) (by cases t <;> cases sat <;> decide) _ rfl (fun _ => by cases t <;> cases sat <;> rfl)
theorem imulh (x : X) (t : ITy) : Statement (.imulh x t) :=
  intro_ (.imulh · t) .V 0x013 _ (fun _ => rfl) rfl (fun _ => rfl) (fun _ => rfl) (fun _ => rfl)
    (by decide) (by cases t <;> decide) _ rfl (fun _ => by cases t <;> rfl)
theorem imad (x : X) (t : ITy) (sat : Bool) : Statement (.imad x t sat) :=
  intro_ (.imad · t sat) .V 0x014 _ (fun _ => rfl) rfl (fun _ => rfl) (fun _ => rfl) (fun _ => rfl)
    (by decide) (by cases t <;> cases sat <;> decide) _ rfl (fun _ => by cases t <;> cases sat <;> rfl)
theorem imadWide (x : X) (t : ITy) (sat : Bool) : Statement (.imadWide x t sat) :=
  intro_ (.imadWide · t sat) .V 0x014 _ (fun _ => rfl) rfl (fun _ => rfl) (fun _ => rfl) (fun _ => rfl)
    (by decide) (by cases t <;> cases sat <;> decide) _ rfl (fun _ => by cases t <;> cases sat <;> rfl)
theorem iadc (x : X) (t : ITy) (cp : Fin 8) : Statement (.iadc x t cp) := by
  have h := t.code_lt
  have g := cp.isLt
  have h1 : bits (t.code + 64 * cp.val) 3 0 = t.code := by rw [bits_eq]; omega
  have h2 : bits (t.code + 64 * cp.val) 8 6 = cp.val := by rw [bits_eq]; omega
  exact intro_ (.iadc · t cp) .V 0x015 (t.code + 64 * cp.val) (fun _ => rfl) rfl (fun _ => rfl) (fun _ => rfl) (fun _ => rfl)
    (by decide) (by omega) _ rfl (fun _ => by simp [ity, h1, h2])
theorem isbc (x : X) (t : ITy) (cp : Fin 8) : Statement (.isbc x t cp) := by
  have h := t.code_lt
  have g := cp.isLt
  have h1 : bits (t.code + 64 * cp.val) 3 0 = t.code := by rw [bits_eq]; omega
  have h2 : bits (t.code + 64 * cp.val) 8 6 = cp.val := by rw [bits_eq]; omega
  exact intro_ (.isbc · t cp) .V 0x016 (t.code + 64 * cp.val) (fun _ => rfl) rfl (fun _ => rfl) (fun _ => rfl) (fun _ => rfl)
    (by decide) (by omega) _ rfl (fun _ => by simp [ity, h1, h2])
theorem imin (x : X) (t : ITy) : Statement (.imin x t) :=
  intro_ (.imin · t) .V 0x017 _ (fun _ => rfl) rfl (fun _ => rfl) (fun _ => rfl) (fun _ => rfl)
    (by decide) (by cases t <;> decide) _ rfl (fun _ => by cases t <;> rfl)
theorem imax (x : X) (t : ITy) : Statement (.imax x t) :=
  intro_ (.imax · t) .V 0x018 _ (fun _ => rfl) rfl (fun _ => rfl) (fun _ => rfl) (fun _ => rfl)
    (by decide) (by cases t <;> decide) _ rfl (fun _ => by cases t <;> rfl)
theorem iabs (x : X) (t : ITy) : Statement (.iabs x t) :=
  intro_ (.iabs · t) .V 0x019 _ (fun _ => rfl) rfl (fun _ => rfl) (fun _ => rfl) (fun _ => rfl)
    (by decide) (by cases t <;> decide) _ rfl (fun _ => by cases t <;> rfl)
theorem ineg (x : X) (t : ITy) : Statement (.ineg x t) :=
  intro_ (.ineg · t) .V 0x01A _ (fun _ => rfl) rfl (fun _ => rfl) (fun _ => rfl) (fun _ => rfl)
    (by decide) (by cases t <;> decide) _ rfl (fun _ => by cases t <;> rfl)
theorem and (x : X) (t : ITy) : Statement (.and x t) :=
  intro_ (.and · t) .V 0x020 _ (fun _ => rfl) rfl (fun _ => rfl) (fun _ => rfl) (fun _ => rfl)
    (by decide) (by cases t <;> decide) _ rfl (fun _ => by cases t <;> rfl)
theorem or (x : X) (t : ITy) : Statement (.or x t) :=
  intro_ (.or · t) .V 0x021 _ (fun _ => rfl) rfl (fun _ => rfl) (fun _ => rfl) (fun _ => rfl)
    (by decide) (by cases t <;> decide) _ rfl (fun _ => by cases t <;> rfl)
theorem xor (x : X) (t : ITy) : Statement (.xor x t) :=
  intro_ (.xor · t) .V 0x022 _ (fun _ => rfl) rfl (fun _ => rfl) (fun _ => rfl) (fun _ => rfl)
    (by decide) (by cases t <;> decide) _ rfl (fun _ => by cases t <;> rfl)
theorem not (x : X) (t : ITy) : Statement (.not x t) :=
  intro_ (.not · t) .V 0x023 _ (fun _ => rfl) rfl (fun _ => rfl) (fun _ => rfl) (fun _ => rfl)
    (by decide) (by cases t <;> decide) _ rfl (fun _ => by cases t <;> rfl)
theorem bool3 (x : X) (t : ITy) (tt : Byte) : Statement (.bool3 x t tt) := by
  have h := t.code_lt
  have g := tt.isLt
  have h1 : bits (t.code + 64 * tt.toNat) 3 0 = t.code := by rw [bits_eq]; omega
  have h2 : bits (t.code + 64 * tt.toNat) 13 6 = tt.toNat := by rw [bits_eq]; omega
  exact intro_ (.bool3 · t tt) .V 0x024 (t.code + 64 * tt.toNat) (fun _ => rfl) rfl (fun _ => rfl) (fun _ => rfl) (fun _ => rfl)
    (by decide) (by omega) _ rfl (fun _ => by simp [ity, h1, h2])
theorem shl (x : X) (t : ITy) : Statement (.shl x t) :=
  intro_ (.shl · t) .V 0x028 _ (fun _ => rfl) rfl (fun _ => rfl) (fun _ => rfl) (fun _ => rfl)
    (by decide) (by cases t <;> decide) _ rfl (fun _ => by cases t <;> rfl)
theorem shr (x : X) (t : ITy) : Statement (.shr x t) :=
  intro_ (.shr · t) .V 0x029 _ (fun _ => rfl) rfl (fun _ => rfl) (fun _ => rfl) (fun _ => rfl)
    (by decide) (by cases t <;> decide) _ rfl (fun _ => by cases t <;> rfl)
theorem sar (x : X) (t : ITy) : Statement (.sar x t) :=
  intro_ (.sar · t) .V 0x02A _ (fun _ => rfl) rfl (fun _ => rfl) (fun _ => rfl) (fun _ => rfl)
    (by decide) (by cases t <;> decide) _ rfl (fun _ => by cases t <;> rfl)
theorem rol (x : X) (t : ITy) : Statement (.rol x t) :=
  intro_ (.rol · t) .V 0x02B _ (fun _ => rfl) rfl (fun _ => rfl) (fun _ => rfl) (fun _ => rfl)
    (by decide) (by cases t <;> decide) _ rfl (fun _ => by cases t <;> rfl)
theorem fsh (x : X) (right : Bool) : Statement (.fsh x right) :=
  intro_ (.fsh · right) .V 0x02C _ (fun _ => rfl) rfl (fun _ => rfl) (fun _ => rfl) (fun _ => rfl)
    (by decide) (by cases right <;> decide) _ rfl (fun _ => by cases right <;> rfl)
theorem bfx (x : X) (t : ITy) : Statement (.bfx x t) :=
  intro_ (.bfx · t) .V 0x02D _ (fun _ => rfl) rfl (fun _ => rfl) (fun _ => rfl) (fun _ => rfl)
    (by decide) (by cases t <;> decide) _ rfl (fun _ => by cases t <;> rfl)
theorem bfi (x : X) : Statement (.bfi x) :=
  intro_ (.bfi ·) .V 0x02E _ (fun _ => rfl) rfl (fun _ => rfl) (fun _ => rfl) (fun _ => rfl)
    (by decide) (by decide) _ rfl (fun _ => by rfl)
theorem popc (x : X) (t : ITy) : Statement (.popc x t) :=
  intro_ (.popc · t) .V 0x02F _ (fun _ => rfl) rfl (fun _ => rfl) (fun _ => rfl) (fun _ => rfl)
    (by decide) (by cases t <;> decide) _ rfl (fun _ => by cases t <;> rfl)
theorem clz (x : X) (t : ITy) : Statement (.clz x t) :=
  intro_ (.clz · t) .V 0x030 _ (fun _ => rfl) rfl (fun _ => rfl) (fun _ => rfl) (fun _ => rfl)
    (by decide) (by cases t <;> decide) _ rfl (fun _ => by cases t <;> rfl)
theorem ctz (x : X) (t : ITy) : Statement (.ctz x t) :=
  intro_ (.ctz · t) .V 0x031 _ (fun _ => rfl) rfl (fun _ => rfl) (fun _ => rfl) (fun _ => rfl)
    (by decide) (by cases t <;> decide) _ rfl (fun _ => by cases t <;> rfl)
theorem brev (x : X) (t : ITy) : Statement (.brev x t) :=
  intro_ (.brev · t) .V 0x032 _ (fun _ => rfl) rfl (fun _ => rfl) (fun _ => rfl) (fun _ => rfl)
    (by decide) (by cases t <;> decide) _ rfl (fun _ => by cases t <;> rfl)
theorem bperm (x : X) : Statement (.bperm x) :=
  intro_ (.bperm ·) .V 0x033 _ (fun _ => rfl) rfl (fun _ => rfl) (fun _ => rfl) (fun _ => rfl)
    (by decide) (by decide) _ rfl (fun _ => by rfl)
theorem sel (x : X) (t : ITy) : Statement (.sel x t) :=
  intro_ (.sel · t) .V 0x034 _ (fun _ => rfl) rfl (fun _ => rfl) (fun _ => rfl) (fun _ => rfl)
    (by decide) (by cases t <;> decide) _ rfl (fun _ => by cases t <;> rfl)
theorem isetp (x : X) (t : ITy) (c : Cmp) : Statement (.isetp x t c) :=
  intro_ (.isetp · t c) .V 0x035 _ (fun _ => rfl) rfl (fun _ => rfl) (fun _ => rfl) (fun _ => rfl)
    (by decide) (by cases t <;> cases c <;> decide) _ rfl (fun _ => by cases t <;> cases c <;> rfl)
theorem mov (x : X) (t : ITy) : Statement (.mov x t) :=
  intro_ (.mov · t) .V 0x036 _ (fun _ => rfl) rfl (fun _ => rfl) (fun _ => rfl) (fun _ => rfl)
    (by decide) (by cases t <;> decide) _ rfl (fun _ => by cases t <;> rfl)
theorem cvti (x : X) (t : ITy) (src : ITy) (sat : Bool) : Statement (.cvti x t src sat) :=
  intro_ (.cvti · t src sat) .V 0x037 _ (fun _ => rfl) rfl (fun _ => rfl) (fun _ => rfl) (fun _ => rfl)
    (by decide) (by cases t <;> cases src <;> cases sat <;> decide) _ rfl (fun _ => by cases t <;> cases src <;> cases sat <;> rfl)
theorem pand (x : X) : Statement (.pand x) :=
  intro_ (.pand ·) .V 0x040 _ (fun _ => rfl) rfl (fun _ => rfl) (fun _ => rfl) (fun _ => rfl)
    (by decide) (by decide) _ rfl (fun _ => by rfl)
theorem por (x : X) : Statement (.por x) :=
  intro_ (.por ·) .V 0x041 _ (fun _ => rfl) rfl (fun _ => rfl) (fun _ => rfl) (fun _ => rfl)
    (by decide) (by decide) _ rfl (fun _ => by rfl)
theorem pxor (x : X) : Statement (.pxor x) :=
  intro_ (.pxor ·) .V 0x042 _ (fun _ => rfl) rfl (fun _ => rfl) (fun _ => rfl) (fun _ => rfl)
    (by decide) (by decide) _ rfl (fun _ => by rfl)
theorem pnot (x : X) : Statement (.pnot x) :=
  intro_ (.pnot ·) .V 0x043 _ (fun _ => rfl) rfl (fun _ => rfl) (fun _ => rfl) (fun _ => rfl)
    (by decide) (by decide) _ rfl (fun _ => by rfl)
theorem pmov (x : X) : Statement (.pmov x) :=
  intro_ (.pmov ·) .V 0x044 _ (fun _ => rfl) rfl (fun _ => rfl) (fun _ => rfl) (fun _ => rfl)
    (by decide) (by decide) _ rfl (fun _ => by rfl)
theorem fadd (x : X) (r : Rnd) (ftz : Bool) : Statement (.fadd x r ftz) :=
  intro_ (.fadd · r ftz) .V 0x050 _ (fun _ => rfl) rfl (fun _ => rfl) (fun _ => rfl) (fun _ => rfl)
    (by decide) (by cases r <;> cases ftz <;> decide) _ rfl (fun _ => by cases r <;> cases ftz <;> rfl)
theorem fsub (x : X) (r : Rnd) (ftz : Bool) : Statement (.fsub x r ftz) :=
  intro_ (.fsub · r ftz) .V 0x051 _ (fun _ => rfl) rfl (fun _ => rfl) (fun _ => rfl) (fun _ => rfl)
    (by decide) (by cases r <;> cases ftz <;> decide) _ rfl (fun _ => by cases r <;> cases ftz <;> rfl)
theorem fmul (x : X) (r : Rnd) (ftz : Bool) : Statement (.fmul x r ftz) :=
  intro_ (.fmul · r ftz) .V 0x052 _ (fun _ => rfl) rfl (fun _ => rfl) (fun _ => rfl) (fun _ => rfl)
    (by decide) (by cases r <;> cases ftz <;> decide) _ rfl (fun _ => by cases r <;> cases ftz <;> rfl)
theorem ffma (x : X) (r : Rnd) (ftz : Bool) : Statement (.ffma x r ftz) :=
  intro_ (.ffma · r ftz) .V 0x053 _ (fun _ => rfl) rfl (fun _ => rfl) (fun _ => rfl) (fun _ => rfl)
    (by decide) (by cases r <;> cases ftz <;> decide) _ rfl (fun _ => by cases r <;> cases ftz <;> rfl)
theorem fmin (x : X) (ftz : Bool) : Statement (.fmin x ftz) :=
  intro_ (.fmin · ftz) .V 0x054 _ (fun _ => rfl) rfl (fun _ => rfl) (fun _ => rfl) (fun _ => rfl)
    (by decide) (by cases ftz <;> decide) _ rfl (fun _ => by cases ftz <;> rfl)
theorem fmax (x : X) (ftz : Bool) : Statement (.fmax x ftz) :=
  intro_ (.fmax · ftz) .V 0x055 _ (fun _ => rfl) rfl (fun _ => rfl) (fun _ => rfl) (fun _ => rfl)
    (by decide) (by cases ftz <;> decide) _ rfl (fun _ => by cases ftz <;> rfl)
theorem fsetp (x : X) (c : Cmp) (ftz : Bool) : Statement (.fsetp x c ftz) :=
  intro_ (.fsetp · c ftz) .V 0x056 _ (fun _ => rfl) rfl (fun _ => rfl) (fun _ => rfl) (fun _ => rfl)
    (by decide) (by cases c <;> cases ftz <;> decide) _ rfl (fun _ => by cases c <;> cases ftz <;> rfl)
theorem fcls (x : X) (mask : BitVec 10) (ftz : Bool) : Statement (.fcls x mask ftz) := by
  have g := mask.isLt
  have z : ftz.toNat < 2 := by cases ftz <;> decide
  have h1 : bit (fMod .rne ftz + 16 * mask.toNat) 3 = ftz := bit_field 0 ftz mask.toNat (by simp only [fMod, Rnd.code]; omega) (by decide)
  have h2 : bits (fMod .rne ftz + 16 * mask.toNat) 13 4 = mask.toNat := by rw [bits_eq]; simp only [fMod, Rnd.code]; omega
  exact intro_ (.fcls · mask ftz) .V 0x057 (fMod .rne ftz + 16 * mask.toNat) (fun _ => rfl) rfl (fun _ => rfl) (fun _ => rfl) (fun _ => rfl)
    (by decide) (by simp only [fMod, Rnd.code]; omega) _ rfl (fun _ => by simp [h1, h2])
theorem frnd (x : X) (r : Rnd) (ftz : Bool) : Statement (.frnd x r ftz) :=
  intro_ (.frnd · r ftz) .V 0x058 _ (fun _ => rfl) rfl (fun _ => rfl) (fun _ => rfl) (fun _ => rfl)
    (by decide) (by cases r <;> cases ftz <;> decide) _ rfl (fun _ => by cases r <;> cases ftz <;> rfl)
theorem fcvt (x : X) (d : FFmt) (src : FFmt) (r : Rnd) (ftz : Bool) : Statement (.fcvt x d src r ftz) := by
  have g := src.code_lt
  have k := d.code_lt
  have h := r.code_lt
  have z : ftz.toNat < 2 := by cases ftz <;> decide
  have h0 : bits (fMod r ftz + 64 * src.code + 1024 * d.code) 2 0 = r.code := by rw [bits_eq]; simp only [fMod]; omega
  have h1 : bit (fMod r ftz + 64 * src.code + 1024 * d.code) 3 = ftz :=
    bit_field r.code ftz (4 * src.code + 64 * d.code) (by simp only [fMod]; omega) h
  have h2 : bits (fMod r ftz + 64 * src.code + 1024 * d.code) 9 6 = src.code := by rw [bits_eq]; simp only [fMod]; omega
  have h3 : bits (fMod r ftz + 64 * src.code + 1024 * d.code) 13 10 = d.code := by rw [bits_eq]; simp only [fMod]; omega
  exact intro_ (.fcvt · d src r ftz) .V 0x059 (fMod r ftz + 64 * src.code + 1024 * d.code) (fun _ => rfl) rfl (fun _ => rfl) (fun _ => rfl) (fun _ => rfl)
    (by decide) (by simp only [fMod]; omega) _ rfl (fun _ => by simp [h0, h1, h2, h3])
theorem fadd2 (x : X) (bf : Bool) (r : Rnd) (ftz : Bool) : Statement (.fadd2 x bf r ftz) :=
  intro_ (.fadd2 · bf r ftz) .V 0x05A _ (fun _ => rfl) rfl (fun _ => rfl) (fun _ => rfl) (fun _ => rfl)
    (by decide) (by cases bf <;> cases r <;> cases ftz <;> decide) _ rfl (fun _ => by cases bf <;> cases r <;> cases ftz <;> rfl)
theorem fmul2 (x : X) (bf : Bool) (r : Rnd) (ftz : Bool) : Statement (.fmul2 x bf r ftz) :=
  intro_ (.fmul2 · bf r ftz) .V 0x05B _ (fun _ => rfl) rfl (fun _ => rfl) (fun _ => rfl) (fun _ => rfl)
    (by decide) (by cases bf <;> cases r <;> cases ftz <;> decide) _ rfl (fun _ => by cases bf <;> cases r <;> cases ftz <;> rfl)
theorem ffma2 (x : X) (bf : Bool) (r : Rnd) (ftz : Bool) : Statement (.ffma2 x bf r ftz) :=
  intro_ (.ffma2 · bf r ftz) .V 0x05C _ (fun _ => rfl) rfl (fun _ => rfl) (fun _ => rfl) (fun _ => rfl)
    (by decide) (by cases bf <;> cases r <;> cases ftz <;> decide) _ rfl (fun _ => by cases bf <;> cases r <;> cases ftz <;> rfl)
theorem dadd (x : X) (r : Rnd) : Statement (.dadd x r) :=
  intro_ (.dadd · r) .V 0x05D _ (fun _ => rfl) rfl (fun _ => rfl) (fun _ => rfl) (fun _ => rfl)
    (by decide) (by cases r <;> decide) _ rfl (fun _ => by cases r <;> rfl)
theorem dmul (x : X) (r : Rnd) : Statement (.dmul x r) :=
  intro_ (.dmul · r) .V 0x05E _ (fun _ => rfl) rfl (fun _ => rfl) (fun _ => rfl) (fun _ => rfl)
    (by decide) (by cases r <;> decide) _ rfl (fun _ => by cases r <;> rfl)
theorem dfma (x : X) (r : Rnd) : Statement (.dfma x r) :=
  intro_ (.dfma · r) .V 0x05F _ (fun _ => rfl) rfl (fun _ => rfl) (fun _ => rfl) (fun _ => rfl)
    (by decide) (by cases r <;> decide) _ rfl (fun _ => by cases r <;> rfl)
theorem dsetp (x : X) (c : Cmp) (r : Rnd) : Statement (.dsetp x c r) :=
  intro_ (.dsetp · c r) .V 0x060 _ (fun _ => rfl) rfl (fun _ => rfl) (fun _ => rfl) (fun _ => rfl)
    (by decide) (by cases c <;> cases r <;> decide) _ rfl (fun _ => by cases c <;> cases r <;> rfl)
theorem rcp (x : X) (ftz : Bool) : Statement (.rcp x ftz) :=
  intro_ (.rcp · ftz) .V 0x070 _ (fun _ => rfl) rfl (fun _ => rfl) (fun _ => rfl) (fun _ => rfl)
    (by decide) (by cases ftz <;> decide) _ rfl (fun _ => by cases ftz <;> rfl)
theorem rcpA (x : X) (ftz : Bool) : Statement (.rcpA x ftz) :=
  intro_ (.rcpA · ftz) .V 0x070 _ (fun _ => rfl) rfl (fun _ => rfl) (fun _ => rfl) (fun _ => rfl)
    (by decide) (by cases ftz <;> decide) _ rfl (fun _ => by cases ftz <;> rfl)
theorem rsq (x : X) (ftz : Bool) : Statement (.rsq x ftz) :=
  intro_ (.rsq · ftz) .V 0x071 _ (fun _ => rfl) rfl (fun _ => rfl) (fun _ => rfl) (fun _ => rfl)
    (by decide) (by cases ftz <;> decide) _ rfl (fun _ => by cases ftz <;> rfl)
theorem rsqA (x : X) (ftz : Bool) : Statement (.rsqA x ftz) :=
  intro_ (.rsqA · ftz) .V 0x071 _ (fun _ => rfl) rfl (fun _ => rfl) (fun _ => rfl) (fun _ => rfl)
    (by decide) (by cases ftz <;> decide) _ rfl (fun _ => by cases ftz <;> rfl)
theorem sqrt (x : X) (ftz : Bool) : Statement (.sqrt x ftz) :=
  intro_ (.sqrt · ftz) .V 0x072 _ (fun _ => rfl) rfl (fun _ => rfl) (fun _ => rfl) (fun _ => rfl)
    (by decide) (by cases ftz <;> decide) _ rfl (fun _ => by cases ftz <;> rfl)
theorem ex2 (x : X) (ftz : Bool) : Statement (.ex2 x ftz) :=
  intro_ (.ex2 · ftz) .V 0x073 _ (fun _ => rfl) rfl (fun _ => rfl) (fun _ => rfl) (fun _ => rfl)
    (by decide) (by cases ftz <;> decide) _ rfl (fun _ => by cases ftz <;> rfl)
theorem lg2 (x : X) (ftz : Bool) : Statement (.lg2 x ftz) :=
  intro_ (.lg2 · ftz) .V 0x074 _ (fun _ => rfl) rfl (fun _ => rfl) (fun _ => rfl) (fun _ => rfl)
    (by decide) (by cases ftz <;> decide) _ rfl (fun _ => by cases ftz <;> rfl)
theorem sin (x : X) (ftz : Bool) : Statement (.sin x ftz) :=
  intro_ (.sin · ftz) .V 0x075 _ (fun _ => rfl) rfl (fun _ => rfl) (fun _ => rfl) (fun _ => rfl)
    (by decide) (by cases ftz <;> decide) _ rfl (fun _ => by cases ftz <;> rfl)
theorem cos (x : X) (ftz : Bool) : Statement (.cos x ftz) :=
  intro_ (.cos · ftz) .V 0x076 _ (fun _ => rfl) rfl (fun _ => rfl) (fun _ => rfl) (fun _ => rfl)
    (by decide) (by cases ftz <;> decide) _ rfl (fun _ => by cases ftz <;> rfl)
theorem tanh (x : X) (ftz : Bool) : Statement (.tanh x ftz) :=
  intro_ (.tanh · ftz) .V 0x077 _ (fun _ => rfl) rfl (fun _ => rfl) (fun _ => rfl) (fun _ => rfl)
    (by decide) (by cases ftz <;> decide) _ rfl (fun _ => by cases ftz <;> rfl)
theorem bra (x : X) (disp : BitVec 14) : Statement (.bra x disp) :=
  intro_ (.bra · disp) .V 0x080 (disp.toNat) (fun _ => rfl) rfl (fun _ => rfl) (fun _ => rfl) (fun _ => rfl)
    (by decide) (disp.isLt) _ rfl (fun _ => by simp [])
theorem brx (x : X) : Statement (.brx x) :=
  intro_ (.brx ·) .V 0x081 _ (fun _ => rfl) rfl (fun _ => rfl) (fun _ => rfl) (fun _ => rfl)
    (by decide) (by decide) _ rfl (fun _ => by rfl)
theorem call (x : X) (disp : BitVec 14) : Statement (.call x disp) :=
  intro_ (.call · disp) .V 0x082 (disp.toNat) (fun _ => rfl) rfl (fun _ => rfl) (fun _ => rfl) (fun _ => rfl)
    (by decide) (disp.isLt) _ rfl (fun _ => by simp [])
theorem calli (x : X) : Statement (.calli x) :=
  intro_ (.calli ·) .V 0x083 _ (fun _ => rfl) rfl (fun _ => rfl) (fun _ => rfl) (fun _ => rfl)
    (by decide) (by decide) _ rfl (fun _ => by rfl)
theorem ret (x : X) : Statement (.ret x) :=
  intro_ (.ret ·) .V 0x084 _ (fun _ => rfl) rfl (fun _ => rfl) (fun _ => rfl) (fun _ => rfl)
    (by decide) (by decide) _ rfl (fun _ => by rfl)
theorem ovcall (x : X) : Statement (.ovcall x) :=
  intro_ (.ovcall ·) .V 0x085 _ (fun _ => rfl) rfl (fun _ => rfl) (fun _ => rfl) (fun _ => rfl)
    (by decide) (by decide) _ rfl (fun _ => by rfl)
theorem exit (x : X) : Statement (.exit x) :=
  intro_ (.exit ·) .V 0x086 _ (fun _ => rfl) rfl (fun _ => rfl) (fun _ => rfl) (fun _ => rfl)
    (by decide) (by decide) _ rfl (fun _ => by rfl)
theorem yield (x : X) : Statement (.yield x) :=
  intro_ (.yield ·) .V 0x087 _ (fun _ => rfl) rfl (fun _ => rfl) (fun _ => rfl) (fun _ => rfl)
    (by decide) (by decide) _ rfl (fun _ => by rfl)
theorem trap (x : X) (code : Byte) : Statement (.trap x code) :=
  intro_ (.trap · code) .V 0x088 (code.toNat) (fun _ => rfl) rfl (fun _ => rfl) (fun _ => rfl) (fun _ => rfl)
    (by decide) (by have := code.isLt; omega) _ rfl (fun _ => by simp [bits_low (x := code.toNat) (hi := 7) code.isLt])
theorem brk (x : X) (code : Byte) : Statement (.brk x code) :=
  intro_ (.brk · code) .V 0x089 (code.toNat) (fun _ => rfl) rfl (fun _ => rfl) (fun _ => rfl) (fun _ => rfl)
    (by decide) (by have := code.isLt; omega) _ rfl (fun _ => by simp [bits_low (x := code.toNat) (hi := 7) code.isLt])
theorem srd (x : X) (r : SReg) : Statement (.srd x r) :=
  intro_ (.srd · r) .V 0x08A _ (fun _ => rfl) rfl (fun _ => rfl) (fun _ => rfl) (fun _ => rfl)
    (by decide) (by cases r <;> decide) _ rfl (fun _ => by cases r <;> rfl)
theorem swrKsp (x : X) : Statement (.swrKsp x) :=
  intro_ (.swrKsp ·) .V 0x08B _ (fun _ => rfl) rfl (fun _ => rfl) (fun _ => rfl) (fun _ => rfl)
    (by decide) (by decide) _ rfl (fun _ => by rfl)
theorem swrRngs (x : X) : Statement (.swrRngs x) :=
  intro_ (.swrRngs ·) .V 0x08B _ (fun _ => rfl) rfl (fun _ => rfl) (fun _ => rfl) (fun _ => rfl)
    (by decide) (by decide) _ rfl (fun _ => by rfl)
theorem swrFabst (x : X) : Statement (.swrFabst x) :=
  intro_ (.swrFabst ·) .V 0x08B _ (fun _ => rfl) rfl (fun _ => rfl) (fun _ => rfl) (fun _ => rfl)
    (by decide) (by decide) _ rfl (fun _ => by rfl)
theorem barArr (x : X) (l : Level) (n : Fin 16) : Statement (.barArr x l n) :=
  intro_ (.barArr · l n) .V 0x090 (barMod l n) (fun _ => rfl) rfl (fun _ => rfl) (fun _ => rfl) (fun _ => rfl)
    (by decide) ((barMod_parts l n).1) _ rfl (fun _ => by simp [rBar, barMod_parts l n])
theorem barWait (x : X) (l : Level) (n : Fin 16) : Statement (.barWait x l n) :=
  intro_ (.barWait · l n) .V 0x091 (barMod l n) (fun _ => rfl) rfl (fun _ => rfl) (fun _ => rfl) (fun _ => rfl)
    (by decide) ((barMod_parts l n).1) _ rfl (fun _ => by simp [rBar, barMod_parts l n])
theorem barSync (x : X) (l : Level) (n : Fin 16) : Statement (.barSync x l n) :=
  intro_ (.barSync · l n) .V 0x092 (barMod l n) (fun _ => rfl) rfl (fun _ => rfl) (fun _ => rfl) (fun _ => rfl)
    (by decide) ((barMod_parts l n).1) _ rfl (fun _ => by simp [rBar, barMod_parts l n])
theorem barTry (x : X) (l : Level) (n : Fin 16) : Statement (.barTry x l n) :=
  intro_ (.barTry · l n) .V 0x093 (barMod l n) (fun _ => rfl) rfl (fun _ => rfl) (fun _ => rfl) (fun _ => rfl)
    (by decide) ((barMod_parts l n).1) _ rfl (fun _ => by simp [rBar, barMod_parts l n])
theorem shld (x : X) : Statement (.shld x) :=
  intro_ (.shld ·) .V 0x0A0 _ (fun _ => rfl) rfl (fun _ => rfl) (fun _ => rfl) (fun _ => rfl)
    (by decide) (by decide) _ rfl (fun _ => by rfl)
theorem shst (x : X) : Statement (.shst x) :=
  intro_ (.shst ·) .V 0x0A1 _ (fun _ => rfl) rfl (fun _ => rfl) (fun _ => rfl) (fun _ => rfl)
    (by decide) (by decide) _ rfl (fun _ => by rfl)
theorem shset (x : X) (f : Fin 33) : Statement (.shset x f) :=
  intro_ (.shset · f) .V 0x0A2 (f.val) (fun _ => rfl) rfl (fun _ => rfl) (fun _ => rfl) (fun _ => rfl)
    (by decide) (by have := f.isLt; omega) _ rfl (fun _ => by simp [rFin, bits_low (x := f.val) (hi := 5) (by have := f.isLt; omega)])
theorem shget (x : X) (f : Fin 33) : Statement (.shget x f) :=
  intro_ (.shget · f) .V 0x0A3 (f.val) (fun _ => rfl) rfl (fun _ => rfl) (fun _ => rfl) (fun _ => rfl)
    (by decide) (by have := f.isLt; omega) _ rfl (fun _ => by simp [rFin, bits_low (x := f.val) (hi := 5) (by have := f.isLt; omega)])
theorem shfl (x : X) (m : ShfMode) (wrel : Bool) : Statement (.shfl x m wrel) :=
  intro_ (.shfl · m wrel) .G 0 _ (fun _ => rfl) rfl (fun _ => rfl) (fun _ => rfl) (fun _ => rfl)
    (by decide) (by cases m <;> cases wrel <;> decide) _ rfl (fun _ => by cases m <;> cases wrel <;> rfl)
theorem vred (x : X) (op : Rop) (masked : Bool) (r : Rnd) : Statement (.vred x op masked r) :=
  intro_ (.vred · op masked r) .G 1 _ (fun _ => rfl) rfl (fun _ => rfl) (fun _ => rfl) (fun _ => rfl)
    (by decide) (by cases op <;> cases masked <;> cases r <;> decide) _ rfl (fun _ => by cases op <;> cases masked <;> cases r <;> rfl)
theorem vredMr (x : X) (r : Rnd) : Statement (.vredMr x r) :=
  intro_ (.vredMr · r) .G 1 _ (fun _ => rfl) rfl (fun _ => rfl) (fun _ => rfl) (fun _ => rfl)
    (by decide) (by cases r <;> decide) _ rfl (fun _ => by cases r <;> rfl)
theorem vscan (x : X) (op : Rop) (excl : Bool) (r : Rnd) : Statement (.vscan x op excl r) :=
  intro_ (.vscan · op excl r) .G 2 _ (fun _ => rfl) rfl (fun _ => rfl) (fun _ => rfl) (fun _ => rfl)
    (by decide) (by cases op <;> cases excl <;> cases r <;> decide) _ rfl (fun _ => by cases op <;> cases excl <;> cases r <;> rfl)
theorem poll (x : X) (m : PollMode) : Statement (.poll x m) :=
  intro_ (.poll · m) .G 3 _ (fun _ => rfl) rfl (fun _ => rfl) (fun _ => rfl) (fun _ => rfl)
    (by decide) (by cases m <;> decide) _ rfl (fun _ => by cases m <;> rfl)
theorem maskof (x : X) : Statement (.maskof x) :=
  intro_ (.maskof ·) .G 4 _ (fun _ => rfl) rfl (fun _ => rfl) (fun _ => rfl) (fun _ => rfl)
    (by decide) (by decide) _ rfl (fun _ => by rfl)
theorem matchv (x : X) (t : ITy) : Statement (.matchv x t) :=
  intro_ (.matchv · t) .G 5 _ (fun _ => rfl) rfl (fun _ => rfl) (fun _ => rfl) (fun _ => rfl)
    (by decide) (by cases t <;> decide) _ rfl (fun _ => by cases t <;> rfl)
theorem elect (x : X) : Statement (.elect x) :=
  intro_ (.elect ·) .G 6 _ (fun _ => rfl) rfl (fun _ => rfl) (fun _ => rfl) (fun _ => rfl)
    (by decide) (by decide) _ rfl (fun _ => by rfl)
theorem vlut (x : X) (fill : Byte) (n : Fin 8) : Statement (.vlut x fill n) := by
  have g := fill.isLt
  have h := n.isLt
  have h1 : bits (fill.toNat + 256 * n.val) 7 0 = fill.toNat := by rw [bits_eq]; omega
  have h2 : bits (fill.toNat + 256 * n.val) 10 8 = n.val := by rw [bits_eq]; omega
  exact intro_ (.vlut · fill n) .G 7 (fill.toNat + 256 * n.val) (fun _ => rfl) rfl (fun _ => rfl) (fun _ => rfl) (fun _ => rfl)
    (by decide) (by omega) _ rfl (fun _ => by simp [h1, h2])
theorem qpop (x : X) (q : Fin 8) : Statement (.qpop x q) :=
  intro_ (.qpop · q) .G 8 (q.val) (fun _ => rfl) rfl (fun _ => rfl) (fun _ => rfl) (fun _ => rfl)
    (by decide) (by have := q.isLt; omega) _ rfl (fun _ => by simp [rFin, bits_low (x := q.val) (hi := 2) q.isLt])
theorem ld (x : X) (t : ITy) (px : Option (Fin 8)) : Statement (.ld x t px) := by
  have h := mMod_parts (a := 0) (o := 0) (t := t.code) (u := pathxCode px) (by decide) (by decide) t.code_lt (pathxCode_lt px)
  exact intro_ (.ld · t px) .M 0 (mMod 0 0 t.code (pathxCode px)) (fun _ => rfl) rfl (fun _ => rfl) (fun _ => rfl) (fun _ => rfl)
    (by decide) (by omega) _ rfl (fun _ => by simp [mTy, mPx, h])
theorem ldAcq (x : X) (sc : Scope) (t : ITy) (px : Option (Fin 8)) : Statement (.ldAcq x sc t px) := by
  have h := mMod_parts (a := sc.code) (o := 1) (t := t.code) (u := pathxCode px) sc.code_lt (by decide) t.code_lt (pathxCode_lt px)
  exact intro_ (.ldAcq · sc t px) .M 0 (mMod sc.code 1 t.code (pathxCode px)) (fun _ => rfl) rfl (fun _ => rfl) (fun _ => rfl) (fun _ => rfl)
    (by decide) (by omega) _ rfl (fun _ => by simp [mSc, mTy, mPx, h])
theorem st (x : X) (t : ITy) (px : Option (Fin 8)) : Statement (.st x t px) := by
  have h := mMod_parts (a := 0) (o := 0) (t := t.code) (u := pathxCode px) (by decide) (by decide) t.code_lt (pathxCode_lt px)
  exact intro_ (.st · t px) .M 1 (mMod 0 0 t.code (pathxCode px)) (fun _ => rfl) rfl (fun _ => rfl) (fun _ => rfl) (fun _ => rfl)
    (by decide) (by omega) _ rfl (fun _ => by simp [mTy, mPx, h])
theorem stRel (x : X) (sc : Scope) (t : ITy) (px : Option (Fin 8)) : Statement (.stRel x sc t px) := by
  have h := mMod_parts (a := sc.code) (o := 2) (t := t.code) (u := pathxCode px) sc.code_lt (by decide) t.code_lt (pathxCode_lt px)
  exact intro_ (.stRel · sc t px) .M 1 (mMod sc.code 2 t.code (pathxCode px)) (fun _ => rfl) rfl (fun _ => rfl) (fun _ => rfl) (fun _ => rfl)
    (by decide) (by omega) _ rfl (fun _ => by simp [mSc, mTy, mPx, h])
theorem atom (x : X) (sc : Scope) (o : Ord4) (a : Aop) (t : ITy) : Statement (.atom x sc o a t) := by
  have h := mMod_parts (a := sc.code) (o := o.code) (t := t.code) (u := a.code) sc.code_lt o.code_lt t.code_lt a.code_lt
  exact intro_ (.atom · sc o a t) .M 2 (mMod sc.code o.code t.code a.code) (fun _ => rfl) rfl (fun _ => rfl) (fun _ => rfl) (fun _ => rfl)
    (by decide) (by omega) _ rfl (fun _ => by simp [mSc, mTy, h])
theorem red (x : X) (sc : Scope) (rel : Bool) (a : Aop) (t : ITy) : Statement (.red x sc rel a t) := by
  have h := mMod_parts (a := sc.code) (o := relOrd rel) (t := t.code) (u := a.code) sc.code_lt (by cases rel <;> decide) t.code_lt a.code_lt
  have g : decide (relOrd rel / 2 = 1) = rel := by cases rel <;> rfl
  exact intro_ (.red · sc rel a t) .M 3 (mMod sc.code (relOrd rel) t.code a.code) (fun _ => rfl) rfl (fun _ => rfl) (fun _ => rfl) (fun _ => rfl)
    (by decide) (by omega) _ rfl (fun _ => by simp [mSc, mTy, h, g])
theorem redm (x : X) (sc : Scope) (rel : Bool) : Statement (.redm x sc rel) :=
  intro_ (.redm · sc rel) .M 4 _ (fun _ => rfl) rfl (fun _ => rfl) (fun _ => rfl) (fun _ => rfl)
    (by decide) (by cases sc <;> cases rel <;> decide) _ rfl (fun _ => by cases sc <;> cases rel <;> rfl)
theorem cas (x : X) (sc : Scope) (o : Ord4) (t : ITy) : Statement (.cas x sc o t) := by
  have h := mMod_parts (a := sc.code) (o := o.code) (t := t.code) (u := 0) sc.code_lt o.code_lt t.code_lt (by decide)
  exact intro_ (.cas · sc o t) .M 5 (mMod sc.code o.code t.code 0) (fun _ => rfl) rfl (fun _ => rfl) (fun _ => rfl) (fun _ => rfl)
    (by decide) (by omega) _ rfl (fun _ => by simp [mSc, mTy, h])
theorem waitmem (x : X) (acq : Bool) (sc : Scope) (t : ITy) : Statement (.waitmem x acq sc t) :=
  intro_ (.waitmem · acq sc t) .M 6 _ (fun _ => rfl) rfl (fun _ => rfl) (fun _ => rfl) (fun _ => rfl)
    (by decide) (by cases acq <;> cases sc <;> cases t <;> decide) _ rfl (fun _ => by cases acq <;> cases sc <;> cases t <;> rfl)
theorem fence (x : X) (sc : Scope) (mask : Byte) : Statement (.fence x sc mask) := by
  have g := mask.isLt
  have h := sc.code_lt
  have h1 : bits (sc.code + 64 * mask.toNat) 2 0 = sc.code := by rw [bits_eq]; omega
  have h2 : bits (sc.code + 64 * mask.toNat) 13 6 = mask.toNat := by rw [bits_eq]; omega
  exact intro_ (.fence · sc mask) .M 7 (sc.code + 64 * mask.toNat) (fun _ => rfl) rfl (fun _ => rfl) (fun _ => rfl) (fun _ => rfl)
    (by decide) (by omega) _ rfl (fun _ => by simp [mSc, h1, h2])
theorem fenceSc (x : X) (sc : Scope) : Statement (.fenceSc x sc) :=
  intro_ (.fenceSc · sc) .M 8 _ (fun _ => rfl) rfl (fun _ => rfl) (fun _ => rfl) (fun _ => rfl)
    (by decide) (by cases sc <;> decide) _ rfl (fun _ => by cases sc <;> rfl)
theorem probe (x : X) (sc : Scope) : Statement (.probe x sc) :=
  intro_ (.probe · sc) .M 9 _ (fun _ => rfl) rfl (fun _ => rfl) (fun _ => rfl) (fun _ => rfl)
    (by decide) (by cases sc <;> decide) _ rfl (fun _ => by cases sc <;> rfl)
theorem remst (x : X) (sc : Scope) (rel : Bool) (t : ITy) (px : Option (Fin 8)) : Statement (.remst x sc rel t px) := by
  have h := mMod_parts (a := sc.code) (o := relOrd rel) (t := t.code) (u := pathxCode px) sc.code_lt (by cases rel <;> decide) t.code_lt (pathxCode_lt px)
  have g : decide (relOrd rel / 2 = 1) = rel := by cases rel <;> rfl
  exact intro_ (.remst · sc rel t px) .M 10 (mMod sc.code (relOrd rel) t.code (pathxCode px)) (fun _ => rfl) rfl (fun _ => rfl) (fun _ => rfl) (fun _ => rfl)
    (by decide) (by omega) _ rfl (fun _ => by simp [mSc, mTy, mPx, h, g])
theorem remstL (x : X) (t : ITy) (px : Option (Fin 8)) : Statement (.remstL x t px) := by
  have ht := t.code_lt
  have hp := pathxCode_lt px
  have h1 : bits (mMod 0 0 t.code (pathxCode px) + 0x2000) 8 5 = t.code := by rw [bits_eq]; simp only [mMod]; omega
  have h2 : bits (mMod 0 0 t.code (pathxCode px) + 0x2000) 12 9 = pathxCode px := by rw [bits_eq]; simp only [mMod]; omega
  have h3 : bit (mMod 0 0 t.code (pathxCode px) + 0x2000) 13 = true := by rw [bit_eq, decide_eq_true_eq]; simp only [mMod]; omega
  exact intro_ (.remstL · t px) .M 10 (mMod 0 0 t.code (pathxCode px) + 0x2000) (fun _ => rfl) rfl (fun _ => rfl) (fun _ => rfl) (fun _ => rfl)
    (by decide) (by simp only [mMod]; omega) _ rfl (fun _ => by simp [mTy, mPx, h1, h2, h3])
theorem rld (x : X) (acq : Bool) (sc : Scope) (t : ITy) (px : Option (Fin 8)) : Statement (.rld x acq sc t px) := by
  have h := mMod_parts (a := sc.code) (o := acq.toNat) (t := t.code) (u := pathxCode px) sc.code_lt (by cases acq <;> decide) t.code_lt (pathxCode_lt px)
  have g : decide (acq.toNat % 2 = 1) = acq := by cases acq <;> rfl
  exact intro_ (.rld · acq sc t px) .M 11 (mMod sc.code acq.toNat t.code (pathxCode px)) (fun _ => rfl) rfl (fun _ => rfl) (fun _ => rfl) (fun _ => rfl)
    (by decide) (by omega) _ rfl (fun _ => by simp [mSc, mTy, mPx, h, g])
theorem remred (x : X) (sc : Scope) (rel : Bool) (a : Aop) (t : ITy) : Statement (.remred x sc rel a t) := by
  have h := mMod_parts (a := sc.code) (o := relOrd rel) (t := t.code) (u := a.code) sc.code_lt (by cases rel <;> decide) t.code_lt a.code_lt
  have g : decide (relOrd rel / 2 = 1) = rel := by cases rel <;> rfl
  exact intro_ (.remred · sc rel a t) .M 12 (mMod sc.code (relOrd rel) t.code a.code) (fun _ => rfl) rfl (fun _ => rfl) (fun _ => rfl) (fun _ => rfl)
    (by decide) (by omega) _ rfl (fun _ => by simp [mSc, mTy, h, g])
theorem tcopy (x : X) : Statement (.tcopy x) :=
  intro_ (.tcopy ·) .X 0 _ (fun _ => rfl) rfl (fun _ => rfl) (fun _ => rfl) (fun _ => rfl)
    (by decide) (by decide) _ rfl (fun _ => by rfl)
theorem tcopyMma (x : X) (acc : Fin 32) : Statement (.tcopyMma x acc) := by
  have g := acc.isLt
  have h1 : bits (1 + 2 * acc.val) 5 1 = acc.val := by rw [bits_eq]; omega
  have h2 : bit (1 + 2 * acc.val) 0 = true := by rw [bit_eq, decide_eq_true_eq]; omega
  exact intro_ (.tcopyMma · acc) .X 0 (1 + 2 * acc.val) (fun _ => rfl) rfl (fun _ => rfl) (fun _ => rfl) (fun _ => rfl)
    (by decide) (by omega) _ rfl (fun _ => by simp [h1, h2])
theorem wbind (x : X) (w : Fin 16) : Statement (.wbind x w) :=
  intro_ (.wbind · w) .X 1 (w.val) (fun _ => rfl) rfl (fun _ => rfl) (fun _ => rfl) (fun _ => rfl)
    (by decide) (by have := w.isLt; omega) _ rfl (fun _ => by simp [rFin, bits_low (x := w.val) (hi := 3) w.isLt])
theorem wdrop (x : X) (w : Fin 16) : Statement (.wdrop x w) :=
  intro_ (.wdrop · w) .X 2 (w.val) (fun _ => rfl) rfl (fun _ => rfl) (fun _ => rfl) (fun _ => rfl)
    (by decide) (by have := w.isLt; omega) _ rfl (fun _ => by simp [rFin, bits_low (x := w.val) (hi := 3) w.isLt])
theorem chain (x : X) (n : Fin 8) : Statement (.chain x n) :=
  intro_ (.chain · n) .X 3 (n.val) (fun _ => rfl) rfl (fun _ => rfl) (fun _ => rfl) (fun _ => rfl)
    (by decide) (by have := n.isLt; omega) _ rfl (fun _ => by simp [rFin, bits_low (x := n.val) (hi := 2) n.isLt])
theorem publ (x : X) (sc : Scope) : Statement (.publ x sc) :=
  intro_ (.publ · sc) .X 4 _ (fun _ => rfl) rfl (fun _ => rfl) (fun _ => rfl) (fun _ => rfl)
    (by decide) (by cases sc <;> decide) _ rfl (fun _ => by cases sc <;> rfl)
theorem ovl (x : X) : Statement (.ovl x) :=
  intro_ (.ovl ·) .X 5 _ (fun _ => rfl) rfl (fun _ => rfl) (fun _ => rfl) (fun _ => rfl)
    (by decide) (by decide) _ rfl (fun _ => by rfl)
theorem ovrel (x : X) : Statement (.ovrel x) :=
  intro_ (.ovrel ·) .X 6 _ (fun _ => rfl) rfl (fun _ => rfl) (fun _ => rfl) (fun _ => rfl)
    (by decide) (by decide) _ rfl (fun _ => by rfl)
theorem launch (x : X) : Statement (.launch x) :=
  intro_ (.launch ·) .X 7 _ (fun _ => rfl) rfl (fun _ => rfl) (fun _ => rfl) (fun _ => rfl)
    (by decide) (by decide) _ rfl (fun _ => by rfl)
theorem dbell (x : X) (sc : Scope) : Statement (.dbell x sc) :=
  intro_ (.dbell · sc) .X 8 _ (fun _ => rfl) rfl (fun _ => rfl) (fun _ => rfl) (fun _ => rfl)
    (by decide) (by cases sc <;> decide) _ rfl (fun _ => by cases sc <;> rfl)
theorem dectab (x : X) : Statement (.dectab x) :=
  intro_ (.dectab ·) .X 9 _ (fun _ => rfl) rfl (fun _ => rfl) (fun _ => rfl) (fun _ => rfl)
    (by decide) (by decide) _ rfl (fun _ => by rfl)
theorem barExp (x : X) : Statement (.barExp x) :=
  intro_ (.barExp ·) .X 10 _ (fun _ => rfl) rfl (fun _ => rfl) (fun _ => rfl) (fun _ => rfl)
    (by decide) (by decide) _ rfl (fun _ => by rfl)
theorem mma (x : X) (acc : Fin 32) (sat : Bool) : Statement (.mma x acc sat) := by
  have g := acc.isLt
  have z : sat.toNat < 2 := by cases sat <;> decide
  have h1 : bits (acc.val + 32 * sat.toNat) 4 0 = acc.val := by rw [bits_eq]; omega
  have h2 : bit (acc.val + 32 * sat.toNat) 5 = sat := bit_field acc.val sat 0 (by omega) acc.isLt
  exact intro_ (.mma · acc sat) .T 0 (acc.val + 32 * sat.toNat) (fun _ => rfl) rfl (fun _ => rfl) (fun _ => rfl) (fun _ => rfl)
    (by decide) (by omega) _ rfl (fun _ => by simp [h1, h2])
theorem mmaW (x : X) (acc : Fin 32) (sat : Bool) : Statement (.mmaW x acc sat) := by
  have g := acc.isLt
  have z : sat.toNat < 2 := by cases sat <;> decide
  have h1 : bits (acc.val + 32 * sat.toNat) 4 0 = acc.val := by rw [bits_eq]; omega
  have h2 : bit (acc.val + 32 * sat.toNat) 5 = sat := bit_field acc.val sat 0 (by omega) acc.isLt
  exact intro_ (.mmaW · acc sat) .T 1 (acc.val + 32 * sat.toNat) (fun _ => rfl) rfl (fun _ => rfl) (fun _ => rfl) (fun _ => rfl)
    (by decide) (by omega) _ rfl (fun _ => by simp [h1, h2])
theorem mmaNf (x : X) (acc : Fin 32) : Statement (.mmaNf x acc) :=
  intro_ (.mmaNf · acc) .T 2 (acc.val) (fun _ => rfl) rfl (fun _ => rfl) (fun _ => rfl) (fun _ => rfl)
    (by decide) (by have := acc.isLt; omega) _ rfl (fun _ => by simp [rFin, bits_low (x := acc.val) (hi := 4) acc.isLt])
theorem accz (x : X) (acc : Fin 32) : Statement (.accz x acc) :=
  intro_ (.accz · acc) .T 3 (acc.val) (fun _ => rfl) rfl (fun _ => rfl) (fun _ => rfl) (fun _ => rfl)
    (by decide) (by have := acc.isLt; omega) _ rfl (fun _ => by simp [rFin, bits_low (x := acc.val) (hi := 4) acc.isLt])
theorem accld (x : X) (acc : Fin 32) : Statement (.accld x acc) :=
  intro_ (.accld · acc) .T 4 (acc.val) (fun _ => rfl) rfl (fun _ => rfl) (fun _ => rfl) (fun _ => rfl)
    (by decide) (by have := acc.isLt; omega) _ rfl (fun _ => by simp [rFin, bits_low (x := acc.val) (hi := 4) acc.isLt])
theorem accst (x : X) (acc : Fin 32) : Statement (.accst x acc) :=
  intro_ (.accst · acc) .T 5 (acc.val) (fun _ => rfl) rfl (fun _ => rfl) (fun _ => rfl) (fun _ => rfl)
    (by decide) (by have := acc.isLt; omega) _ rfl (fun _ => by simp [rFin, bits_low (x := acc.val) (hi := 4) acc.isLt])
theorem drain (x : X) (acc : Fin 32) : Statement (.drain x acc) :=
  intro_ (.drain · acc) .T 6 (acc.val) (fun _ => rfl) rfl (fun _ => rfl) (fun _ => rfl) (fun _ => rfl)
    (by decide) (by have := acc.isLt; omega) _ rfl (fun _ => by simp [rFin, bits_low (x := acc.val) (hi := 4) acc.isLt])
theorem drainMx (x : X) (acc : Fin 32) : Statement (.drainMx x acc) :=
  intro_ (.drainMx · acc) .T 7 (acc.val) (fun _ => rfl) rfl (fun _ => rfl) (fun _ => rfl) (fun _ => rfl)
    (by decide) (by have := acc.isLt; omega) _ rfl (fun _ => by simp [rFin, bits_low (x := acc.val) (hi := 4) acc.isLt])
theorem agen (x : X) : Statement (.agen x) :=
  intro_ (.agen ·) .A 0 _ (fun _ => rfl) rfl (fun _ => rfl) (fun _ => rfl) (fun _ => rfl)
    (by decide) (by decide) _ rfl (fun _ => by rfl)
theorem aadd (x : X) : Statement (.aadd x) :=
  intro_ (.aadd ·) .A 1 _ (fun _ => rfl) rfl (fun _ => rfl) (fun _ => rfl) (fun _ => rfl)
    (by decide) (by decide) _ rfl (fun _ => by rfl)
theorem aloop (x : X) : Statement (.aloop x) :=
  intro_ (.aloop ·) .A 2 _ (fun _ => rfl) rfl (fun _ => rfl) (fun _ => rfl) (fun _ => rfl)
    (by decide) (by decide) _ rfl (fun _ => by rfl)
theorem aendl (x : X) : Statement (.aendl x) :=
  intro_ (.aendl ·) .A 3 _ (fun _ => rfl) rfl (fun _ => rfl) (fun _ => rfl) (fun _ => rfl)
    (by decide) (by decide) _ rfl (fun _ => by rfl)
theorem apush (x : X) (q : Fin 8) : Statement (.apush x q) :=
  intro_ (.apush · q) .A 4 (q.val) (fun _ => rfl) rfl (fun _ => rfl) (fun _ => rfl) (fun _ => rfl)
    (by decide) (by have := q.isLt; omega) _ rfl (fun _ => by simp [rFin, bits_low (x := q.val) (hi := 2) q.isLt])
theorem agath (x : X) (q : Fin 8) : Statement (.agath x q) :=
  intro_ (.agath · q) .A 5 (q.val) (fun _ => rfl) rfl (fun _ => rfl) (fun _ => rfl) (fun _ => rfl)
    (by decide) (by have := q.isLt; omega) _ rfl (fun _ => by simp [rFin, bits_low (x := q.val) (hi := 2) q.isLt])
theorem acmp (x : X) (c : Cmp) : Statement (.acmp x c) :=
  intro_ (.acmp · c) .A 6 _ (fun _ => rfl) rfl (fun _ => rfl) (fun _ => rfl) (fun _ => rfl)
    (by decide) (by cases c <;> decide) _ rfl (fun _ => by cases c <;> rfl)
theorem abra (x : X) : Statement (.abra x) :=
  intro_ (.abra ·) .A 7 _ (fun _ => rfl) rfl (fun _ => rfl) (fun _ => rfl) (fun _ => rfl)
    (by decide) (by decide) _ rfl (fun _ => by rfl)
theorem await (x : X) (q : Fin 8) : Statement (.await x q) :=
  intro_ (.await · q) .A 8 (q.val) (fun _ => rfl) rfl (fun _ => rfl) (fun _ => rfl) (fun _ => rfl)
    (by decide) (by have := q.isLt; omega) _ rfl (fun _ => by simp [rFin, bits_low (x := q.val) (hi := 2) q.isLt])
theorem asig (x : X) : Statement (.asig x) :=
  intro_ (.asig ·) .A 9 _ (fun _ => rfl) rfl (fun _ => rfl) (fun _ => rfl) (fun _ => rfl)
    (by decide) (by decide) _ rfl (fun _ => by rfl)
theorem aend (x : X) : Statement (.aend x) :=
  intro_ (.aend ·) .A 10 _ (fun _ => rfl) rfl (fun _ => rfl) (fun _ => rfl) (fun _ => rfl)
    (by decide) (by decide) _ rfl (fun _ => by rfl)
theorem srdp (x : X) (r : PReg) : Statement (.srdp x r) :=
  intro_ (.srdp · r) .S 0 _ (fun _ => rfl) rfl (fun _ => rfl) (fun _ => rfl) (fun _ => rfl)
    (by decide) (by cases r <;> decide) _ rfl (fun _ => by cases r <;> rfl)
theorem swrp (x : X) (r : PReg) : Statement (.swrp x r) :=
  intro_ (.swrp · r) .S 1 _ (fun _ => rfl) rfl (fun _ => rfl) (fun _ => rfl) (fun _ => rfl)
    (by decide) (by cases r <;> decide) _ rfl (fun _ => by cases r <;> rfl)
theorem tlbinvPage (x : X) : Statement (.tlbinvPage x) :=
  intro_ (.tlbinvPage ·) .S 2 _ (fun _ => rfl) rfl (fun _ => rfl) (fun _ => rfl) (fun _ => rfl)
    (by decide) (by decide) _ rfl (fun _ => by rfl)
theorem tlbinvCtx (x : X) : Statement (.tlbinvCtx x) :=
  intro_ (.tlbinvCtx ·) .S 2 _ (fun _ => rfl) rfl (fun _ => rfl) (fun _ => rfl) (fun _ => rfl)
    (by decide) (by decide) _ rfl (fun _ => by rfl)
theorem tlbinvAll (x : X) : Statement (.tlbinvAll x) :=
  intro_ (.tlbinvAll ·) .S 2 _ (fun _ => rfl) rfl (fun _ => rfl) (fun _ => rfl) (fun _ => rfl)
    (by decide) (by decide) _ rfl (fun _ => by rfl)
theorem assayrd (x : X) : Statement (.assayrd x) :=
  intro_ (.assayrd ·) .S 3 _ (fun _ => rfl) rfl (fun _ => rfl) (fun _ => rfl) (fun _ => rfl)
    (by decide) (by decide) _ rfl (fun _ => by rfl)
theorem ctxsave (x : X) : Statement (.ctxsave x) :=
  intro_ (.ctxsave ·) .S 4 _ (fun _ => rfl) rfl (fun _ => rfl) (fun _ => rfl) (fun _ => rfl)
    (by decide) (by decide) _ rfl (fun _ => by rfl)
theorem ctxload (x : X) : Statement (.ctxload x) :=
  intro_ (.ctxload ·) .S 5 _ (fun _ => rfl) rfl (fun _ => rfl) (fun _ => rfl) (fun _ => rfl)
    (by decide) (by decide) _ rfl (fun _ => by rfl)
theorem haltx (x : X) : Statement (.haltx x) :=
  intro_ (.haltx ·) .S 6 _ (fun _ => rfl) rfl (fun _ => rfl) (fun _ => rfl) (fun _ => rfl)
    (by decide) (by decide) _ rfl (fun _ => by rfl)
theorem gatherForm (core : Nat) : Statement (.gatherForm core) := event rfl
theorem trapEntry (th : Nat) : Statement (.trapEntry th) := event rfl
theorem ldDataLands (id : Nat) : Statement (.ldDataLands id) := event rfl
theorem windowFillComplete (blk : Nat) (win : Nat) : Statement (.windowFillComplete blk win) := event rfl
theorem sfuQueueAccept (core : Nat) : Statement (.sfuQueueAccept core) := event rfl
theorem sfuResultLands (id : Nat) : Statement (.sfuResultLands id) := event rfl
theorem shldDataLands (id : Nat) : Statement (.shldDataLands id) := event rfl
theorem qpopLands (id : Nat) : Statement (.qpopLands id) := event rfl
theorem atomicValueLands (id : Nat) : Statement (.atomicValueLands id) := event rfl
theorem waitmemWake (th : Nat) : Statement (.waitmemWake th) := event rfl
theorem fenceComplete (th : Nat) (id : Nat) : Statement (.fenceComplete th id) := event rfl
theorem probeComplete (id : Nat) : Statement (.probeComplete id) := event rfl
theorem barrierReinsert (th : Nat) : Statement (.barrierReinsert th) := event rfl
theorem apHandoff (core : Nat) : Statement (.apHandoff core) := event rfl
theorem apProgramStart (core : Nat) : Statement (.apProgramStart core) := event rfl
theorem apEntryWhole (core : Nat) (queue : Nat) : Statement (.apEntryWhole core queue) := event rfl
theorem overlayLoadComplete (core : Nat) (page : Nat) : Statement (.overlayLoadComplete core page) := event rfl
theorem copyCommandComplete (id : Nat) : Statement (.copyCommandComplete id) := event rfl
theorem tcopyFollowOnIssue (id : Nat) : Statement (.tcopyFollowOnIssue id) := event rfl
theorem chainComplete (id : Nat) : Statement (.chainComplete id) := event rfl
theorem publSwap (id : Nat) : Statement (.publSwap id) := event rfl
theorem dectabComplete (id : Nat) : Statement (.dectabComplete id) := event rfl
theorem launchDecided (id : Nat) : Statement (.launchDecided id) := event rfl
theorem doorbellSend (id : Nat) : Statement (.doorbellSend id) := event rfl
theorem tlbinvComplete (id : Nat) (returned : Bool) : Statement (.tlbinvComplete id returned) := event rfl
theorem matrixCommandComplete (core : Nat) (id : Nat) : Statement (.matrixCommandComplete core id) := event rfl
theorem mmaNfSquash (core : Nat) (id : Nat) : Statement (.mmaNfSquash core id) := event rfl
theorem mmaNfCommit (core : Nat) (id : Nat) : Statement (.mmaNfCommit core id) := event rfl
theorem contextQuiescent (ctx : Nat) : Statement (.contextQuiescent ctx) := event rfl
theorem faultVerdict (ctx : Nat) : Statement (.faultVerdict ctx) := event rfl
theorem pageServiceComplete (ctx : Nat) : Statement (.pageServiceComplete ctx) := event rfl
theorem pageServiceTimeout (ctx : Nat) : Statement (.pageServiceTimeout ctx) := event rfl
theorem watchdogExpiry (th : Nat) : Statement (.watchdogExpiry th) := event rfl
theorem placementPass (die : Nat) : Statement (.placementPass die) := event rfl
theorem preemptionTier2 (ctx : Nat) : Statement (.preemptionTier2 ctx) := event rfl
theorem contextSaveComplete (ctx : Nat) : Statement (.contextSaveComplete ctx) := event rfl
theorem preemptionTier3Reset (ctx : Nat) : Statement (.preemptionTier3Reset ctx) := event rfl
theorem governorWindowEnd (core : Nat) (energy : List (Nat × Nat)) : Statement (.governorWindowEnd core energy) := event rfl
theorem stageFeed (job : Nat) : Statement (.stageFeed job) := event rfl
theorem continuationBinning (job : Nat) (stage : Nat) : Statement (.continuationBinning job stage) := event rfl
theorem binFlushDry (job : Nat) (stage : Nat) : Statement (.binFlushDry job stage) := event rfl
theorem gridRetire (grid : Nat) : Statement (.gridRetire grid) := event rfl
theorem lqsubWrite (die : Nat) (q : Nat) (v : W32) : Statement (.lqsubWrite die q v) := event rfl
theorem lqrackWrite (die : Nat) (q : Nat) (v : W32) : Statement (.lqrackWrite die q v) := event rfl
theorem lqcanWrite (die : Nat) (q : Nat) (v : W32) : Statement (.lqcanWrite die q v) := event rfl
theorem lqstatWrite (die : Nat) (q : Nat) (v : W32) : Statement (.lqstatWrite die q v) := event rfl
theorem lqcfgWrite (die : Nat) (q : Nat) (v : W32) : Statement (.lqcfgWrite die q v) := event rfl
theorem registerWrite (r : PlainReg) (v : W64) : Statement (.registerWrite r v) := event rfl
theorem notifyArrival (vec : Nat) : Statement (.notifyArrival vec) := event rfl
theorem apertureWake : Statement (.apertureWake) := event rfl
theorem untranslatedDeviceRequest (r : DevReq) : Statement (.untranslatedDeviceRequest r) := event rfl
theorem atsTranslationRequest (fn : Nat) (pasid : Nat) (addr : Nat) : Statement (.atsTranslationRequest fn pasid addr) := event rfl
theorem translatedRequest (r : DevReq) : Statement (.translatedRequest r) := event rfl
theorem priPageRequest (fn : Nat) (pasid : Nat) (addr : Nat) : Statement (.priPageRequest fn pasid addr) := event rfl
theorem remoteRequestServe (r : RemReq) : Statement (.remoteRequestServe r) := event rfl
theorem rldResponseLands (id : Nat) (r : RemResp) : Statement (.rldResponseLands id r) := event rfl
theorem remoteTimeout (id : Nat) : Statement (.remoteTimeout id) := event rfl
theorem classLPacketReceive (p : Packet) : Statement (.classLPacketReceive p) := event rfl
theorem classLSendExpiry (p : Packet) : Statement (.classLSendExpiry p) := event rfl
theorem classLIngressExpiry (p : Packet) : Statement (.classLIngressExpiry p) := event rfl
theorem lossyBufferClose (pa : Nat) : Statement (.lossyBufferClose pa) := event rfl
theorem stationLaneLoss (station : Nat) : Statement (.stationLaneLoss station) := event rfl
theorem writeQueueAccept (id : Nat) : Statement (.writeQueueAccept id) := event rfl
theorem lineWrite (line : Nat) : Statement (.lineWrite line) := event rfl
theorem lineRead (line : Nat) : Statement (.lineRead line) := event rfl
theorem sparingCopyStart (stack : Nat) (row : Nat) : Statement (.sparingCopyStart stack row) := event rfl
theorem sparingLineCopy (stack : Nat) (row : Nat) : Statement (.sparingLineCopy stack row) := event rfl
theorem getVersion : Statement (.getVersion) := event rfl
theorem getCapabilities : Statement (.getCapabilities) := event rfl
theorem negotiateAlgorithms (offered : Nat) : Statement (.negotiateAlgorithms offered) := event rfl
theorem getDigests : Statement (.getDigests) := event rfl
theorem getCertificate (slot : Nat) : Statement (.getCertificate slot) := event rfl
theorem challenge (nonce : List Byte) : Statement (.challenge nonce) := event rfl
theorem getMeasurements (idx : Nat) : Statement (.getMeasurements idx) := event rfl
theorem keyExchange (offer : List Byte) : Statement (.keyExchange offer) := event rfl
theorem finish (verify : List Byte) : Statement (.finish verify) := event rfl
theorem endSession : Statement (.endSession) := event rfl
theorem keyRelease (ctx : Nat) (hash : List Byte) : Statement (.keyRelease ctx hash) := event rfl
theorem getStatement (ctx : Nat) : Statement (.getStatement ctx) := event rfl
theorem setbudget (die : Nat) (mask : Nat) (nj : Nat) : Statement (.setbudget die mask nj) := event rfl
theorem setthresh (ctx : Nat) (thresh : Nat) : Statement (.setthresh ctx thresh) := event rfl
theorem setcfg (accid : Nat) (ports : Nat) : Statement (.setcfg accid ports) := event rfl
theorem reset : Statement (.reset) := event rfl
theorem migrate (ctx : Nat) (acc : Nat) (die : Nat) (q : Nat) : Statement (.migrate ctx acc die q) := event rfl
theorem migrationDigestReceived (ctx : Nat) (digest : List Byte) : Statement (.migrationDigestReceived ctx digest) := event rfl
theorem migrationHandIn : Statement (.migrationHandIn) := event rfl
theorem migrationRefusal (ctx : Nat) : Statement (.migrationRefusal ctx) := event rfl
theorem statementSign (ctx : Nat) : Statement (.statementSign ctx) := event rfl
theorem thermalSample (die : Nat) (temp : Nat) : Statement (.thermalSample die temp) := event rfl
theorem moduleReset : Statement (.moduleReset) := event rfl
theorem firmwareFetch (image : List Byte) (signature : List Byte) : Statement (.firmwareFetch image signature) := event rfl
theorem stewardLockstepMismatch : Statement (.stewardLockstepMismatch) := event rfl
theorem remoteAcknowledgement (id : Nat) (nak : Bool) : Statement (.remoteAcknowledgement id nak) := event rfl
theorem dpcContainment (port : Nat) : Statement (.dpcContainment port) := event rfl
theorem moduleReplacementStatement (ctx : Nat) (statement : List Byte) : Statement (.moduleReplacementStatement ctx statement) := event rfl

end Laws.Rereads

end Sys2Proof
end

