-- ==== Sys2Proof/Laws/Decode.lean ====
section
/-! SUPPORT. Words and operand codes read back: the parts that decoding shares among all instructions. -/

namespace Sys2Proof

/-- The fields of a word fit their places (R58). -/
structure WordF.Fits (f : WordF) : Prop where
  opc : f.opc < 2 ^ 10
  dst : f.dst < 256
  sa : f.sa < 256
  sb : f.sb < 256
  sc : f.sc < 256
  gpred : f.gpred < 8
  mod : f.mod < 2 ^ 14

theorem toNat_lt_two (b : Bool) : b.toNat < 2 := by cases b <;> decide

/-- A field below another stays within the two widths. -/
theorem join_lt {a b n m : Nat} (ha : a < n) (hb : b < m) : a + n * b < n * m := by
  calc a + n * b < n + n * b := by omega
    _ = n * (b + 1) := by rw [Nat.mul_add, Nat.mul_one, Nat.add_comm]
    _ ≤ n * m := Nat.mul_le_mul_left n hb

/-- The lowest field of what is left of a word, and what is left above it. -/
theorem peel {x d a n b : Nat} (h : x / d = a + n * b) (ha : a < n) : x / d % n = a ∧ x / (d * n) = b := by
  have hn : 0 < n := by omega
  constructor
  · rw [h, Nat.add_mul_mod_self_left, Nat.mod_eq_of_lt ha]
  · rw [← Nat.div_div_eq_div_mul, h, Nat.add_mul_div_left _ _ hn, Nat.div_eq_of_lt ha, Nat.zero_add]

/-- A packed word is 64 bits wide. -/
theorem pack_lt {f : WordF} (h : f.Fits) : pack f < 2 ^ 64 := by
  have r := join_lt h.mod (join_lt (toNat_lt_two f.fsel) (join_lt h.gpred (join_lt (toNat_lt_two f.gneg) (join_lt (toNat_lt_two f.luc)
    (join_lt (toNat_lt_two f.lub) (join_lt (toNat_lt_two f.lua) (join_lt h.sc (join_lt h.sb (join_lt h.sa (join_lt h.dst h.opc))))))))))
  exact r

/-- One bit as a field. -/
theorem decide_field {n : Nat} {x : Bool} (h : n = x.toNat) : decide (n = 1) = x := by
  subst h
  cases x <;> rfl

/-- A word splits into the fields it was packed from (R58). -/
theorem unpack_pack {f : WordF} (h : f.Fits) : unpack (pack f) = f := by
  have h0 := peel (x := pack f) (d := 1) (Nat.div_one _) h.mod
  have h1 := peel h0.2 (toNat_lt_two f.fsel)
  have h2 := peel h1.2 h.gpred
  have h3 := peel h2.2 (toNat_lt_two f.gneg)
  have h4 := peel h3.2 (toNat_lt_two f.luc)
  have h5 := peel h4.2 (toNat_lt_two f.lub)
  have h6 := peel h5.2 (toNat_lt_two f.lua)
  have h7 := peel h6.2 h.sc
  have h8 := peel h7.2 h.sb
  have h9 := peel h8.2 h.sa
  have h10 := peel h9.2 h.dst
  have h11 : pack f / 2 ^ 54 % 2 ^ 10 = f.opc := (congrArg (· % 2 ^ 10) h10.2).trans (Nat.mod_eq_of_lt h.opc)
  generalize pack f = w at *
  cases f
  simp only [unpack, bits_eq, bit_eq, WordF.mk.injEq]
  exact ⟨h11, h10.1, h9.1, h8.1, h7.1, decide_field h6.1, decide_field h5.1, decide_field h4.1, decide_field h3.1, h2.1, decide_field h1.1, h0.1⟩

theorem Opnd.code_lt (o : Opnd) : o.code < 256 := by
  cases o <;> simp only [Opnd.code] <;> omega

/-- An operand is read back from its code, a literal from the slot that holds it (R59, R61). -/
theorem Opnd.of_code (o : Opnd) (next : Option W64) (h : ∀ w, o = .lit w → next = some w) : Opnd.ofCode next o.code = some o := by
  cases o with
  | v n => exact dif_pos n.isLt
  | p n =>
    have := n.isLt
    show Opnd.ofCode next (0x80 + n.val) = _
    unfold Opnd.ofCode
    rw [dif_neg (by omega), dif_pos (by omega)]
    exact congrArg (fun k => some (Opnd.p k)) (Fin.ext (by simp))
  | q n =>
    have := n.isLt
    show Opnd.ofCode next (0x88 + n.val) = _
    unfold Opnd.ofCode
    rw [dif_neg (by omega), dif_neg (by omega), dif_pos (by omega)]
    exact congrArg (fun k => some (Opnd.q k)) (Fin.ext (by simp))
  | k n =>
    have := n.isLt
    show Opnd.ofCode next (0x98 + n.val) = _
    unfold Opnd.ofCode
    rw [dif_neg (by omega), dif_neg (by omega), dif_neg (by omega), dif_pos (by omega)]
    exact congrArg (fun k => some (Opnd.k k)) (Fin.ext (by simp))
  | lit w =>
    rw [h w rfl]
    show Opnd.ofCode _ 0xE0 = _
    simp [Opnd.ofCode]
  | null => rfl

/-- SETA and SETB are read back (R55). -/
theorem setField_code (a : Option (Fin 12)) : setField (setCode a) = some a := by
  cases a with
  | none => rfl
  | some n =>
    have := n.isLt
    unfold setField setCode
    rw [if_neg (by simp only; omega)]
    simp

end Sys2Proof
end

