-- ==== Sys2Proof/Laws/Issue.lean ====
section
/-! SUPPORT. What the common issue of an instruction does when nothing holds it back: its frees, its effect, and a calm end; and what
an instruction that only computes leaves in every thread. -/

namespace Sys2Proof.Machine

/-! ### Members -/

theorem mem_membersOf {s : State} {g : Gather} {m : Mb} (h : m ∈ membersOf s g) :
    m.u ∈ g.members ∧ s.threads.look m.u = some m.t ∧ s.blocks.look m.t.blk = some m.b := by
  simp only [membersOf, List.mem_filterMap, Option.bind_eq_some_iff, Option.map_eq_some_iff] at h
  obtain ⟨u, hu, t, ht, b, hb, rfl⟩ := h
  exact ⟨hu, ht, hb⟩

theorem nodup_membersOf {s : State} {g : Gather} (h : g.members.Nodup) : ((membersOf s g).map (·.u)).Nodup := by
  have key (l : List Nat) (hl : l.Nodup) : ((l.filterMap fun u => (s.threads.look u).bind fun t =>
      (s.blocks.look t.blk).map fun b => (⟨u, t, b⟩ : Mb)).map (·.u)).Nodup := by
    induction l with
    | nil => simp
    | cons u l ih =>
      rw [List.nodup_cons] at hl
      rw [List.filterMap_cons]
      split
      · exact ih hl.2
      · rename_i m hm
        simp only [Option.bind_eq_some_iff, Option.map_eq_some_iff] at hm
        obtain ⟨t, ht, b, hb, rfl⟩ := hm
        rw [List.map_cons, List.nodup_cons]
        refine ⟨?_, ih hl.2⟩
        simp only [List.mem_map, List.mem_filterMap, Option.bind_eq_some_iff, Option.map_eq_some_iff, not_exists, not_and]
        rintro m ⟨v, hv, t', ht', b', hb', rfl⟩ e
        exact hl.1 (e ▸ hv)
  exact key g.members h

theorem whole_gather {s : State} {g : Gather} (h : s.whole g = true) : (s.core s.focus).gather = some g := by
  simp only [State.whole, Bool.and_eq_true, beq_iff_eq] at h
  exact h.1.1

theorem whole_nodup {s : State} {g : Gather} (h : s.whole g = true) : g.members.Nodup := by
  simp only [State.whole, Bool.and_eq_true, decide_eq_true_eq] at h
  exact h.1.2

theorem whole_regs {s : State} {g : Gather} {m : Mb} (h : s.whole g = true) (hm : m ∈ membersOf s g) : m.t.regs.wf = true := by
  simp only [State.whole, Bool.and_eq_true, List.all_eq_true] at h
  obtain ⟨hu, ht, -⟩ := mem_membersOf hm
  have := h.2 m.u hu
  rw [ht] at this
  simp only [Bool.and_eq_true] at this
  exact this.2

theorem actors_sub {i : Instr} {s : State} {g : Gather} {m : Mb} (h : m ∈ actors i s g) : m ∈ membersOf s g := by
  exact (List.mem_filter.mp h).1

theorem clear_whole {i : Instr} {s : State} {g : Gather} (h : clear i s g = true) : s.whole g = true := by
  simp only [clear, Bool.and_eq_true] at h
  exact h.1.1

/-! ### The common issue -/

theorem filterMap_none {α β : Type} {f : α → Option β} {l : List α} (h : ∀ x ∈ l, f x = none) : l.filterMap f = [] :=
  List.filterMap_eq_nil_iff.mpr h

theorem filter_self {α : Type} {p : α → Bool} {l : List α} (h : ∀ x ∈ l, p x = true) : l.filter p = l :=
  List.filter_eq_self.mpr h

theorem faultSet_none (s : State) (i : Instr) (sp : Spec) (ms : List Mb) (f : Mb → Option Flt) (h : ∀ m ∈ ms, f m = none) :
    faultSet s i sp ms f = none := by
  have : (ms.filterMap fun m => (f m).map fun x => (m, x)) = [] := filterMap_none fun m hm => by simp [h m hm]
  simp [faultSet, this]

/-- Nothing holds the set back, and the instruction's own waits, traps and faults let it pass: it frees, has its effect and ends. -/
theorem issueS_clear {i : Instr} {sp : Spec} {s : State} {g : Gather} (h : clear i s g = true)
    (hw : sp.wait s (actors i s g) = false) (ht : ∀ m ∈ actors i s g, sp.trap s m = none)
    (hc : ∀ m ∈ actors i s g, sp.check s m = none) (hs : ∀ m ∈ actors i s g, sp.sleeps s m = false)
    (hf : ∀ m ∈ actors i s g, fpTraps (s.ctx m.b.ctx) (sp.raised s m) = false) :
    issueS i sp s = advance (sp.effect (freeRegs s i (membersOf s g)) (actors i s g)) i g (membersOf s g)
      ((actors i s g).filterMap fun m => (sp.target s m).map fun p => (m.u, p)) := by
  have hg := whole_gather (clear_whole h)
  simp only [clear, Bool.and_eq_true, List.all_eq_true, Bool.not_eq_true', decide_eq_true_eq, actors] at h
  simp only [actors] at hw ht hc hs hf ⊢
  have h1 : ((active i (membersOf s g)).filterMap fun m => ((freedTrap s i m).or (sp.trap s m)).map fun r => (m.u, r)) = [] :=
    filterMap_none fun m hm => by
      have := (h.2 m hm).1
      simp only [Option.isNone_iff_eq_none] at this
      simp [this, ht m hm]
  have h3 := faultSet_none s i sp (active i (membersOf s g))
    (fun m => if liveAfter m.t i > m.b.maxlive then some ⟨0x2D, 0, 0⟩ else none) fun m hm => if_neg (by have := (h.2 m hm).2; omega)
  have h4 := faultSet_none s i sp _ _ hc
  have h5 : ((active i (membersOf s g)).filterMap fun m =>
      if fpTraps (s.ctx m.b.ctx) (sp.raised s m) then
        some (m.u, ({ cause := 6, code := 0, flags := sp.raised s m, detail := 0, rpc := m.t.pc } : TrapReq)) else none) = [] :=
    filterMap_none fun m hm => by simp [hf m hm]
  have h6 : ((active i (membersOf s g)).filter fun m => !(([] : List Nat)).contains m.u && sp.sleeps s m) = [] :=
    List.filter_eq_nil_iff.mpr fun m hm => by simp [hs m hm]
  have h7 : ((membersOf s g).filter fun m => !(([] : List Nat)).contains m.u) = membersOf s g := filter_self fun m _ => rfl
  have h8 : ((active i (membersOf s g)).filter fun m => !(([] : List Nat)).contains m.u) = active i (membersOf s g) :=
    filter_self fun m _ => rfl
  unfold issueS
  simp only [hg, h.1.2, hw, h1, h3, h4, h5, Bool.false_eq_true, if_false, List.append_nil, commit, List.map_nil, h6, h7, h8,
    List.foldl_nil]

/-! ### Threads under a fold over members -/

/-- An operation over members that acts on each member's own thread. -/
theorem foldl_threads (F : State → Mb → State) (h : Mb → Thread → Thread)
    (hF : ∀ s m u, (F s m).threads.look u = if u = m.u then (s.threads.look u).map (h m) else s.threads.look u)
    (l : List Mb) (hl : (l.map (·.u)).Nodup) (s : State) :
    (∀ m ∈ l, (l.foldl F s).threads.look m.u = (s.threads.look m.u).map (h m)) ∧
    (∀ u, (∀ m ∈ l, m.u ≠ u) → (l.foldl F s).threads.look u = s.threads.look u) := by
  induction l generalizing s with
  | nil => simp
  | cons m l ih =>
    simp only [List.map_cons, List.nodup_cons, List.mem_map, not_exists, not_and] at hl
    obtain ⟨i1, i2⟩ := ih hl.2 (F s m)
    constructor
    · intro m' hm'
      rcases List.mem_cons.mp hm' with rfl | hm'
      · rw [List.foldl_cons, i2 m'.u fun x hx => hl.1 x hx, hF, if_pos rfl]
      · rw [List.foldl_cons, i1 m' hm', hF, if_neg (hl.1 m' hm')]
    · intro u hu
      rw [List.foldl_cons, i2 u fun x hx => hu x (List.mem_cons_of_mem _ hx), hF, if_neg (hu m List.mem_cons_self).symm]

theorem freeRegs_threads {s : State} {i : Instr} {ms : List Mb} (hl : (ms.map (·.u)).Nodup) :
    (∀ m ∈ ms, (freeRegs s i ms).threads.look m.u = (s.threads.look m.u).map fun t => t.free (luRegs i)) ∧
    (∀ u, (∀ m ∈ ms, m.u ≠ u) → (freeRegs s i ms).threads.look u = s.threads.look u) := by
  unfold freeRegs
  dsimp only
  split
  · rename_i h
    rw [List.isEmpty_iff] at h
    refine ⟨fun m _ => ?_, fun u _ => rfl⟩
    rw [h]
    cases s.threads.look m.u <;> rfl
  · exact foldl_threads _ (fun _ t => t.free (luRegs i)) (fun s m u => by simp [State.updThr_threads]) ms hl s

/-- The effect of a computation on its thread. -/
def effThread (e : Eff) (t : Thread) : Thread :=
  { e.preds.foldl (fun t (n, b) => t.setPred n b) (t.put e.regs) with
    rngs := e.rng.getD t.rngs }

theorem setPred_fold (l : List (Nat × Bool)) (t : Thread) :
    (l.foldl (fun t (n, b) => t.setPred n b) t).rngs = t.rngs := by
  induction l generalizing t with
  | nil => rfl
  | cons e l ih =>
    rw [List.foldl_cons, ih]
    obtain ⟨n, b⟩ := e
    simp only [Thread.setPred]
    split <;> rfl

theorem supersede_threads (s : State) (u : Nat) (l : List Nat) : (supersede s u l).threads = s.threads := by
  unfold supersede; split <;> rfl

theorem stick_threads (s : State) (c r : Nat) : (stick s c r).threads = s.threads := by
  unfold stick; split <;> rfl

theorem applyEff_threads (s : State) (m : Mb) (e : Eff) (u : Nat) :
    (applyEff s m e).threads.look u = if u = m.u then (s.threads.look u).map (effThread e) else s.threads.look u := by
  simp only [applyEff, stick_threads, State.updThr_threads, AMap.look_upd, writeRegs, supersede_threads]
  split
  · simp only [Option.map_map]
    congr 1
    funext t
    simp only [Function.comp_apply, effThread, setPred_fold]
    rfl
  · rfl

/-- What an instruction that only computes leaves: each active member's thread with the frees and the effect, an idle member's with the
frees alone, and every other thread as it was, but for what a calm end changes. -/
theorem compute_clear {i : Instr} {f : Mb → Eff} {s : State} {g : Gather} (h : clear i s g = true)
    (hf : quietFp i s g (fun m => (f m).raised) = true) :
    ∃ t, compute i f s = .next t ∧
      (∀ m ∈ actors i s g, (t.threads.look m.u).map Thread.still = some (effThread (f m) (m.t.free (luRegs i))).still) ∧
      (∀ m ∈ membersOf s g, m ∉ actors i s g → (t.threads.look m.u).map Thread.still = some (m.t.free (luRegs i)).still) ∧
      (∀ u, u ∉ g.members → (t.threads.look u).map Thread.still = (s.threads.look u).map Thread.still) := by
  have hn := nodup_membersOf (s := s) (whole_nodup (clear_whole h))
  have hna : ((actors i s g).map (·.u)).Nodup := (List.filter_sublist.map _).nodup hn
  refine ⟨_, rfl, ?_⟩
  simp only [quietFp, List.all_eq_true, Bool.not_eq_true'] at hf
  rw [issueS_clear h rfl (fun _ _ => rfl) (fun _ _ => rfl) (fun _ _ => rfl) hf]
  obtain ⟨f1, f2⟩ := freeRegs_threads (s := s) (i := i) hn
  obtain ⟨e1, e2⟩ := foldl_threads _ (fun m => effThread (f m)) (fun s m u => applyEff_threads s m (f m) u) _ hna
    (freeRegs s i (membersOf s g))
  have ha := fun s' ts => (Calm.advance s' i g (membersOf s g) ts).threads
  refine ⟨fun m hm => ?_, fun m hm hx => ?_, fun u hu => ?_⟩
  · rw [ha, e1 m hm, f1 m (actors_sub hm), (mem_membersOf (actors_sub hm)).2.1]
    rfl
  · rw [ha, e2 m.u ?_, f1 m hm, (mem_membersOf hm).2.1]
    · rfl
    · intro m' hm' e
      have : m' = m := by
        have h1 := mem_membersOf (actors_sub hm')
        have h2 := mem_membersOf hm
        rw [e, h2.2.1] at h1
        have ht : m'.t = m.t := by simpa using h1.2.1.symm
        rw [ht, h2.2.2] at h1
        have hb : m'.b = m.b := by simpa using h1.2.2.symm
        cases m; cases m'; simp_all
      exact hx (this ▸ hm')
  · rw [ha, e2 u ?_, f2 u ?_]
    · intro m hm e; exact hu (e ▸ (mem_membersOf hm).1)
    · intro m hm e; exact hu (e ▸ (mem_membersOf (actors_sub hm)).1)

end Sys2Proof.Machine
end

