-- ==== Sys2Proof/Laws/Frame.lean ====
section
/-! SUPPORT. Frames of the common issue: what no instruction touches unless its own effect does. -/

namespace Sys2Proof.Machine

namespace Apart

theorem updCore (s : State) (k : Nat) (f : CoreRec → CoreRec) (hf : ∀ c, (f c).still = c.still) : Apart s (s.updCore k f) :=
  (Calm.updCore s k f hf).apart

theorem supersede (s : State) (u : Nat) (l : List Nat) : Apart s (supersede s u l) := by
  unfold Machine.supersede
  split
  · exact refl s
  · exact parts s _ _ _ _

theorem writeRegs (s : State) (u : Nat) (l : List (Nat × W32)) : Apart s (writeRegs s u l) :=
  (updThr _ _ _).after (supersede _ _ _)

theorem stick (s : State) (c r : Nat) : Apart s (stick s c r) := by
  unfold Machine.stick
  split
  · exact refl s
  · exact updCtx _ _ _ (by intro; rfl)

theorem applyEff (s : State) (m : Mb) (e : Eff) : Apart s (applyEff s m e) :=
  (stick _ _ _).after ((updThr _ _ _).after (writeRegs _ _ _))

theorem freeRegs (s : State) (i : Instr) (ms : List Mb) : Apart s (freeRegs s i ms) := by
  unfold Machine.freeRegs
  dsimp only
  split
  · exact refl s
  · refine foldl _ (fun s m => ?_) _ _
    exact parts s _ _ _ _

theorem sleepAt (s : State) (u : Nat) (i : Instr) : Apart s (sleepAt s u i) := by
  unfold Machine.sleepAt
  exact (updThr _ _ _).after (updCore _ _ _ (by intro; rfl))

theorem beginVL (s : State) (i : Instr) (u : Nat) : Apart s (beginVL s i u) := (updThr _ _ _).after (supersede _ _ _)

theorem newId (s : State) : Apart s s.newId.2 := ⟨rfl, fun _ => rfl, fun _ => rfl⟩

theorem startOp (s : State) (i : Instr) (m : Mb) (n : Nat) (l : List Nat) (op : POp) (a : List Nat) : Apart s (startOp s i m n l op a).2 := by
  unfold Machine.startOp
  exact (parts _ _ _ _ _).after ((newId _).after (beginVL s i m.u))

theorem issueStore (s : State) (st : Store) : Apart s (issueStore s st).2 := (Calm.issueStore s st).apart

theorem useRoute (s : State) (u : Option Nat) (c : Nat) (k : Option Nat) : Apart s (useRoute s u c k) := by
  unfold Machine.useRoute
  split
  · exact updThr _ _ _
  · exact refl s

theorem faultSet {s s' : State} {i : Instr} {sp : Spec} {ms : List Mb} {f : Mb → Option Flt} (h : faultSet s i sp ms f = some s') :
    Apart s s' := by
  unfold Machine.faultSet at h
  dsimp only at h
  split at h
  · exact nomatch h
  · cases h
    exact (Calm.faultThread _ _ _ _ _ _ _ _).apart

theorem advance (s : State) (i : Instr) (g : Gather) (ms : List Mb) (ts : List (Nat × W32)) : Apart s (advance s i g ms ts) :=
  (Calm.advance s i g ms ts).apart

theorem leaveAll (l : List (Nat × TrapReq)) (s : State) : Apart s (l.foldl (fun s (u, r) => Machine.leaveFor s u r) s) := by
  induction l generalizing s with
  | nil => exact refl s
  | cons e l ih => exact (ih _).after (Calm.leaveFor s e.1 e.2).apart

theorem commit {i : Instr} {sp : Spec} (he : ∀ s ms, Apart s (sp.effect s ms)) (s : State) (g : Gather) (ms act : List Mb)
    (traps : List (Nat × TrapReq)) : Apart s (commit i sp s g ms act traps) := by
  unfold Machine.commit
  exact (advance _ _ _ _ _).after ((foldl _ (fun _ _ => sleepAt _ _ _) _ _).after
    ((leaveAll _ _).after ((he _ _).after (freeRegs _ _ _))))

/-- The issue of an instruction touches no more than its own effect and its own wait do. -/
theorem issueS {i : Instr} {sp : Spec} (he : ∀ s ms, Apart s (sp.effect s ms)) (hw : ∀ s ms, Apart s (sp.onWait s ms)) (s : State) :
    Apart s (issueS i sp s) := by
  unfold Machine.issueS
  split
  · exact refl s
  · dsimp only
    split
    · exact (Calm.stallSet _ _).apart
    · split
      · rename_i h; exact faultSet h
      · split
        · exact (Calm.stallSet _ _).apart.after (hw _ _)
        · split
          · rename_i h; exact faultSet h
          · exact commit he _ _ _ _ _

/-- An instruction that only computes touches threads, sticky bits, gathered sets and what is in flight. -/
theorem compute (i : Instr) (f : Mb → Eff) (s : State) : ∃ t, compute i f s = .next t ∧ Apart s t :=
  ⟨_, rfl, issueS (fun s ms => foldl _ (fun _ m => applyEff _ m (f m)) _ _) (fun s _ => refl s) s⟩

theorem issueG {i : Instr} {check : List Mb → Option (Mb × Flt)} {eff : State → List Mb → State}
    (he : ∀ s ms, Apart s (eff s ms)) (s : State) : ∃ t, issueG i check eff s = .next t ∧ Apart s t := by
  refine ⟨_, rfl, ?_⟩
  split
  · exact refl s
  · dsimp only
    split
    · exact (Calm.stallSet _ _).apart
    · split
      · exact (Calm.dissolve _ _).apart.after (leaveAll _ _)
      · split
        · rename_i h; exact faultSet h
        · split
          · exact (Calm.faultThread _ _ _ _ _ _ _ _).apart
          · exact (advance _ _ _ _ _).after ((he _ _).after (freeRegs _ _ _))

theorem gang (i : Instr) (check : List Mb → Option (Mb × Flt)) (f : List Mb → Mb → Eff) (s : State) :
    ∃ t, gang i check f s = .next t ∧ Apart s t :=
  issueG (fun s ms => foldl _ (fun s m => applyEff s m (f ms m)) _ _) s

theorem sfuOp (i : Instr) (fn : Nat) (ftz : Bool) (s : State) : ∃ t, sfuOp i fn ftz s = .next t ∧ Apart s t := by
  refine ⟨_, rfl, issueS (fun s _ => ?_) (fun s _ => refl s) s⟩
  dsimp only [State.newId]
  exact (foldl _ (fun s m => (startOp _ _ _ _ _ _ _).after (stick _ _ _)) _ _).after (newId s)

end Apart
end Sys2Proof.Machine
end

