-- ==== Sys2Proof/Laws/End.lean ====
section
/-! SUPPORT. The end of an instruction whose members are neither single-stepped nor waiting for a trap: their PCs are those of the next
instruction or of the transfer, and nothing else of a thread but its state changes. -/

namespace Sys2Proof.Machine

namespace Plain

theorem refl (s : State) : Plain s s := ⟨rfl, rfl, rfl, fun _ => rfl⟩

theorem trans {a b c : State} (h : Plain a b) (k : Plain b c) : Plain a c :=
  ⟨k.stores.trans h.stores, k.nextId.trans h.nextId, k.ctxs.trans h.ctxs, fun u => (k.threads u).trans (h.threads u)⟩

theorem after {a b c : State} (k : Plain b c) (h : Plain a b) : Plain a c := h.trans k

theorem updThr (s : State) (u : Nat) (f : Thread → Thread) (hf : ∀ t, (f t).line = t.line) : Plain s (s.updThr u f) := by
  refine ⟨rfl, rfl, rfl, fun v => ?_⟩
  simp only [State.updThr_threads, AMap.look_upd]
  split
  · simp [Option.map_map, Function.comp_def, hf]
  · rfl

theorem updCore (s : State) (k : Nat) (f : CoreRec → CoreRec) : Plain s (s.updCore k f) := ⟨rfl, rfl, rfl, fun _ => rfl⟩

theorem becomeReady (s : State) (u : Nat) : Plain s (becomeReady s u) := by
  unfold Machine.becomeReady
  split
  · exact refl s
  · rename_i t h
    refine ⟨rfl, rfl, rfl, fun v => ?_⟩
    simp only [AMap.look_put]
    split
    · rename_i e; subst e; simp [h, Thread.line]
    · rfl

theorem acquireBar (s : State) (u : Nat) (l : Level) (n : Nat) : Plain s (acquireBar s u l n) := by
  unfold Machine.acquireBar
  split
  · exact refl s
  · exact updThr _ _ _ (by intro; rfl)

/-- No trap waits in a thread. -/
def Free (s : State) (u : Nat) : Prop := (s.threads.look u).bind (·.trap) = none

theorem free {s t : State} (h : Plain s t) {u : Nat} (f : Free s u) : Free t u := by
  have e := h.threads u
  unfold Free at *
  cases hs : s.threads.look u with
  | none => rw [hs] at e; simp only [Option.map_none, Option.map_eq_none_iff] at e; simp [e]
  | some x =>
    rw [hs] at e f
    cases ht : t.threads.look u with
    | none => simp
    | some y =>
      rw [ht] at e
      simp only [Option.map_some, Option.some.injEq] at e
      have : y.line.trap = x.line.trap := by rw [e]
      have fx : x.trap = none := by simpa using f
      simpa [Thread.line, fx] using this

theorem takeWaits (s : State) (u : Nat) (l : List (Level × Nat)) (f : Free s u) : Plain s (takeWaits s u l) := by
  induction l generalizing s with
  | nil =>
    have h : Plain s (s.updThr u fun t => { t with owed := [] }) := updThr _ _ _ (by intro; rfl)
    have h2 := h.free f
    unfold Machine.takeWaits
    dsimp only
    split
    · rename_i r e
      rw [Free, e] at h2
      cases h2
    · exact (becomeReady _ _).after h
  | cons e l ih =>
    obtain ⟨lv, n⟩ := e
    unfold Machine.takeWaits
    split
    · exact (ih _ ((acquireBar _ _ _ _).free f)).after (acquireBar _ _ _ _)
    · exact updThr _ _ _ (by intro; rfl)

theorem takeAll (o : Nat → List (Level × Nat)) (l : List Nat) (s : State) (f : ∀ u ∈ l, Free s u) :
    Plain s (l.foldl (fun s u => Machine.takeWaits s u (o u)) s) := by
  induction l generalizing s with
  | nil => exact refl s
  | cons u l ih =>
    have h := takeWaits s u (o u) (f u List.mem_cons_self)
    exact (ih _ fun v hv => h.free (f v (List.mem_cons_of_mem _ hv))).after h

theorem endClause (s : State) (g : Gather) (h : Header) (f : ∀ u ∈ g.members, Free s u) : Plain s (endClause s g h) := by
  unfold Machine.endClause
  have h1 : Plain s (s.updCore s.focus fun c => { c with gather := none }) := updCore _ _ _
  dsimp only
  split
  · exact (updCore _ _ _).after ((takeAll _ _ _ fun u hu => h1.free (f u hu)).after h1)
  · exact (takeAll _ _ _ fun u hu => h1.free (f u hu)).after h1

theorem stepTraps (s : State) (h : Header) (ms : List Mb) (hs : ∀ m ∈ ms, m.t.ss = false) : stepTraps s h ms = s := by
  have e : (ms.filter fun m => m.t.ss && (((s.core s.focus).gather.map fun g => g.members.contains m.u)).getD false) = [] :=
    List.filter_eq_nil_iff.mpr fun m hm => by simp [hs m hm]
  unfold Machine.stepTraps
  dsimp only
  rw [e]
  simp

end Plain

/-- The PCs that the end of an instruction gives to the set. -/
def setPcs (s : State) (i : Instr) (g : Gather) (ts : List (Nat × W32)) (l : List Nat) : State :=
  l.foldl (fun x u => x.updThr u fun t =>
    { t with pc := ((ts.find? (·.1 == u)).map (·.2)).getD (afterPc (s.core s.focus) (curHeader s g) g.off (g.slot + slotsOf i)),
             stall := none, relWait := none }) s

theorem setPcs_threads (s0 : State) (i : Instr) (g : Gather) (ts : List (Nat × W32)) (l : List Nat) (hl : l.Nodup) (s : State) (u : Nat) :
    ((l.foldl (fun x u => x.updThr u fun t =>
      { t with pc := ((ts.find? (·.1 == u)).map (·.2)).getD (afterPc (s0.core s0.focus) (curHeader s0 g) g.off (g.slot + slotsOf i)),
               stall := none, relWait := none }) s).threads.look u) =
      if u ∈ l then (s.threads.look u).map fun t =>
        { t with pc := ((ts.find? (·.1 == u)).map (·.2)).getD (afterPc (s0.core s0.focus) (curHeader s0 g) g.off (g.slot + slotsOf i)),
                 stall := none, relWait := none }
      else s.threads.look u := by
  induction l generalizing s with
  | nil => simp
  | cons v l ih =>
    rw [List.nodup_cons] at hl
    rw [List.foldl_cons, ih hl.2, State.updThr_threads, AMap.look_upd]
    by_cases h : u = v
    · subst h
      simp [hl.1]
    · simp [h]

/-- The end of an instruction whose members are neither single-stepped nor waiting for a trap. -/
theorem advance_plain {s : State} {i : Instr} {g g' : Gather} {ms : List Mb} {ts : List (Nat × W32)}
    (hg : (s.core s.focus).gather = some g') (hn : g'.members.Nodup) (hs : ∀ m ∈ ms, m.t.ss = false)
    (hf : ∀ u ∈ g'.members, Plain.Free s u) :
    Plain (setPcs s i g ts g'.members) (advance s i g ms ts) := by
  unfold advance
  have e : ((s.core s.focus).gather.map (·.members)).getD [] = g'.members := by simp [hg]
  have hf' : ∀ u ∈ g'.members, Plain.Free (setPcs s i g ts g'.members) u := fun u hu => by
    have := hf u hu
    unfold Plain.Free setPcs at *
    rw [setPcs_threads s i g ts _ hn s u, if_pos hu]
    cases hx : s.threads.look u with
    | none => rfl
    | some x => rw [hx] at this; simpa using this
  have hc : ((setPcs s i g ts g'.members).core (setPcs s i g ts g'.members).focus).gather = some g' := by
    have key (l : List Nat) (x : State) : (l.foldl (fun x u => x.updThr u fun t =>
        { t with pc := ((ts.find? (·.1 == u)).map (·.2)).getD (afterPc (s.core s.focus) (curHeader s g) g.off (g.slot + slotsOf i)),
                 stall := none, relWait := none }) x).cores = x.cores ∧ (l.foldl (fun x u => x.updThr u fun t =>
        { t with pc := ((ts.find? (·.1 == u)).map (·.2)).getD (afterPc (s.core s.focus) (curHeader s g) g.off (g.slot + slotsOf i)),
                 stall := none, relWait := none }) x).focus = x.focus := by
      induction l generalizing x with
      | nil => exact ⟨rfl, rfl⟩
      | cons u l ih => rw [List.foldl_cons]; exact ih _
    have h := key g'.members s
    have e2 : (setPcs s i g ts g'.members).core (setPcs s i g ts g'.members).focus = s.core s.focus := by
      unfold State.core setPcs
      rw [h.1, h.2]
    rw [e2]; exact hg
  dsimp only
  rw [e]
  have st := Plain.stepTraps (setPcs s i g ts g'.members) (curHeader s g) ms hs
  unfold setPcs at st hc hf' ⊢
  rw [st, hc]
  dsimp only
  split
  · exact Plain.updCore _ _ _
  · split
    · exact Plain.updCore _ _ _
    · exact Plain.endClause _ _ _ hf'

end Sys2Proof.Machine
end

