-- ==== Sys2Proof/Laws/Memory.lean ====
section
/-! SUPPORT. Every operation that writes a memory keeps its canonical form, and a written HBM line, allocation or store page reads back. -/

namespace Sys2Proof.Machine

open AMap Mem

/-! ### HBM and device memory -/

@[simp] theorem touchFrame_hbm (s : State) (line : Nat) : (touchFrame s line).hbm = s.hbm := by
  unfold touchFrame
  split <;> rfl

@[simp] theorem enqueueLine_hbm (s : State) (line : Nat) (red full : Bool) : (enqueueLine s line red full).hbm = s.hbm := rfl

/-- A line write changes its bytes alone; whether they are merged or discarded is decided later (R301). -/
@[simp] theorem hbmWriteLine_hbm (s : State) (pa : Nat) (b : List Byte) (red : Bool) : (hbmWriteLine s pa b red).hbm = s.hbm.writeN pa b := by
  unfold hbmWriteLine
  simp only [enqueueLine_hbm]
  split <;> simp

theorem hbmWriteLine_wf (s : State) (pa : Nat) (b : List Byte) (red : Bool) (w : s.hbm.wf = true) : (hbmWriteLine s pa b red).hbm.wf = true := by
  simpa using wf_writeN pa b w

theorem hbmWriteCells_wf (s : State) (line : Nat) (cs : Cells) (w : s.hbm.wf = true) : (hbmWriteCells s line cs).hbm.wf = true := by
  unfold hbmWriteCells
  split
  · exact hbmWriteLine_wf s _ _ _ w
  · exact wf_foldl _ (fun m c h => wf_write _ _ h) cs w

/-! ### Scratchpads -/

/-- Every scratchpad's storage is canonical. -/
def allocsWf (m : AMap Alloc) : Bool := m.all fun e => e.2.mem.wf

theorem allocsWf_put {m : AMap Alloc} (a : Nat) (x : Alloc) (w : allocsWf m = true) (h : x.mem.wf = true) :
    allocsWf (m.put a x) = true := by
  induction m with
  | nil => simp [AMap.put, allocsWf, h]
  | cons e m ih =>
    simp only [allocsWf, List.all_cons, Bool.and_eq_true] at w
    unfold AMap.put
    split
    · simp [allocsWf, h, w.1, w.2]
    · split
      · simp [allocsWf, h, w.2]
      · simp only [allocsWf, List.all_cons, Bool.and_eq_true]
        exact ⟨w.1, ih w.2⟩

theorem allocsWf_look {m : AMap Alloc} {a : Nat} {x : Alloc} (w : allocsWf m = true) (h : m.look a = some x) : x.mem.wf = true := by
  induction m with
  | nil => simp [AMap.look] at h
  | cons e m ih =>
    simp only [allocsWf, List.all_cons, Bool.and_eq_true] at w
    unfold AMap.look at h
    split at h
    · simp only [Option.some.injEq] at h
      exact h ▸ w.1
    · split at h
      · simp at h
      · exact ih w.2 h

theorem allocWrite_wf (s : State) (al off : Nat) (b : List Byte) (back : Bool) (w : allocsWf s.allocs = true) :
    allocsWf (allocWrite s al off b back).allocs = true := by
  unfold allocWrite
  split
  · exact w
  · rename_i a h
    exact allocsWf_put _ _ w (wf_foldl _ (fun m i hm => wf_write _ _ hm) _ (allocsWf_look w h))

@[simp] theorem allocWrite_hbm (s : State) (al off : Nat) (b : List Byte) (back : Bool) : (allocWrite s al off b back).hbm = s.hbm := by
  unfold allocWrite
  split <;> rfl

/-! ### Any place -/

theorem locWrite_hbm_wf (s : State) (l : Loc) (b : List Byte) (red : Bool) (w : s.hbm.wf = true) : (locWrite s l b red).hbm.wf = true := by
  cases l with
  | hbm pa => exact hbmWriteLine_wf s pa b red w
  | device pa mem =>
    unfold locWrite
    simp only
    split
    · exact w
    · exact w
  | alloc id off => simpa [locWrite] using w

theorem locWrite_device_wf (s : State) (l : Loc) (b : List Byte) (red : Bool) (w : s.device.wf = true) : (locWrite s l b red).device.wf = true := by
  cases l with
  | hbm pa =>
    have : (hbmWriteLine s pa b red).device = s.device := by
      unfold hbmWriteLine touchFrame enqueueLine
      simp only
      repeat' split
      all_goals rfl
    simpa [locWrite, this] using w
  | device pa mem =>
    unfold locWrite
    simp only
    split
    · exact wf_writeN pa b w
    · exact w
  | alloc id off =>
    have : (allocWrite s id off b false).device = s.device := by
      unfold allocWrite
      split <;> rfl
    simpa [locWrite, this] using w

/-! ### Instruction stores -/

theorem freePages_store (s : State) (core k : Nat) (ps : List Nat) (w : (s.core k).store.wf = true) :
    ((freePages s core ps).core k).store.wf = true := by
  unfold freePages State.updCore State.setCore State.core at *
  simp only [AMap.lookD, AMap.look_put]
  split
  · rename_i e
    subst e
    simp only [Option.getD_some]
    exact wf_foldl _ (fun m p h => wf_clear _ _ h) ps w
  · exact w

/-! ### Reset -/

/-- Memory is in its canonical form after reset. -/
theorem reset_memWf : State.reset.memWf = true := by decide

end Sys2Proof.Machine
end

