-- ==== Sys2Proof/Tests/Slice0.lean ====
section
/-! SUPPORT. Tests on fixed values, with expected results from the spec's own tables and worked examples; words written out from its
encodings; and for every statement with hypotheses a state and operands that meet them. -/

namespace Sys2Proof.Tests

open Sys2Proof Sys2Proof.Machine Sys2Proof.Claims

set_option maxRecDepth 20000
set_option Elab.async false

/-! ### A small state -/

/-- The header, word and literal of one instruction, as the host numbers them. -/
def clauseOf (i : Instr) : Nat :=
  encodeHeader { cls := i.cls.getD .V, count := (encode i).length, wait := 0, seta := none, setb := none, yield := false }
    + 2 ^ 64 * encodeWord i + 2 ^ 128 * ((i.literal.map (·.toNat)).getD 0)

/-- One thread about to issue one instruction after reset, with changes to the thread, its block and its context. -/
def one (i : Instr) (f : Thread → Thread := id) (b : Block → Block := id) (k : Context → Context := id) : State :=
  let s := State.reset.withFetchWord 192 (clauseOf i)
  { s with threads := s.threads.upd 4096 f, blocks := s.blocks.upd 1 b, ctxs := s.ctxs.upd 1 k }

/-- The gathered set of `one`, and its member. -/
def g0 : Gather := { members := [4096], off := 0, slot := 0 }
def me (s : State) : Mb := ⟨4096, s.threads.lookD 4096 { blk := 1, tid := 0 }, s.blocks.lookD 1
  { ctx := 0, job := 0, grid := none, group := 0, stage := none, core := 0, blockId := 0, order := 0, threads := 0, kernel := 0, code := 0,
    stack := 0, data := 0, maxlive := 0 }⟩

/-- Registers v1 to v8 hold given words. -/
def regs (l : List W32) (t : Thread) : Thread := { t with regs := (List.range l.length).foldl (fun m n => m.put (n + 1) (l.getD n 0)) t.regs }

/-- What a state shows after a step or an instruction that goes on. -/
def after {α : Type} (r : Res) (f : State → Option α) : Option α :=
  match r with
  | .next s => f s
  | _ => none

/-- The answer that an instruction has ready to land. -/
def replied (s : State) : Option (List W32) := s.pend.findSome? fun e => match e.2.op with
  | .answer _ l => some l
  | _ => none

/-- v5 after a step from registers v1 to v8. -/
def v5 (i : Instr) (l : List W32) : Option W32 := after (step (one i (regs l))) (regOf · 4096 5)
/-- v5 and v6. -/
def v56 (i : Instr) (l : List W32) : Option (W32 × W32) :=
  after (step (one i (regs l))) fun s => (regOf s 4096 5).bind fun a => (regOf s 4096 6).map fun b => (a, b)
/-- A predicate. -/
def pr (n : Nat) (i : Instr) (l : List W32) (p : BitVec 7 := 0) : Option Bool :=
  after (step (one i fun t => { regs l t with preds := p })) (predOf · 4096 n)
/-- The cause of the halt line of context 1. -/
def halted (i : Instr) (f : Thread → Thread := id) (b : Block → Block := id) : Option Nat :=
  after (step (one i f b)) fun s => ((s.ctxs.look 1).bind (·.halt)).map (·.cause.stop.cause)

/-! ### Words written out from R58, R59 and R81 to R93 -/

theorem test_decode_nop : decodeWord .V 0x003FFFFFFFC50000 none = .ok (.nop { gneg := true, gpred := 2 }) := rfl
theorem test_decode_iadd : decodeWord .V 0x040140E73FE38001 none = .ok (.iadd { dst := .v 5, sa := .v 3, sb := .k 4, lua := true } .n32 false) := rfl
theorem test_decode_isub : decodeWord .V 0x044140C13FD38014 none = .ok (.isub { dst := .v 5, sa := .v 3, sb := .v 4, lub := true } .s16 true) := rfl
theorem test_decode_imul : decodeWord .V 0x048180813FC38002 none = .ok (.imul { dst := .v 6, sa := .v 2, sb := .v 4 } .s64 false) := rfl
theorem test_decode_imulh : decodeWord .V 0x04C140C13FC38000 none = .ok (.imulh { dst := .v 5, sa := .v 3, sb := .v 4 } .s32) := rfl
theorem test_decode_imad : decodeWord .V 0x050140C101CB8010 none = .ok (.imad { dst := .v 5, sa := .v 3, sb := .v 4, sc := .v 7, luc := true } .s32 true) := rfl
theorem test_decode_imadWide : decodeWord .V 0x050180C102038021 none = .ok (.imadWide { dst := .v 6, sa := .v 3, sb := .v 4, sc := .v 8 } .n32 false) := rfl
theorem test_decode_iadc : decodeWord .V 0x054140C120838041 none = .ok (.iadc { dst := .v 5, sa := .v 3, sb := .v 4, sc := .p 2 } .n32 1) := rfl
theorem test_decode_isbc : decodeWord .V 0x058140C13FC381C1 none = .ok (.isbc { dst := .v 5, sa := .v 3, sb := .v 4 } .n32 7) := rfl
theorem test_decode_imin : decodeWord .V 0x05C140C13FC38006 none = .ok (.imin { dst := .v 5, sa := .v 3, sb := .v 4 } .s8) := rfl
theorem test_decode_imax : decodeWord .V 0x060140C13FC38007 none = .ok (.imax { dst := .v 5, sa := .v 3, sb := .v 4 } .n8) := rfl
theorem test_decode_iabs : decodeWord .V 0x064140FFFFC38000 none = .ok (.iabs { dst := .v 5, sa := .v 3 } .s32) := rfl
theorem test_decode_ineg : decodeWord .V 0x068140FFFFC38004 none = .ok (.ineg { dst := .v 5, sa := .v 3 } .s16) := rfl
theorem test_decode_and : decodeWord .V 0x080140C13FC38008 none = .ok (.and { dst := .v 5, sa := .v 3, sb := .v 4 } .b32) := rfl
theorem test_decode_or : decodeWord .V 0x084180813FC38009 none = .ok (.or { dst := .v 6, sa := .v 2, sb := .v 4 } .b64) := rfl
theorem test_decode_xor : decodeWord .V 0x088140F83FC38008 (some 0x40) = .ok (.xor { dst := .v 5, sa := .v 3, sb := .lit 0x40 } .b32) := rfl
theorem test_decode_not : decodeWord .V 0x08C140FFFFC38008 none = .ok (.not { dst := .v 5, sa := .v 3 } .b32) := rfl
theorem test_decode_bool3 : decodeWord .V 0x090140C101C3BA08 none = .ok (.bool3 { dst := .v 5, sa := .v 3, sb := .v 4, sc := .v 7 } .b32 0xE8) := rfl
theorem test_decode_shl : decodeWord .V 0x0A0140C13FC38008 none = .ok (.shl { dst := .v 5, sa := .v 3, sb := .v 4 } .b32) := rfl
theorem test_decode_shr : decodeWord .V 0x0A4180817FC38009 none = .ok (.shr { dst := .v 6, sa := .v 2, sb := .v 5 } .b64) := rfl
theorem test_decode_sar : decodeWord .V 0x0A8140C13FC38000 none = .ok (.sar { dst := .v 5, sa := .v 3, sb := .v 4 } .s32) := rfl
theorem test_decode_rol : decodeWord .V 0x0AC140C13FC38008 none = .ok (.rol { dst := .v 5, sa := .v 3, sb := .v 4 } .b32) := rfl
theorem test_decode_fsh : decodeWord .V 0x0B0140C101C38048 none = .ok (.fsh { dst := .v 5, sa := .v 3, sb := .v 4, sc := .v 7 } true) := rfl
theorem test_decode_bfx : decodeWord .V 0x0B4140C13FC38001 none = .ok (.bfx { dst := .v 5, sa := .v 3, sb := .v 4 } .n32) := rfl
theorem test_decode_bfi : decodeWord .V 0x0B8140C101C38008 none = .ok (.bfi { dst := .v 5, sa := .v 3, sb := .v 4, sc := .v 7 }) := rfl
theorem test_decode_popc : decodeWord .V 0x0BC140FFFFC38008 none = .ok (.popc { dst := .v 5, sa := .v 3 } .b32) := rfl
theorem test_decode_clz : decodeWord .V 0x0C0140BFFFC38009 none = .ok (.clz { dst := .v 5, sa := .v 2 } .b64) := rfl
theorem test_decode_ctz : decodeWord .V 0x0C4140FFFFC38008 none = .ok (.ctz { dst := .v 5, sa := .v 3 } .b32) := rfl
theorem test_decode_brev : decodeWord .V 0x0C8140FFFFC38008 none = .ok (.brev { dst := .v 5, sa := .v 3 } .b32) := rfl
theorem test_decode_bperm : decodeWord .V 0x0CC140C101C38008 none = .ok (.bperm { dst := .v 5, sa := .v 3, sb := .v 4, sc := .v 7 }) := rfl
theorem test_decode_sel : decodeWord .V 0x0D0140C120438008 none = .ok (.sel { dst := .v 5, sa := .v 3, sb := .v 4, sc := .p 1 } .b32) := rfl
theorem test_decode_isetp : decodeWord .V 0x0D60C0C13FC38141 none = .ok (.isetp { dst := .p 3, sa := .v 3, sb := .v 4 } .n32 .ge) := rfl
theorem test_decode_mov : decodeWord .V 0x0D8180BFFFC38009 none = .ok (.mov { dst := .v 6, sa := .v 2 } .b64) := rfl
theorem test_decode_cvti : decodeWord .V 0x0DC140FFFFC38191 none = .ok (.cvti { dst := .v 5, sa := .v 3 } .n32 .s8 true) := rfl
theorem test_decode_pand : decodeWord .V 0x102060A0FFC38000 none = .ok (.pand { dst := .p 1, sa := .p 2, sb := .p 3 }) := rfl
theorem test_decode_por : decodeWord .V 0x106060A0FFC38000 none = .ok (.por { dst := .p 1, sa := .p 2, sb := .p 3 }) := rfl
theorem test_decode_pxor : decodeWord .V 0x10A060A0FFC38000 none = .ok (.pxor { dst := .p 1, sa := .p 2, sb := .p 3 }) := rfl
theorem test_decode_pnot : decodeWord .V 0x10E060BFFFC38000 none = .ok (.pnot { dst := .p 1, sa := .p 2 }) := rfl
theorem test_decode_pmov : decodeWord .V 0x112061FFFFC38000 none = .ok (.pmov { dst := .p 1, sa := .p 7 }) := rfl
theorem test_decode_fadd : decodeWord .V 0x140140C13FC3800C none = .ok (.fadd { dst := .v 5, sa := .v 3, sb := .v 4 } .sr true) := rfl
theorem test_decode_fsub : decodeWord .V 0x144140C13FC38002 none = .ok (.fsub { dst := .v 5, sa := .v 3, sb := .v 4 } .rd false) := rfl
theorem test_decode_fmul : decodeWord .V 0x148140C13FC38003 none = .ok (.fmul { dst := .v 5, sa := .v 3, sb := .v 4 } .ru false) := rfl
theorem test_decode_ffma : decodeWord .V 0x14C2024282E38001 none = .ok (.ffma { dst := .v 8, sa := .v 9, sb := .v 10, sc := .v 11, lua := true } .rz false) := rfl
theorem test_decode_fmin : decodeWord .V 0x150140C13FC38008 none = .ok (.fmin { dst := .v 5, sa := .v 3, sb := .v 4 } true) := rfl
theorem test_decode_fmax : decodeWord .V 0x154140C13FC38000 none = .ok (.fmax { dst := .v 5, sa := .v 3, sb := .v 4 } false) := rfl
theorem test_decode_fsetp : decodeWord .V 0x15A0C0C13FC38380 none = .ok (.fsetp { dst := .p 3, sa := .v 3, sb := .v 4 } .nan false) := rfl
theorem test_decode_fcls : decodeWord .V 0x15E0C0FFFFC3A018 none = .ok (.fcls { dst := .p 3, sa := .v 3 } 0x201 true) := rfl
theorem test_decode_frnd : decodeWord .V 0x160140FFFFC38003 none = .ok (.frnd { dst := .v 5, sa := .v 3 } .ru false) := rfl
theorem test_decode_fcvt : decodeWord .V 0x164140BFFFC38E84 none = .ok (.fcvt { dst := .v 5, sa := .v 2 } .e4m3 .f64 .sr false) := rfl
theorem test_decode_fadd2 : decodeWord .V 0x168140C13FC38018 none = .ok (.fadd2 { dst := .v 5, sa := .v 3, sb := .v 4 } true .rne true) := rfl
theorem test_decode_fmul2 : decodeWord .V 0x16C140C13FC38004 none = .ok (.fmul2 { dst := .v 5, sa := .v 3, sb := .v 4 } false .sr false) := rfl
theorem test_decode_ffma2 : decodeWord .V 0x170140C101C38011 none = .ok (.ffma2 { dst := .v 5, sa := .v 3, sb := .v 4, sc := .v 7 } true .rz false) := rfl
theorem test_decode_dadd : decodeWord .V 0x174180813FC38001 none = .ok (.dadd { dst := .v 6, sa := .v 2, sb := .v 4 } .rz) := rfl
theorem test_decode_dmul : decodeWord .V 0x178180813FC38002 none = .ok (.dmul { dst := .v 6, sa := .v 2, sb := .v 4 } .rd) := rfl
theorem test_decode_dfma : decodeWord .V 0x17C1808102038003 none = .ok (.dfma { dst := .v 6, sa := .v 2, sb := .v 4, sc := .v 8 } .ru) := rfl
theorem test_decode_dsetp : decodeWord .V 0x1820C0813FC38200 none = .ok (.dsetp { dst := .p 3, sa := .v 2, sb := .v 4 } .equ .rne) := rfl
theorem test_decode_rcp : decodeWord .V 0x1C0140FFFFC3C008 none = .ok (.rcp { dst := .v 5, sa := .v 3, fsel := true } true) := rfl
theorem test_decode_rcpA : decodeWord .V 0x1C0140FFFFC38010 none = .ok (.rcpA { dst := .v 5, sa := .v 3 } false) := rfl
theorem test_decode_rsq : decodeWord .V 0x1C4140FFFFC38000 none = .ok (.rsq { dst := .v 5, sa := .v 3 } false) := rfl
theorem test_decode_rsqA : decodeWord .V 0x1C4140FFFFC38018 none = .ok (.rsqA { dst := .v 5, sa := .v 3 } true) := rfl
theorem test_decode_sqrt : decodeWord .V 0x1C8140FFFFC38000 none = .ok (.sqrt { dst := .v 5, sa := .v 3 } false) := rfl
theorem test_decode_ex2 : decodeWord .V 0x1CC140FFFFC38000 none = .ok (.ex2 { dst := .v 5, sa := .v 3 } false) := rfl
theorem test_decode_lg2 : decodeWord .V 0x1D0140FFFFC38008 none = .ok (.lg2 { dst := .v 5, sa := .v 3 } true) := rfl
theorem test_decode_sin : decodeWord .V 0x1D4140FFFFC38000 none = .ok (.sin { dst := .v 5, sa := .v 3 } false) := rfl
theorem test_decode_cos : decodeWord .V 0x1D8140FFFFC38000 none = .ok (.cos { dst := .v 5, sa := .v 3 } false) := rfl
theorem test_decode_tanh : decodeWord .V 0x1DC140FFFFC38000 none = .ok (.tanh { dst := .v 5, sa := .v 3 } false) := rfl
theorem test_decode_bra : decodeWord .V 0x203FFFFFFFC03FFE none = .ok (.bra { gpred := 0 } 0x3FFE) := rfl
theorem test_decode_brx : decodeWord .V 0x207FC0FFFFC38000 none = .ok (.brx { sa := .v 3 }) := rfl
theorem test_decode_call : decodeWord .V 0x20BFFFFFFFC38004 none = .ok (.call {} 4) := rfl
theorem test_decode_calli : decodeWord .V 0x20FFC0FFFFC38000 none = .ok (.calli { sa := .v 3 }) := rfl
theorem test_decode_ret : decodeWord .V 0x213FFFFFFFC38000 none = .ok (.ret {}) := rfl
theorem test_decode_ovcall : decodeWord .V 0x217FC5057FC38000 none = .ok (.ovcall { sa := .v 20, sb := .v 21 }) := rfl
theorem test_decode_exit : decodeWord .V 0x21BFFFFFFFC38000 none = .ok (.exit {}) := rfl
theorem test_decode_yield : decodeWord .V 0x21FFFFFFFFC38000 none = .ok (.yield {}) := rfl
theorem test_decode_trap : decodeWord .V 0x223FFFFFFFC380A5 none = .ok (.trap {} 0xA5) := rfl
theorem test_decode_brk : decodeWord .V 0x227FFFFFFFC3805A none = .ok (.brk {} 0x5A) := rfl
theorem test_decode_srd : decodeWord .V 0x2281BFFFFFC3801D none = .ok (.srd { dst := .v 6 } .lcyc) := rfl
theorem test_decode_swrKsp : decodeWord .V 0x22FFC0FFFFC38010 none = .ok (.swrKsp { sa := .v 3 }) := rfl
theorem test_decode_swrRngs : decodeWord .V 0x22FFC0FFFFC38013 none = .ok (.swrRngs { sa := .v 3 }) := rfl
theorem test_decode_swrFabst : decodeWord .V 0x22FFC0FFFFC38014 none = .ok (.swrFabst { sa := .v 3 }) := rfl
theorem test_decode_barArr : decodeWord .V 0x243FFFFFFFC38005 none = .ok (.barArr {} .block 1) := rfl
theorem test_decode_barWait : decodeWord .V 0x247FFFFFFFC3800F none = .ok (.barWait {} .grid 3) := rfl
theorem test_decode_barSync : decodeWord .V 0x24BFFFFFFFC3801E none = .ok (.barSync {} .cluster 7) := rfl
theorem test_decode_barTry : decodeWord .V 0x24E0FFFFFFC3800C none = .ok (.barTry { dst := .p 3 } .gang 3) := rfl
theorem test_decode_shld : decodeWord .V 0x282340BFFFC3C000 none = .ok (.shld { dst := .q 5, sa := .v 2, fsel := true }) := rfl
theorem test_decode_shst : decodeWord .V 0x287FC0A37FC38000 none = .ok (.shst { sa := .v 2, sb := .q 5 }) := rfl
theorem test_decode_shset : decodeWord .V 0x28A340FFFFC38020 none = .ok (.shset { dst := .q 5, sa := .v 3 } 32) := rfl
theorem test_decode_shget : decodeWord .V 0x28C1A37FFFC38006 none = .ok (.shget { dst := .v 6, sa := .q 5 } 6) := rfl
theorem test_decode_shfl : decodeWord .G 0x000140E6BFC38006 none = .ok (.shfl { dst := .v 5, sa := .v 3, sb := .k 2 } .xor true) := rfl
theorem test_decode_vred : decodeWord .G 0x004140C13FC38012 none = .ok (.vred { dst := .v 5, sa := .v 3, sb := .v 4 } .imax true .rne) := rfl
theorem test_decode_vredMr : decodeWord .G 0x004280853FC38068 none = .ok (.vredMr { dst := .v 10, sa := .v 2, sb := .v 20 } .rz) := rfl
theorem test_decode_vscan : decodeWord .G 0x008140FFFFC38098 none = .ok (.vscan { dst := .v 5, sa := .v 3 } .fadd true .rd) := rfl
theorem test_decode_poll : decodeWord .G 0x00E060BFFFC38002 none = .ok (.poll { dst := .p 1, sa := .p 2 } .agree) := rfl
theorem test_decode_maskof : decodeWord .G 0x0101BFFFFFC38000 none = .ok (.maskof { dst := .v 6 }) := rfl
theorem test_decode_matchv : decodeWord .G 0x014180FFFFC38008 none = .ok (.matchv { dst := .v 6, sa := .v 3 } .b32) := rfl
theorem test_decode_elect : decodeWord .G 0x01A07FFFFFC38000 none = .ok (.elect { dst := .p 1 }) := rfl
theorem test_decode_vlut : decodeWord .G 0x01C14200FFC3837F none = .ok (.vlut { dst := .v 5, sa := .v 8, sb := .v 3 } 0x7F 3) := rfl
theorem test_decode_qpop : decodeWord .G 0x02017FFFFFC3C005 none = .ok (.qpop { dst := .v 5, fsel := true } 5) := rfl
theorem test_decode_ld : decodeWord .M 0x000200BFFFC38D00 none = .ok (.ld { dst := .v 8, sa := .v 2 } .b32 (some 6)) := rfl
theorem test_decode_ldAcq : decodeWord .M 0x000180B83FC39E4B (some 0x40) = .ok (.ldAcq { dst := .v 6, sa := .v 2, sb := .lit 0x40 } .die .s64 none) := rfl
theorem test_decode_st : decodeWord .M 0x007FC08141C38300 none = .ok (.st { sa := .v 2, sb := .v 5, sc := .v 7 } .b32 (some 1)) := rfl
theorem test_decode_stRel : decodeWord .M 0x007FC0BFC1C39F12 none = .ok (.stRel { sa := .v 2, sc := .v 7 } .cluster .b32 none) := rfl
theorem test_decode_atom : decodeWord .M 0x0081408101C3843B none = .ok (.atom { dst := .v 5, sa := .v 2, sb := .v 4, sc := .v 7 } .die .ar .max .n32) := rfl
theorem test_decode_red : decodeWord .M 0x00FFC08101C39111 none = .ok (.red { sa := .v 2, sb := .v 4, sc := .v 7 } .block true .fadd .b32) := rfl
theorem test_decode_redm : decodeWord .M 0x0102008101C39112 none = .ok (.redm { dst := .v 8, sa := .v 2, sb := .v 4, sc := .v 7 } .cluster true) := rfl
theorem test_decode_cas : decodeWord .M 0x014140820283810C none = .ok (.cas { dst := .v 5, sa := .v 2, sb := .v 8, sc := .v 10 } .module .acq .b32) := rfl
theorem test_decode_waitmem : decodeWord .M 0x0181408101C3800E none = .ok (.waitmem { dst := .v 5, sa := .v 2, sb := .v 4, sc := .v 7 } true .system .s32) := rfl
theorem test_decode_fence : decodeWord .M 0x01FFFFFFFFC38043 none = .ok (.fence {} .die 1) := rfl
theorem test_decode_fenceSc : decodeWord .M 0x023FFFFFFFC38004 none = .ok (.fenceSc {} .module) := rfl
theorem test_decode_probe : decodeWord .M 0x02427FFFFFC38005 none = .ok (.probe { dst := .v 9 } .fabric) := rfl
theorem test_decode_remst : decodeWord .M 0x0281008141C39F15 none = .ok (.remst { dst := .v 4, sa := .v 2, sb := .v 5, sc := .v 7 } .fabric true .b32 none) := rfl
theorem test_decode_remstL : decodeWord .M 0x0281008141C3AB00 none = .ok (.remstL { dst := .v 4, sa := .v 2, sb := .v 5, sc := .v 7 } .b32 (some 5)) := rfl
theorem test_decode_rld : decodeWord .M 0x02C140813FC38A0C none = .ok (.rld { dst := .v 5, sa := .v 2, sb := .v 4 } true .module .s32 (some 5)) := rfl
theorem test_decode_remred : decodeWord .M 0x033FC08101C38031 none = .ok (.remred { sa := .v 2, sb := .v 4, sc := .v 7 } .block true .add .n32) := rfl
theorem test_decode_tcopy : decodeWord .X 0x0001A2A241038000 none = .ok (.tcopy { dst := .v 6, sa := .q 2, sb := .q 1, sc := .v 4 }) := rfl
theorem test_decode_tcopyMma : decodeWord .X 0x0001A2A241038027 none = .ok (.tcopyMma { dst := .v 6, sa := .q 2, sb := .q 1, sc := .v 4 } 19) := rfl
theorem test_decode_wbind : decodeWord .X 0x0041A2A27FC3800B none = .ok (.wbind { dst := .v 6, sa := .q 2, sb := .q 1 } 11) := rfl
theorem test_decode_wdrop : decodeWord .X 0x0081BFFFFFC38003 none = .ok (.wdrop { dst := .v 6 } 3) := rfl
theorem test_decode_chain : decodeWord .X 0x00C1A2A241038005 none = .ok (.chain { dst := .v 6, sa := .q 2, sb := .q 1, sc := .v 4 } 5) := rfl
theorem test_decode_publ : decodeWord .X 0x010180FFFFC38002 none = .ok (.publ { dst := .v 6, sa := .v 3 } .cluster) := rfl
theorem test_decode_ovl : decodeWord .X 0x014180FFFFC38000 none = .ok (.ovl { dst := .v 6, sa := .v 3 }) := rfl
theorem test_decode_ovrel : decodeWord .X 0x018180FFFFC38000 none = .ok (.ovrel { dst := .v 6, sa := .v 3 }) := rfl
theorem test_decode_launch : decodeWord .X 0x01C180817FC38000 none = .ok (.launch { dst := .v 6, sa := .v 2, sb := .v 5 }) := rfl
theorem test_decode_dbell : decodeWord .X 0x0201808141C38006 none = .ok (.dbell { dst := .v 6, sa := .v 2, sb := .v 5, sc := .v 7 } .system) := rfl
theorem test_decode_dectab : decodeWord .X 0x024180C102038000 none = .ok (.dectab { dst := .v 6, sa := .v 3, sb := .v 4, sc := .v 8 }) := rfl
theorem test_decode_barExp : decodeWord .X 0x028180C102038000 none = .ok (.barExp { dst := .v 6, sa := .v 3, sb := .v 4, sc := .v 8 }) := rfl
theorem test_decode_mma : decodeWord .T 0x0001A3236383802B none = .ok (.mma { dst := .v 6, sa := .q 4, sb := .q 5, sc := .q 6 } 11 true) := rfl
theorem test_decode_mmaW : decodeWord .T 0x0041A32341C38005 none = .ok (.mmaW { dst := .v 6, sa := .q 4, sb := .q 5, sc := .v 7 } 5 false) := rfl
theorem test_decode_mmaNf : decodeWord .T 0x0081A3237FC3801F none = .ok (.mmaNf { dst := .v 6, sa := .q 4, sb := .q 5 } 31) := rfl
theorem test_decode_accz : decodeWord .T 0x00FFFFFFFFC00009 none = .ok (.accz { gpred := 0 } 9) := rfl
theorem test_decode_accld : decodeWord .T 0x013FE33FFFC38003 none = .ok (.accld { sa := .q 4 } 3) := rfl
theorem test_decode_accst : decodeWord .T 0x017FE33FFFC3C004 none = .ok (.accst { sa := .q 4, fsel := true } 4) := rfl
theorem test_decode_drain : decodeWord .T 0x01BFE33FFFC38005 none = .ok (.drain { sa := .q 4 } 5) := rfl
theorem test_decode_drainMx : decodeWord .T 0x01FFE3237FC38006 none = .ok (.drainMx { sa := .q 4, sb := .q 5 } 6) := rfl
theorem test_decode_agen : decodeWord .A 0x0000E28126438000 none = .ok (.agen { dst := .v 3, sa := .q 2, sb := .v 4, sc := .k 1 }) := rfl
theorem test_decode_aadd : decodeWord .A 0x0040C1383FC38000 (some 0x40) = .ok (.aadd { dst := .v 3, sa := .v 4, sb := .lit 0x40 }) := rfl
theorem test_decode_aloop : decodeWord .A 0x00BFE83FFFC38000 none = .ok (.aloop { sa := .k 8 }) := rfl
theorem test_decode_aendl : decodeWord .A 0x00FFFFFFFFC38000 none = .ok (.aendl {}) := rfl
theorem test_decode_apush : decodeWord .A 0x013FC0FFFFC38003 none = .ok (.apush { sa := .v 3 } 3) := rfl
theorem test_decode_agath : decodeWord .A 0x017FC0C13FC38004 none = .ok (.agath { sa := .v 3, sb := .v 4 } 4) := rfl
theorem test_decode_acmp : decodeWord .A 0x01A0C0C13FC38018 none = .ok (.acmp { dst := .p 3, sa := .v 3, sb := .v 4 } .le) := rfl
theorem test_decode_abra : decodeWord .A 0x01FFF83FFFC18000 (some 0x40) = .ok (.abra { sa := .lit 0x40, gpred := 3 }) := rfl
theorem test_decode_await : decodeWord .A 0x023FE63FFFC38002 none = .ok (.await { sa := .k 0 } 2) := rfl
theorem test_decode_asig : decodeWord .A 0x027FC0C13FC38000 none = .ok (.asig { sa := .v 3, sb := .v 4 }) := rfl
theorem test_decode_aend : decodeWord .A 0x02BFFFFFFFC38000 none = .ok (.aend {}) := rfl
theorem test_decode_srdp : decodeWord .S 0x00013FFFFFC38040 none = .ok (.srdp { dst := .v 4 } .fpxc) := rfl
theorem test_decode_swrp : decodeWord .S 0x007FC0BFFFC38043 none = .ok (.swrp { sa := .v 2 } .traph) := rfl
theorem test_decode_tlbinvPage : decodeWord .S 0x0082413FFFC38000 none = .ok (.tlbinvPage { dst := .v 9, sa := .v 4 }) := rfl
theorem test_decode_tlbinvCtx : decodeWord .S 0x00827FFFFFC38001 none = .ok (.tlbinvCtx { dst := .v 9 }) := rfl
theorem test_decode_tlbinvAll : decodeWord .S 0x00827FFFFFC38002 none = .ok (.tlbinvAll { dst := .v 9 }) := rfl
theorem test_decode_assayrd : decodeWord .S 0x00C10080FFC38000 none = .ok (.assayrd { dst := .v 4, sa := .v 2, sb := .v 3 }) := rfl
theorem test_decode_ctxsave : decodeWord .S 0x0101027FFFC38000 none = .ok (.ctxsave { dst := .v 4, sa := .v 9 }) := rfl
theorem test_decode_ctxload : decodeWord .S 0x0141427FFFC38000 none = .ok (.ctxload { dst := .v 5, sa := .v 9 }) := rfl
theorem test_decode_haltx : decodeWord .S 0x0181827FFFC38000 none = .ok (.haltx { dst := .v 6, sa := .v 9 }) := rfl

/-! ### Words that are refused (the table of the opcode chapter, R57) -/

theorem test_decode_other_class : decodeWord .M 0x14C2024282E38001 none = .error .instruction := rfl
theorem test_decode_fsel : decodeWord .V 0x14C2024282E3C001 none = .error .instruction := rfl
theorem test_decode_reserved_rnd : decodeWord .V 0x14C2024282E38005 none = .error .instruction := rfl
theorem test_decode_sr : decodeWord .V 0x14C2024282E38004 none = .ok (.ffma { dst := .v 8, sa := .v 9, sb := .v 10, sc := .v 11, lua := true } .sr false) := rfl
theorem test_decode_undefined_bit : decodeWord .V 0x14C2024282E38041 none = .error .instruction := rfl
theorem test_decode_predicate_operand : decodeWord .V 0x14C20260_02E38001 none = .error .operand := rfl
theorem test_decode_instruction_first : decodeWord .V 0x14C2026002E38005 none = .error .instruction := rfl
theorem test_decode_missing_literal : decodeWord .V 0x040140F83FE50000 none = .error .clause := rfl
theorem test_header : decodeHeader 0x1200_0FF0_0000_0000 = some { cls := .V, count := 3, wait := 0, seta := none, setb := none, yield := false } := rfl
theorem test_header_reserved : decodeHeader 0x1200_0FF0_0000_0001 = none := rfl

/-! ### Instructions that are not well formed, one for each check -/

theorem test_wf_ok : wellFormed (.iadd { dst := .v 5, sa := .v 3, sb := .k 4 } .s32 true) = true := rfl
theorem test_wf_type : wellFormed (.iabs { dst := .v 5, sa := .v 3 } .n32) = false := rfl
theorem test_wf_cmp : wellFormed (.isetp { dst := .p 1, sa := .v 3, sb := .v 4 } .s32 .nan) = false := rfl
theorem test_wf_number : wellFormed (.barSync {} .cluster 8) = false := rfl
theorem test_wf_same_format : wellFormed (.fcvt { dst := .v 5, sa := .v 3 } .f32 .f32 .rne false) = false := rfl
theorem test_wf_path : wellFormed (.st { sa := .v 2, sc := .v 4 } .b32 (some 4)) = false := rfl
theorem test_wf_fsel : wellFormed (.iadd { dst := .v 5, sa := .v 3, sb := .v 4, fsel := true } .s32 true) = false := rfl
theorem test_wf_operand : wellFormed (.iadd { dst := .v 5, sa := .p 3, sb := .v 4 } .s32 true) = false := rfl
theorem test_wf_null : wellFormed (.iadd { dst := .v 5, sa := .v 3, sb := .v 4, sc := .v 1 } .s32 true) = false := rfl
theorem test_wf_pair : wellFormed (.iadd { dst := .v 5, sa := .v 2, sb := .v 4 } .s64 true) = false := rfl
theorem test_wf_wide_literal : wellFormed (.iadd { dst := .v 5, sa := .lit 0x100000000, sb := .v 4 } .s32 true) = false := rfl
theorem test_wf_last_use : wellFormed (.iadd { dst := .v 5, sa := .k 3, sb := .v 4, lua := true } .s32 true) = false := rfl
theorem test_wf_two_literals : wellFormed (.iadd { dst := .v 5, sa := .lit 1, sb := .lit 2 } .s32 true) = false := rfl
theorem test_wf_scale : wellFormed (.mma { sa := .q 1, sb := .q 2, sc := .q 15 } 0 false) = false := rfl
theorem test_wf_follow_on : wellFormed (.tcopyMma { dst := .v 5, sa := .q 15, sb := .q 2 } 0) = false := rfl
theorem test_wf_table : wellFormed (.vlut { dst := .v 5, sa := .v 126, sb := .v 4 } 0 2) = false := rfl
theorem test_wf_ap_register : wellFormed (.aadd { dst := .v 16, sa := .v 1, sb := .v 2 }) = false := rfl
theorem test_wf_read_only : wellFormed (.swrp { sa := .v 3 } .fltcnt) = false := rfl

/-! ### Integer results (the tables of the integer chapter) -/

theorem test_iadd : v5 (.iadd { dst := .v 5, sa := .v 1, sb := .v 2 } .s8 false) [100, 100] = some 0xFFFFFFC8 := by decide +kernel
theorem test_iadd_sat : v5 (.iadd { dst := .v 5, sa := .v 1, sb := .v 2 } .s8 true) [100, 100] = some 0x7F := by decide +kernel
theorem test_isub_sat : v5 (.isub { dst := .v 5, sa := .v 1, sb := .v 2 } .n16 true) [5, 9] = some 0 := by decide +kernel
theorem test_imul_wraps : v5 (.imul { dst := .v 5, sa := .v 1, sb := .v 2 } .n32 false) [0x10001, 0x10001] = some 0x20001 := by decide +kernel
theorem test_imulh_s32 : v5 (.imulh { dst := .v 5, sa := .v 1, sb := .v 2 } .s32) [0x80000000, 2] = some 0xFFFFFFFF := by decide +kernel
theorem test_imulh_n32 : v5 (.imulh { dst := .v 5, sa := .v 1, sb := .v 2 } .n32) [0x80000000, 2] = some 1 := by decide +kernel
theorem test_imad : v5 (.imad { dst := .v 5, sa := .v 1, sb := .v 2, sc := .v 3 } .s32 false) [3, 0xFFFFFFFE, 10] = some 4 := by decide +kernel
theorem test_imad_wide : after (step (one (.imadWide { dst := .v 6, sa := .v 1, sb := .v 1, sc := .v 2 } .n32 false) (regs [0xFFFFFFFF, 1, 0])))
    (fun s => (regOf s 4096 6).bind fun a => (regOf s 4096 7).map fun b => (a, b)) = some (2, 0xFFFFFFFE) := by decide +kernel
theorem test_iadc_carry : pr 1 (.iadc { dst := .v 5, sa := .v 1, sb := .v 2, sc := .p 0 } .n32 1) [0xFFFFFFFF, 0] 1 = some true := by decide +kernel
theorem test_isbc : v5 (.isbc { dst := .v 5, sa := .v 1, sb := .v 2, sc := .p 7 } .n32 2) [0, 0] = some 0xFFFFFFFF := by decide +kernel
theorem test_isbc_borrow : pr 2 (.isbc { dst := .v 5, sa := .v 1, sb := .v 2, sc := .p 7 } .n32 2) [0, 0] = some true := by decide +kernel
theorem test_imin : v5 (.imin { dst := .v 5, sa := .v 1, sb := .v 2 } .s32) [1, 0xFFFFFFFF] = some 0xFFFFFFFF := by decide +kernel
theorem test_imax : v5 (.imax { dst := .v 5, sa := .v 1, sb := .v 2 } .s32) [1, 0xFFFFFFFF] = some 1 := by decide +kernel
theorem test_iabs : v5 (.iabs { dst := .v 5, sa := .v 1 } .s32) [0x80000000] = some 0x80000000 := by decide +kernel
theorem test_ineg : v5 (.ineg { dst := .v 5, sa := .v 1 } .s8) [0x80] = some 0xFFFFFF80 := by decide +kernel
theorem test_bool3_majority : v5 (.bool3 { dst := .v 5, sa := .v 1, sb := .v 2, sc := .v 3 } .b32 0xE8) [0xF0, 0xCC, 0xAA] = some 0xE8 := by decide +kernel
theorem test_sar : v5 (.sar { dst := .v 5, sa := .v 1, sb := .v 2 } .s32) [0x80000000, 40] = some 0xFFFFFFFF := by decide +kernel
theorem test_shl_full : v5 (.shl { dst := .v 5, sa := .v 1, sb := .v 2 } .b32) [1, 32] = some 0 := by decide +kernel
theorem test_rol : v5 (.rol { dst := .v 5, sa := .v 1, sb := .v 2 } .b32) [0x80000001, 33] = some 3 := by decide +kernel
theorem test_fsh_left : v5 (.fsh { dst := .v 5, sa := .v 1, sb := .v 2, sc := .v 3 } false) [0x12345678, 0x9ABCDEF0, 8] = some 0x3456789A := by decide +kernel
theorem test_fsh_right : v5 (.fsh { dst := .v 5, sa := .v 1, sb := .v 2, sc := .v 3 } true) [0x12345678, 0x9ABCDEF0, 8] = some 0x789ABCDE := by decide +kernel
theorem test_bfx_s32 : v5 (.bfx { dst := .v 5, sa := .v 1, sb := .v 2 } .s32) [0xF0, 0x0404] = some 0xFFFFFFFF := by decide +kernel
theorem test_bfx_n32 : v5 (.bfx { dst := .v 5, sa := .v 1, sb := .v 2 } .n32) [0xF0, 0x0404] = some 0xF := by decide +kernel
theorem test_bfi : v5 (.bfi { dst := .v 5, sa := .v 1, sb := .v 2, sc := .v 3 }) [0xFF, 0x12345678, 0x081C] = some 0xF2345678 := by decide +kernel
theorem test_popc : v5 (.popc { dst := .v 5, sa := .v 2 } .b64) [0, 0xF0F0, 0x80000001] = some 10 := by decide +kernel
theorem test_clz : v5 (.clz { dst := .v 5, sa := .v 1 } .b32) [0] = some 32 := by decide +kernel
theorem test_ctz : v5 (.ctz { dst := .v 5, sa := .v 1 } .b32) [8] = some 3 := by decide +kernel
theorem test_brev : v5 (.brev { dst := .v 5, sa := .v 1 } .b32) [0x3] = some 0xC0000000 := by decide +kernel
theorem test_bperm : v5 (.bperm { dst := .v 5, sa := .v 1, sb := .v 2, sc := .v 3 }) [0x44332211, 0x88776655, 0x17040706] = some 0xFF558877 := by decide +kernel
theorem test_sel : v5 (.sel { dst := .v 5, sa := .v 1, sb := .v 2, sc := .p 0 } .b32) [7, 9] = some 9 := by decide +kernel
theorem test_cvti : v5 (.cvti { dst := .v 5, sa := .v 1 } .s8 .n32 false) [300] = some 0x2C := by decide +kernel
theorem test_cvti_sat : v5 (.cvti { dst := .v 5, sa := .v 1 } .s8 .n32 true) [300] = some 0x7F := by decide +kernel
theorem test_isetp : pr 0 (.isetp { dst := .p 0, sa := .v 1, sb := .k 10 } .s32 .lt) [0xFFFFFFFB] = some true := by decide +kernel
theorem test_pred_p7 : pr 7 (.pand { dst := .p 7, sa := .p 0, sb := .p 1 }) [] = some true := by decide +kernel
theorem test_pxor : pr 3 (.pxor { dst := .p 3, sa := .p 0, sb := .p 7 }) [] 1 = some false := by decide +kernel
theorem test_guard_off : v5 (.mov { dst := .v 5, sa := .v 1, gpred := 0 } .b32) [1, 2, 3, 4, 5] = some 5 := by decide +kernel
theorem test_last_use : after (step (one (.mov { dst := .v 5, sa := .v 1, lua := true } .b32) (regs [1]))) (fun s => some (regOf s 4096 1, regOf s 4096 5))
    = some (none, some 1) := by decide +kernel

/-! ### Floating-point results (the tables of the format chapter) -/

theorem test_fadd_overflow : v5 (.fadd { dst := .v 5, sa := .v 1, sb := .v 2 } .rne false) [0x7F7FFFFF, 0x7F7FFFFF] = some 0x7F800000 := by decide +kernel
theorem test_fadd_rz : v5 (.fadd { dst := .v 5, sa := .v 1, sb := .v 2 } .rz false) [0x7F7FFFFF, 0x7F7FFFFF] = some 0x7F7FFFFF := by decide +kernel
theorem test_fsub_zero : v5 (.fsub { dst := .v 5, sa := .v 1, sb := .v 2 } .rd false) [0x3F800000, 0x3F800000] = some 0x80000000 := by decide +kernel
theorem test_fmul_tiny : v5 (.fmul { dst := .v 5, sa := .v 1, sb := .v 2 } .rne false) [0x00800000, 0x3F000000] = some 0x00400000 := by decide +kernel
theorem test_fmul_ftz : v5 (.fmul { dst := .v 5, sa := .v 1, sb := .v 2 } .rne true) [0x00800000, 0x3F000000] = some 0 := by decide +kernel
theorem test_ffma_invalid : after (step (one (.ffma { dst := .v 5, sa := .v 1, sb := .v 2, sc := .v 3 } .rne false) (regs [0, 0x7F800000, 0x7FC00000])))
    (fun s => some (regOf s 4096 5, (s.ctx 1).fpxc)) = some (some 0x7FC00000, 0x100) := by decide +kernel
theorem test_fmin_zeros : v5 (.fmin { dst := .v 5, sa := .v 1, sb := .v 2 } false) [0, 0x80000000] = some 0x80000000 := by decide +kernel
theorem test_fmax_nan : v5 (.fmax { dst := .v 5, sa := .v 1, sb := .v 2 } false) [0x7FC00000, 0x3F800000] = some 0x3F800000 := by decide +kernel
theorem test_fsetp_unordered : pr 1 (.fsetp { dst := .p 1, sa := .v 1, sb := .v 2 } .ltu false) [0x7FC00000, 0] = some true := by decide +kernel
theorem test_fcls : pr 1 (.fcls { dst := .p 1, sa := .v 1 } 0x080 false) [1] = some true := by decide +kernel
theorem test_fcls_ftz : pr 1 (.fcls { dst := .p 1, sa := .v 1 } 0x080 true) [1] = some false := by decide +kernel
theorem test_frnd : v5 (.frnd { dst := .v 5, sa := .v 1 } .rne false) [0xBE99999A] = some 0x80000000 := by decide +kernel
theorem test_fcvt_e4m3 : v5 (.fcvt { dst := .v 5, sa := .v 1 } .e4m3 .f32 .rne false) [0x43FA0000] = some 0x7E := by decide +kernel
theorem test_fcvt_s32 : v5 (.fcvt { dst := .v 5, sa := .v 1 } .s32 .f32 .ru false) [0x40200000] = some 3 := by decide +kernel
theorem test_fadd2 : v5 (.fadd2 { dst := .v 5, sa := .v 1, sb := .v 2 } true .rne false) [0x3F803F80, 0x3F804000] = some 0x40004040 := by decide +kernel
theorem test_fmul2 : v5 (.fmul2 { dst := .v 5, sa := .v 1, sb := .v 2 } false .rne false) [0x3C004000, 0x40004200] = some 0x40004600 := by decide +kernel
theorem test_ffma2 : v5 (.ffma2 { dst := .v 5, sa := .v 1, sb := .v 2, sc := .v 3 } true .rne false) [0x3F804000, 0x40004000, 0x3F803F80] = some 0x404040A0 := by decide +kernel
theorem test_dadd : after (step (one (.dadd { dst := .v 6, sa := .v 2, sb := .v 4 } .rne) (regs [0, 0, 0x3FF00000, 0, 0x40000000])))
    (fun s => (regOf s 4096 6).bind fun a => (regOf s 4096 7).map fun b => (a, b)) = some (0, 0x40080000) := by decide +kernel
theorem test_dfma : after (step (one (.dfma { dst := .v 6, sa := .v 2, sb := .v 4, sc := .v 2 } .rne) (regs [0, 0, 0x40000000, 0, 0x40080000])))
    (fun s => (regOf s 4096 6).bind fun a => (regOf s 4096 7).map fun b => (a, b)) = some (0, 0x40200000) := by decide +kernel
theorem test_sfu_rcp : (sfu 0 false 0x80000000) = (0xFF800000, 2) := by decide +kernel
theorem test_sfu_rsq : (sfu 2 false 0xBF800000) = (0x7FC00000, 1) := by decide +kernel
theorem test_sfu_ex2 : (sfu 5 false 0x43000000) = (0x7F800000, 0x14) := by decide +kernel
theorem test_sfu_lg2 : (sfu 6 false 0) = (0xFF800000, 2) := by decide +kernel
theorem test_sfu_sin : (sfu 7 false 0x3E800000).1 = 0x3F800000 := by decide +kernel
/-- The worked stochastic draw: RNGS 1 gives 0x0004_2021. -/
theorem test_rng : rngStep 1 = 0x00042021 := by decide +kernel

/-! ### States that meet the hypotheses of the statements -/

/-- A context runs, as a test. -/
def runs (s : State) (c : Nat) : Bool :=
  match s.ctxs.look c with
  | some k => k.halt.isNone && k.save.isNone && decide ((k.preempt.map (·.tier)).getD 0 < 2)
  | none => false

theorem running_of {s : State} {c : Nat} (h : runs s c = true) : running s c := by
  unfold runs at h
  split at h
  · rename_i k hk
    simp only [Bool.and_eq_true, Option.isNone_iff_eq_none, decide_eq_true_eq] at h
    exact ⟨k, hk, h.1.1, h.1.2, h.2⟩
  · cases h

def iAdd : Instr := .iadd { dst := .v 5, sa := .v 1, sb := .v 2 } .s32 false
def sAdd : State := one iAdd (regs [2, 3])

theorem meets_DecodeInvertsEncode : iAdd.cls = some .V ∧ wellFormed iAdd = true := by decide +kernel
theorem meets_DecodeInvertsEncode_header : ∃ h : Header, 1 ≤ h.count ∧ h.count ≤ 16 := ⟨{ cls := .V, count := 16, wait := 0, seta := none, setb := some 11, yield := true }, by decide +kernel⟩

theorem meets_StepRuns_issue : sAdd.agenda = [.issue 0] ∧ sAdd.dark = false ∧ (sAdd.core 0).gather = some g0
    ∧ decodeHeader (ofLe ((sAdd.core 0).store.readN 0 8)) = some { cls := .V, count := 1, wait := 0, seta := none, setb := none, yield := false }
    ∧ iAdd.isA = false := by decide +kernel
theorem meets_StepRuns_word : decodeWord .V (ofLe ((sAdd.core 0).store.readN 8 8)) none = .ok iAdd := rfl
def sAp : State := one (.aadd { dst := .v 3, sa := .v 1, sb := .v 2 })
theorem meets_StepRuns_ap : sAp.agenda = [.apIssue 0 0] ∧ sAp.dark = false
    ∧ apInstrAt { sAp with clock := 1, agenda := [] } 0 0 = some (.aadd { dst := .v 3, sa := .v 1, sb := .v 2 }) := by decide +kernel
theorem meets_StepRuns_event : ∃ s : State, s.agenda = [.event .getVersion] ∧ s.dark = false ∧ Instr.getVersion.cls = none :=
  ⟨{ State.reset with agenda := [.event .getVersion] }, by decide +kernel⟩
theorem meets_StepRuns_elapse : ∃ s : State, s.agenda = [.elapse 5] ∧ s.dark = false := ⟨{ State.reset with agenda := [.elapse 5] }, by decide +kernel⟩
theorem meets_DarkModuleStops : ∃ s : State, s.dark = true ∧ ∀ rest, s.agenda ≠ .event .moduleReset :: rest :=
  ⟨{ State.reset with dies := List.replicate 4 { powered := false } }, by decide +kernel, by intro _ h; cases h⟩

theorem meets_ArithmeticResults : (exactResult iAdd).isSome = true ∧ wellFormed iAdd = true ∧ clear iAdd sAdd g0 = true ∧ actors iAdd sAdd g0 = [me sAdd] := by decide +kernel
theorem meets_ArithmeticResults_carry : ∃ i s, (exactResult i).isSome = true ∧ (carry i).isSome = true ∧ wellFormed i = true ∧ clear i s g0 = true
    ∧ actors i s g0 = [me s] :=
  ⟨.iadc { dst := .v 5, sa := .v 1, sb := .v 2, sc := .p 0 } .n32 1, one (.iadc { dst := .v 5, sa := .v 1, sb := .v 2, sc := .p 0 } .n32 1) (regs [1, 2]),
    by decide +kernel⟩
theorem meets_ArithmeticForms : arithWord iAdd = some (0x010, 0) ∧ wellFormed iAdd = true ∧ arithForm iAdd = true ∧ iAdd.luOk = true := by decide +kernel
theorem meets_BitForms : ∃ i, bitWord i = some (0x02B, 9) ∧ wellFormed i = true ∧ bitForm i = true ∧ i.luOk = true :=
  ⟨.rol { dst := .v 6, sa := .v 2, sb := .k 15 } .b64, by decide +kernel⟩
theorem meets_IntegerSources : ∃ s w w', (me s).t.regs.look 2 = some w ∧ (me s).t.regs.look 3 = some w' ∧ ITy.s8.width ≤ 32 ∧ ITy.n64.width = 64 :=
  ⟨one iAdd (regs [1, 0x80000000, 7]), 0x80000000, 7, by decide +kernel⟩
theorem meets_CarryUnderFalseGuard : ∃ i s, (arithWord i).isSome = true ∧ (carry i).isSome = true ∧ wellFormed i = true ∧ clear i s g0 = true
    ∧ membersOf s g0 = [me s] ∧ (me s).t.guard i.x = false :=
  ⟨.iadc { dst := .v 5, sa := .v 1, sb := .v 2, sc := .p 0, gneg := true } .n32 1,
   one (.iadc { dst := .v 5, sa := .v 1, sb := .v 2, sc := .p 0, gneg := true } .n32 1) (regs [1, 2]), by decide +kernel⟩
theorem meets_BitResults : ∃ i s, isBits i = true ∧ wellFormed i = true ∧ clear i s g0 = true ∧ actors i s g0 = [me s] :=
  ⟨.shl { dst := .v 5, sa := .v 1, sb := .v 2 } .b32, one (.shl { dst := .v 5, sa := .v 1, sb := .v 2 } .b32) (regs [1, 32]), by decide +kernel⟩
theorem meets_PredicateResults : ∃ i s, (truth i).isSome = true ∧ wellFormed i = true ∧ clear i s g0 = true ∧ actors i s g0 = [me s] :=
  ⟨.isetp { dst := .p 7, sa := .v 1, sb := .v 2 } .s32 .lt, one (.isetp { dst := .p 7, sa := .v 1, sb := .v 2 } .s32 .lt) (regs [1, 2]), by decide +kernel⟩

def iFadd : Instr := .fadd { dst := .v 5, sa := .v 1, sb := .v 2 } .sr false
def sFadd : State := one iFadd (regs [0x3F800000, 0x33800000])
theorem meets_FloatResults : ∃ f, rounded iFadd = some f ∧ wellFormed iFadd = true ∧ clear iFadd sFadd g0 = true
    ∧ quietFp iFadd sFadd g0 (fun m => (f m).2.1) = true ∧ actors iFadd sFadd g0 = [me sFadd] ∧ sFadd.ctxs.has 1 = true :=
  ⟨_, rfl, by decide +kernel, by decide +kernel, by decide +kernel, by decide +kernel, by decide +kernel⟩
/-- 1 + 2 in f32; the largest value twice; the least normal value halved; a signalling NaN; and 1 − 1. -/
theorem meets_ExactThenRounded : finiteCode f32 0x3F800000 ∧ finiteCode f32 0x40000000
    ∧ units f32 (readAs f32 true 0x3F800000) + units f32 (readAs f32 true 0x40000000) ≠ 0
    ∧ units f32 0x3F800000 - units f32 0x3F800000 = 0 ∧ nanOf f32 0x7F800001 = true ∧ snanOf f32 0x7F800001 = true := by
  unfold finiteCode; decide +kernel
theorem meets_ExactThenRounded_overflow : overflows f32 .rne (units f32 0x7F7FFFFF + units f32 0x7F7FFFFF) 1 := by
  unfold overflows; decide +kernel
theorem meets_ExactThenRounded_tiny : tinyUnder f32 .rz (units f32 0x00800000 * units f32 0x3F000000) (2 ^ (f32.bias + f32.mb - 1)) := by
  unfold tinyUnder; decide +kernel
theorem meets_SelectedAndClassed : nanOf f32 0x7F800001 = true ∧ nanOf f32 0x3F800000 = false
    ∧ units f32 (readAs f32 true 0x00000001) = units f32 (readAs f32 true 0x80000000)
    ∧ negOf f32 (readAs f32 true 0x00000001) ≠ negOf f32 (readAs f32 true 0x80000000) := by decide +kernel
theorem test_rounded_once : units f32 (fAdd f32 .rne false 0 0x3F800000 0x33800000).1 = units f32 0x3F800000 ∧ (fAdd f32 .ru false 0 0x3F800000 0x33800000) = (0x3F800001, 16) := by decide +kernel

theorem meets_FloatPredicates : ∃ i s f, tested i = some f ∧ wellFormed i = true ∧ clear i s g0 = true ∧ quietFp i s g0 (fun m => (f m).2) = true
    ∧ actors i s g0 = [me s] :=
  ⟨.fsetp { dst := .p 1, sa := .v 1, sb := .v 2 } .lt true, one (.fsetp { dst := .p 1, sa := .v 1, sb := .v 2 } .lt true) (regs [0x3F800000, 1]), _, rfl,
    by decide +kernel, by decide +kernel, by decide +kernel, by decide +kernel⟩

/-- A thread with a control stack of 64 bytes in scratchpad 10. -/
def stacked (b : Block) : Block := { b with stack := 64, data := 128, a1 := some 10 }
def pads (s : State) : State := { s with allocs := [(10, { path := 1, unit := 0, size := 4096 })] }
/-- A context with a handler at offset 64. -/
def handler (k : Context) : Context := { k with traph := 0x80000040 }

def iDiv : Instr := .fsub { dst := .v 5, sa := .v 1, sb := .v 1 } .rne false
def sDiv : State := pads (one iDiv (regs [0x7F800000]) stacked fun k => { handler k with fpxc := 1 })
theorem meets_EnabledExceptionTraps : ∃ f, rounded iDiv = some f ∧ wellFormed iDiv = true ∧ clear iDiv sDiv g0 = true ∧ g0.members = [(me sDiv).u]
    ∧ actors iDiv sDiv g0 = [me sDiv] ∧ fpTraps (sDiv.ctx 1) (f (me sDiv)).2.1 = true ∧ (me sDiv).b.a1 = some 10 ∧ (me sDiv).t.owed = []
    ∧ handlerReady sDiv (me sDiv) 64 :=
  ⟨_, rfl, by decide +kernel, by decide +kernel, rfl, by decide +kernel, by decide +kernel, rfl, rfl, by decide +kernel, by decide +kernel, by decide +kernel, by decide +kernel⟩

def iRcp : Instr := .rcp { dst := .v 5, sa := .v 1 } false
def sRcp : State := one iRcp (regs [0x40000000])
theorem meets_SfuIssues : sfuFn iRcp = some (0, false) ∧ wellFormed iRcp = true ∧ clear iRcp sRcp g0 = true ∧ actors iRcp sRcp g0 = [me sRcp]
    ∧ quietFp iRcp sRcp g0 (fun m => (sfu 0 false (m.f32 iRcp.x.sa)).2) = true ∧ (me sRcp).t.flags.length = 12 := by decide +kernel

/-- One operation in flight for the thread of `one`, with flag 3 and destination v5. -/
def part0 : Part := { th := 4096, flag := some 3, dst := [5], want := [5] }
def pend0 (op : POp) (after : List Nat := []) : Pend :=
  { core := 0, ctx := 1, blk := 1, issue := 1, lines := [], at_ := 0, pc := 0, parts := [part0], op := op, after := after }
def flying (s : State) (op : POp) (after : List Nat := []) : State :=
  { s with pend := [(7, pend0 op after)], threads := s.threads.upd 4096 fun t => { t with flags := [0, 0, 0, 1, 0, 0, 0, 0, 0, 0, 0, 0] } }
theorem lander_part0 (s : State) (h : s.pend.wf = true) (t : Thread) (ht : s.threads.look 4096 = some t) (hs : t.st ≠ .exiting)
    (hf : t.flags.length = 12) : lander s part0 :=
  ⟨h, ⟨t, ht, hs, hf⟩, by intro f e; cases e; decide, by decide +kernel⟩

theorem meets_SfuLands_accept : ∃ s : State, s.pend.look 7 = some (pend0 (.sfu 0 0x40000000 false false)) ∧ 7 ∈ (sfuWaiting s 0).take 16 :=
  ⟨flying sAdd (.sfu 0 0x40000000 false false), by decide +kernel⟩
theorem meets_SfuLands : ∃ s : State, s.pend.look 7 = some (pend0 (.sfu 0 0x40000000 false true)) ∧ lander s part0 :=
  ⟨flying sAdd (.sfu 0 0x40000000 false true), by decide +kernel, lander_part0 _ (by decide +kernel) _ rfl (by decide +kernel) (by decide +kernel)⟩

/-- An instruction that goes on. -/
def goes (r : Res) : Bool := match r with | .next _ => true | _ => false
theorem next_of_goes {r : Res} (h : goes r = true) : ∃ s, r = .next s := by
  cases r with
  | next s => exact ⟨s, rfl⟩
  | fault f => cases h
  | refused f => cases h
theorem meets_ComputeFrame : computes iAdd = true ∧ ∃ s', exec iAdd sAdd = .next s' := ⟨by decide +kernel, next_of_goes (by decide +kernel)⟩
theorem meets_IssueFrame : leavesRegs iRcp = true ∧ ∃ s', exec iRcp sRcp = .next s' := ⟨by decide +kernel, next_of_goes (by decide +kernel)⟩
theorem meets_RemainingFrames (i : Instr) (h : i ∈ [.probe { dst := .v 5 } .fabric, .ret {}, .swrp { sa := .v 1 } .wdog, .haltx { dst := .v 5, sa := .v 1 },
      .ctxsave { dst := .v 5, sa := .v 1 }, .ctxload { dst := .v 5, sa := .v 1 }]) :
    ((one i (regs [2])).core (one i (regs [2])).focus).gather = some g0 ∧ (∃ s', exec i (one i (regs [2])) = .next s')
      ∧ ∀ m ∈ membersOf (one i (regs [2])) g0, m.t.st = .issuing := by
  simp only [List.mem_cons, List.not_mem_nil, or_false] at h
  rcases h with rfl | rfl | rfl | rfl | rfl | rfl <;> exact ⟨by decide +kernel, next_of_goes (by decide +kernel), by decide +kernel⟩
theorem meets_GuardedOff : ∃ i s, plainV i = true ∧ clear i s g0 = true ∧ (me s).t.guard i.x = false ∧ membersOf s g0 = [me s] :=
  ⟨.iadd { dst := .v 5, sa := .v 1, sb := .v 2, lua := true, gpred := 0 } .s32 false,
    one (.iadd { dst := .v 5, sa := .v 1, sb := .v 2, lua := true, gpred := 0 } .s32 false) (regs [2, 3]), by decide +kernel⟩
theorem meets_NextInstruction : plainV iAdd = true ∧ clear iAdd sAdd g0 = true ∧ unstepped sAdd g0 = true := by decide +kernel

/-! Control -/

def iBra : Instr := .bra {} 4
def sBra : State := one iBra
theorem meets_JumpsReachTheirTarget : ∃ f, jumpTarget iBra = some f ∧ clear iBra sBra g0 = true ∧ unstepped sBra g0 = true
    ∧ (∀ m ∈ actors iBra sBra g0, f m % 8 = 0 ∧ 0 ≤ f m ∧ f m < 2 ^ 18) ∧ actors iBra sBra g0 = [me sBra] :=
  ⟨_, rfl, by decide +kernel, by decide +kernel, by decide +kernel, by decide +kernel⟩
theorem meets_JumpsReachTheirTarget_last : ∃ i s f, jumpTarget i = some f ∧ clear i s g0 = true ∧ unstepped s g0 = true ∧ f (me s) = 2 ^ 18 - 8 :=
  ⟨.brx { sa := .v 1 }, one (.brx { sa := .v 1 }) (regs [0x3FFF8]), _, rfl, by decide +kernel, by decide +kernel, by decide +kernel⟩
def iFar : Instr := .brx { sa := .v 1 }
def sFar : State := one iFar (regs [0x40000])
theorem meets_BadTargetFaults : ∃ f, jumpTarget iFar = some f ∧ clear iFar sFar g0 = true ∧ actors iFar sFar g0 = [me sFar]
    ∧ ¬ (f (me sFar) % 8 = 0 ∧ 0 ≤ f (me sFar) ∧ f (me sFar) < 2 ^ 18) ∧ running sFar (me sFar).b.ctx :=
  ⟨_, rfl, by decide +kernel, by decide +kernel, by decide +kernel, running_of (by decide +kernel)⟩
theorem meets_BadTargetFaults_call : ∃ f, callTarget (.calli { sa := .v 1 }) = some f
    ∧ ¬ (f (me (one (.calli { sa := .v 1 }) (regs [4]))) % 8 = 0 ∧ 0 ≤ f (me (one (.calli { sa := .v 1 }) (regs [4])))
      ∧ f (me (one (.calli { sa := .v 1 }) (regs [4]))) < 2 ^ 18) ∧ clear (.calli { sa := .v 1 }) (one (.calli { sa := .v 1 }) (regs [4])) g0 = true
    ∧ stackWaits (one (.calli { sa := .v 1 }) (regs [4])) [me (one (.calli { sa := .v 1 }) (regs [4]))] = false :=
  ⟨_, rfl, by decide +kernel, by decide +kernel, by decide +kernel⟩

def iCall : Instr := .call {} 4
def sCall : State := pads (one iCall id stacked)
theorem meets_CallsPushAndGo : callOf sCall iCall (me sCall) = some (32, 1, 0) ∧ clear iCall sCall g0 = true ∧ actors iCall sCall g0 = [me sCall]
    ∧ unstepped sCall g0 = true ∧ (me sCall).b.a1 = some 10 ∧ (me sCall).t.ksp.toNat ≠ (me sCall).b.stack
    ∧ stackShadow sCall (me sCall).b 0 0 = false ∧ stackWaits sCall [me sCall] = false
    ∧ accWaits sCall (me sCall).b (stackAcc (me sCall).b 0 0 true) = false := by decide +kernel
def iOv : Instr := .ovcall { sa := .v 1, sb := .v 2 }
def sOv : State := pads (one iOv (regs [0x00000001, 8]) stacked)
theorem meets_CallsPushAndGo_overlay : ∃ pc tok, callOf sOv iOv (me sOv) = some (pc, 2, tok) ∧ clear iOv sOv g0 = true ∧ actors iOv sOv g0 = [me sOv]
    ∧ unstepped sOv g0 = true := ⟨8, 1, by decide +kernel⟩
theorem test_call : after (step sCall) (fun s => some (pcOf s 4096, (s.threads.look 4096).map (·.ksp))) = some (some 32, some 16) := by decide +kernel

def iRet : Instr := .ret {}
/-- An entry of kind 1 stands on the stack, with return PC 0x40. -/
def sRet : State := { one iRet (fun t => { t with ksp := 16 }) stacked with allocs := [(10, { path := 1, unit := 0, size := 4096, mem := [(128, 0x40), (132, 1)] })] }
theorem meets_RetPops : clear iRet sRet g0 = true ∧ actors iRet sRet g0 = [me sRet] ∧ unstepped sRet g0 = true ∧ (me sRet).b.a1 = some 10
    ∧ stackWaits sRet [me sRet] = false ∧ accWaits sRet (me sRet).b (stackAcc (me sRet).b 0 (16 - 16) false) = false ∧ loadAfter sRet 4096 1 (.alloc 10) (ksb (me sRet).b 0 + 16 - 16) 16 = [] ∧ popFault sRet (me sRet) = none := by decide +kernel
theorem test_ret : after (step sRet) (fun s => some (pcOf s 4096, (s.threads.look 4096).map (·.ksp))) = some (some 0x40, some 0) := by decide +kernel
/-- A trap frame: KIND 3, SS set and p0 true. -/
def sRetTrap : State := { one iRet (fun t => { t with ksp := 16 }) stacked with
  allocs := [(10, { path := 1, unit := 0, size := 4096, mem := [(128, 0x40), (132, 3), (133, 4), (135, 0x20), (136, 1)] })] }
theorem meets_RetPops_frame : clear iRet sRetTrap g0 = true ∧ popFault sRetTrap (me sRetTrap) = none ∧ (topEntry sRetTrap 4096).getD 4 0 = 3 := by decide +kernel
theorem test_ret_frame : after (step sRetTrap) (fun s => (s.threads.look 4096).map fun t => (t.preds, t.ss)) = some (1, true) := by decide +kernel

def iExit : Instr := .exit {}
def sExit : State := one iExit
theorem meets_ExitRetires : clear iExit sExit g0 = true ∧ actors iExit sExit g0 = [me sExit] ∧ g0.members = [(me sExit).u]
    ∧ mayRetire sExit 4096 (me sExit).t = true ∧ sExit.threads.wf = true
    ∧ ∀ e ∈ sExit.threads, e.1 ≠ 4096 → e.2.blk = 1 → e.2.st = .exited := by decide +kernel
def sExit2 : State := { sExit with threads := sExit.threads.put 4097 { blk := 1, tid := 1 } }
theorem meets_ExitRetires_other : clear iExit sExit2 g0 = true ∧ mayRetire sExit2 4096 (me sExit2).t = true
    ∧ ∃ t, sExit2.threads.look 4097 = some t ∧ t.blk = 1 ∧ t.st ≠ .exited := ⟨by decide +kernel, by decide +kernel, _, rfl, by decide +kernel, by decide +kernel⟩
theorem meets_RemainingFrames_exit : (sExit2.core sExit2.focus).gather = some g0 ∧ ∃ t, sExit2.threads.look 4097 = some t ∧ t.blk = 1 ∧ 4097 ∉ g0.members ∧ t.st ≠ .exited :=
  ⟨by decide +kernel, _, rfl, by decide +kernel, by decide +kernel, by decide +kernel⟩
theorem test_exit : after (step sExit) (fun s => (s.blocks.look 1).map (·.ended)) = some true := by decide +kernel
def iYield : Instr := .yield {}
theorem meets_YieldKeepsNoSet : wellFormed iYield = true ∧ clear iYield (one iYield) g0 = true ∧ actors iYield (one iYield) g0 ≠ []
    ∧ unstepped (one iYield) g0 = true ∧ (curHeader (one iYield) g0).count ≤ g0.slot + 1 := by decide +kernel

def iTrap : Instr := .trap {} 0x14
def sTrap : State := pads (one iTrap id stacked handler)
theorem meets_TrapAndBreak : (softTrap sTrap iTrap (me sTrap)).isSome = true ∧ clear iTrap sTrap g0 = true ∧ actors iTrap sTrap g0 = [me sTrap]
    ∧ (me sTrap).b.a1 = some 10 ∧ (me sTrap).t.owed = [] ∧ owesSfu sTrap 4096 = false ∧ (sTrap.ctx 1).traph.getLsbD 31 = true
    ∧ (me sTrap).t.ksp.toNat ≠ (me sTrap).b.stack ∧ stackShadow sTrap (me sTrap).b 0 0 = false
    ∧ 64 = bits (sTrap.ctx 1).traph.toNat 17 3 * 8 := by decide +kernel
theorem meets_TrapAndBreak_brk : ∃ r, softTrap sTrap (.brk {} 0x14) (me sTrap) = some r ∧ r.rpc = 0 := ⟨_, rfl, by decide +kernel⟩
theorem test_trap : after (step sTrap) (fun s => (s.threads.look 4096).map fun t => (t.pc, t.ksp, t.ss)) = some (0x40, 16, false) := by decide +kernel

/-- A thread whose trap waits. -/
def sWait : State := pads (one iAdd (fun t => { t with st := .trapWait, trap := some { cause := 6, code := 0, flags := 1, detail := 0, rpc := 0x10 } }) stacked handler)
theorem meets_WaitingTrapEnters : sWait.threads.look 4096 = some (me sWait).t ∧ sWait.blocks.look 1 = some (me sWait).b ∧ (me sWait).t.st = .trapWait
    ∧ (me sWait).t.trap.isSome = true ∧ (me sWait).b.a1 = some 10 ∧ owesSfu sWait 4096 = false ∧ (sWait.ctx 1).traph.getLsbD 31 = true
    ∧ (me sWait).t.ksp.toNat ≠ (me sWait).b.stack ∧ stackShadow sWait (me sWait).b 0 0 = false := by decide +kernel
def sWaitBare : State := pads (one iAdd (fun t => { t with st := .trapWait, trap := some { cause := 6, code := 0, flags := 1, detail := 0, rpc := 0x10 } }) stacked)
theorem meets_TrapWithoutHandler : (me sWaitBare).t.st = .trapWait ∧ (sWaitBare.ctx 1).traph.getLsbD 31 = false ∧ owesSfu sWaitBare 4096 = false
    ∧ running sWaitBare (me sWaitBare).b.ctx := ⟨by decide +kernel, by decide +kernel, by decide +kernel, running_of (by decide +kernel)⟩
def sWaitFull : State := pads (one iAdd (fun t => { t with
  ksp := 64, st := .trapWait, trap := some { cause := 6, code := 0, flags := 1, detail := 0, rpc := 0x10 } }) stacked handler)
theorem meets_TrapWithoutHandler_full : (sWaitFull.ctx 1).traph.getLsbD 31 = true ∧ (me sWaitFull).t.ksp.toNat = (me sWaitFull).b.stack
    ∧ owesSfu sWaitFull 4096 = false := by decide +kernel

/-! Registers, barriers, shapes -/

def iSrd : Instr := .srd { dst := .v 5 } .tid
theorem meets_RegisterReads : ∃ f, regValue (one iSrd) iSrd = some f ∧ wellFormed iSrd = true ∧ clear iSrd (one iSrd) g0 = true :=
  ⟨_, rfl, by decide +kernel, by decide +kernel⟩
theorem meets_RegisterReads_privileged : ∃ f, regValue (one (.srdp { dst := .v 6 } .fltlog)) (.srdp { dst := .v 6 } .fltlog) = some f
    ∧ wellFormed (.srdp { dst := .v 6 } .fltlog) = true ∧ clear (.srdp { dst := .v 6 } .fltlog) (one (.srdp { dst := .v 6 } .fltlog)) g0 = true :=
  ⟨_, rfl, by decide +kernel, by decide +kernel⟩
theorem test_srd_lanew : v5 (.srd { dst := .v 5 } .lanew) [] = some 64 := by decide +kernel
theorem test_srdp_wdog : v5 (.srdp { dst := .v 5 } .wdog) [] = some 30 := by decide +kernel

def iKsp : Instr := .swrKsp { sa := .v 1 }
def sKsp : State := one iKsp (regs [64]) stacked
theorem meets_SpecialWrites_ksp : clear iKsp sKsp g0 = true ∧ actors iKsp sKsp g0 = [me sKsp] ∧ unstepped sKsp g0 = true
    ∧ (me sKsp).raw 32 (.v 1) % 16 = 0 ∧ (me sKsp).raw 32 (.v 1) ≤ (me sKsp).b.stack := by decide +kernel
theorem meets_SpecialWrites_rngs : clear (.swrRngs { sa := .v 1 }) (one (.swrRngs { sa := .v 1 }) (regs [0])) g0 = true
    ∧ actors (.swrRngs { sa := .v 1 }) (one (.swrRngs { sa := .v 1 }) (regs [0])) g0 = [me (one (.swrRngs { sa := .v 1 }) (regs [0]))] := by decide +kernel
theorem meets_SpecialWrites_fabst : clear (.swrFabst { sa := .v 1 }) (one (.swrFabst { sa := .v 1 }) (regs [1]) fun b => { b with fabst := 3 }) g0 = true
    ∧ actors (.swrFabst { sa := .v 1 }) (one (.swrFabst { sa := .v 1 }) (regs [1]) fun b => { b with fabst := 3 }) g0
      = [me (one (.swrFabst { sa := .v 1 }) (regs [1]) fun b => { b with fabst := 3 })] := by decide +kernel
theorem test_swr_fabst : after (step (one (.swrFabst { sa := .v 1 }) (regs [1]) fun b => { b with fabst := 3 })) (fun s => (s.blocks.look 1).map (·.fabst)) = some 2 := by decide +kernel
def iSwrp : Instr := .swrp { sa := .v 1 } .wdog
theorem meets_PrivilegedWrites : clear iSwrp (one iSwrp (regs [63])) g0 = true ∧ actors iSwrp (one iSwrp (regs [63])) g0 = [me (one iSwrp (regs [63]))]
    ∧ (one iSwrp (regs [63])).ctxs.has 1 = true := by decide +kernel
theorem test_swrp_wdog : after (step (one iSwrp (regs [63]))) (fun s => some (s.ctx 1).wdog) = some 40 := by decide +kernel

def iArr : Instr := .barArr {} .block 1
def sArr : State := one iArr
theorem meets_Arrivals : clear iArr sArr g0 = true ∧ actors iArr sArr g0 = [me sArr] ∧ barInst sArr 4096 .block = some 1
    ∧ arrived sArr 4096 .block 1 = false ∧ 4096 ∉ (sArr.bars.lookD (barKey .block 1 1) {}).arr ∧ sArr.bars.wf = true
    ∧ releaseWaits sArr 4096 .block = [] ∧ barMembers sArr .block 1 = [4096] := by decide +kernel
/-- A second thread of the block that has not arrived. -/
def two (s : State) : State := { s with threads := s.threads.put 4097 { blk := 1, tid := 1 }, blocks := s.blocks.upd 1 fun b => { b with threads := 2 } }
theorem meets_Arrivals_missing : ∃ v ∈ barMembers (two sArr) .block 1, v ≠ 4096 ∧ v ∉ ((two sArr).bars.lookD (barKey .block 1 1) {}).arr
    ∧ ((two sArr).threads.look v).map (·.st) = some .ready := ⟨4097, by decide +kernel⟩
theorem test_bar_arr : after (step sArr) (fun s => (s.bars.look (barKey .block 1 1)).map (·.phase)) = some 1 := by decide +kernel

def iWait : Instr := .barWait {} .block 1
def sBw : State := one iWait fun t => { t with last := [(lastIdx .block 1, 0)] }
theorem meets_BarrierWaits_wait : wellFormed iWait = true ∧ clear iWait sBw g0 = true ∧ actors iWait sBw g0 = [me sBw] ∧ unstepped sBw g0 = true
    ∧ (me sBw).t.owed = [] ∧ waitFault sBw .block 1 (me sBw) = none ∧ (curHeader sBw g0).count ≤ g0.slot + 1
    ∧ phaseDone sBw 4096 .block 1 = false := by decide +kernel
theorem meets_BarrierWaits_done : phaseDone { sBw with bars := [(barKey .block 1 1, { phase := 1 })] } 4096 .block 1 = true
    ∧ waitFault { sBw with bars := [(barKey .block 1 1, { phase := 1 })] } .block 1 (me sBw) = none := by decide +kernel
def iSync : Instr := .barSync {} .block 1
def sSync : State := two (one iSync)
theorem meets_BarrierWaits_sync : wellFormed iSync = true ∧ clear iSync sSync g0 = true ∧ actors iSync sSync g0 = [me sSync] ∧ unstepped sSync g0 = true
    ∧ barInst sSync 4096 .block = some 1 ∧ arrived sSync 4096 .block 1 = false ∧ sSync.bars.wf = true ∧ (curHeader sSync g0).count ≤ g0.slot + 1 := by decide +kernel
theorem test_bar_sync : after (step sSync) (fun s => (s.threads.look 4096).map (·.st)) = some (.barWait .block 1) := by decide +kernel
def iTry : Instr := .barTry { dst := .p 1 } .block 1
theorem meets_BarrierWaits_try : ∃ s, clear iTry s g0 = true ∧ actors iTry s g0 = [me s] ∧ waitFault s .block 1 (me s) = none :=
  ⟨one iTry fun t => { t with last := [(lastIdx .block 1, 0)] }, by decide +kernel⟩
def sRein (ph : BitVec 16) : State := { one iAdd fun t => { t with st := .barWait .block 1, owed := [(.block, 1)], last := [(lastIdx .block 1, 0)] } with
  bars := [(barKey .block 1 1, { phase := ph, doneAt := 9 })] }
theorem meets_BarrierReinserts : (sRein 1).stopped 1 = false ∧ barInst (sRein 1) 4096 .block = some 1 ∧ phaseDone (sRein 1) 4096 .block 1 = true
    ∧ phaseDone (sRein 0) 4096 .block 1 = false ∧ (me (sRein 1)).t.st = .barWait .block 1 ∧ (me (sRein 1)).t.trap = none := by decide +kernel
theorem meets_BarrierMisuse_twice : ∃ s, clear iArr s g0 = true ∧ actors iArr s g0 = [me s] ∧ running s (me s).b.ctx ∧ arrived s 4096 .block 1 = true :=
  ⟨one iArr fun t => { t with last := [(lastIdx .block 1, 0)] }, by decide +kernel, by decide +kernel, running_of (by decide +kernel), by decide +kernel⟩
theorem meets_BarrierMisuse_never : clear iWait (one iWait) g0 = true ∧ (me (one iWait)).t.last.look (lastIdx .block 1) = none := by decide +kernel
theorem test_bar_misuse : halted iWait = some 0x2B := by decide +kernel

def iShset : Instr := .shset { dst := .q 5, sa := .v 2 } 6
theorem meets_ShapeFieldWrites : clear iShset (one iShset (regs [0, 0xFFFFFFFF, 0xFF])) g0 = true
    ∧ actors iShset (one iShset (regs [0, 0xFFFFFFFF, 0xFF])) g0 = [me (one iShset (regs [0, 0xFFFFFFFF, 0xFF]))] := by decide +kernel
theorem test_shset : after (step (one iShset (regs [0, 0xFFFFFFFF, 0xFF]))) (fun s => (s.blocks.look 1).map fun b => getField (b.shape 5) 6) = some 0xFFFFFFFFFF := by decide +kernel
theorem test_shget_signed : after (step (one (.shget { dst := .v 6, sa := .q 5 } 6) id fun b => { b with q := [(5, setFieldBits 0 6 0xFFFFFFFFFF)] }))
    (fun s => (regOf s 4096 6).bind fun a => (regOf s 4096 7).map fun b => (a, b)) = some (0xFFFFFFFF, 0xFFFFFFFF) := by decide +kernel

/-! Class G -/

/-- A gang of two threads, lanes 0 and 1, about to issue one instruction. -/
def gang2 (i : Instr) (f f' : Thread → Thread := id) : State :=
  let s := two (one i f)
  { s with
    threads := s.threads.put 4097 (f' { blk := 1, tid := 1, st := .issuing }),
    cores := s.cores.upd 0 fun k => { k with gather := some { members := [4096, 4097], off := 0, slot := 0 } } }
def gg : Gather := { members := [4096, 4097], off := 0, slot := 0 }
/-- v5 of the two lanes after a step. -/
def lanes (i : Instr) (l l' : List W32) (p p' : BitVec 7 := 0) : Option (Option W32 × Option W32) :=
  after (step (gang2 i (fun t => { regs l t with preds := p }) fun t => { regs l' t with preds := p' })) fun s => some (regOf s 4096 5, regOf s 4097 5)

def iVred : Instr := .vred { dst := .v 5, sa := .v 1 } .imax false .rne
theorem meets_GangForms : ∃ i, gangWord i = some (0, 6) ∧ wellFormed i = true ∧ gangForm i = true ∧ i.luOk = true :=
  ⟨.shfl { dst := .v 5, sa := .v 1, sb := .k 7 } .xor true, by decide +kernel⟩
theorem meets_GangForms_table : ∃ i, gangWord i = some (7, 0x7FF) ∧ wellFormed i = true ∧ gangForm i = true :=
  ⟨.vlut { dst := .v 5, sa := .v 120, sb := .v 1 } 0xFF 7, by decide +kernel⟩
theorem meets_NoActiveMember : ∃ i s, (gangWord i).isSome = true ∧ wellFormed i = true ∧ clear i s g0 = true ∧ actors i s g0 = [] ∧ membersOf s g0 = [me s] :=
  ⟨.maskof { dst := .v 4, gneg := true }, one (.maskof { dst := .v 4, gneg := true }), by decide +kernel⟩
theorem meets_GangResults : isGang iVred = true ∧ wellFormed iVred = true ∧ clear iVred (gang2 iVred (regs [3]) (regs [9])) gg = true
    ∧ ((actors iVred (gang2 iVred (regs [3]) (regs [9])) gg).map (·.t.lane)).Nodup ∧ (actors iVred (gang2 iVred (regs [3]) (regs [9])) gg).length = 2 := by decide +kernel
theorem meets_TreeReductions : ((membersOf (gang2 iVred) gg).map (·.t.lane)).Nodup ∧ (membersOf (gang2 iVred) gg).length = 2 := by decide +kernel
theorem test_shfl_down : lanes (.shfl { dst := .v 5, sa := .v 1, sb := .k 1 } .down false) [3] [9] = some (some 9, some 9) := by decide +kernel
theorem test_shfl_xor : lanes (.shfl { dst := .v 5, sa := .v 1, sb := .k 1 } .xor false) [3] [9] = some (some 9, some 3) := by decide +kernel
theorem test_vred_imax : lanes iVred [3] [9] = some (some 9, some 9) := by decide +kernel
theorem test_vred_fadd : lanes (.vred { dst := .v 5, sa := .v 1 } .fadd false .rne) [0x3F800000] [0x40000000] = some (some 0x40400000, some 0x40400000) := by decide +kernel
theorem test_vscan_excl : lanes (.vscan { dst := .v 5, sa := .v 1 } .iadd true .rne) [3] [9] = some (some 0, some 3) := by decide +kernel
theorem test_vscan_incl : lanes (.vscan { dst := .v 5, sa := .v 1 } .iadd false .rne) [3] [9] = some (some 3, some 12) := by decide +kernel
theorem test_vlut : lanes (.vlut { dst := .v 5, sa := .v 1, sb := .v 3 } 0xEE 1) [0x33221100, 0x77665544, 0x08070100] [0, 0, 0]
    = some (some 0xEE771100, some 0) := by decide +kernel
theorem test_poll : after (step (gang2 (.poll { dst := .p 1, sa := .p 0 } .every) (fun t => { t with preds := 1 }))) (fun s => some (predOf s 4096 1, predOf s 4097 1))
    = some (some false, some false) := by decide +kernel
theorem test_poll_some : after (step (gang2 (.poll { dst := .p 1, sa := .p 0 } .some) (fun t => { t with preds := 1 }))) (fun s => predOf s 4097 1) = some true := by decide +kernel
theorem test_poll_mask : after (step (gang2 (.poll { dst := .v 4, sa := .p 0 } .mask) id fun t => { t with preds := 1 })) (fun s => (regOf s 4096 4).bind fun a => (regOf s 4097 5).map fun b => (a, b))
    = some (2, 0) := by decide +kernel
theorem test_matchv : after (step (gang2 (.matchv { dst := .v 4, sa := .v 1 } .b32) (regs [7]) (regs [8]))) (fun s => (regOf s 4096 4).bind fun a => (regOf s 4097 4).map fun b => (a, b))
    = some (1, 2) := by decide +kernel
theorem test_elect : after (step (gang2 (.elect { dst := .p 1 }))) (fun s => some (predOf s 4096 1, predOf s 4097 1)) = some (some true, some false) := by decide +kernel

def iMask : Instr := .vred { dst := .v 5, sa := .v 1, sb := .v 2 } .iadd true .rne
def sMask : State := gang2 iMask (regs [1, 3, 0]) (regs [1, 1, 0])
theorem meets_MaskMismatchFaults : clear iMask sMask gg = true ∧ (maskMismatch (.v 2) (actors iMask sMask gg)).isSome = true
    ∧ runs sMask 1 = true ∧ (me sMask).b.ctx = 1 := by decide +kernel
theorem test_mask_mismatch : after (step sMask) (fun s => ((s.ctxs.look 1).bind (·.halt)).map (·.cause.stop.cause)) = some 0x2A := by decide +kernel
def iMr : Instr := .vredMr { dst := .v 5, sa := .v 1, sb := .v 2 } .rne
def sMr : State := gang2 iMr (regs [0x40000000, 1, 0]) (regs [0x40400000, 1, 0])
/-- Half of the gang is present, so the sum doubles. -/
theorem test_vred_mr : after (step sMr) (fun s => regOf s 4097 5) = some 0x40800000 := by decide +kernel

def iQpop : Instr := .qpop { dst := .v 5 } 2
theorem meets_QueuePops_issue : clear iQpop (one iQpop) g0 = true ∧ actors iQpop (one iQpop) g0 = [me (one iQpop)] ∧ (me (one iQpop)).t.flags.length = 12 := by decide +kernel
/-- QPOP of data queue 2 in flight. -/
def sPop (l : List QEntry) : State :=
  let s := flying (one iQpop) (.qpop 2)
  { s with cores := s.cores.upd 0 fun k => { k with queues := k.queues.set 2 l } }
def whole : QEntry := { ap := 0, blk := 1, addrs := [], words := some (List.replicate 64 7), pc := 0 }
theorem meets_QueuePops_lands : (sPop [whole]).pend.look 7 = some (pend0 (.qpop 2)) ∧ (((sPop [whole]).ctxs.look 1).map (·.save.isSome)) = some false
    ∧ (sPop [whole]).dq 0 2 = [whole] ∧ ((sPop [whole]).core 0).queues.length = 8 ∧ (sPop [whole]).pend.wf = true := by decide +kernel
theorem meets_QueuePops_lander : lander (sPop [whole]) part0 :=
  lander_part0 _ (by decide +kernel) ((sPop [whole]).threads.lookD 4096 { blk := 0, tid := 0 }) (by decide +kernel) (by decide +kernel) (by decide +kernel)
theorem meets_QueuePops_closed : (sPop []).dq 0 2 = [] ∧ queueOpen (sPop []) 0 2 = false := by decide +kernel
theorem meets_QueuePops_open : ∃ s : State, s.dq 0 2 = [] ∧ queueOpen s 0 2 = true :=
  ⟨{ sPop [] with cores := (sPop []).cores.upd 0 fun k => { k with aps := [{ running := true, queues := 4, blk := 1 }, {}, {}, {}] } }, by decide +kernel⟩
theorem test_qpop_lands : after (exec (.qpopLands 7) (sPop [whole])) (regOf · 4096 5) = some 7 := by decide +kernel
theorem test_qpop_closed : after (exec (.qpopLands 7) (sPop [])) (regOf · 4096 5) = some 0 := by decide +kernel

/-! Class M -/

/-- An instruction with an address on path 0x1 in v2 and v3, over a scratchpad whose first bytes are 1 to 8. -/
def padState (i : Instr) (off : W32) (rest : List W32 := []) (path : W32 := 0x10000000) : State :=
  { one i (regs ([0, off, path] ++ rest)) stacked handler with
    allocs := [(10, { path := 1, unit := 0, size := 4096, mem := [(0, 1), (1, 2), (2, 3), (3, 0x84), (4, 5), (5, 6), (6, 7), (7, 8)] })] }
def iLd : Instr := .ld { dst := .v 5, sa := .v 2 } .s16 none
def sLd : State := padState iLd 2
theorem meets_LoadsIssue : loadOf iLd = some ({ dst := .v 5, sa := .v 2 }, .s16, none, none) ∧ clear iLd sLd g0 = true ∧ actors iLd sLd g0 = [me sLd]
    ∧ (me sLd).t.flags.length = 12 ∧ sLd.focus = (me sLd).b.core
    ∧ addrCheck sLd (me sLd).b ((me sLd).addr (.v 2) .null) 2 none [0, 1, 2, 3, 4, 6, 7] false = none
    ∧ reqWaits sLd (fun _ => some { addr := (me sLd).addr (.v 2) .null, n := 2, write := false }) [me sLd] = false := by decide +kernel
def sLands (after : List Nat := []) : State := { flying sLd (.ld (.alloc 10) 1 0x1000000000000002 2 .s16 none) after with nextId := 8 }
theorem meets_LoadsLand : (sLands).pend.look 7 = some (pend0 (.ld (.alloc 10) 1 0x1000000000000002 2 .s16 none)) ∧ (sLands).ready [] = true
    ∧ (match loadData (sLands) 7 (pend0 (.ld (.alloc 10) 1 0x1000000000000002 2 .s16 none)) (.alloc 10) 1 0x1000000000000002 2 2 with
      | .ok r => r.1 == [3, 0x84]
      | .error _ => false) = true ∧ (sLands).pend.wf = true := by decide +kernel
theorem meets_LoadsLand_waits : ∃ s : State, s.pend.look 7 = some (pend0 (.ld (.alloc 10) 1 0 0 .s16 none) [7] |> fun p => p) ∧ s.ready [7] = false :=
  ⟨flying sLd (.ld (.alloc 10) 1 0 0 .s16 none) [7], by decide +kernel⟩
theorem test_ld_sign : after (exec (.ldDataLands 7) (sLands)) (regOf · 4096 5) = some 0xFFFF8403 := by decide +kernel

def iShld : Instr := .shld { dst := .q 5, sa := .v 2 }
def sShld : State := padState iShld 64
theorem meets_ShapeLoads_issue : clear iShld sShld g0 = true ∧ actors iShld sShld g0 = [me sShld] ∧ sShld.focus = (me sShld).b.core
    ∧ addrCheck sShld (me sShld).b ((me sShld).addr (.v 2) .null) 64 none [0, 1, 2, 3] false = none
    ∧ reqWaits sShld (fun _ => some { addr := (me sShld).addr (.v 2) .null, n := 64, write := false }) [me sShld] = false := by decide +kernel
def partQ : Part := { part0 with dst := [], want := [] }
def sShldLands : State := { flying sShld (.shld 5 (.alloc 10) 1 0x1000000000000000 0 []) with pend := [(7, { pend0 (.shld 5 (.alloc 10) 1 0x1000000000000000 0 []) with parts := [partQ] })], nextId := 8 }
theorem meets_ShapeLoads_lands : (match shldRest 7 (sShldLands.pend.lookD 7 (pend0 (.probe [] 0))) (.alloc 10) 1 0x1000000000000000 0 (List.range 8)
        (sShldLands, []) with
      | .ok r => r.2.length == 8
      | .error _ => false) = true ∧ (me sShldLands).b.q.wf = true ∧ sShldLands.allDone [] = true ∧ sShldLands.pend.wf = true := by decide +kernel
theorem test_shld_lands : after (exec (.shldDataLands 7) sShldLands) (fun s => (s.blocks.look 1).map fun b => b.shape 5) = some 0x0807060584030201 := by decide +kernel

def iSt : Instr := .st { sa := .v 2, sc := .v 4 } .b32 (some 1)
def sSt : State := padState iSt 16 [0xAABBCCDD]
theorem meets_StoresIssue : storeOf iSt = some ({ sa := .v 2, sc := .v 4 }, .b32, none, some 1) ∧ clear iSt sSt g0 = true ∧ actors iSt sSt g0 = [me sSt]
    ∧ unstepped sSt g0 = true ∧ sSt.focus = (me sSt).b.core
    ∧ addrCheck sSt (me sSt).b ((me sSt).addr (.v 2) .null) 4 (some 1) [0, 1, 2, 3, 6] true = none
    ∧ reqWaits sSt (fun _ => some { addr := (me sSt).addr (.v 2) .null, n := 4, write := true }) [me sSt] = false ∧ porterFull sSt 0 1 = false
    ∧ selOf ((me sSt).addr (.v 2) .null) ≠ 6 := by decide +kernel
def iSt6 : Instr := .st { sa := .v 2, sc := .v 4 } .b32 none
/-- A doorbell window of context 1. -/
def sSt6 : State := { padState iSt6 0 [5] 0x60000001 with doors := [(0, { ctx := 1, port := 2, addr := 0x40 })] }
theorem meets_StoresIssue_porter : clear iSt6 sSt6 g0 = true ∧ actors iSt6 sSt6 g0 = [me sSt6]
    ∧ addrCheck sSt6 (me sSt6).b ((me sSt6).addr (.v 2) .null) 4 none [0, 1, 2, 3, 6] true = none
    ∧ reqWaits sSt6 (fun _ => some { addr := (me sSt6).addr (.v 2) .null, n := 4, write := true }) [me sSt6] = false ∧ porterFull sSt6 0 1 = false
    ∧ selOf ((me sSt6).addr (.v 2) .null) = 6 := by decide +kernel
def iShst : Instr := .shst { sa := .v 2, sb := .q 5 }
def sShst : State := padState iShst 128
theorem meets_ShapeStores : clear iShst sShst g0 = true ∧ actors iShst sShst g0 = [me sShst] ∧ unstepped sShst g0 = true
    ∧ addrCheck sShst (me sShst).b ((me sShst).addr (.v 2) .null) 64 none [0, 1, 2, 3] true = none
    ∧ reqWaits sShst (fun _ => some { addr := (me sShst).addr (.v 2) .null, n := 64, write := true }) [me sShst] = false := by decide +kernel

def iAtom : Instr := .atom { dst := .v 5, sa := .v 2, sc := .v 4 } .gang .plain .add .n32
def sAtom : State := padState iAtom 4 [1]
theorem meets_AtomicsIssue : (atomicOf iAtom (me sAtom)).isSome = true ∧ clear iAtom sAtom g0 = true ∧ actors iAtom sAtom g0 = [me sAtom]
    ∧ unstepped sAtom g0 = true ∧ addrCheck sAtom (me sAtom).b ((me sAtom).addr (.v 2) .null) 4 none [0, 1, 2, 3] true = none
    ∧ reqWaits sAtom (fun _ => some { addr := (me sAtom).addr (.v 2) .null, n := 4, write := true }) [me sAtom] = false := by decide +kernel
def iRedm : Instr := .redm { dst := .v 6, sa := .v 2, sc := .v 4 } .gang false
theorem meets_AtomicsIssue_redm : (atomicOf iRedm (me (padState iRedm 4 [0x3F800000, 0, 1, 0]))).isSome = true
    ∧ clear iRedm (padState iRedm 4 [0x3F800000, 0, 1, 0]) g0 = true := by decide +kernel

/-- A store of the thread that its point of coherence may accept. -/
def store0 (acc : Access) (ret : Option Nat) : Store :=
  { core := 0, ctx := 1, blk := 1, th := some 4096, issue := 1, lines := [], pc := 0, space := .alloc 10, path := 1, va := 0x1000000000000002, off := 2,
    acc := acc, ret := ret, rel := none, pfx := [], after := [] }
def sPort : State := { sSt with stores := [(8, store0 (.plain [0xAA, 0xBB]) none)], nextId := 9 }
theorem meets_AcceptedStoreWrites : sPort.stores.wf = true ∧ sPort.ready [] = true ∧ (sPort.allocs.look 10).map (·.mem.wf) = some true
    ∧ sPort.pubs = [] ∧ sPort.stores.look 8 = some (store0 (.plain [0xAA, 0xBB]) none)
    ∧ (match resolve sPort (.alloc 10) 0x1000000000000002 2 true with | .ok l => l == .alloc 10 2 && queueRoom sPort l | .error _ => false) = true := by decide +kernel
/-- A store on path 0x0 to a page of HBM, of CXL memory or of a device, which the leaf of its address maps. -/
def sPort0 (e : Nat) (acc : Access) : State :=
  { State.reset with
    ctxs := [(1, { trcfg := 0x1000 })], keys := [(0, 1), (1, 2)], frames := [(1, {}), (2, {}), (3, { keyid := 1 })],
    hbm := Mem.writeN [(0x1000, 0x01), (0x1001, 0x20)] 0x2000 (leBytes 8 e),
    stores := [(8, { store0 acc none with space := .global 1, path := 0, va := 0x3010, off := 0x3010 })], nextId := 9 }
def resolved0 (e : Nat) : Option Loc := match resolve (sPort0 e (.plain [0xAA])) (.global 1) 0x3010 0x3010 true with | .ok l => some l | .error _ => none
theorem meets_AcceptedStoreWrites_hbm : resolved0 0x24F = some (.hbm 0x3010) ∧ queueRoom (sPort0 0x24F (.plain [0xAA])) (.hbm 0x3010) = true
    ∧ linePoison (sPort0 0x24F (.plain [0xAA])) (lineOf 0x3010) = false ∧ (sPort0 0x24F (.plain [0xAA])).hbm.wf = true := by decide +kernel
theorem meets_AcceptedStoreWrites_cxl : resolved0 0x100000000064F = some (.device 0x1000000003010 1) ∧ (sPort0 0x100000000064F (.plain [0xAA])).device.wf = true := by decide +kernel
theorem meets_AcceptedStoreWrites_device : resolved0 0x8000000000A4F = some (.device 0x8000000003010 2) := by decide +kernel
theorem test_store_accept_hbm : after (exec (.writeQueueAccept 8) (sPort0 0x24F (.plain [0xAA]))) (fun s => some (byteAt s (.hbm 0x3010), s.wq.map (·.line))) = some (some 0xAA, [0xC0]) := by decide +kernel
theorem test_store_accept_device : after (exec (.writeQueueAccept 8) (sPort0 0x8000000000A4F (.plain [0xAA]))) (fun s => some s.out) = some [.deviceWrite 0 0x3010 0xAA 1] := by decide +kernel
theorem meets_AtomicsPerform_reduction : (sPort0 0x24F (.rmw .add .n32 1)).ready [] = true ∧ (store0 (.rmw .add .n32 1) none).ret = none
    ∧ ∀ e ∈ (sPort0 0x24F (.rmw .add .n32 1)).stores, e.1 ≠ 8 → e.2.acc.isPlain = true := by decide +kernel
theorem meets_AtomicsPerform_device : running (sPort0 0x8000000000A4F (.rmw .add .n32 1)) 1 := running_of (by decide +kernel)
theorem test_red_device : after (exec (.writeQueueAccept 8) (sPort0 0x8000000000A4F (.rmw .add .n32 1))) (fun s => ((s.ctxs.look 1).bind (·.halt)).map (·.cause.stop.cause)) = some 0x26 := by decide +kernel
theorem test_store_accept : after (exec (.writeQueueAccept 8) sPort) (fun s => some [byteAt s (.alloc 10 1), byteAt s (.alloc 10 2), byteAt s (.alloc 10 3), byteAt s (.alloc 10 4)])
    = some [some 2, some 0xAA, some 0xBB, some 5] := by decide +kernel
def sRmw (acc : Access) : State := { flying sAtom (.atom 8 .n32 none none) with stores := [(8, { store0 acc (some 7) with off := 4, va := 0x1000000000000004 })], nextId := 9 }
theorem meets_AtomicsPerform : (sRmw (.rmw .add .n32 1)).stores.wf = true ∧ (sRmw (.rmw .add .n32 1)).pend.look 7 = some (pend0 (.atom 8 .n32 none none))
    ∧ (sRmw (.rmw .add .n32 1)).ready [] = true ∧ (Access.rmw .add .n32 1).isPlain = false ∧ (Access.cas 4 0x08070605 1).isPlain = false := by decide +kernel
theorem test_atom_add : after (exec (.writeQueueAccept 8) (sRmw (.rmw .add .n32 0xFB))) (fun s => some ([4, 5, 6, 7].map fun k => byteAt s (.alloc 10 k)))
    = some [some 0, some 7, some 7, some 8] := by decide +kernel
theorem test_atom_old : after (exec (.writeQueueAccept 8) (sRmw (.rmw .add .n32 0xFB))) (fun s => (s.pend.look 7).map (·.op)) = some (.atom 8 .n32 (some 0x08070605) none) := by decide +kernel
theorem test_cas_fails : after (exec (.writeQueueAccept 8) (sRmw (.cas 4 9 1))) (fun s => byteAt s (.alloc 10 4)) = some 5 := by decide +kernel
theorem test_cas : after (exec (.writeQueueAccept 8) (sRmw (.cas 4 0x08070605 1))) (fun s => byteAt s (.alloc 10 4)) = some 1 := by decide +kernel
theorem meets_AtomicsPerform_lands : (flying sAtom (.atom 8 .n32 (some 0x08070605) none)).pend.look 7 = some (pend0 (.atom 8 .n32 (some 0x08070605) none)) := by decide +kernel
theorem test_atomic_lands : after (exec (.atomicValueLands 7) (flying sAtom (.atom 8 .n32 (some 0x08070605) none))) (regOf · 4096 5) = some 0x08070605 := by decide +kernel
theorem meets_AtomicOperations : (0xFFFFFFFF : Nat) < 2 ^ ITy.width .s32 ∧ (1 : Nat) < 2 ^ ITy.width .s32 := by decide +kernel

/-- The forms of class M, with where their address stands in v2. -/
def forms : List Instr :=
  [.ld { dst := .v 5, sa := .v 2 } .b32 none, .ldAcq { dst := .v 5, sa := .v 2 } .gang .b32 none, .st { sa := .v 2, sc := .v 4 } .b32 none,
   .stRel { sa := .v 2, sc := .v 4 } .gang .b32 none, .waitmem { dst := .v 5, sa := .v 2, sc := .v 4 } false .gang .n32,
   .shld { dst := .q 1, sa := .v 2 }, .shst { sa := .v 2, sb := .q 1 }, .atom { dst := .v 5, sa := .v 2, sc := .v 4 } .gang .plain .add .n32,
   .red { sa := .v 2, sc := .v 4 } .gang false .add .n32, .redm { dst := .v 6, sa := .v 2, sc := .v 4 } .gang false,
   .cas { dst := .v 5, sa := .v 2, sb := .v 4, sc := .v 4 } .gang .plain .b32, .rld { dst := .v 5, sa := .v 2 } false .gang .b32 none,
   .remst { sa := .v 2, sc := .v 4 } .gang false .b32 none, .remstL { dst := .v 4, sa := .v 2, sc := .v 4 } .b32 none,
   .remred { sa := .v 2, sc := .v 4 } .gang false .add .n32]
def caught (path off : W32) (i : Instr) : Option Nat :=
  after (step (padState i off [1, 0, 1, 0] path)) fun s => ((s.ctxs.look 1).bind (·.halt)).map (·.cause.stop.cause)
theorem meets_AccessFaults : (forms.all fun i => clear i (padState i 16 [1, 0, 1, 0]) g0 && (accessOf i (me (padState i 16 [1, 0, 1, 0]))).isSome
    && decide (actors i (padState i 16 [1, 0, 1, 0]) g0 = [me (padState i 16 [1, 0, 1, 0])]) && runs (padState i 16 [1, 0, 1, 0]) 1) = true := by decide +kernel
theorem meets_AccessFaults_clauses : 8 ≤ selOf ((me (padState iSt 16 [1] 0x80000000)).addr (.v 2) .null) ∧ selOf ((me (padState iSt 17 [1])).addr (.v 2) .null) = 1
    ∧ (me (padState iSt 17 [1])).addr (.v 2) .null % 4 ≠ 0 ∧ (me (padState iSt 16 [1])).b.alloc 1 = some 10 ∧ (me (padState iSt 16 [1])).b.alloc 3 = none := by decide +kernel
/-- A reserved selector (R174, R222, R337, R353), path 0x5 or 0x1 where the form does not take it, and an odd address. -/
theorem test_reserved_selector : forms.map (caught 0x80000000 16) = (List.replicate 5 0x23 ++ List.replicate 10 0x24).map some := by decide +kernel
theorem test_wrong_path : forms.map (fun i => caught (if i matches .rld .. | .remst .. | .remstL .. | .remred .. then 0x10000000 else 0x50000000) 16 i)
    = List.replicate 15 (some 0x24) := by decide +kernel
theorem test_misaligned : forms.map (fun i => caught (if i matches .rld .. | .remst .. | .remstL .. | .remred .. then 0x50000000 else 0x10000000) 0x101 i)
    = List.replicate 15 (some 0x23) := by decide +kernel

def iWm : Instr := .waitmem { dst := .v 5, sa := .v 2, sc := .v 4 } false .gang .n32
def sWm (v : W32) : State := padState iWm 4 [v]
theorem meets_WaitsOnMemory_sleep : clear iWm (sWm 0x08070605) g0 = true ∧ actors iWm (sWm 0x08070605) g0 = [me (sWm 0x08070605)]
    ∧ addrCheck (sWm 0x08070605) (me (sWm 0x08070605)).b ((me (sWm 0x08070605)).addr (.v 2) .null) 4 none [0, 1, 2, 3] false = none
    ∧ reqWaits (sWm 0x08070605) (fun _ => some { addr := (me (sWm 0x08070605)).addr (.v 2) .null, n := 4, write := false }) [me (sWm 0x08070605)] = false
    ∧ loadAfter (sWm 0x08070605) 4096 1 (.alloc 10) 4 4 = []
    ∧ (match waitRead (sWm 0x08070605) iWm.x .n32 (me (sWm 0x08070605)) with | .ok r => ofLe r.1 == 0x08070605 | .error _ => false) = true := by decide +kernel
theorem meets_WaitsOnMemory_pass : clear iWm (sWm 0) g0 = true ∧ (match waitRead (sWm 0) iWm.x .n32 (me (sWm 0)) with | .ok r => ofLe r.1 != 0 | .error _ => false) = true := by decide +kernel
theorem test_waitmem_sleeps : after (step (sWm 0x08070605)) (fun s => (s.threads.look 4096).map (·.st)) = some (.sleeping iWm) := by decide +kernel
theorem test_waitmem_passes : after (step (sWm 0)) (regOf · 4096 5) = some 0x08070605 := by decide +kernel
def sSleep (v : W32) : State := { sWm v with threads := (sWm v).threads.upd 4096 fun t => { t with st := .sleeping iWm }, cores := (sWm v).cores.upd 0 fun k => { k with gather := none } }
theorem meets_WaitsOnMemory_wake : sleeper (sSleep 0) 4096 = some (me (sSleep 0)) ∧ (me (sSleep 0)).t.st = .sleeping iWm ∧ (sSleep 0).stopped 1 = false
    ∧ waitBlocked (sSleep 0) iWm.x .n32 (me (sSleep 0)) = false
    ∧ (((sSleep 0).core 0).header 0).isSome = true ∧ (me (sSleep 0)).t.ss = false := by decide +kernel
theorem test_waitmem_wake : after (exec (.waitmemWake 4096) (sSleep 0)) (regOf · 4096 5) = some 0x08070605 := by decide +kernel

def iFence : Instr := .fence {} .die 2
def sFence : State := { padState iFence 0 with stores := [(8, store0 (.plain [1]) none)], nextId := 9 }
theorem meets_FencesWait : clear iFence sFence g0 = true ∧ actors iFence sFence g0 = [me sFence] ∧ (me sFence).t.fences = []
    ∧ 8 ∈ prefixOf sFence 4096 ∧ inMaskId sFence 2 8 = true ∧ Scope.local .die = false ∧ ((sFence.stores.look 8).map (·.held)).getD false = false := by decide +kernel
theorem meets_FencesWait_load : 7 ∈ ownLoads (sLands) 4096 ∧ inMaskId (sLands) 2 7 = true ∧ (sLands).stores.has 7 = false := by decide +kernel
def fence1 : Fence := { id := 9, scope := .die, mask := 2, sc := false, waits := [8] }
def sFenced (s : State) : State := { s with threads := s.threads.upd 4096 fun t => { t with fences := [fence1] } }
theorem meets_FencesWait_complete : fence1.waits.all ((sFenced sFence).passed fence1.scope) = false
    ∧ fence1.waits.all ((sFenced { sFence with stores := [] }).passed fence1.scope) = true ∧ (me (sFenced sFence)).t.fences = [fence1] := by decide +kernel
theorem test_fence_complete : after (exec (.fenceComplete 4096 9) (sFenced { sFence with stores := [] })) (fun s => (s.threads.look 4096).map (·.fences)) = some [] := by decide +kernel
/-- A fence over path 0x0 that has not completed. -/
def sHeld : State := { one iSt6 (fun t => { regs [0, 0, 0, 1] t with fences := [{ fence1 with mask := 1 }] }) with nextId := 10 }
theorem meets_FencesHoldBack : clear iSt6 sHeld g0 = true ∧ actors iSt6 sHeld g0 = [me sHeld] ∧ selOf ((me sHeld).addr (.v 2) .null) = 0 ∧ bit 1 0 = true
    ∧ addrCheck sHeld (me sHeld).b ((me sHeld).addr (.v 2) .null) 4 none [0, 1, 2, 3, 6] true = none := by decide +kernel
theorem meets_FencesHoldBack_sc : ∃ s, clear (.fenceSc {} .module) s g0 = true ∧ actors (.fenceSc {} .module) s g0 = [me s] ∧ (me s).t.fences ≠ [] :=
  ⟨one (.fenceSc {} .module) fun t => { t with fences := [fence1] }, by decide +kernel⟩

def iProbe : Instr := .probe { dst := .v 5 } .fabric
theorem meets_ProbesCountRoutes : clear iProbe (one iProbe) g0 = true ∧ actors iProbe (one iProbe) g0 = [me (one iProbe)] ∧ (me (one iProbe)).t.st = .issuing
    ∧ ((me (one iProbe)).t.routes.filter (routeIn .fabric)).length = 0 := by decide +kernel
theorem meets_ProbesCountRoutes_some : ∃ s, clear iProbe s g0 = true ∧ actors iProbe s g0 = [me s] ∧ min 255 ((me s).t.routes.filter (routeIn .fabric)).length ≠ 0 :=
  ⟨one iProbe fun t => { t with routes := [0, 1] }, by decide +kernel⟩
theorem test_probe_none : v5 iProbe [] = some 0 := by decide +kernel
theorem meets_ProbesCountRoutes_lands : (flying (one iProbe) (.probe [8] 2)).allDone [8] = true
    ∧ ({ flying (one iProbe) (.probe [8] 2) with stores := [(8, store0 (.plain [1]) none)] } : State).allDone [8] = false := by decide +kernel
theorem test_probe_lands : after (exec (.probeComplete 7) (flying (one iProbe) (.probe [8] 2))) (regOf · 4096 5) = some 2 := by decide +kernel

/-- Target 3 of path 0x5. -/
def far (i : Instr) (rest : List W32 := []) : State := padState i 0x100 rest 0x500C0000
def iRld : Instr := .rld { dst := .v 5, sa := .v 2 } false .gang .b32 none
theorem meets_RemoteRequests_rld : clear iRld (far iRld) g0 = true ∧ actors iRld (far iRld) g0 = [me (far iRld)]
    ∧ addrCheck (far iRld) (me (far iRld)).b ((me (far iRld)).addr (.v 2) .null) 4 none [5] false = none
    ∧ reqWaits (far iRld) (fun _ => some { addr := (me (far iRld)).addr (.v 2) .null, n := 4, write := false }) [me (far iRld)] = false
    ∧ farWaits (far iRld) (me (far iRld)) ((me (far iRld)).addr (.v 2) .null) 4 = false := by decide +kernel
def iRemst : Instr := .remst { dst := .v 6, sa := .v 2, sc := .v 4 } .gang false .b32 none
def sRemst : State := far iRemst [9, 0, 0x200, 0x500C0000]
theorem meets_RemoteRequests_remst : (remoteOf iRemst (me sRemst)).isSome = true ∧ clear iRemst sRemst g0 = true ∧ actors iRemst sRemst g0 = [me sRemst]
    ∧ addrCheck sRemst (me sRemst).b ((me sRemst).addr (.v 2) .null) 4 none [5] false = none
    ∧ reqWaits sRemst (fun _ => some { addr := (me sRemst).addr (.v 2) .null, n := 4, write := true }) [me sRemst] = false
    ∧ relWaits sRemst none [me sRemst] = false ∧ farWaits sRemst (me sRemst) ((me sRemst).addr (.v 2) .null) 4 = false ∧ flagFault iRemst.x (me sRemst) = none := by decide +kernel
theorem test_remst_target : after (step sRemst) (fun s => match s.out with | [.remote _ t r] => some (t, r.va) | _ => none) = some (3, 0x100) := by decide +kernel
def iLossy : Instr := .remstL { dst := .v 1, sa := .v 2, sc := .v 4 } .b32 none
theorem meets_LossyStores : clear iLossy (far iLossy [9]) g0 = true ∧ actors iLossy (far iLossy [9]) g0 = [me (far iLossy [9])]
    ∧ memWaits (far iLossy [9]) (me (far iLossy [9])) [5] = false
    ∧ addrCheck (far iLossy [9]) (me (far iLossy [9])).b ((me (far iLossy [9])).addr (.v 2) .null) 4 none [5] false = none
    ∧ 256 ≤ (me (far iLossy [9])).addr (.v 2) .null % 2 ^ 15 ∧ (me (far iLossy [9])).addr (.v 2) .null % 2 ^ 15 < 16640 := by decide +kernel

/-! Class X -/

/-- A shape over a path: base, format and the size and stride of each dimension (R67). -/
def shp (base path fmt : Nat) (dims : List (Nat × Nat)) : Shape :=
  BitVec.ofNat 512 (base + path * 2 ^ 60 + fmt * 2 ^ 64 + dims.length * 2 ^ 68
    + ((List.range dims.length).map fun k => (dims.getD k (0, 0)).1 * 2 ^ (88 + 64 * k) + (dims.getD k (0, 0)).2 * 2 ^ (112 + 64 * k)).foldl (· + ·) 0)

/-- An instruction over shapes of its block, with the scratchpad of `padState`. -/
def shapeState (i : Instr) (qs : AMap Shape) (l : List W32 := []) (h : Thread → Thread := id) : State :=
  { one i (fun t => h (regs l t)) (fun b => { stacked b with q := qs }) handler with
    allocs := [(10, { path := 1, unit := 0, size := 65536, mem := [(0, 1), (1, 2), (2, 3), (3, 0x84), (4, 5), (5, 6), (6, 7), (7, 8)] })] }
/-- q1: two words at 0; q2: two words at 1024. -/
def twoShapes : AMap Shape := [(1, shp 0 1 0 [(2, 4)]), (2, shp 1024 1 0 [(2, 4)])]
def iCopy : Instr := .tcopy { dst := .v 6, sa := .q 2, sb := .q 1 }
def sCopy : State := shapeState iCopy twoShapes
theorem meets_CopiesIssue : clear iCopy sCopy g0 = true ∧ actors iCopy sCopy g0 = [me sCopy] ∧ g0.served = [] ∧ (me sCopy).t.flags.length = 12
    ∧ copyCheck sCopy (me sCopy).b 0 (copyOf iCopy.x (me sCopy)) = none
    ∧ cmdWaits sCopy (me sCopy) [(me sCopy).shape (.q 1)] [(me sCopy).shape (.q 2)]
        (cmdHolds sCopy (me sCopy).b [(me sCopy).shape (.q 1)] [(me sCopy).shape (.q 2)]).length = false := by decide +kernel
/-- Operands of a product of 32 by one: bf16 rows of 64 bytes. -/
def prodShapes : AMap Shape := [(1, shp 4096 1 2 [(32, 2), (1, 64)]), (2, shp 8192 1 2 [(32, 2), (1, 64)]), (3, shp 12288 1 2 [(32, 2), (1, 64)])]
def iCopyMma : Instr := .tcopyMma { dst := .v 6, sa := .q 2, sb := .q 1 } 4
theorem meets_CopiesIssue_mma : clear iCopyMma (shapeState iCopyMma prodShapes) g0 = true
    ∧ copyFollow iCopyMma (me (shapeState iCopyMma prodShapes)) = some (iCopyMma.x, some (4, shp 12288 1 2 [(32, 2), (1, 64)]))
    ∧ mmaCheck (shapeState iCopyMma prodShapes) (me (shapeState iCopyMma prodShapes)).b (shp 8192 1 2 [(32, 2), (1, 64)]) (shp 12288 1 2 [(32, 2), (1, 64)])
        none none false false = none
    ∧ memWaits (shapeState iCopyMma prodShapes) (me (shapeState iCopyMma prodShapes)) [1] = false
    ∧ swapDue (shapeState iCopyMma prodShapes) (me (shapeState iCopyMma prodShapes)).b (shp 12288 1 2 [(32, 2), (1, 64)]) = false := by decide +kernel

/-- The operation list of a chain: operation 7, which takes no source. -/
def iChain : Instr := .chain { dst := .v 6, sa := .q 2, sb := .q 1, sc := .v 2 } 0
def sChain : State := { shapeState iChain twoShapes [0, 0x200, 0x10000000] with allocs := [(10, { path := 1, unit := 0, size := 65536, mem := [(0x200, 7)] })] }
theorem meets_CommandsIssue_chain : clear iChain sChain g0 = true ∧ actors iChain sChain g0 = [me sChain]
    ∧ (match chainOps sChain iChain.x 1 (me sChain) with | .ok l => l.map (·.op) == [7] | .error _ => false) = true
    ∧ cmdWaits sChain (me sChain) [(me sChain).shape (.q 1)] [(me sChain).shape (.q 2)]
        (cmdHolds sChain (me sChain).b [(me sChain).shape (.q 1)] [(me sChain).shape (.q 2)]).length = false
    ∧ chainListWaits sChain iChain.x 1 (me sChain) = false := by decide +kernel
def iPubl : Instr := .publ { dst := .v 6, sa := .v 1 } .block
def sPubl : State := { shapeState iPubl [] [2] with pubs := [(pubKey 10 2, { alloc := 10, view := 1024, shadow := 2048, len := 64 })] }
theorem meets_CommandsIssue_publ : clear iPubl sPubl g0 = true ∧ actors iPubl sPubl g0 = [me sPubl] ∧ (me sPubl).t.val (.int 32) (.v 1) < 16
    ∧ pubOf (me sPubl).b 2 = some (pubKey 10 2) ∧ sPubl.pubs.has (pubKey 10 2) = true ∧ memWaits sPubl (me sPubl) [pubPath 2] = false := by decide +kernel
def iLaunch : Instr := .launch { dst := .v 6, sa := .v 2, sb := .v 4 }
def sLaunch : State := shapeState iLaunch [] [0, 0x200, 0x10000000, 3]
theorem meets_CommandsIssue_launch : clear iLaunch sLaunch g0 = true ∧ actors iLaunch sLaunch g0 = [me sLaunch]
    ∧ (me sLaunch).t.val (.int 64) (.v 2) % 128 = 0 ∧ selOf ((me sLaunch).t.val (.int 64) (.v 2)) ≤ 3
    ∧ addrCheck sLaunch (me sLaunch).b ((me sLaunch).t.val (.int 64) (.v 2)) 128 none [0, 1, 2, 3] false = none
    ∧ issueReadWaits sLaunch (me sLaunch) ((me sLaunch).t.val (.int 64) (.v 2)) 128 = false
    ∧ (match launchRead sLaunch (me sLaunch) ((me sLaunch).t.val (.int 64) (.v 2)) with | .ok r => r.1.length == 128 | .error _ => false) = true := by decide +kernel
def iBell : Instr := .dbell { dst := .v 6, sa := .v 2, sc := .v 4 } .die
def sBell : State := { shapeState iBell [] [0, 0, 0x60000001, 5] with doors := [(0, { ctx := 1, port := 2, addr := 0x40 })] }
theorem meets_CommandsIssue_dbell : clear iBell sBell g0 = true ∧ actors iBell sBell g0 = [me sBell]
    ∧ addrCheck sBell (me sBell).b ((me sBell).addr (.v 2) .null) 4 none [6] true = none ∧ memWaits sBell (me sBell) [6] = false
    ∧ porterFull sBell 0 1 = false := by decide +kernel
def iDectab : Instr := .dectab { dst := .v 6, sa := .v 1, sb := .v 2, sc := .v 4 }
def sDectab : State := shapeState iDectab [] [7, 0x4000, 0, 0x1000, 0]
theorem meets_CommandsIssue_dectab : clear iDectab sDectab g0 = true ∧ actors iDectab sDectab g0 = [me sDectab]
    ∧ (me sDectab).t.val (.int 64) (.v 2) / 2 ^ 60 = 0 ∧ (me sDectab).t.val (.int 64) (.v 2) % 8 = 0 ∧ memWaits sDectab (me sDectab) [0] = false := by decide +kernel

def iWbind : Instr := .wbind { dst := .v 6, sa := .q 2, sb := .q 1 } 3
def sWbind : State := shapeState iWbind twoShapes
theorem meets_Windows_bind : clear iWbind sWbind g0 = true ∧ actors iWbind sWbind g0 = [me sWbind] ∧ winFilling (me sWbind) 3 = false
    ∧ copyCheck sWbind (me sWbind).b 1 (copyOf iWbind.x (me sWbind)) = none ∧ (me sWbind).b.windows.length = 16
    ∧ bindStatus sWbind (me sWbind).b 3 ((me sWbind).shape (.q 2)) = 0 := by decide +kernel
/-- Window 5 stands over the same bytes. -/
theorem meets_Windows_overlap : bindStatus sWbind { (me sWbind).b with windows := (me sWbind).b.windows.set 5 { st := .absent, path := 1, lo := 1024, hi := 1032 } } 3
    ((me sWbind).shape (.q 2)) = 2 := by decide +kernel
theorem test_wbind : after (step sWbind) (fun s => (s.blocks.look 1).bind fun b => (b.windows[3]?).map fun w => (w.st, w.lo, w.hi)) = some (.absent, 1024, 1032) := by decide +kernel
def iWdrop : Instr := .wdrop { dst := .v 6 } 3
theorem meets_Windows_drop : clear iWdrop (shapeState iWdrop []) g0 = true ∧ actors iWdrop (shapeState iWdrop []) g0 = [me (shapeState iWdrop [])]
    ∧ winFilling (me (shapeState iWdrop [])) 3 = false ∧ (me (shapeState iWdrop [])).b.windows.length = 16 := by decide +kernel
theorem test_wdrop_unbound : after (step (shapeState iWdrop [])) replied = some [1] := by decide +kernel

def iOvl : Instr := .ovl { dst := .v 6, sa := .v 1 }
/-- Overlay 1 with home page 2, and overlay 2 on page 0, where the running overlay stands. -/
def ovs (s : State) : State := { s with codes := s.codes.upd 1 fun k => { k with
  overlays := k.overlays ++ [{ num := 1, off := 4096, len := 4096, hash := [], sperm := false, home := 2 }, { num := 2, off := 8192, len := 4096, hash := [], sperm := false, home := 0 }] } }
def sOvl (n : W32) : State := ovs (shapeState iOvl [] [n])
theorem meets_OverlayCommands : clear iOvl (sOvl 1) g0 = true ∧ actors iOvl (sOvl 1) g0 = [me (sOvl 1)] ∧ (overlayOf (sOvl 1) 1 1).isSome = true
    ∧ ((overlayOf (sOvl 1) 1 1).map fun v => (isResident (sOvl 1) 0 1 v, isLoading (sOvl 1) 0 1 v, homeTaken (sOvl 1) 0 v)) = some (false, false, false)
    ∧ overlayOf (sOvl 9) 1 9 = none ∧ memWaits (sOvl 1) (me (sOvl 1)) [0, 7] = false := by decide +kernel
theorem meets_OverlayCommands_resident : ((overlayOf (sOvl 0) 1 0).map fun v => isResident (sOvl 0) 0 1 v) = some true := by decide +kernel
theorem meets_OverlayCommands_taken : ((overlayOf (sOvl 2) 1 2).map fun v => (isResident (sOvl 2) 0 1 v, isLoading (sOvl 2) 0 1 v, homeTaken (sOvl 2) 0 v))
    = some (false, false, true) := by decide +kernel
def sLoading : State := { sOvl 1 with cores := (sOvl 1).cores.upd 0 fun k => { k with home := k.home.put 2 (.loading 1 1) } }
theorem meets_OverlayCommands_loading : ((overlayOf sLoading 1 1).map fun v => isLoading sLoading 0 1 v) = some true := by decide +kernel
theorem test_ovl_resident : after (step (sOvl 0)) replied = some [1] := by decide +kernel
def iOvrel : Instr := .ovrel { dst := .v 6, sa := .v 1 }
def sOvrel (w : W32) : State :=
  let s := ovs (shapeState iOvrel [] [w])
  { s with cores := s.cores.upd 0 fun k => { k with home := k.home.put 2 (.resident 1 1 4096 false) } }
/-- Token of overlay 1 with home 2: 2 × 2^26 + 1 × 2^10 + 1. -/
theorem meets_OverlayCommands_release : clear iOvrel (sOvrel 0x08000401) g0 = true ∧ actors iOvrel (sOvrel 0x08000401) g0 = [me (sOvrel 0x08000401)]
    ∧ (overlayOf (sOvrel 0x08000401) 1 (bits 0x08000401 19 10)).map (fun v => (v.home, isResident (sOvrel 0x08000401) 0 1 v, overlayBusy (sOvrel 0x08000401) 0 1 v))
      = some (2, true, false) ∧ ((sOvrel 0x08000401).core 0).home.wf = true := by decide +kernel
theorem meets_OverlayCommands_busy : (overlayOf (sOvrel 1) 1 0).map (fun v => (isResident (sOvrel 1) 0 1 v, overlayBusy (sOvrel 1) 0 1 v)) = some (true, true) := by decide +kernel
theorem test_ovrel : after (step (sOvrel 0x08000401)) (fun s => (replied s).map fun l => (l, (s.core 0).home.look 2)) = some ([0], none) := by decide +kernel
theorem test_ovrel_busy : after (step (sOvrel 1)) replied = some [1] := by decide +kernel
/-- An answer of 1 for v5, and one of a BAR.EXP at the block barrier 1. -/
def sAns (key : Option Nat) (owing : List (Nat × List Nat)) : State :=
  { flying sCopy (.answer key [1]) with agenda := [.burst 7 0], bars := [(barKey .block 1 1, { owing := owing })] }
theorem meets_AnswersLand : (sAns none []).agenda = [.burst 7 0] ∧ (sAns none []).dark = false ∧ (sAns none []).pend.look 7 = some (pend0 (.answer none [1]))
    ∧ (sAns (some (barKey .block 1 1)) [(4096, [3])]).pend.look 7 = some (pend0 (.answer (some (barKey .block 1 1)) [1])) := by decide +kernel
theorem meets_AnswersLand_lander : lander (sAns none []) part0 ∧ lander (sAns (some (barKey .block 1 1)) [(4096, [3])]) part0 :=
  ⟨lander_part0 _ rfl (me (sAns none [])).t rfl (by decide +kernel) (by decide +kernel),
    lander_part0 _ rfl (me (sAns (some (barKey .block 1 1)) [(4096, [3])])).t rfl (by decide +kernel) (by decide +kernel)⟩
theorem test_answer : after (step (sAns none [])) (fun s => (regOf s 4096 5).map fun w => (w, flagAt s 4096 3)) = some (1, some 0) := by decide +kernel
theorem test_answer_owes : after (step (sAns (some (barKey .block 1 1)) [(4096, [3])])) replied = some [1] := by decide +kernel

/-- Block barrier 1 (designator 5), bytes 512 to 575 of scratchpad 10. -/
def iExp : Instr := .barExp { dst := .v 6, sa := .v 1, sb := .v 2, sc := .v 4 }
def sExp : State := two (shapeState iExp [] [5, 512, 0x10000000, 64, 0])
theorem meets_ExpectedBytes : clear iExp sExp g0 = true ∧ actors iExp sExp g0 = [me sExp] ∧ barDesig iExp.x (me sExp) = (.block, 1)
    ∧ bits ((me sExp).t.val (.int 32) (.v 1)) 31 6 = 0 ∧ 1 < levelLimit .block ∧ barInst sExp 4096 .block = some 1 ∧ arrived sExp 4096 .block 1 = false
    ∧ selOf ((me sExp).t.val (.int 64) (.v 2)) = 1 ∧ (me sExp).b.alloc 1 = some 10 ∧ 0 < (me sExp).t.val (.int 64) (.v 4)
    ∧ (sExp.bars.lookD (barKey .block 1 1) {}).pendb + (me sExp).t.val (.int 64) (.v 4) < 2 ^ 56
    ∧ (sExp.allocs.look 10).map (portWatches sExp) = some 0 ∧ memWaits sExp (me sExp) [1] = false := by decide +kernel
theorem test_bar_exp : after (step sExp) (fun s => (s.bars.look (barKey .block 1 1)).map fun b => (b.phase, b.pendb, b.watch)) = some (0, 64, [(10, 512, 576)]) := by decide +kernel

/-! Class T -/

def iMma : Instr := .mma { dst := .v 6, sa := .q 1, sb := .q 2 } 4 false
def sMma : State := shapeState iMma prodShapes
theorem meets_MatrixCommandsQueue : (commandOf sMma iMma (me sMma)).map (fun c => (c.1, c.2.2.2.2.2)) = some (4, none) ∧ clear iMma sMma g0 = true
    ∧ actors iMma sMma g0 = [me sMma] ∧ arrayRoom sMma 0 = true
    ∧ matWaits sMma (me sMma) [(me sMma).shape (.q 1), (me sMma).shape (.q 2)] [] false = false := by decide +kernel
def iAccz : Instr := .accz {} 9
theorem meets_MatrixCommandsQueue_accz : (commandOf (one iAccz) iAccz (me (one iAccz))).map (fun c => (c.1, c.2.2.2.2.2)) = some (9, none)
    ∧ clear iAccz (one iAccz) g0 = true := by decide +kernel
/-- A budget of 1 on rung 0, and STOP 3. -/
def nfShapes : AMap Shape := prodShapes.upd 1 fun q => setFieldBits (setFieldBits (setFieldBits q 28 3) 29 1) 30 1
def iNf : Instr := .mmaNf { dst := .v 6, sa := .q 1, sb := .q 2 } 4
def sNf : State := shapeState iNf nfShapes
theorem meets_MatrixCommandsQueue_nf : clear iNf sNf g0 = true ∧ actors iNf sNf g0 = [me sNf]
    ∧ mmaCheck sNf (me sNf).b ((me sNf).shape (.q 1)) ((me sNf).shape (.q 2)) none none true false = none ∧ arrayRoom sNf 0 = true ∧ stagingRoom sNf 0 = true
    ∧ holdRoom sNf 0 (retained sNf (me sNf) iNf.x).length = true
    ∧ matWaits sNf (me sNf) [(me sNf).shape (.q 1), (me sNf).shape (.q 2)] [] false = false
    ∧ ((sNf.core 0).mcmds.all fun d => d.id < sNf.nextId) = true := by decide +kernel
theorem test_mma_queues : after (step sMma) (fun s => some ((s.core 0).mcmds.map fun c => (c.acc, c.rung, c.att))) = some [(4, 0, 1)] := by decide +kernel
theorem test_mma_path_fault : after (step (shapeState iMma (prodShapes.upd 2 fun q => setFieldBits q 1 0))) (fun s => ((s.ctxs.look 1).bind (·.halt)).map (·.cause.stop.cause))
    = some 0x24 := by decide +kernel

/-! Class A -/

/-- AP 0 of core 0 at one A instruction, with its registers from a0. -/
def apState (i : Instr) (l : List W64) (f : Ap → Ap := id) : State :=
  let s := one i
  { s with
    cores := s.cores.upd 0 fun k => { k with aps := k.aps.modify 0 fun a => f { a with a := l ++ List.replicate (16 - l.length) 0 } },
    blocks := s.blocks.upd 1 fun b => { stacked b with q := twoShapes },
    allocs := [(10, { path := 1, unit := 0, size := 65536, mem := [(0, 1), (4, 5), (8, 2)] })] }
def aReg (i : Instr) (l : List W64) (n : Nat) (f : Ap → Ap := id) : Option W64 := after (step (apState i l f)) fun s => (s.ap 0 0).a[n]?
def apPc (i : Instr) (l : List W64) (f : Ap → Ap := id) : Option (W32 × List (Nat × W32)) := after (step (apState i l f)) fun s => some ((s.ap 0 0).pc, (s.ap 0 0).loops)
theorem test_aadd : aReg (.aadd { dst := .v 3, sa := .v 1, sb := .v 2 }) [0, 0xFFFFFFFFFFFFFFFF, 3] 3 = some 2 := by decide +kernel
theorem test_agen : aReg (.agen { dst := .v 3, sa := .q 2, sb := .v 1, sc := .k 0 }) [0, 3] 3 = some 0x100000000000040C := by decide +kernel
theorem test_aloop : apPc (.aloop { sa := .v 1 }) [0, 3] = some (16, [(3, 16)]) := by decide +kernel
theorem test_aendl : apPc (.aendl {}) [] (fun a => { a with loops := [(3, 0x40)] }) = some (0x40, [(2, 0x40)]) := by decide +kernel
theorem test_acmp : after (step (apState (.acmp { dst := .p 1, sa := .v 1, sb := .v 2 } .lt) [0, 0xFFFFFFFFFFFFFFFF, 3])) (fun s => some ((s.ap 0 0).cond 1)) = some true := by decide +kernel
theorem test_abra : apPc (.abra { sa := .v 1 }) [0, 0x40] = some (0x40, []) := by decide +kernel
theorem test_aend : after (step (apState (.aend {}) [])) (fun s => some (s.ap 0 0).running) = some false := by decide +kernel
theorem test_apush : after (step (apState (.apush { sa := .v 1 } 2) [0, 0x1000000000000000])) (fun s => some ((s.dq 0 2).map fun e => (e.addrs.take 2, e.words))) =
    some [([0x1000000000000000, 0x1000000000000004], none)] := by decide +kernel
theorem test_await_waits : apPc (.await { sa := .v 1 } 2) [0, 0] (fun a => a) = some (16, []) := by decide +kernel

/-- An instruction at the focus AP, for the statements. -/
def exAp (i : Instr) (l : List W64) (f : Ap → Ap := id) : State := { apState i l f with agenda := [] }
theorem apAt_of {i : Instr} {s : State} {b : Block} (h1 : s.focusAp < (s.core s.focus).aps.length) (h2 : (s.ap s.focus s.focusAp).running = true)
    (h3 : s.blocks.look (s.ap s.focus s.focusAp).blk = some b) (h4 : ((s.ap s.focus s.focusAp).cond i.x.gpred != i.x.gneg) = true) :
    apAt i s (s.ap s.focus s.focusAp) b := ⟨rfl, h1, h2, h3, h4⟩
def blkOf (s : State) : Block := (me s).b
theorem meets_ApResults : isApCompute (.aendl {}) = true ∧ wellFormed (.aendl {}) = true ∧ runs (exAp (.aendl {}) []) (blkOf (exAp (.aendl {}) [])).ctx = true
    ∧ (apResult (exAp (.aendl {}) []) (.aendl {}) ((exAp (.aendl {}) []).ap 0 0) (blkOf (exAp (.aendl {}) []))).isNone = true := by decide +kernel
theorem meets_ApResults_at : apAt (.aendl {}) (exAp (.aendl {}) []) ((exAp (.aendl {}) []).ap 0 0) (blkOf (exAp (.aendl {}) [])) :=
  apAt_of (by decide +kernel) (by decide +kernel) (by decide +kernel) (by decide +kernel)
def iAgen : Instr := .agen { dst := .v 3, sa := .q 2, sb := .v 1, sc := .k 0 }
theorem meets_ApResults_agen : owesShape (exAp iAgen []) 1 (shapeRegs iAgen) = false ∧ shapeOk (shapeOfOp (blkOf (exAp iAgen [])) (.q 2)) = true
    ∧ regionOk (shapeOfOp (blkOf (exAp iAgen [])) (.q 2)) = true ∧ (apResult (exAp iAgen []) iAgen ((exAp iAgen []).ap 0 0) (blkOf (exAp iAgen []))).isSome = true := by decide +kernel
def iOff : Instr := .aend { gpred := 0 }
theorem meets_ApGuardedOff : iOff.isA = true ∧ (exAp iOff []).focusAp < ((exAp iOff []).core 0).aps.length ∧ ((exAp iOff []).ap 0 0).running = true
    ∧ (exAp iOff []).blocks.look 1 = some (blkOf (exAp iOff [])) ∧ ((exAp iOff []).ap 0 0).cond 0 = false := by decide +kernel
def iPush : Instr := .apush { sa := .v 1 } 2
def sPush : State := exAp iPush [0, 0x1000000000000000]
theorem meets_ApQueues_push : (sPush.ap 0 0).queues.getLsbD 2 = true ∧ (sPush.dq 0 2).length < 64
    ∧ wordsFault sPush (blkOf sPush) (rowAddrs ((sPush.ap 0 0).val (.v 1))) [0, 1, 2, 3, 4] false = none
    ∧ accWaits sPush (blkOf sPush) (wordsAcc (rowAddrs ((sPush.ap 0 0).val (.v 1))) false) = false ∧ (sPush.core 0).queues.length = 8 := by decide +kernel
theorem meets_ApQueues_at : apAt iPush sPush (sPush.ap 0 0) (blkOf sPush) := apAt_of (by decide +kernel) (by decide +kernel) (by decide +kernel) (by decide +kernel)
theorem meets_ApQueueFullWaits : 64 ≤ (({ sPush with cores := sPush.cores.upd 0 fun k => { k with queues := k.queues.set 2 (List.replicate 64 whole) } } : State).dq 0 2).length := by decide +kernel
def iGath : Instr := .agath { sa := .v 1, sb := .v 2 } 2
def sGath : State := exAp iGath [0, 0x1000000000000000, 0x1000000000000000]
theorem meets_ApQueues_gather : (sGath.ap 0 0).queues.getLsbD 2 = true ∧ (sGath.dq 0 2).length < 64
    ∧ wordsFault sGath (blkOf sGath) (rowAddrs ((sGath.ap 0 0).val (.v 2))) [0, 1, 2, 3, 4] false = none
    ∧ accWaits sGath (blkOf sGath) (wordsAcc (rowAddrs ((sGath.ap 0 0).val (.v 2))) false) = false ∧ apAccst sGath (blkOf sGath) (rowAddrs ((sGath.ap 0 0).val (.v 2))) = [] ∧ sGath.live (sGath.ap 0 0).obs = []
    ∧ apRmw sGath (blkOf sGath) (rowAddrs ((sGath.ap 0 0).val (.v 2))) = false
    ∧ (match apWords sGath (blkOf sGath) (rowAddrs ((sGath.ap 0 0).val (.v 2))) with
      | .ok (l, _) => l.take 3 == [1, 5, 2]
          && (wordsFault sGath (blkOf sGath) (l.map fun k => ((sGath.ap 0 0).val (.v 1) + 4 * k) % 2 ^ 64) [0, 1, 2, 3, 4] false).isNone
          && !accWaits sGath (blkOf sGath) (wordsAcc (l.map fun k => ((sGath.ap 0 0).val (.v 1) + 4 * k) % 2 ^ 64) false)
      | .error _ => false) = true := by decide +kernel
theorem test_agath : after (step (apState iGath [0, 0x1000000000000000, 0x1000000000000000])) (fun s => some ((s.dq 0 2).map fun e => e.addrs.take 3)) =
    some [[0x1000000000000004, 0x1000000000000014, 0x1000000000000008]] := by decide +kernel
def iAwait : Instr := .await { sa := .v 1 } 2
theorem meets_ApQueues_await : ((exAp iAwait [0, 0]).ap 0 0).queues.getLsbD 2 = true ∧ ((exAp iAwait [0, 0]).dq 0 2).length ≤ ((exAp iAwait [0, 0]).ap 0 0).val (.v 1) := by decide +kernel
theorem meets_ApQueues_await_more : ((exAp iAwait [0, 0]).ap 0 0).val (.v 1) < (({ exAp iAwait [0, 0] with
    cores := (exAp iAwait [0, 0]).cores.upd 0 fun k => { k with queues := k.queues.set 2 [whole] } } : State).dq 0 2).length := by decide +kernel
def iAsig : Instr := .asig { sa := .v 1, sb := .v 2 }
def sAsig : State := exAp iAsig [0, 0x1000000000000010, 7]
theorem meets_ApQueues_signal : addrCheck sAsig (blkOf sAsig) ((sAsig.ap 0 0).val (.v 1)) 4 none [1, 2, 3] true = none
    ∧ accWaits sAsig (blkOf sAsig) (wordsAcc [(sAsig.ap 0 0).val (.v 1)] true) = false
    ∧ ((sAsig.core 0).queues.any fun l => l.any fun e => e.ap == 0 && e.words.isNone) = false := by decide +kernel

/-- A set at a clause of class A. -/
def sHand : State :=
  let s := one (.aend {}) (fun t => { t with regs := [(0, 1), (1, 2), (8, 0xFF)] })
  { s with cores := s.cores.upd 0 fun k => { k with aps := List.replicate 4 {}, gather := some g0 } }
theorem meets_ApProgramsStart_handoff : (sHand.core 0).gather = some g0 ∧ membersOf sHand g0 = [me sHand] ∧ (curHeader { sHand with focus := 0 } g0).cls = .A
    ∧ owesReg sHand 4096 (List.range 9) = false ∧ memWaits sHand (me sHand) [0, 1, 2, 3, 4] = false ∧ (sHand.core 0).startq.length < 16 ∧ (me sHand).t.ss = false ∧ (me sHand).t.trap = none := by decide +kernel
theorem test_ap_handoff : after (exec (.apHandoff 0) sHand) (fun s => some ((s.core 0).startq.map fun r => (r.a.take 1, r.queues))) = some [([0x200000001], 0xFF)] := by decide +kernel
def start0 : Start := { pc := 0, a := List.replicate 16 0, queues := 3, blk := 1, obs := [] }
def sStart : State := { sHand with cores := sHand.cores.upd 0 fun k => { k with startq := [start0] } }
theorem meets_ApProgramsStart_start : (sStart.core 0).startq = [start0] ∧ ((sStart.core 0).aps[0]?).map (·.running) = some false
    ∧ (∀ a ∈ (sStart.core 0).aps, a.running = true → a.queues &&& start0.queues = 0) ∧ sStart.stopped (((sStart.blocks.look 1).map (·.ctx)).getD 0) = false := by decide +kernel
def entry0 : QEntry := { ap := 0, blk := 1, addrs := [0x1000000000000004], words := none, pc := 0 }
def sEntry : State := { sPush with cores := sPush.cores.upd 0 fun k => { k with queues := k.queues.set 2 [entry0] } }
theorem meets_ApProgramsStart_whole : sEntry.dq 0 2 = [entry0] ∧ sEntry.blocks.look 1 = some (blkOf sEntry) ∧ sEntry.ready [] = true ∧ apRmw sEntry (blkOf sEntry) entry0.addrs = false
    ∧ ((sEntry.ctxs.look 1).map (·.save.isSome)) = some false
    ∧ (match apWords sEntry (blkOf sEntry) entry0.addrs with | .ok l => l.1 == [5] | .error _ => false) = true ∧ 2 < (sEntry.core 0).queues.length := by decide +kernel
theorem test_entry_whole : after (exec (.apEntryWhole 0 2) sEntry) (fun s => some ((s.dq 0 2).map (·.words))) = some [some [5]] := by decide +kernel

/-! The picker -/

/-- Core 0 holds no set, and the thread of `one` is ready. -/
def idle (i : Instr) (f : Thread → Thread := id) : State :=
  let s := one i (fun t => f { t with st := .ready })
  { s with
    clock := 1, cores := s.cores.upd 0 fun k => { k with gather := none } }
theorem meets_PickIsOldest : (idle iAdd).threads.wf = true ∧ 4096 ∈ pickSet (recheck (idle iAdd) 0) 0 := by decide +kernel
theorem meets_GathersForm : ((idle iAdd).core 0).owner = some 1 ∧ ((idle iAdd).core 0).gather = none ∧ (idle iAdd).stopped 1 = false
    ∧ mismatch (idle iAdd) 0 = none ∧ pickSet (recheck (idle iAdd) 0) 0 = [4096] ∧ pcOf (idle iAdd) 4096 = some 0
    ∧ (let s1 := (recheck (idle iAdd) 0).updCore 0 fun k => { k with kept := none }
      match fetchOf s1 0 4096 with
      | .ok h => (clauseFault s1 0 0 h).isNone && ((s1.core 0).instr 0 0).isSome
      | _ => false) = true := by decide +kernel
theorem test_gather : after (exec (.gatherForm 0) (idle iAdd)) (fun s => (s.core 0).gather) = some g0 := by decide +kernel

/-! Engines -/

/-- The copy of `sCopy`, in flight. -/
def cp0 : Copy := { qd := shp 1024 1 0 [(2, 4)], qs := shp 0 1 0 [(2, 4)], o0 := 0, o1 := 0 }
def sCp (follow : Option (Nat × Shape)) (c : Copy := cp0) : State := flying sCopy (.copy c follow false 0)
def pCp (follow : Option (Nat × Shape)) (c : Copy := cp0) : Pend := pend0 (.copy c follow false 0)
/-- A lander of part0 over a state of `flying`. -/
theorem flyer (s : State) (op : POp) (h : (match (flying s op).threads.look 4096 with | some t => decide (t.st ≠ .exiting) && decide (t.flags.length = 12) | none => false) = true) :
    lander (flying s op) part0 := by
  revert h
  cases h' : (flying s op).threads.look 4096 with
  | none => intro h; cases h
  | some t =>
    intro h
    simp only [Bool.and_eq_true, decide_eq_true_eq] at h
    exact lander_part0 _ rfl t h' h.1 h.2
theorem meets_CopiesComplete : ∃ b, (sCp none).pend.look 7 = some (pCp none) ∧ (sCp none).blocks.look 1 = some b ∧ cmdReady (sCp none) (pCp none) = true
    ∧ (copyRest (sCp none) (pCp none) b cp0).fail = none
    ∧ (copyRest (sCp none) (pCp none) b cp0).full = false := ⟨_, by decide +kernel, rfl, by decide +kernel, by decide +kernel, by decide +kernel⟩
theorem meets_CopiesComplete_lander : lander (sCp none) part0 := flyer _ _ (by decide +kernel)
theorem meets_CopiesComplete_follow : (sCp (some (4, 0))).pend.wf = true ∧ (copyRest (sCp (some (4, 0))) (pCp (some (4, 0))) (me sCopy).b cp0).fail = none
    ∧ cmdReady (sCp (some (4, 0))) (pCp (some (4, 0))) = true := by decide +kernel
/-- A copy from a page without a translation. -/
def cpBad : Copy := { cp0 with qd := shp 1024 1 0 [(1, 4)], qs := shp 0 0 0 [(1, 4)] }
theorem meets_CopiesComplete_fault : ∃ b e va, (sCp none cpBad).blocks.look 1 = some b ∧ (copyRest (sCp none cpBad) (pCp none cpBad) b cpBad).fail = some (e, va)
    ∧ running (sCp none cpBad) 1 ∧ e.cause = 0x28 := ⟨_, ⟨0x28, 0⟩, 0, rfl, by decide +kernel, running_of (by decide +kernel), rfl⟩
theorem test_copy_complete : after (exec (.copyCommandComplete 7) (sCp none)) (fun s => (regOf s 4096 5).map fun w => (w, [byteAt s (.alloc 10 1024), byteAt s (.alloc 10 1031), byteAt s (.alloc 10 0)]))
    = some (8, [some 1, some 8, some 1]) := by decide +kernel

/-- A follow-on product whose copy is done. -/
def sFol : State := { flying sCopy (.copy cp0 (some (4, 0)) true 8) with nextId := 8 }
theorem meets_FollowOnsIssue : sFol.pend.look 7 = some (pend0 (.copy cp0 (some (4, 0)) true 8)) ∧ enginesRun sFol 1 = true ∧ arrayRoom sFol 0 = true
    ∧ (∀ d ∈ (sFol.core 0).mcmds, d.pend ≠ some 7)
    ∧ followOnWaits sFol (pend0 (.copy cp0 (some (4, 0)) true 8)) cp0 0 = false := by decide +kernel

def pFill : Pend := { pend0 (.wbind 3 (some cp0)) with parts := [] }
def sFill : State := { sCopy with
  pend := [(7, pFill)], nextId := 8, blocks := sCopy.blocks.upd 1 fun b => { b with windows := b.windows.set 3 { st := .filling, path := 1, lo := 1024, hi := 1032, copy := some cp0 } } }
theorem meets_FillsComplete : ∃ b x, (sFill.pend.find? fun (_, p) => p.blk == 1 && (match p.op with | .wbind w _ => w == 3 | _ => false)) = some (7, pFill)
    ∧ sFill.blocks.look 1 = some b ∧ b.windows[3]? = some x ∧ cmdReady sFill pFill = true ∧ (copyRest sFill pFill b cp0).fail = none ∧ (copyRest sFill pFill b cp0).full = false :=
  ⟨_, _, by decide +kernel, rfl, rfl, by decide +kernel, by decide +kernel, by decide +kernel⟩
/-- The scratchpad's publish buffer has its SHADOW range under the fill's source. -/
theorem meets_FillsComplete_shadow : (match { sFill with pubs := [(pubKey 10 2, { alloc := 10, view := 2048, shadow := 0, len := 64 })] } with
    | (s : State) => fillShadow s (me s).b cp0 && cmdReady s pFill && runs s 1) = true := by decide +kernel
theorem test_fill : after (exec (.windowFillComplete 1 3) sFill) (fun s => (s.blocks.look 1).bind fun b => (b.windows[3]?).map fun w => (w.st, byteAt s (.alloc 10 1024)))
    = some (.present, some 1) := by decide +kernel

def opAbs : ChainOp := { op := 7, src := 0, scalar := 0, stream := 0 }
def opHalf : ChainOp := { op := 1, src := 1, scalar := 0xBF800000, stream := 0 }
/-- −1.0 and 2.0: |x| − 1. -/
def sCh : State := { flying sCopy (.chain (shp 1024 1 0 [(2, 4)]) (shp 0 1 0 [(2, 4)]) [opAbs, opHalf]) with
  allocs := [(10, { path := 1, unit := 0, size := 65536, mem := [(2, 0x80), (3, 0xBF), (7, 0x40)] })] }
theorem meets_ChainsComplete : sCh.pend.look 7 = some (pend0 (.chain (shp 1024 1 0 [(2, 4)]) (shp 0 1 0 [(2, 4)]) [opAbs, opHalf]))
    ∧ sCh.blocks.look 1 = some (me sCh).b ∧ cmdReady sCh (pend0 (.chain (shp 1024 1 0 [(2, 4)]) (shp 0 1 0 [(2, 4)]) [opAbs, opHalf])) = true
    ∧ (chainRun sCh (me sCh).b (sCh.pend.lookD 7 (pend0 (.probe [] 0))).writer (shp 1024 1 0 [(2, 4)]) (shp 0 1 0 [(2, 4)]) [opAbs, opHalf]
        (remaining (shp 1024 1 0 [(2, 4)]) (sizes (shp 0 1 0 [(2, 4)])) [])).1.fail = none ∧ sCh.ctxs.has 1 = true := by decide +kernel
theorem meets_ChainsComplete_lander : lander sCh part0 := lander_part0 _ (by decide +kernel) (me sCh).t (by decide +kernel) (by decide +kernel) (by decide +kernel)
theorem test_chain : after (exec (.chainComplete 7) sCh) (fun s => some ((List.range 8).map fun i => byteAt s (.alloc 10 (1024 + i))))
    = some [some 0, some 0, some 0, some 0, some 0, some 0, some 0x80, some 0x3F] := by decide +kernel

def pub0 : Pub := { alloc := 10, view := 1024, shadow := 2048, len := 64 }
def sSwap : State := { flying sCopy (.publ (pubKey 10 2) [] .block [] []) with pubs := [(pubKey 10 2, pub0)] }
theorem meets_SwapsComplete : sSwap.pend.look 7 = some (pend0 (.publ (pubKey 10 2) [] .block [] [])) ∧ sSwap.allDone [] = true ∧ enginesRun sSwap 1 = true
    ∧ sSwap.pubs.look (pubKey 10 2) = some pub0 ∧ ∀ e ∈ sSwap.pend, 7 ≤ e.1 := by decide +kernel
theorem test_publ : after (exec (.publSwap 7) sSwap) (regOf · 4096 5) = some 0x10001 := by decide +kernel

/-- A context whose tables map the first GiB to itself, with its tables in frames 1 and 2 and frame 0 and those from 3 on as pages. -/
def paged (s : State) (dev : Bool := false) (bytes : Mem := []) : State :=
  { s with
    ctxs := s.ctxs.upd 1 fun k => { k with trcfg := 0x1000 }, keys := [(0, 1), (1, 2)],
    frames := [(0, { keyid := 1 }), (1, {}), (2, {}), (3, { keyid := 1 }), (4, { keyid := 1 })],
    hbm := ([(0x1000, 0x01), (0x1001, 0x20), (0x2000, if dev then 0x5F else 0x4F), (0x2001, 0x02)] : Mem) ++ bytes }
theorem walks : (match walk (paged sCopy) 1 0x3040 with | .ok l => l.pa == 0x3040 && l.rd && l.wr | .error _ => false) = true := by decide +kernel
/-- A weight image at 0x3000 of 4,096 decoded bytes: every code length is 8, and its one entry stands at 0x3000 + 268. -/
def image : Mem := [(0x3001, 0x10)] ++ (List.range 256).map (fun i => (0x3008 + i, 8)) ++ [(0x3108, 0x0C), (0x3109, 0x01)]
def sDec (region : Nat) : State := flying (paged sCopy false image) (.dectab region 0x3000 4096)
def pDec (region : Nat) : Pend := pend0 (.dectab region 0x3000 4096)
theorem meets_TablesBind : (sDec 7).pend.look 7 = some (pDec 7) ∧ cmdReady (sDec 7) (pDec 7) = true ∧ regionBusy (sDec 7) 1 7 = false
    ∧ (match regionOf (ownView (sDec 7) (some 4096)) 1 0x3000 4096 with | .ok (0, _) => true | _ => false) = true ∧ (sDec 7).ctxs.has 1 = true := by decide +kernel
theorem meets_TablesBind_lander : lander (sDec 7) part0 := flyer _ _ (by decide +kernel)
theorem meets_TablesBind_status : (match regionOf (ownView (sDec 7) (some 4096)) 1 0x3000 200 with | .ok (2, _) => true | _ => false) = true := by decide +kernel
theorem meets_TablesBind_region : 4095 < 4096 ∧ cmdReady (sDec 4096) (pDec 4096) = true ∧ regionBusy (sDec 4096) 1 4096 = false := by decide +kernel
theorem test_dectab : after (exec (.dectabComplete 7) (sDec 7)) (fun s => (regOf s 4096 5).map fun w => (w, ((s.ctx 1).regions.look 7).map (·.declen)))
    = some (0, some 4096) := by decide +kernel

def pLaunch : Pend := pend0 (.launch 3 (List.replicate 128 0) none)
def sLn : State := flying sCopy (.launch 3 (List.replicate 128 0) none)
theorem meets_LaunchesDecide : sLn.pend.look 7 = some pLaunch ∧ cmdReady sLn pLaunch = true ∧ (∀ e ∈ sLn.pend, ¬ e.1 < 7) ∧ (sLn.queue 0 3).en = false := by decide +kernel
theorem meets_LaunchesDecide_lander : lander sLn part0 := flyer _ _ (by decide +kernel)
theorem meets_LaunchesDecide_queue : 15 < 16 := by decide

def bell0 : Bell := { die := 0, ctx := 1, core := 0, th := some 4096, addr := 0x100000000, width := 4, data := 5, ret := some 7, waits := [] }
def sSend : State := { flying sBell (.dbell 8) with bells := [(8, bell0)], nextId := 9 }
theorem meets_DoorbellsSend : sSend.bells.look 8 = some bell0 ∧ sSend.bells.wf = true ∧ (∀ e ∈ sSend.bells, ¬ e.1 < 8) ∧ sSend.allDone [] = true
    ∧ porterAt bell0.addr 4 = some (.door 0) ∧ (sSend.doors.look 0).isSome = true ∧ sSend.pend.look 7 = some (pend0 (.dbell 8)) := by decide +kernel
theorem meets_DoorbellsSend_lander : lander sSend part0 :=
  lander_part0 _ (by decide +kernel) (me sSend).t (by decide +kernel) (by decide +kernel) (by decide +kernel)

/-- Function 9, bound to context 1 under PASID 1, with ATS; the requests have been sent at a cycle or not yet. -/
def sInv (sent : Option Nat) (ats : Bool) (clock : Nat) : State := { flying sCopy (.tlbinv 1 0 sent) with
  clock := clock, pasids := if ats then [(bindKey 9 1, 1)] else [], ats := if ats then [9] else [], tlb := [{ ctx := 1, page := 0, bits := 21, pte := 0x24F }] }
theorem meets_InvalidationsComplete : (sInv none false 0).pend.look 7 = some (pend0 (.tlbinv 1 0 none)) ∧ cmdReady (sInv none false 0) (pend0 (.tlbinv 1 0 none)) = true
    ∧ affectedFns (sInv none false 0) 1 1 = [] := by decide +kernel
theorem meets_InvalidationsComplete_lander : lander (sInv none false 0) part0 :=
  lander_part0 _ (by decide +kernel) (me (sInv none false 0)).t (by decide +kernel) (by decide +kernel) (by decide +kernel)
theorem meets_InvalidationsComplete_waits : affectedFns (sInv (some 0) true 5) 1 1 ≠ [] ∧ (sInv (some 0) true 5).clock < 0 + 2 ^ 27 := by decide +kernel
theorem meets_InvalidationsComplete_late : affectedFns (sInv (some 0) true (2 ^ 27)) 1 1 ≠ [] ∧ 0 + 2 ^ 27 ≤ (sInv (some 0) true (2 ^ 27)).clock := by decide +kernel
theorem test_tlbinv : after (exec (.tlbinvComplete 7 true) (sInv none true 5)) (fun s => some (s.tlb, s.out)) = some ([], [.atsInvalidate 9 1 0 0]) := by decide +kernel
theorem test_tlbinv_answered : after (exec (.tlbinvComplete 7 true) (sInv (some 0) true 5)) (regOf · 4096 5) = some 0 := by decide +kernel

/-- Overlay 1 loads into page 2: 4 zero bytes, with their hash or another. -/
def sLoad (hash : List Byte) : State :=
  let s := paged sCopy
  { s with
    codes := s.codes.upd 1 (fun k => { k with overlays := k.overlays ++ [{ num := 1, off := 0x3000, len := 4, hash := hash, sperm := false, home := 2 }] }),
    cores := s.cores.upd 0 fun k => { k with home := k.home.put 2 (.loading 1 1) } }
theorem meets_OverlayLoads : ((sLoad []).core 0).home.look 2 = some (.loading 1 1) ∧ ((sLoad []).core 0).owner = some 1 ∧ (sLoad []).codes.has 1 = true
    ∧ (overlayOf (sLoad []) 1 1).map (·.home) = some 2 ∧ ((sLoad []).core 0).store.wf = true ∧ ((sLoad []).core 0).home.wf = true
    ∧ (match (sLoad []).codes.look 1, overlayOf (sLoad []) 1 1 with
      | some k, some o => (match ovlBytes (sLoad []) 0 1 k o with | .ok l => l == [0, 0, 0, 0] | .error _ => false)
      | _, _ => false) = true
    ∧ (match engineBytes (sLoad []) (.global 1) 0x3000 4 with | .ok l => l == [0, 0, 0, 0] && sha256 l != [] | .error _ => false) = true
    ∧ ((sLoad []).codes.look 1).map (·.addr) = some 0 := by decide +kernel
theorem meets_OverlayLoads_running : running (sLoad []) 1 := running_of (by decide +kernel)
theorem meets_OverlayLoads_good : (match engineBytes (sLoad (sha256 [0, 0, 0, 0])) (.global 1) 0x3000 4 with | .ok l => sha256 l == sha256 [0, 0, 0, 0] | .error _ => false) = true := by decide +kernel
theorem test_overlay_load : after (exec (.overlayLoadComplete 0 2) (sLoad (sha256 [0, 0, 0, 0]))) (fun s => (s.core 0).home.look 2) = some (.resident 1 1 4 false) := by decide +kernel
theorem test_overlay_hash : after (exec (.overlayLoadComplete 0 2) (sLoad [])) (fun s => ((s.ctxs.look 1).bind (·.halt)).map (·.cause.stop.cause)) = some 0x31 := by decide +kernel

/-! Matrix commands -/

def cmd0 (kind : MKind) : MCmd := { id := 20, acc := 4, kind := kind, pend := some 7, blk := 1, ctx := 1, pc := 0 }
/-- Bytes of value 0x3F at odd addresses from 4097 and of 0x40 from 8193. -/
def halves : Mem := ((List.range 32).map fun i => (4097 + 2 * i, 0x3F)) ++ (List.range 32).map fun i => (8193 + 2 * i, 0x40)
/-- A matrix command at the head of the array of core 0; rows of 32 ones of bf16. -/
def sMat (qs : AMap Shape) (c : MCmd) (acc : AMap W32 := []) : State :=
  let s := flying (shapeState iMma qs) (.matrix 20)
  { s with
    cores := s.cores.upd 0 (fun k => { k with mcmds := [c], acc := acc }),
    allocs := [(10, { path := 1, unit := 0, size := 65536, mem := halves })] }
def mma0 : MKind := .mma (shp 4096 1 2 [(32, 2), (1, 64)]) (shp 8192 1 2 [(32, 2), (1, 64)]) none none false
theorem meets_MatrixCommandsRun : (((sMat prodShapes (cmd0 mma0)).core 0).mcmds.find? (·.id == 20)) = some (cmd0 mma0)
    ∧ matReady (sMat prodShapes (cmd0 mma0)) 0 (cmd0 mma0) = true ∧ (sMat prodShapes (cmd0 mma0)).pend.look 7 = some (pend0 (.matrix 20))
    ∧ (match matOf (cmd0 mma0) with
      | some x => isIntFmt (ShapeOf.fmt x.qa) == false && (mmaFloat (sMat prodShapes (cmd0 mma0)) (me (sMat prodShapes (cmd0 mma0))).b x 4 1 0 []).2.isNone
      | none => false) = true := by decide +kernel
theorem meets_MatrixCommandsRun_lander : lander (sMat prodShapes (cmd0 mma0)) part0 :=
  lander_part0 _ (by decide +kernel) (me (sMat prodShapes (cmd0 mma0))).t (by decide +kernel) (by decide +kernel) (by decide +kernel)
theorem meets_MatrixCommandsRun_accz : matReady (sMat prodShapes (cmd0 .accz)) 0 (cmd0 .accz) = true
    ∧ ((sMat prodShapes (cmd0 .accz) [(4096 * 4, 1), (4096 * 5, 2)]).core 0).acc.wf = true := by decide +kernel
/-- 0.5 (code 0x3F00) by 2.0 (code 0x4000), 32 times. -/
theorem test_mma : after (exec (.matrixCommandComplete 0 20) (sMat prodShapes (cmd0 mma0))) (fun s => some (accGet (s.core 0).acc 4 0 0)) = some 0x42000000 := by decide +kernel
theorem test_accz : after (exec (.matrixCommandComplete 0 20) (sMat prodShapes (cmd0 .accz) [(4096 * 4, 1), (4096 * 5, 2)]))
    (fun s => some (accGet (s.core 0).acc 4 0 0, accGet (s.core 0).acc 5 0 0)) = some (0, 2) := by decide +kernel

/-- A narrow-first command on rung 0 of STOP 3; the budgets are 0, so the cancellation count of operands of both signs may squash it. -/
def nf0 (qs : AMap Shape) : MCmd := cmd0 (.mmaNf (qs.lookD 1 0) (qs.lookD 2 0))
def nfSat : AMap Shape := nfShapes.upd 1 fun q => setFieldBits (setFieldBits (setFieldBits q 30 0) 31 0) 32 0
def sNfRun (qs : AMap Shape) (m : Mem) : State := { sMat qs (nf0 qs) with allocs := [(10, { path := 1, unit := 0, size := 65536, mem := m })] }
/-- A row of 1.0 and one element of 2^-20: at rung 0 it underflows. -/
def nfMem : Mem := [(4096, 0x80), (4097, 0x3F), (4098, 0x80), (4099, 0x35), (8192, 0x80), (8193, 0x3F)]
def attempted (s : State) (qs : AMap Shape) : Option (Bool × Bool) := (nfAttempt s 0 (nf0 qs)).map fun (_, y) => (y.squashed, y.fail.isNone)
theorem meets_NarrowFirst_squash : ((sNfRun nfSat nfMem).core 0).mcmds.find? (·.id == 20) = some (nf0 nfSat) ∧ attempted (sNfRun nfSat nfMem) nfSat = some (true, true)
    ∧ (nf0 nfSat).rung < 4 ∧ ((sNfRun nfSat nfMem).ctxs.look 1).map (·.rplc.length) = some 4 := by decide +kernel
theorem meets_NarrowFirst_commit : attempted (sNfRun nfSat []) nfSat = some (false, true) ∧ (sNfRun nfSat []).pend.look 7 = some (pend0 (.matrix 20)) := by decide +kernel
theorem meets_NarrowFirst_lander : lander (sNfRun nfSat []) part0 :=
  lander_part0 _ (by decide +kernel) (me (sNfRun nfSat [])).t (by decide +kernel) (by decide +kernel) (by decide +kernel)
theorem test_nf_squash : after (exec (.mmaNfSquash 0 20) (sNfRun nfSat nfMem)) (fun s => some ((s.core 0).mcmds.map fun c => (c.rung, c.att), (s.ctx 1).rplc))
    = some ([(1, 2)], [1, 0, 0, 0]) := by decide +kernel

/-! Contexts -/

/-- Context 2 beside context 1, which has SYS. -/
def withCtx2 (s : State) (f : Context → Context := id) : State :=
  { s with
    keys := s.keys.put 2 3, ctxs := (s.ctxs.upd 1 fun k => { k with trcfg := 2 }).put 2 (f {}) }
theorem lone_of {i : Instr} {s : State} (h : (clear i s g0 && decide (actors i s g0 = [me s]) && decide ((me s).t.flags.length = 12)) = true) : lone i s g0 (me s) := by
  simp only [Bool.and_eq_true, decide_eq_true_eq] at h
  exact ⟨h.1.1, h.1.2, rfl, h.2⟩
def iTp : Instr := .tlbinvPage { dst := .v 6, sa := .v 2 }
theorem meets_InvalidationsIssue_page : lone iTp (one iTp (regs [0, 0x5000, 0])) g0 (me (one iTp (regs [0, 0x5000, 0])))
    ∧ (me (one iTp (regs [0, 0x5000, 0]))).t.val (.int 64) (.v 2) / 2 ^ 60 = 0 := ⟨lone_of (by decide +kernel), by decide +kernel⟩
def iTc : Instr := .tlbinvCtx { dst := .v 6 }
theorem meets_InvalidationsIssue_ctx : lone iTc (one iTc) g0 (me (one iTc)) := lone_of (by decide +kernel)
def iTa : Instr := .tlbinvAll { dst := .v 6 }
theorem meets_InvalidationsIssue_all : lone iTa (withCtx2 (one iTa)) g0 (me (withCtx2 (one iTa))) ∧ ((withCtx2 (one iTa)).ctx 1).sys = true :=
  ⟨lone_of (by decide +kernel), by decide +kernel⟩
theorem meets_InvalidationsIssue_fault : lone iTa (one iTa) g0 (me (one iTa)) ∧ ((one iTa).ctx 1).sys = false ∧ running (one iTa) 1 :=
  ⟨lone_of (by decide +kernel), by decide +kernel, running_of (by decide +kernel)⟩

def iAs : Instr := .assayrd { dst := .v 6, sa := .v 1, sb := .v 2 }
def sAs (region sel : W32) : State := one iAs (regs [region, sel]) id fun k => { k with bytes := [(4095, 7)], umac := 9, resets := 3 }
theorem meets_CountersRead : lone iAs (sAs 4095 0) g0 (me (sAs 4095 0)) ∧ wellFormed iAs = true ∧ (me (sAs 4095 0)).t.val (.int 32) (.v 1) ≤ 4095
    ∧ (me (sAs 4095 0)).t.val (.int 32) (.v 2) = 0 := ⟨lone_of (by decide +kernel), by decide +kernel, by decide +kernel, by decide +kernel⟩
theorem meets_CountersRead_macs : lone iAs (sAs 0 1) g0 (me (sAs 0 1)) := lone_of (by decide +kernel)
theorem meets_CountersRead_none : lone iAs (sAs 5000 2) g0 (me (sAs 5000 2)) := lone_of (by decide +kernel)
theorem meets_CountersRead_signed : lone iAs (sAs 0 3) g0 (me (sAs 0 3)) := lone_of (by decide +kernel)
theorem meets_CountersRead_resets : lone iAs (sAs 0 4) g0 (me (sAs 0 4)) := lone_of (by decide +kernel)
theorem test_assayrd : after (step (sAs 4095 0)) replied = some [7, 0] := by decide +kernel
theorem test_assayrd_resets : after (step (sAs 0 4)) replied = some [3, 0] := by decide +kernel

/-- An instruction that names context n. -/
def named (i : X → Instr) (n : W32) (f : Context → Context := id) : State := withCtx2 (one (i { dst := .v 5, sa := .v 1 }) (regs [n])) f
def iSv : Instr := .ctxsave { dst := .v 5, sa := .v 1 }
def iLdx : Instr := .ctxload { dst := .v 5, sa := .v 1 }
def iHx : Instr := .haltx { dst := .v 5, sa := .v 1 }
def saved2 (k : Context) : Context := { k with save := some { cores := [], parts := [] } }
def huge2 (k : Context) : Context := { k with save := some { cores := [], parts := [(3, { ctx := 2, clusters := List.range 25, steward := true })] } }
def halt2 (cause : Nat) (k : Context) : Context := { k with halt := some { cause := { stop := plainStop 1 0 0 0 0 0 |> fun x => { x with cause := cause } }, at_ := 0 } }
theorem meets_ContextInstructions_save : lone iSv (named .ctxsave 2) g0 (me (named .ctxsave 2)) ∧ wellFormed iSv = true
    ∧ badCtx (named .ctxsave 2) (me (named .ctxsave 2)) 2 = false ∧ (2 : Nat) ≠ (me (named .ctxsave 2)).b.ctx ∧ ((named .ctxsave 2).ctx 2).save = none :=
  ⟨lone_of (by decide +kernel), by decide +kernel, by decide +kernel, by decide +kernel, by decide +kernel⟩
theorem meets_ContextInstructions_bad : lone iSv (named .ctxsave 0) g0 (me (named .ctxsave 0)) ∧ badCtx (named .ctxsave 0) (me (named .ctxsave 0)) 0 = true :=
  ⟨lone_of (by decide +kernel), by decide +kernel⟩
theorem meets_ContextInstructions_self : lone iSv (named .ctxsave 1) g0 (me (named .ctxsave 1)) ∧ badCtx (named .ctxsave 1) (me (named .ctxsave 1)) 1 = false :=
  ⟨lone_of (by decide +kernel), by decide +kernel⟩
theorem meets_ContextInstructions_saved : lone iSv (named .ctxsave 2 saved2) g0 (me (named .ctxsave 2 saved2)) ∧ ((named .ctxsave 2 saved2).ctx 2).save.isSome = true :=
  ⟨lone_of (by decide +kernel), by decide +kernel⟩
theorem meets_ContextInstructions_load : lone iLdx (named .ctxload 2 saved2) g0 (me (named .ctxload 2 saved2)) ∧ wellFormed iLdx = true
    ∧ badCtx (named .ctxload 2 saved2) (me (named .ctxload 2 saved2)) 2 = false ∧ (named .ctxload 2 saved2).keys.has 2 = true
    ∧ (restore (named .ctxload 2 saved2) 2).isSome = true :=
  ⟨lone_of (by decide +kernel), by decide +kernel, by decide +kernel, by decide +kernel, by decide +kernel⟩
theorem meets_ContextInstructions_full : lone iLdx (named .ctxload 2 huge2) g0 (me (named .ctxload 2 huge2))
    ∧ restore (named .ctxload 2 huge2) 2 = none :=
  ⟨lone_of (by decide +kernel), by decide +kernel⟩
theorem meets_ContextInstructions_resume : lone iLdx (named .ctxload 2 (halt2 0x36)) g0 (me (named .ctxload 2 (halt2 0x36)))
    ∧ haltedInPlace ((named .ctxload 2 (halt2 0x36)).ctx 2) = true := ⟨lone_of (by decide +kernel), by decide +kernel⟩
theorem meets_ContextInstructions_running : lone iLdx (named .ctxload 2) g0 (me (named .ctxload 2)) ∧ haltedInPlace ((named .ctxload 2).ctx 2) = false
    ∧ ((named .ctxload 2).ctx 2).save = none := ⟨lone_of (by decide +kernel), by decide +kernel, by decide +kernel⟩
theorem meets_ContextInstructions_halt : lone iHx (named .haltx 2) g0 (me (named .haltx 2)) ∧ wellFormed iHx = true ∧ unstepped (named .haltx 2) g0 = true
    ∧ (me (named .haltx 2)).t.pc = mkPc g0.off g0.slot ∧ badCtx (named .haltx 2) (me (named .haltx 2)) 2 = false ∧ running (named .haltx 2) 2 :=
  ⟨lone_of (by decide +kernel), by decide +kernel, by decide +kernel, by decide +kernel, by decide +kernel, running_of (by decide +kernel)⟩
theorem meets_ContextInstructions_halted : lone iHx (named .haltx 2 (halt2 0x20)) g0 (me (named .haltx 2 (halt2 0x20)))
    ∧ ((named .haltx 2 (halt2 0x20)).ctx 2).halt.isSome = true := ⟨lone_of (by decide +kernel), by decide +kernel⟩
theorem test_ctxsave_self : after (step (named .ctxsave 1)) replied = some [5] := by decide +kernel
theorem test_ctxload : after (step (named .ctxload 2 saved2)) (fun s => (regOf s 4096 5).map fun w => (w, (s.ctx 2).save.isSome)) = some (0, false) := by decide +kernel
theorem test_haltx : after (step (named .haltx 2)) (fun s => (regOf s 4096 5).map fun w => (w, ((s.ctx 2).halt.map (·.cause.stop.cause)))) = some (0, some 0x36) := by decide +kernel

/-! Halted contexts -/

def why (cause va : Nat) (eligible service : Bool) : Cause :=
  { stop := { engine := 1, cause := cause, unit := 0, va := va }, members := [4096], eligible := eligible, service := service }
/-- Context 1 halted, with a scratchpad for its stack. -/
def sHalt (c : Cause) (quiet : Bool) (serving : Option Nat := none) (pol : W32 := 0) (clock : Nat := 0) : State :=
  { pads (one iAdd id stacked fun k => { handler k with fltpol := pol, halt := some { cause := c, at_ := 0, quiet := quiet, serving := serving } }) with clock := clock }
theorem meets_HaltsBecomeQuiet : ∃ k h, (sHalt (why 0x20 0 true false) false).ctxs.look 1 = some k ∧ k.halt = some h ∧ h.quiet = false
    ∧ drained (unholdCtx (sHalt (why 0x20 0 true false) false) 1) 1 = true := ⟨_, _, rfl, rfl, rfl, by decide +kernel⟩
theorem meets_HaltsBecomeQuiet_busy : ∃ s k h, s.ctxs.look 1 = some k ∧ k.halt = some h ∧ h.quiet = false ∧ drained (unholdCtx s 1) 1 = false :=
  ⟨{ sHalt (why 0x20 0 true false) false with pend := [(7, pend0 (.ld (.alloc 10) 1 0 0 .s16 none))] }, _, _, rfl, rfl, rfl, by decide +kernel⟩
theorem test_quiescent : after (exec (.contextQuiescent 1) (sHalt (why 0x20 0 true false) false)) (fun s => some ((s.ctx 1).fltcnt, (s.ctx 1).records.map (·.cause), (s.ctx 1).halt.map (·.quiet)))
    = some (1, [0x20], some true) := by decide +kernel
theorem meets_Verdicts_maps : (sHalt (why 0x35 0 true true) true none 2).jobs.wf = true ∧ (sHalt (why 0x35 0 true true) true none 2).parts.wf = true
    ∧ (sHalt (why 0x35 0x3000 true true) true (some 0) 2).jobs.wf = true ∧ (sHalt (why 0x35 0x3000 true true) true (some 0) 2).parts.wf = true := by decide +kernel
theorem meets_Verdicts_service : ∃ k h, (sHalt (why 0x35 0 true true) true none 2).ctxs.look 1 = some k ∧ k.halt = some h ∧ h.quiet = true ∧ h.serving = none
    ∧ h.cause.stop.cause = 0x35 ∧ k.fltpol.getLsbD 1 = true ∧ h.cause.service = true := ⟨_, _, rfl, rfl, rfl, rfl, rfl, by decide +kernel, rfl⟩
theorem meets_Verdicts_delivery : ∃ k h, (sHalt (why 0x20 0 true false) true none 1).ctxs.look 1 = some k ∧ k.halt = some h ∧ h.quiet = true ∧ h.serving = none
    ∧ h.cause.stop.cause = 0x20 ∧ h.cause.eligible = true ∧ k.fltpol.getLsbD 0 = true ∧ h.cause.members = [4096]
    ∧ (me (sHalt (why 0x20 0 true false) true none 1)).b.a1 = some 10 ∧ (me (sHalt (why 0x20 0 true false) true none 1)).t.owed = [] ∧ handlerReady (sHalt (why 0x20 0 true false) true none 1) (me (sHalt (why 0x20 0 true false) true none 1)) 64 :=
  ⟨_, _, rfl, rfl, rfl, rfl, rfl, rfl, by decide +kernel, rfl, rfl, rfl, by decide +kernel, by decide +kernel, by decide +kernel, by decide +kernel, by decide +kernel⟩
theorem meets_Verdicts_kill : ∃ k h, (sHalt (why 0x20 0 true false) true).ctxs.look 1 = some k ∧ k.halt = some h ∧ h.quiet = true ∧ h.serving = none
    ∧ h.cause.stop.cause ≠ 0x36 ∧ k.fltpol.getLsbD 0 = false := ⟨_, _, rfl, rfl, rfl, rfl, by decide +kernel, by decide +kernel⟩
theorem test_delivery : after (exec (.faultVerdict 1) (sHalt (why 0x20 0 true false) true none 1)) (fun s => (s.threads.look 4096).map (·.pc)) = some 0x40 := by decide +kernel
theorem test_kill : after (exec (.faultVerdict 1) (sHalt (why 0x20 0 true false) true)) (fun s => some (s.blocks.length, s.threads.length)) = some (0, 0) := by decide +kernel
theorem meets_PageService : ∃ k h, (sHalt (why 0x35 0x3000 true true) true (some 0) 2).ctxs.look 1 = some k ∧ k.halt = some h ∧ h.serving = some 0
    ∧ (sHalt (why 0x35 0x3000 true true) true (some 0) 2).clock < 0 + 2 ^ 24 := ⟨_, _, rfl, rfl, rfl, by decide +kernel⟩
theorem meets_PageService_mapped : (match walk (paged (sHalt (why 0x35 0x3000 true true) true (some 0) 2)) 1 0x3000 with | .ok _ => true | .error _ => false) = true := by decide +kernel
theorem meets_PageService_late : 0 + 2 ^ 24 ≤ (sHalt (why 0x35 0x3000 true true) true (some 0) 2 (2 ^ 24)).clock := by decide +kernel
theorem test_page_service : after (exec (.pageServiceComplete 1) (paged (sHalt (why 0x35 0x3000 true true) true (some 0) 2))) (fun s => some (s.ctx 1).halt) = some none := by decide +kernel
def sDog (clock : Nat) : State := { one iAdd fun t => { t with st := .flagWait } with clock := clock }
theorem meets_WatchdogExpires : (sDog 5).threads.look 4096 = some (me (sDog 5)).t ∧ (sDog 5).blocks.look 1 = some (me (sDog 5)).b ∧ running (sDog 5) 1
    ∧ waitOf (me (sDog 5)).t = some (1, 0) ∧ (sDog 5).clock < 0 + 2 ^ (((sDog 5).ctx 1).wdog.toNat % 64) :=
  ⟨by decide +kernel, by decide +kernel, running_of (by decide +kernel), by decide +kernel, by decide +kernel⟩
theorem meets_WatchdogExpires_due : 0 + 2 ^ (((sDog (2 ^ 30)).ctx 1).wdog.toNat % 64) ≤ (sDog (2 ^ 30)).clock ∧ running (sDog (2 ^ 30)) 1 :=
  ⟨by decide +kernel, running_of (by decide +kernel)⟩
/-- The block barrier 1 has gone on to its next phase while the thread waits for phase 0. -/
def sDogBar (phase : Nat) : State :=
  { one iAdd (fun t => { t with st := .barWait .block 1, last := [(lastIdx .block 1, 0)] }) with clock := 2 ^ 30, bars := [(barKey .block 1 1, { phase := phase })] }
theorem meets_WatchdogExpires_phase : (me (sDogBar 0)).t.st = .barWait .block 1 ∧ phaseDone (sDogBar 0) 4096 .block 1 = false ∧ phaseDone (sDogBar 1) 4096 .block 1 = true
    ∧ waitOf (me (sDogBar 1)).t = some (2, 0) := by decide +kernel
theorem test_watchdog : after (exec (.watchdogExpiry 4096) (sDog (2 ^ 30))) (fun s => ((s.ctx 1).halt.map (·.cause.stop.cause))) = some 0x2C := by decide +kernel

def sPre (tier clock : Nat) : State := { one iAdd (fun t => { t with st := .ready }) id fun k => { k with preempt := some { tier := tier, prio := 7, at_ := 0 } } with clock := clock }
theorem meets_Preemption_1 : ∃ k p, (sPre 1 24000).ctxs.look 1 = some k ∧ k.preempt = some p ∧ p.tier = 1 ∧ p.at_ + deadline1 p.prio ≤ (sPre 1 24000).clock :=
  ⟨_, _, rfl, rfl, rfl, by decide +kernel⟩
theorem meets_Preemption_1_early : 0 + deadline1 7 > (sPre 1 23999).clock := by decide +kernel
theorem meets_Preemption_2 : ∃ k p, (sPre 2 0).ctxs.look 1 = some k ∧ k.preempt = some p ∧ p.tier = 2 ∧ saveReady (sPre 2 0) 1 = true
    ∧ (sPre 2 0).clock < p.at_ + 2 * 2 ^ bits k.fabcfg.toNat 4 0 + 48000 ∧ ∀ e ∈ (sPre 2 0).pend, e.2.op ≠ .ctxsave 1 :=
  ⟨_, _, rfl, rfl, rfl, by decide +kernel, by decide +kernel, by decide +kernel⟩
theorem meets_Preemption_3 : ∃ k p, (sPre 2 (2 * 2 ^ 20 + 48000)).ctxs.look 1 = some k ∧ k.preempt = some p ∧ p.tier = 2
    ∧ p.at_ + 2 * 2 ^ bits k.fabcfg.toNat 4 0 + 48000 ≤ (sPre 2 (2 * 2 ^ 20 + 48000)).clock := ⟨_, _, rfl, rfl, rfl, by decide +kernel⟩
theorem meets_Preemption_3_early : ∃ k, (sPre 2 5).ctxs.look 1 = some k ∧ (sPre 2 5).clock < 0 + 2 * 2 ^ bits k.fabcfg.toNat 4 0 + 48000 := ⟨_, rfl, by decide +kernel⟩
theorem meets_Preemption_maps : (sPre 2 0).jobs.wf = true ∧ (sPre 2 0).parts.wf = true := by decide +kernel
theorem test_tier2 : after (exec (.preemptionTier2 1) (sPre 1 24000)) (fun s => ((s.ctx 1).preempt.map (·.tier))) = some 2 := by decide +kernel
theorem test_save : after (exec (.contextSaveComplete 1) (sPre 2 0)) (fun s => some ((s.ctx 1).save.isSome, (s.ctx 1).preempt)) = some (true, none) := by decide +kernel

/-! Launch queues -/

/-- Bytes of a record or a header from (offset, length, value). -/
def fields (n : Nat) (l : List (Nat × Nat × Nat)) : List Byte := Mem.readN (l.foldl (fun m e => Mem.writeN m e.1 (leBytes e.2.1 e.2.2)) []) 0 n
/-- Queue 0 of die 0: owner 1, enabled, 16 slots, its slots at 0x3000 and its ring at 0x4000. -/
def lq (f : Queue → Queue := id) (dev : Bool := false) (rec : List (Nat × Nat × Nat) := []) : State :=
  let s := paged (one iAdd)
  { s with
    queues := [(queueKey 0 0, f { cfg := 0x00110000 + 4 * 2 ^ 11 + 4 * 2 ^ 6 + (if dev then 0x20000 else 0), base := 0x3000, rbase := 0x4000 })],
    hbm := (rec.foldl (fun m e => Mem.writeN m (0x3000 + e.1) (leBytes e.2.1 e.2.2)) s.hbm) }
theorem meets_LaunchRecords : ((lq).queue 0 0).devq = false ∧ ((lq).queue 0 0).en = true ∧ ((lq).queue 0 0).stat.getLsbD 1 = false ∧ ((lq).queue 0 0).waiting = []
    ∧ ((lq).queue 0 0).room = true ∧ 15 < 2 ^ ((lq).queue 0 0).lgn
    ∧ (match engineBytes (lq) (.global ((lq).queue 0 0).owner) (((lq).queue 0 0).base.toNat + 128 * 15) 128 with
      | .ok b => ahead (BitVec.ofNat 32 (recNat b 0 4)) ((lq).queue 0 0).ack == false
      | .error _ => false) = true := by decide +kernel
theorem meets_LaunchRecords_ring : (match resolve (lq) (.global 1) 0x4010 0x4010 true with | .ok (.hbm pa) => pa == 0x4010 | _ => false) = true
    ∧ linePoison (lq) (lineOf 0x4010) = false ∧ (lq).hbm.wf = true := by decide +kernel
theorem meets_LaunchRecords_far : ahead 2 ((lq).queue 0 0).ack = true ∧ ahead 2 (((lq).queue 0 0).ack + 1) = true := by decide +kernel
def lqNext : State := lq id false [(0, 4, 1)]
theorem meets_LaunchRecords_refused : slotCode lqNext 0 0 0 = 0
    ∧ (match engineBytes lqNext (.global 1) 0x3000 128 with
      | .ok b => (match checkRecord lqNext 0 0 1 (some 0) ⟨b⟩ with | .error (5, 8) => true | _ => false)
      | .error _ => false) = true := by decide +kernel
theorem meets_LaunchRecords_taken : slotCode (lq fun x => { x with slots := [(0, 99)] }) 0 0 0 ≠ 0 := by decide +kernel
/-- The record of JSEQ 1 has RELSC 0, which R98 does not allow: status 5 at offset 8. -/
theorem test_lqsub : after (exec (.lqsubWrite 0 0 0) lqNext) (fun s => (hbmRead s 0x4010 16).map fun b => (recNat b 0 4, recNat b 4 4, recNat b 8 2, recNat b 10 1, recNat b 11 1, recNat b 12 4))
    = some (1, 1, 0, 2, 5, 8) := by decide +kernel
theorem meets_LaunchRecordsTurnedAway : ((lq fun x => { x with cfg := 0 }).queue 0 0).en = false ∧ ((lq id true).queue 0 0).devq = true
    ∧ ((lq fun x => { x with stat := 2 }).queue 0 0).stat.getLsbD 1 = true ∧ 2 ^ ((lq).queue 0 0).lgn ≤ (16 : W32).toNat ∧ (65535 : W32).toNat = 65535 := by decide +kernel
theorem test_lqsub_index : after (exec (.lqsubWrite 0 0 16) (lq)) (fun s => (hbmRead s 0x4010 16).map fun b => (recNat b 8 2, recNat b 11 1, recNat b 12 4)) = some (16, 3, 16) := by decide +kernel

theorem meets_QueueRegisters_rack : ∃ v, ((lq fun x => { x with rseq := 3 }).queue 0 0).waiting = [] ∧ ahead v ((lq fun x => { x with rseq := 3 }).queue 0 0).rseq = false
    ∧ ahead ((lq fun x => { x with rseq := 3 }).queue 0 0).rack v = false := ⟨3, by decide +kernel⟩
theorem meets_QueueRegisters_rack_err : ahead 4 ((lq fun x => { x with rseq := 3 }).queue 0 0).rseq = true := by decide +kernel
theorem test_lqrack_err : after (exec (.lqrackWrite 0 0 4) (lq fun x => { x with rseq := 3 })) (fun s => some (s.queue 0 0).stat) = some 8 := by decide +kernel
def job0 (st : SlotSt) (record : List (Nat × Nat × Nat) := []) : Job :=
  { ctx := 1, die := 0, queue := 0, slot := 2, seq := 1, accepted := 5, record := fields 128 record, code := 1, st := st, count := 1 }
def lqJob (st : SlotSt) : State := { lq fun x => { x with slots := [(2, 99)] } with jobs := [(99, job0 st)] }
theorem meets_QueueRegisters_cancel : slotJob (lqJob .held) 0 0 2 = some (99, job0 .held) ∧ (job0 .held).die = 0 ∧ (job0 .held).queue = 0 ∧ (job0 .held).slot = 2
    ∧ ((lqJob .held).queue 0 0).waiting = [] ∧ ((lqJob .held).queue 0 0).room = true := by decide +kernel
theorem meets_QueueRegisters_cancel_not : slotJob (lqJob .ready) 0 0 2 = some (99, job0 .ready) ∧ (job0 .ready).st ≠ .held := by decide +kernel
theorem meets_QueueRegisters_cancel_maps : (lqJob .held).jobs.wf = true ∧ ((lqJob .held).queue 0 0).slots.wf = true := by decide +kernel
theorem test_lqcan : after (exec (.lqcanWrite 0 0 2) (lqJob .held)) (fun s => (hbmRead s 0x4010 16).map fun b => (recNat b 8 2, recNat b 10 1, (s.queue 0 0).slots)) = some (2, 6, []) := by decide +kernel
theorem meets_QueueRegisters_cfg : Steward.up { step := 7, recovery := false } = true ∧ (lq).steward.up = false ∧ ((lq fun x => { x with cfg := 0 }).queue 0 0).en = false ∧ (0x10000 : W32).getLsbD 16 = true ∧ ((lq).queue 0 0).en = true := by decide +kernel
theorem test_lqcfg : after (exec (.lqcfgWrite 0 0 0x10000) { lq (fun x => { x with cfg := 0, ack := 9 }) with steward := { step := 7, recovery := false } }) (fun s => some ((s.queue 0 0).ack, (s.queue 0 0).cfg)) = some (0, 0x10000) := by decide +kernel
theorem meets_RegisterWrites : (lq).ctxs.has 1 = true ∧ ((lq).notify.filter fun e => e.1 != 5 && sameBinding { (lq).notify.lookD 5 {} with hi := 1 } e.2).length < 63
    ∧ (2 : W64).getLsbD 0 = false := by decide +kernel

/-! Placement and pipelines -/

def ker0 : Kernel := { num := 0, entovl := 0, entoff := 0, threads := 1, maxlive := 8, stack := 0, energy := 0, csdata := 0, cldata := 0, clblk := 1, diedata := 0, shapes := [] }
/-- A Ready job of one grid of one block for die 0. -/
def sPlace : State :=
  let s := lq
  { s with
    codes := s.codes.upd 1 (fun k => { k with kernels := [ker0] }), jobs := [(99, { job0 .ready [(9, 1, 1), (10, 2, 1), (52, 4, 1)] with grids := [30], share := 1, count := 0 })],
    grids := [(30, { job := 99, gridId := 0, nblocks := 1 })], nextId := 100 }
theorem meets_PlacementPasses : sPlace.grids.wf = true ∧ (match workOf (markForced (grantClaims (endDrains sPlace)) 0) 0 with
    | w :: _ => w.work == .grid 30 && (placeWork (markForced (grantClaims (endDrains sPlace)) 0) w).isSome
    | [] => false) = true := by decide +kernel
theorem test_placement : after (exec (.placementPass 0) sPlace) (fun s => some ((s.grids.look 30).map (·.st), (s.jobs.look 99).map (·.st), (s.queue 0 0).rseq))
    = some (some .resident, some .running, 1) := by decide +kernel
def sRel : State := { State.reset with parts := [(3, { ctx := 1, clusters := [0, 1], steward := true })] }
theorem meets_PlacementPasses_release : sRel.jobs = [] ∧ sRel.grids = [] ∧ sRel.blocks = [] ∧ (∀ e ∈ sRel.ctxs, e.2.save = none)
    ∧ sRel.parts.look 3 = some { ctx := 1, clusters := [0, 1], steward := true } ∧ ({ ctx := 1, clusters := [0, 1], steward := true } : Part2).die = 0 ∧ sRel.parts.wf = true := by decide +kernel

def st0 : Stage := { kernel := 0, itemsz := 32, depth := 16, next := none, kind := 1, batch := 0, outmax := 0 }
/-- A pipeline job of one continuation stage with two items at 0x3000. -/
def pipe0 (st : Stage) (fed : Nat := 0) : Job := { job0 .ready [(7, 1, 2), (9, 1, 1), (60, 4, 2), (72, 8, 0x3000)] with stages := [st], fed := fed }
def sPipe (st : Stage) (fed : Nat := 0) : State :=
  let s := lq
  { s with codes := s.codes.upd 1 (fun k => { k with kernels := [ker0] }), jobs := [(99, pipe0 st fed)] }
theorem meets_PipelinesFeed_feed : (sPipe st0).jobs.look 99 = some (pipe0 st0) ∧ (pipe0 st0).stages = [st0] ∧ (pipe0 st0).st ≠ .held ∧ placeable (sPipe st0) 1 = true
    ∧ (match readItems (sPipe st0) 1 0x3000 32 0 2 with | .ok l => l.length == 2 | .error _ => false) = true := by decide +kernel
theorem test_stage_feed : after (exec (.stageFeed 99) (sPipe st0)) (fun s => (s.jobs.look 99).map fun j => (j.fed, j.stages.map (·.queue.length))) = some (2, [2]) := by decide +kernel
def item0 : List Byte := fields 32 [(0, 4, 8)]
theorem meets_PipelinesFeed_bin : itemOk (sPipe { st0 with queue := [item0] }) 1 item0 = true := by decide +kernel
theorem meets_PipelinesFeed_bin_running : running (sPipe { st0 with queue := [item0] }) 1 := running_of (by decide +kernel)
theorem meets_PipelinesFeed_bad : itemOk (sPipe { st0 with queue := [item0] }) 1 (fields 32 [(0, 4, 0x40000)]) = false := by decide +kernel
theorem meets_PipelinesFeed_dry : dryFed (sPipe st0 2) 99 (pipe0 st0 2) 0 = true := by decide +kernel
theorem meets_PipelinesFeed_wet : dryFed (sPipe st0) 99 (pipe0 st0) 0 = false := by decide +kernel
theorem test_binning : after (exec (.continuationBinning 99 0) (sPipe { st0 with queue := [item0] })) (fun s => (s.jobs.look 99).bind fun j => (j.stages[0]?).map fun st => (st.bins, st.queue.length))
    = some ([(8, [item0])], 0) := by decide +kernel
theorem meets_BinsKeepItems : (({ st0 with bins := [(8, [item0])] } : Stage).bins.map (·.1)).Nodup ∧ ({ st0 with bins := [(8, [item0])] } : Stage).bins.length ≤ 16
    ∧ ∀ e ∈ ({ st0 with bins := [(8, [item0])] } : Stage).bins, e.2.length < 64 := by decide +kernel
/-- A block of the stage on core 0. -/
def sGov : State := { sPipe { st0 with est := 800 } with blocks := (sPipe st0).blocks.upd 1 fun b => { b with job := 99, stage := some 0 } }
theorem meets_GovernorWindows : (stageBlocks sGov 99 0).filter (fun e => e.2.core == 0) = [(1, (me sGov).b)] ∧ [(1, 1600)].find? (·.1 == 1) = some (1, 1600)
    ∧ ∀ e ∈ stageBlocks sGov 99 0, e.2.core ≠ 1 := by decide +kernel
theorem test_governor : after (exec (.governorWindowEnd 0 [(1, 1600)]) sGov) (fun s => (s.jobs.look 99).bind fun j => (j.stages[0]?).map (·.est)) = some 900 := by decide +kernel

/-- A grid of job 99 that retires, beside other grids of the job. -/
def gr (st : GridSt) (retiring : Bool) : Grid := { job := 99, gridId := 0, nblocks := 1, st := st, retiring := retiring }
def sRet2 (others : List (Nat × Grid)) (succ : List (Nat × W32)) (more : List (Nat × Job)) : State :=
  { lq (fun x => { x with slots := [(2, 99), (3, 100)] }) with
    jobs := [(99, { job0 .running [(8, 1, 4), (9, 1, 1)] with grids := 30 :: others.map (·.1), succ := succ })] ++ more,
    grids := (30, gr .resident true) :: others }
theorem meets_GridsRetire : (sRet2 [] [] []).grids.look 30 = some (gr .resident true) ∧ (gr .resident true).retiring = true ∧ (sRet2 [] [] []).jobs.has 99 = true
    ∧ (let r := beginClose (sRet2 [] [] []) [] [] [] 4; r.2.allDone r.1) = true ∧ (∀ e ∈ (sRet2 [] [] []).jobs, e.2.parent ≠ some 30 ∧ e.2.parentJob ≠ some 99)
    ∧ (sRet2 [] [] []).ctxs.has 1 = true := by decide +kernel
theorem meets_GridsRetire_maps : (sRet2 [] [] []).jobs.wf = true ∧ (sRet2 [] [(3, 2)] [(100, { job0 .held with slot := 3, seq := 2 })]).jobs.wf = true := by decide +kernel
theorem meets_GridsRetire_waits : ({ sRet2 [] [] [] with stores := [(8, store0 (.plain [1]) none)] } : State).allDone [8] = false := by decide +kernel
def sPipeEnd (j : Job) : State := { sRet2 [] [] [] with jobs := [(98, { j with stages := [], fed := j.r.nitems })], grids := [] }
theorem meets_GridsRetire_pipe : (let s := sPipeEnd { pipe0 st0 with st := .running }; match s.jobs.look 98 with
    | some j => pipeEnded s 98 j && (let r := beginClose s (AMap.sel s.blocks fun _ b => b.job == 98) j.obs j.routes j.r.relsc; r.2.allDone r.1)
    | none => false) = true ∧ (sPipeEnd (pipe0 st0)).grids.look 98 = none
    ∧ pipeEnded (sPipe st0) 99 (pipe0 st0) = false := by decide +kernel
theorem meets_GridsRetire_more : ((sRet2 [(31, gr .resident false)] [] []).grids.look 31).map (·.st) ≠ some .ended := by decide +kernel
def held1 : Job := { job0 .held with slot := 3, seq := 2 }
theorem meets_GridsRetire_succ : slotJob (sRet2 [] [(3, 2)] [(100, held1)]) 0 0 3 = some (100, held1) ∧ held1.st = .held ∧ ((sRet2 [] [(3, 2)] [(100, held1)]).queue 0 0).waiting = []
    ∧ (∀ e ∈ (sRet2 [] [(3, 2)] [(100, held1)]).jobs, e.2.parent ≠ some 30 ∧ e.2.parentJob ≠ some 99) := by decide +kernel
theorem test_retire : after (exec (.gridRetire 30) (sRet2 [] [(3, 2)] [(100, held1)])) (fun s => some (s.jobs.has 99, (s.jobs.look 100).map (·.st), (s.ctx 1).statements.map (·.kind)))
    = some (false, some .ready, [2]) := by decide +kernel

/-! Memory behind the controllers -/

/-- Line 193 (frame 3) with one pending write and a frame record. -/
def sLine (f : Frame) (full : Bool := false) (bad : NSet := []) : State :=
  { State.reset with keys := [(0, 1)], frames := [(3, f)], poison := bad, wq := [{ line := 193, red := false, full := full }] }
theorem records_none (t : State) (l : List Nat) (pa : Nat) (ht : t.ctxs = []) : treeRecords t l pa = t := by
  unfold treeRecords
  have : ((l.filterMap fun f => (t.frames.look f).map (·.keyid)).eraseDups.filter fun k => k != 0 && t.ctxs.has k) = [] :=
    List.filter_eq_nil_iff.2 fun a _ => by simp [ht, AMap.has, AMap.look]
  simp only [this]; rfl
/-- Where no context can record a failed node, the checked read leaves the queue and the frames as they are. -/
theorem arrayCheck_keeps (s : State) (line : Nat) (h : s.ctxs = []) : (arrayCheck s line).wq = s.wq ∧ (arrayCheck s line).frames = s.frames := by
  unfold arrayCheck
  extract_lets f e s1
  by_cases hz : (f.zp && s1.frames.has (line / 64)) = true
  · rw [if_pos hz]; exact ⟨rfl, rfl⟩
  rw [if_neg hz]
  by_cases h1 : e = 1
  · rw [if_pos h1]; exact ⟨rfl, rfl⟩
  rw [if_neg h1]
  by_cases h2 : e = 2
  · rw [if_pos h2]; unfold spoil; split
    · split <;> exact ⟨rfl, rfl⟩
    · exact ⟨rfl, rfl⟩
  rw [if_neg h2]
  by_cases h3 : e = 3
  · rw [if_pos h3]; unfold treeFails; rw [records_none _ _ _ (by exact h)]; exact ⟨rfl, rfl⟩
  · rw [if_neg h3]; exact ⟨rfl, rfl⟩
theorem meets_LineWrites_full : (sLine {} true).wq.any (fun w => w.line == 193) = true
    ∧ popLine (arrayCheck (sLine {} true) 193).wq 193 = some ({ line := 193, red := false, full := true }, [])
    ∧ ((arrayCheck (sLine {} true) 193).frames.lookD 3 {}).zp = false ∧ ((arrayCheck (sLine {} true) 193).frames.lookD 3 {}).minorOf 1 ≠ 127 := by
  rw [(arrayCheck_keeps (sLine {} true) 193 rfl).1, (arrayCheck_keeps (sLine {} true) 193 rfl).2]; decide +kernel
theorem meets_LineWrites_lost : arrayPoison (sLine {} false [193]) 193 {} = true ∧ popLine (sLine {} false [193]).wq 193 = some ({ line := 193, red := false, full := false }, []) := by decide +kernel
theorem meets_LineWrites_wrap : ({ major := 3, minor := [(1, 127)] } : Frame).minorOf 1 = 127 ∧ ({ major := 3, minor := [(1, 127)] } : Frame).major + 1 < 2 ^ 64 := by decide +kernel
theorem meets_LineWrites_last : ({ major := 2 ^ 64 - 1, minor := [(1, 127)] } : Frame).major + 1 = 2 ^ 64 := by decide +kernel
theorem meets_LineWrites_zp_last : ((sLine { zp := true, major := 2 ^ 64 - 1 }).frames.lookD 3 {}).zp = true
    ∧ ¬ ((sLine { zp := true, major := 2 ^ 64 - 1 }).frames.lookD 3 {}).major + 1 < 2 ^ 64 := by decide +kernel
theorem meets_LineWrites_zp : popLine (arrayCheck (sLine { zp := true }) 193).wq 193 = some ({ line := 193, red := false, full := false }, [])
    ∧ ((arrayCheck (sLine { zp := true }) 193).frames.lookD 3 {}).zp = true ∧ (arrayCheck (sLine { zp := true }) 193).keys.has 0 = true
    ∧ treeFailed (arrayCheck (sLine { zp := true }) 193) 3 = false := by decide +kernel
theorem meets_LineWrites_zp_lost : ({ sLine { zp := true } with keys := [] } : State).keys.has 0 = false := by decide +kernel
/-- A write of all 64 bytes ends the line's poison; another to a line that is poison counts nothing and leaves it so. -/
theorem test_line_full : (lineWrite (sLine {} true [193, 194]) 193).poison = [194] := by decide +kernel
theorem test_line_lost : (lineWrite (sLine {} false [193]) 193).poison = [193] ∧ (lineWrite (sLine {} false [193]) 193).frames = [(3, {})] := by decide +kernel
/-- The worked sequence of R301: minor 127 re-encrypts the frame under the next MAJOR, and the line's minor counts from 1 again. -/
theorem test_line_wrap : ((lineWrite (sLine { major := 3, minor := [(0, 5), (1, 127)] }) 193).frames.look 3).map (fun f => (f.major, f.minorOf 0, f.minorOf 1)) = some (4, 0, 1) := by decide +kernel
theorem test_line_count : (((lineWrite (sLine { major := 3, minor := [(1, 126)] }) 193).frames.look 3).map fun f => (f.major, f.minorOf 1), (lineWrite (sLine { major := 3, minor := [(1, 126)] }) 193).ver1.lookD 3 0) = (some (3, 127), 1) := by decide +kernel
theorem meets_LineReads : (sLine { zp := true }).frames.look 3 = some { zp := true } := by decide +kernel
theorem meets_RowsAreSpared : (State.reset.stack 0).copying.has 5 = false ∧ (∀ e ∈ (State.reset.stack 0).repair, e.1 ≠ 5) ∧ (State.reset.stack 0).used ≠ 1024 := by decide +kernel
def sSpare (p : Nat) : State := { State.reset with stackRecs := [(0, { used := 1, copying := [(5, { p := p, spare := 0 })] })] }
theorem meets_RowsAreSpared_copy : ((sSpare 4).stack 0).copying.look 5 = some { p := 4, spare := 0 } ∧ ((sSpare 31).stack 0).copying.look 5 = some { p := 31, spare := 0 }
    ∧ ((sSpare 4).stack 0).copying.wf = true := by decide +kernel
theorem test_sparing_start : after (exec (.sparingCopyStart 0 5) State.reset) (fun s => some ((s.stack 0).used, (s.stack 0).copying)) = some (1, [(5, { p := 0, spare := 0 })]) := by decide +kernel

/-! Other modules -/

def rq (op : RemOp) (domain : W16 := 0) : RemReq := { src := 3, id := 8, domain := domain, va := 0x3010, op := op }
theorem meets_RemoteRequestsServed : domainCtx (lq) 0 = some 1
    ∧ (match resolve (lq) (.global 1) 0x3010 0x3010 false with
      | .ok l => (match locRead (ownView (lq) (loopThread (lq) (rq (.load 4)))) l 4 with | .ok _ => true | .error _ => false)
      | .error _ => false) = true := by decide +kernel
theorem meets_RemoteRequestsServed_store : (match resolve (lq) (.global 1) 0x3010 0x3010 true with
      | .ok (.hbm pa) => queueRoom (lq) (.hbm pa) && !linePoison (lq) (lineOf pa) && pa % 64 + 4 ≤ 64
      | _ => false) = true ∧ (lq).hbm.wf = true
    ∧ (match resolve (lq) (.global 1) 0x3080 0x3080 true with
      | .ok (.hbm pf) => pf % 4 == 0 && lineOf pf != lineOf 0x3010 && !linePoison (lq) (lineOf pf)
          && decide (Machine.queued (lq) (ownerOf pf) + 1 < Config.writeQueue)
      | _ => false) = true := by decide +kernel
theorem meets_RemoteRequestsServed_nak : domainCtx (lq) 7 = none ∧ (rq (.store [1] none) 7).op ≠ .load 4 := by decide +kernel
theorem test_remote_load : after (exec (.remoteRequestServe (rq (.load 4))) (lq id false [(0x10, 4, 0x1234)])) (fun s => some s.out) = some [.remoteReply 8 (.data 0x1234)] := by decide +kernel
theorem test_remote_store : after (exec (.remoteRequestServe (rq (.store [1, 2, 3, 4] (some 0x3080)))) (lq)) (fun s => (hbmRead s 0x3080 4).map fun b => (s.out, hbmRead s 0x3010 4, b))
    = some ([.remoteAck 8 false], some [1, 2, 3, 4], [1, 0, 0, 0]) := by decide +kernel
theorem test_remote_nak : after (exec (.remoteRequestServe (rq (.load 4) 7)) (lq)) (fun s => some s.out) = some [.remoteReply 8 .nak] := by decide +kernel
def sRem (op : POp) (clock : Nat) : State := { flying (one iRld) op with clock := clock }
theorem meets_RemoteRequestsReturn : (sRem (.rld 0 3 0 .b32 none) 5).pend.look 7 = some (pend0 (.rld 0 3 0 .b32 none)) ∧ (sRem (.rld 0 3 0 .b32 none) 5).blocks.has 1 = true
    ∧ (sRem (.rld 0 3 0 .b32 none) 5).clock ≤ remoteDue (sRem (.rld 0 3 0 .b32 none) 5) (pend0 (.rld 0 3 0 .b32 none)) := by decide +kernel
theorem meets_RemoteRequestsReturn_lander : lander (sRem (.rld 0 3 0 .b32 none) 5) part0 ∧ lander (sRem (.rst false 3 0 4 none none [] []) (2 ^ 20)) part0 :=
  ⟨lander_part0 _ rfl (me (sRem (.rld 0 3 0 .b32 none) 5)).t rfl (by decide +kernel) (by decide +kernel),
    lander_part0 _ rfl (me (sRem (.rst false 3 0 4 none none [] []) (2 ^ 20))).t rfl (by decide +kernel) (by decide +kernel)⟩
theorem meets_RemoteRequestsReturn_running : running (sRem (.rld 0 3 0 .b32 none) 5) 1 := running_of (by decide +kernel)
theorem meets_RemoteRequestsReturn_late : remoteDue (sRem (.rst false 3 0 4 none none [] []) (2 ^ 20)) (pend0 (.rst false 3 0 4 none none [] [])) ≤ (sRem (.rst false 3 0 4 none none [] []) (2 ^ 20)).clock := by decide +kernel
theorem test_rld : after (exec (.rldResponseLands 7 (.data 9)) (sRem (.rld 0 3 0 .b32 none) 5)) (regOf · 4096 5) = some 9 := by decide +kernel
theorem test_rld_timeout : after (exec (.remoteTimeout 7) (sRem (.rld 0 3 0 .b32 none) (2 ^ 20))) (fun s => (regOf s 4096 5).map fun w => (w, (s.blocks.look 1).map (·.fabst))) = some (0xFFFFFFFF, some 1) := by decide +kernel

/-- A buffer at address 0: one segment, Armed, a window of 256 cycles, round 0. -/
def sBuf (f : State → State := id) : State :=
  f { paged (one iAdd) with hbm := [(14, 1), (15, 1), (17, 1), (0x1000, 0x01), (0x1001, 0x20), (0x2000, 0x4F), (0x2001, 0x02)] }
def pk0 : Packet := { domain := 0, va := 256, round := 0, enables := 15, lttl := 14, payload := List.replicate 256 7, crc := 0, sent := 0 }
def pk : Packet := { pk0 with crc := crc32c (packetBytes pk0) }
theorem crc_of_packet : packetBytes pk = packetBytes pk0 := by simp only [packetBytes, pk]
def sIn : State := sBuf fun s => { s with ingress := [(0, pk)], clock := 100 }
theorem meets_LossyBuffers_open : (match bufOf sIn pk with
      | some b => (sIn.lossy.look b.pa).isNone && recNat b.hdr 15 1 == 1 && recNat b.hdr 12 2 == 0 && (256 ≤ pk.va % 2 ^ 15) && decide ((pk.va % 2 ^ 15 - 256) / 256 < recNat b.hdr 14 1)
          && !headerBad b.hdr && decide ((openBuffers sIn (ownerOf b.pa / 2)).length < 256) && queueRoom sIn (.hbm b.pa) && b.pa % 64 == 0 && !linePoison sIn (lineOf b.pa)
      | none => false) = true ∧ sIn.hbm.wf = true := by decide +kernel
theorem meets_LossyBuffers_ingress : takeIngress sIn.ingress pk = some (0, []) ∧ sIn.clock < 0 + 2 ^ pk.lttl ∧ pk.crc = crc32c (packetBytes pk) :=
  ⟨by simp [takeIngress, sIn, sBuf], by decide +kernel, by rw [crc_of_packet]; simp only [pk]⟩
theorem meets_LossyBuffers_expiry : takeIngress [(0, pk0)] pk0 = some (0, []) ∧ 0 + 2 ^ pk0.lttl ≤ 2 ^ 14 := by decide +kernel
theorem meets_LossyBuffers_send : takeSending [{ station := 1, target := 3, packet := pk0 }] pk0 = some ({ station := 1, target := 3, packet := pk0 }, []) := by decide +kernel
def lo0 (got : AMap (BitVec 256)) : Lossy := { ctx := 1, va := 0, die := 0, opened := 100, win := 256, nseg := 1, got := got }
def sLo (got : AMap (BitVec 256)) (clock : Nat) : State := sBuf fun s => { s with lossy := [(0, lo0 got)], clock := clock }
theorem meets_LossyBuffers_close : (sLo [] 356).lossy.look 0 = some (lo0 []) ∧ ((sLo [] 356).ctx 1).ended = false ∧ (sLo [] 356).ctxs.has 1 = true
    ∧ (lo0 []).opened + (lo0 []).win ≤ (sLo [] 356).clock ∧ (sLo [] 356).wq.length + 4 * (lo0 []).nseg + 2 ≤ Config.writeQueue ∧ (sLo [] 356).hbm.wf = true ∧ linePoison (sLo [] 356) (lineOf 0) = false := by decide +kernel
theorem meets_LossyBuffers_map : (sLo [] 356).lossy.wf = true := by decide +kernel
theorem meets_LossyBuffers_waits : allSegs (lo0 []) = false ∧ (sLo [] 355).clock < (lo0 []).opened + (lo0 []).win := by decide +kernel
theorem meets_LossyBuffers_complete : allSegs (lo0 [(0, BitVec.allOnes 256)]) = true := by decide +kernel
theorem test_lossy_close : after (exec (.lossyBufferClose 0) (sLo [(0, BitVec.allOnes 256)] 101)) (fun s => (hbmRead s 0 16).map fun b => (recNat b 0 8, recNat b 8 4, recNat b 15 1)) = some (1, 1, 3) := by decide +kernel
theorem test_lane_loss : after (exec (.stationLaneLoss 31) State.reset) (fun s => some (s.lanesLost, s.out)) = some ([31], [.report 0 31 0]) := by decide +kernel

/-! Notify vectors and devices -/

/-- Grid barrier 2 of grid 0 of the job of context 1 with JSEQ 1 on queue 0 of die 0. -/
def vec0 : Vector := { lo := 1 + 3 * 2 + 2 * 2 ^ 8 + 1 * 2 ^ 32, hi := 1 }
def sNote (gated : Bool) (st : SlotSt) (bars : AMap Barrier := []) : State :=
  { sRet2 [] [] [] with
    notify := [(5, vec0)], gated := gated, jobs := [(99, { job0 st with grids := [30] })], bars := bars }
theorem meets_Notifications_gated : (sNote true .ready).notify.look 5 = some vec0 ∧ (sNote true .ready).gated = true := by decide +kernel
theorem meets_Notifications_held : (sNote false .ready).notify.look 5 = some vec0 ∧ vec0.named = true ∧ vec0.valid = true ∧ namedGroup (sNote false .ready) vec0 = .waiting ∧ vec0.held < 63 := by decide +kernel
theorem meets_Notifications_counts : namedGroup (sNote false .running [(barKey .grid 30 2, { ext := 2 })]) vec0 = .group 1 (barKey .grid 30 2)
    ∧ (sNote false .running).stopped 1 = false ∧ (sNote false .running [(barKey .grid 30 2, { ext := 2 })]).bars.look (barKey .grid 30 2) = some { ext := 2 }
    ∧ ({ ext := 2 } : Barrier).extc + 1 < ({ ext := 2 } : Barrier).ext := by decide +kernel
def dr (pasid : Option Nat) (addr : Nat) (op : DevOp) : DevReq := { port := 1, fn := 9, pasid := pasid, addr := addr, op := op }
theorem meets_Notifications_message : apertureVec 0x10000000050 = some 5 := by decide +kernel
theorem test_latch : after (exec (.notifyArrival 5) (sNote true .ready)) (fun s => (s.notify.look 5).map (·.latched)) = some true := by decide +kernel
theorem test_wake : after (exec .apertureWake { sNote true .ready with notify := [(5, vec0.setBit 23 true)] }) (fun s => (s.notify.look 5).map fun v => (v.latched, v.held, s.gated)) = some (false, 1, false) := by decide +kernel

/-- Function 9 with PASID 1 bound to context 1, whose pages carry DEV and which has ATSEN. -/
def sDev : State :=
  let s := paged (one iAdd) true
  { s with ctxs := s.ctxs.upd 1 (fun k => { k with trcfg := 0x1001 }), pasids := [(bindKey 9 1, 1)], ats := [9] }
theorem meets_DeviceRequests_pasid : sDev.pasids.look (bindKey 9 1) = some 1
    ∧ (match devPlaces (ctxPlace sDev 1 false) 3 0x3000 4 with | some ls => (devRead sDev ls).isSome | none => false) = true := by decide +kernel
theorem meets_DeviceRequests_unbound : sDev.pasids.look (bindKey 9 2) = none := by decide +kernel
theorem meets_DeviceRequests_own : (match devPlaces (ownPlace sDev 9) 3 0x3000 4 with | some ls => (devRead sDev ls).isSome | none => false) = true := by decide +kernel
theorem meets_DeviceRequests_ats : sDev.ats.contains 8 = false ∧ sDev.atsLost.contains 9 = false ∧ (sDev.ctx 1).atsen = true ∧ (match translate sDev 1 0x3000 with | .ok l => l.dev | .error _ => false) = true := by decide +kernel
theorem meets_DeviceRequests_nodev : (match translate (paged (one iAdd)) 1 0x3000 with | .ok l => !l.dev | .error _ => false) = true := by decide +kernel
theorem test_device_read : after (exec (.untranslatedDeviceRequest (dr (some 1) 0x3000 (.read 4))) sDev) (fun s => some s.out) = some [.deviceReply true [0, 0, 0, 0]] := by decide +kernel
theorem test_device_unbound : after (exec (.untranslatedDeviceRequest (dr (some 2) 0x3000 (.read 4))) sDev) (fun s => some s.out) = some [.deviceReply false [], .report 0x65 9 0] := by decide +kernel
theorem test_translated : after (exec (.translatedRequest (dr none 0x1000 (.read 4))) sDev) (fun s => some s.out) = some [.deviceReply false [], .report 0x65 9 0] := by decide +kernel
theorem test_ats : after (exec (.atsTranslationRequest 9 1 0x3000) sDev) (fun s => some s.out) = some [.atsReply 0x3000 3 (2 ^ 30)] := by decide +kernel
theorem test_pri : after (exec (.priPageRequest 9 1 0x3000) sDev) (fun s => some s.out) = some [.priReply true] := by decide +kernel
theorem meets_DeviceRequests_bells : sSend.bells.wf = true := by decide +kernel
theorem test_dpc : after (exec (.dpcContainment 2) { sSend with pend := (sSend.pend) }) (fun s => (regOf s 4096 5).map fun w => (w, s.bells)) = some (2, []) := by decide +kernel

/-! The steward pair -/

/-- After bring-up, in a secured session or not. -/
def sUp (session : Bool) (s : State := one iAdd) : State :=
  { s with steward := { step := 7, recovery := false, session := session, version := true, algorithms := true, lastMeas := some [1, 2], changes := 4, changesAt := 4 } }
theorem meets_MeasurementRequests : (spdmRequest (sUp true) .endSession).map (fun r => (r.1, r.2.1)) = some (true, 0x6C) ∧ (sUp true).steward.up = true := by decide +kernel
theorem meets_MeasurementRequests_refused : (spdmRequest (sUp false) .endSession).map (·.1) = some false ∧ (sUp false).steward.up = true := by decide +kernel
theorem meets_MeasurementRequests_quiet : State.reset.steward.up = false ∧ State.reset.steward.dead = false := by decide +kernel
theorem meets_MeasurementRequests_dead : ({ tries := 3 } : Steward).dead = true := by decide +kernel
theorem test_measurement : after (exec (.getMeasurements 0x13) (sUp false)) (fun s => some s.out) = some [.spdm 0x60 [0x13, 0]] := by decide +kernel

theorem meets_VendorRequests_outside : isVendor .reset = true ∧ (sUp false).steward.up = true ∧ (sUp false).steward.session = false := by decide +kernel
theorem meets_VendorRequests_secured : secured (sUp true) := ⟨by decide +kernel, by decide +kernel⟩
theorem meets_VendorRequests_key : (sUp true).ctxs.has 1 = true ∧ ((sUp true).ctx 1).ended = false ∧ (sUp true).steward.lastMeas = some [1, 2]
    ∧ (sUp true).steward.changes = (sUp true).steward.changesAt ∧ sha256 [1, 2] ≠ [] := by decide +kernel
theorem meets_VendorRequests_thresh : ctxFree (sUp true) 9 = true ∧ ctxFree (sUp true) 1 = false := by decide +kernel
theorem meets_VendorRequests_reset : resetReady (sUp true { State.reset with ctxs := [(1, { save := some { cores := [], parts := [] } })] }) = true ∧ resetReady (sUp true) = false := by decide +kernel
theorem meets_VendorRequests_migrate : migrateBad (sUp true { State.reset with ctxs := [(1, {})] }) 1 = false ∧ migrateBad (sUp true { one iAdd with jobs := [(99, job0 .held)] }) 1 = true
    ∧ (sUp true).migrations.has 1 = false := by decide +kernel
theorem meets_VendorRequests_replacement : ((sUp true).ctx 1).sseq = 0 ∧ stmtOk [] = false := by decide +kernel
theorem test_setbudget : after (exec (.setbudget 1 5 300) (sUp true State.reset)) (fun s => some ((s.core 192).budgetNext, (s.core 193).budgetNext, (s.core 194).budgetNext)) = some (300, 4096, 300) := by decide +kernel
theorem test_setcfg : after (exec (.setcfg 17 3) (sUp true)) (fun s => some (s.steward.nextAccid, s.steward.accid)) = some (17, 0) := by decide +kernel
theorem test_vendor_refused : after (exec (.setcfg 17 3) (sUp false)) (fun s => some (s.out, s.steward.nextAccid)) = some ([.error 4], 0) := by decide +kernel

def stmt (kind : Nat) : Statement := { sseq := 1, kind := kind, body := List.replicate 256 0, sig := none, at_ := 0 }
def sSign (kind other : Nat) : State := { State.reset with ctxs := [(1, { sseq := 1, statements := [stmt kind] }), (2, { sseq := 1, statements := [stmt other] })] }
theorem meets_StatementsAreSigned : ((sSign 2 2).ctxs.look 1).bind (·.unsigned) = some (stmt 2) ∧ (∀ e ∈ (sSign 2 2).ctxs, (e.2.unsigned.map (·.kind)) ≠ some 3)
    ∧ ((sSign 2 2).ctxs.look 1).map (decide <| ·.statements.length ≤ 256) = some true ∧ 256 ≤ (stmt 2).body.length := by decide +kernel
theorem meets_StatementsAreSigned_waits : ((sSign 2 3).ctxs.look 1).bind (·.unsigned) = some (stmt 2) ∧ ∃ e ∈ (sSign 2 3).ctxs, (e.2.unsigned.map (·.kind)) = some 3 :=
  ⟨by decide +kernel, (2, { sseq := 1, statements := [stmt 3] }), by decide +kernel, by decide +kernel⟩
theorem meets_StatementsAreSigned_third : (stmt 3).kind = 3 := rfl
theorem meets_ContextsOpenAndEnd : (sUp true).steward.up = true ∧ ctxFree (sUp true) 9 = true ∧ ((sUp true).ctx 1).ended = false ∧ (sUp true).ctxs.has 1 = true
    ∧ (∀ e ∈ (sUp true).jobs, e.2.ctx ≠ 1) ∧ (sUp true).migrations.has 1 = false ∧ (sUp true).keys.wf = true := by decide +kernel
theorem test_end_context : (endContext (sUp true (paged (one iAdd))) 1).keys.keys = [0] := by decide +kernel
/-- A migration of context 1, which has sent three bytes or nothing, before or after its hand-over. -/
def mig0 (sent : Option (List Byte)) (done : Bool) (refusal : Option (List Byte) := none) : Migration :=
  { ctx := 1, acc := 3, die := 0, queue := 0, sent := sent, handedOver := done, refusal := refusal }
def sMig (m : Migration) : State := { State.reset with ctxs := [(1, { save := some { cores := [], parts := [] } })], migrations := [(1, m)] }
theorem meets_Migrations : (sMig (mig0 (some [1, 2, 3]) false)).migrations.look 1 = some (mig0 (some [1, 2, 3]) false) ∧ (mig0 (some [1, 2, 3]) false).handedOver = false
    ∧ ((sMig (mig0 none false)).ctxs.look 1).map (·.save.isSome) = some true ∧ (sMig (mig0 none false)).keys.wf = true ∧ (sMig (mig0 none false)).jobs.wf = true
    ∧ (sMig (mig0 none false)).migrations.wf = true := by decide +kernel
/-- A digest is taken where the session authenticates, which is a free value of the model. -/
theorem meets_Migrations_ok (h : ∀ n, Config.peerVerifies n = true) : Config.peerVerifies (sMig (mig0 (some [1, 2, 3]) false)).fresh = true ∧ sha256 [1, 2, 3] = sha256 [1, 2, 3] :=
  ⟨h _, rfl⟩
theorem test_migration_early : after (exec (.migrationDigestReceived 1 []) (sMig (mig0 none false))) (fun s => some (s.migrations, s.ctxs.length)) = some ([(1, mig0 none false)], 1) := by decide +kernel
/-- A refusal counts where its signature verifies, which is a free value of the model. -/
theorem meets_Migrations_refused (h : ∀ k m g, Config.verify k m g = true) : (mig0 none true (some [])).refusal.any (Config.verify 1 (refusalBody 1)) = true := by
  simp [mig0, h]
theorem meets_Migrations_unsigned : (mig0 none true).refusal.any (Config.verify 1 (refusalBody 1)) = false := by decide +kernel
def inc0 (own : Option Nat) : Incoming := { ctx := 4, context := {}, statement := fields 256 [(6, 1, 1)], die := 0, queue := 0, own := own }
theorem meets_Migrations_handIn : ({ State.reset with incoming := some (inc0 none) } : State).incoming = some (inc0 none) ∧ (inc0 none).own = none ∧ (inc0 none).jobs = [] := by decide +kernel
theorem meets_Migrations_job : ((lq).queue 0 0).en = true ∧ freeSlot ((lq).queue 0 0) = some 0 := by decide +kernel
/-- A hand-over statement for this module and context 4, the first of its chain. -/
def head0 : List Byte := fields 176 [(0, 4, 0x31545341), (4, 2, 1), (6, 1, 4), (40, 4, 4), (48, 8, 1)]
def taken0 : Incoming := { inc0 (some 4) with statement := head0 ++ (chipId ++ List.replicate (48 + 7856) 0) }
theorem recNat_head (p q : List Byte) (a n : Nat) (h : a + n ≤ p.length) : recNat (p ++ q) a n = recNat p a n := by
  unfold recNat
  rw [List.drop_append_of_le_length (by omega), List.take_append_of_le_length (by simp; omega)]
/-- It is taken where its signature verifies. -/
theorem meets_Migrations_taken (h : ∀ k m g, Config.verify k m g = true) : handInOk taken0 = true := by
  have hl : head0.length = 176 := by decide +kernel
  have hc : chipId.length = 32 := by simp [chipId]
  have e : ∀ a n, a + n ≤ 176 → recNat taken0.statement a n = recNat head0 a n := fun a n l => recNat_head _ _ a n (by omega)
  have ht : (taken0.statement.drop 176).take 32 = chipId := by
    show ((head0 ++ (chipId ++ _)).drop 176).take 32 = _
    rw [List.drop_left' hl, List.take_left' hc]
  have hp : (taken0.statement.drop 56).take 32 = List.replicate 32 0 := by
    show ((head0 ++ (chipId ++ _)).drop 56).take 32 = _
    rw [List.drop_append_of_le_length (by omega), List.take_append_of_le_length (by simp; omega)]; decide +kernel
  have hn : taken0.statement.length = 256 + 7856 := by
    show (head0 ++ (chipId ++ _)).length = _
    rw [List.length_append, List.length_append, hl, hc, List.length_replicate]
  unfold handInOk stmtOk stmtLen
  simp only [h, hn, ht, hp, e 0 4 (by omega), e 4 2 (by omega), e 6 1 (by omega), e 40 4 (by omega), e 44 4 (by omega), e 48 8 (by omega), beq_self_eq_true]
  decide +kernel
theorem test_hand_in_refused : after (exec .migrationHandIn { State.reset with incoming := some (inc0 none) }) (fun s => some (s.incoming, s.ctxs)) = some (none, []) := by decide +kernel

theorem meets_ThermalSamples : State.reset.dies[3]? = some ({} : Die) ∧ ({} : Die).thermal ≤ 2 := by decide +kernel
theorem test_thermal (d : Die) (h : d = { thermal := 2 }) :
    after (exec (.thermalSample 0 101) { State.reset with dies := [d, {}, {}, {}] }) (fun s => (s.dies[0]?).map (·.thermal)) = some 2 := by subst h; decide +kernel
theorem test_thermal_trip : after (exec (.thermalSample 0 115) (one iAdd)) (fun s => some (s.dark, s.ctxs.length)) = some (true, 0) := by decide +kernel
theorem meets_BringUp : State.reset.steward.resetAsked = false ∧ State.reset.steward.recovery = true ∧ State.reset.steward.tries < 3 ∧ (sUp true).steward.recovery = false := by decide +kernel
theorem meets_BringUp_steps : ({ step := 4, recovery := false } : Steward).recovery = false ∧ (∃ d ∈ State.reset.dies, d.sampled = false)
    ∧ (∀ d ∈ [({ sampled := true } : Die)], d.sampled = true) ∧ ({ step := 5, recovery := false } : Steward).idTaken = false := by decide +kernel
theorem test_enumerate : after (step { State.reset with agenda := [.enumerate []], steward := { step := 6, recovery := false, portCfg := 1 } })
    (fun s => some (s.steward.up, s.steward.ports)) = some (true, [(0, 1), (1, 0), (2, 0), (3, 0), (4, 0), (5, 0), (6, 0), (7, 0)]) := by decide +kernel
theorem test_lockstep : after (exec .stewardLockstepMismatch (sUp true)) (fun s => some (s.steward.step, s.steward.session)) = some (1, false) := by decide +kernel

theorem meets_StepKeepsDies : ∃ s, ({ State.reset with agenda := [.elapse 1] } : State).diesOk = true ∧ step { State.reset with agenda := [.elapse 1] } = .next s :=
  ⟨_, by decide +kernel, rfl⟩

end Sys2Proof.Tests
end

section
/-! PROOFS. Numbers built bit by bit. -/

namespace Sys2Proof

theorem add_bit_lt {x n : Nat} (h : x < 2 ^ n) (c : Bool) : x + (if c then 2 ^ n else 0) < 2 ^ (n + 1) := by
  rw [Nat.pow_succ]
  split <;> omega

theorem bit_add_bit {x n k : Nat} (h : x < 2 ^ n) (c : Bool) (hk : k ≤ n) :
    bit (x + (if c then 2 ^ n else 0)) k = if k = n then c else bit x k := by
  have e : x + (if c then 2 ^ n else 0) = 2 ^ n * c.toNat + x := by cases c <;> simp [Nat.add_comm]
  rw [e, bit, Nat.testBit_two_pow_mul_add _ h]
  rcases Nat.lt_or_eq_of_le hk with hlt | rfl
  · rw [if_pos hlt, if_neg (by omega), bit]
  · rw [if_neg (by omega), if_pos rfl, Nat.sub_self]
    cases c <;> rfl

/-- The number whose low `n` bits are given one by one. -/
theorem bit_sum (p : Nat → Bool) (n : Nat) :
    (List.range n).foldl (fun a i => a + (if p i then 2 ^ i else 0)) 0 < 2 ^ n
      ∧ ∀ k < n, bit ((List.range n).foldl (fun a i => a + (if p i then 2 ^ i else 0)) 0) k = p k := by
  induction n with
  | zero => simp
  | succ n ih =>
    obtain ⟨hlt, hbit⟩ := ih
    rw [List.range_succ, List.foldl_append, List.foldl_cons, List.foldl_nil]
    refine ⟨add_bit_lt hlt _, fun k hk => ?_⟩
    rw [bit_add_bit hlt _ (by omega)]
    split
    · rename_i e; rw [e]
    · exact hbit k (by omega)

theorem bit_half (a k : Nat) : bit (a / 2) k = bit a (k + 1) := (Nat.testBit_succ a k).symm

theorem complement_lt (n a : Nat) : 2 ^ n - 1 - a < 2 ^ n := by
  have := Nat.two_pow_pos n
  omega

theorem bit_complement {n a k : Nat} (h : a < 2 ^ n) (hk : k < n) : bit (2 ^ n - 1 - a) k = !bit a k := by
  rw [bit, Nat.sub_sub, Nat.add_comm 1 a, Nat.testBit_two_pow_sub_succ h]
  simp [hk, bit]

end Sys2Proof
end

section
/-! PROOFS. What an instruction that only computes leaves in the registers and predicates of a member. -/

open Sys2Proof.Claims

namespace Sys2Proof.Machine

/-! ### Threads but for their control state -/

theorem regOf_of_still {s : State} {u : Nat} {t : Thread} (h : (s.threads.look u).map Thread.still = some t.still) (n : Nat) :
    regOf s u n = t.regs.look n := by
  obtain ⟨t', ht, e⟩ := Option.map_eq_some_iff.mp h
  have hr : t'.still.regs = t.still.regs := congrArg Thread.regs e
  rw [regOf, ht]
  exact congrArg (AMap.look · n) hr

theorem predOf_of_still {s : State} {u : Nat} {t : Thread} (h : (s.threads.look u).map Thread.still = some t.still) (n : Nat) :
    predOf s u n = some (t.pred n) := by
  obtain ⟨t', ht, e⟩ := Option.map_eq_some_iff.mp h
  have hp : t'.still.pred n = t.still.pred n := congrArg (Thread.pred · n) e
  rw [predOf, ht]
  exact congrArg some hp

/-! ### Frees and writes -/

theorem look_foldl_del (l : List Nat) {r : AMap W32} (w : r.wf = true) {n : Nat} (h : n ∉ l) :
    AMap.look (l.foldl AMap.del r) n = r.look n := by
  induction l generalizing r with
  | nil => rfl
  | cons a l ih =>
    obtain ⟨hna, hnl⟩ := List.ne_and_not_mem_of_not_mem_cons h
    rw [List.foldl_cons, ih (AMap.wf_del a w) hnl, AMap.look_del a n w, if_neg hna]

@[simp] theorem Thread.free_pred (t : Thread) (l : List Nat) (n : Nat) : (t.free l).pred n = t.pred n := rfl

@[simp] theorem Thread.setPred_regs (t : Thread) (n : Nat) (b : Bool) : (t.setPred n b).regs = t.regs := by
  unfold Thread.setPred; split <;> rfl

/-- A write of a predicate is read back, but p7 stays true (R42). -/
theorem Thread.setPred_pred_same (t : Thread) (n : Fin 8) (b : Bool) : (t.setPred n b).pred n = (b || n == 7) := by
  by_cases h : n = 7
  · subst h
    cases b <;> rfl
  · have hv : n.val ≠ 7 := fun e => h (Fin.ext e)
    have hb := (bit_sum (fun i => if i = n.val then b else t.preds.getLsbD i) 7).2 n (by omega)
    simp only [bit, if_pos] at hb
    simp only [Thread.setPred, Thread.pred, if_neg hv, BitVec.getLsbD_ofNat, hb]
    simp [h, show n.val < 7 by omega]

@[simp] theorem effThread_regs (e : Eff) (t : Thread) : (effThread e t).regs = (t.put e.regs).regs := by
  have key (l : List (Nat × Bool)) (t : Thread) : (l.foldl (fun t (n, b) => t.setPred n b) t).regs = t.regs := by
    induction l generalizing t with
    | nil => rfl
    | cons p l ih => rw [List.foldl_cons, ih, Thread.setPred_regs]
  exact key e.preds (t.put e.regs)

theorem effThread_pred {e : Eff} {n : Fin 8} {b : Bool} (h : e.preds = [(n.val, b)]) (t : Thread) :
    (effThread e t).pred n = (b || n == 7) := by
  have : (effThread e t).pred n = ((t.put e.regs).setPred n b).pred n := by rw [effThread, h]; rfl
  rw [this, Thread.setPred_pred_same]

/-- A destination register, or pair, that was written is read back (R151). -/
theorem look_put_dstWords (t : Thread) (k : Kind) (n : Fin 128) (v : Nat) :
    (t.put (dstWords k (.v n) v)).regs.look n = some (BitVec.ofNat 32 v)
      ∧ (k.width = 2 → (t.put (dstWords k (.v n) v)).regs.look (n + 1) = some (BitVec.ofNat 32 (v / 2 ^ 32))) := by
  by_cases hk : k.width = 2 <;> simp [dstWords, hk, Thread.put]

/-! ### Completion -/

theorem received_of_still {t : State} {m : Mb} {i : Instr} {v : Nat} {e : Eff} {th : Thread}
    (h : (t.threads.look m.u).map Thread.still = some (effThread e th).still) (he : e.regs = dstWords i.sig.dst i.x.dst v) :
    received t m i v := by
  unfold received
  split
  · rename_i n hd
    rw [hd] at he
    simp only [regOf_of_still h, effThread_regs, he]
    exact look_put_dstWords th _ n v
  · trivial

theorem settled_of_still {t : State} {m : Mb} {i : Instr} {b : Bool} {th : Thread}
    (h : (t.threads.look m.u).map Thread.still = some (effThread (toPred i b) th).still) : settled t m i b := by
  unfold settled
  split
  · rename_i n hd
    rw [predOf_of_still h, effThread_pred (b := b) (by rw [toPred, hd])]
  · trivial

theorem quietFp_of_raised_zero {i : Instr} {s : State} {g : Gather} {r : Mb → Nat} (h : ∀ m, r m = 0) : quietFp i s g r = true := by
  simp [quietFp, fpTraps, h]

/-- An instruction that computes without a floating-point exception completes with what its effect leaves in each active member. -/
theorem completes_of_compute {i : Instr} {s : State} {g : Gather} {f : Mb → Eff} {ok : State → Mb → Prop} (hc : clear i s g = true)
    (he : exec i s = compute i f s) (hf : ∀ m, (f m).raised = 0)
    (hok : ∀ t m, (t.threads.look m.u).map Thread.still = some (effThread (f m) (m.t.free (luRegs i))).still → ok t m) :
    Completes i s g ok := by
  obtain ⟨t, ht, hact, -, -⟩ := compute_clear hc (quietFp_of_raised_zero hf)
  exact ⟨t, he.trans ht, fun m hm => hok t m (hact m hm)⟩

theorem completes_of_rawOp {i : Instr} {s : State} {g : Gather} {v : Mb → Nat} (hc : clear i s g = true)
    (he : exec i s = rawOp i v s) : Completes i s g fun t m => received t m i (v m) :=
  completes_of_compute hc he (fun _ => rfl) fun _ _ h => received_of_still h rfl

theorem completes_of_predOp {i : Instr} {s : State} {g : Gather} {b : Mb → Bool} (hc : clear i s g = true)
    (he : exec i s = predOp i b s) : Completes i s g fun t m => settled t m i (b m) :=
  completes_of_compute hc he (fun m => by unfold toPred; split <;> rfl) fun _ _ h => settled_of_still h

end Sys2Proof.Machine
end

section
/-! PROOFS. Integer types: truncation, sign extension and reduction (R6, R151). -/

open Sys2Proof.Claims

namespace Sys2Proof

theorem natCast_two_pow (n : Nat) : ((2 ^ n : Nat) : Int) = 2 ^ n := Int.natCast_pow 2 n

theorem two_pow_nonneg (n : Nat) : (0 : Int) ≤ 2 ^ n := Int.pow_nonneg (by decide)

theorem truncInt_cast (n : Nat) (x : Int) : (truncInt n x : Int) = x % ((2 ^ n : Nat) : Int) := by
  have := Nat.two_pow_pos n
  exact Int.toNat_of_nonneg (Int.emod_nonneg x (by omega))

theorem truncInt_lt (n : Nat) (x : Int) : truncInt n x < 2 ^ n := by
  have hp := Nat.two_pow_pos n
  have h := Int.emod_lt_of_pos x (b := ((2 ^ n : Nat) : Int)) (by omega)
  rw [← truncInt_cast] at h
  exact Int.ofNat_lt.mp h

theorem truncInt_eq_fmod (n : Nat) (x : Int) : truncInt n x = Int.toNat (Int.fmod x (2 ^ n)) := by
  rw [truncInt, natCast_two_pow, Int.fmod_eq_emod_of_nonneg x (two_pow_nonneg n)]

theorem ediv_two_pow_eq_fdiv (a : Int) (n : Nat) : a / 2 ^ n = Int.fdiv a (2 ^ n) :=
  (Int.fdiv_eq_ediv_of_nonneg a (two_pow_nonneg n)).symm

theorem sextNat_eq_bmod {n : Nat} (hn : 0 < n) (x : Nat) : sextNat n x = Int.bmod x (2 ^ n) := by
  obtain ⟨k, rfl⟩ : ∃ k, n = k + 1 := ⟨n - 1, by omega⟩
  have h2 : 2 ^ (k + 1) = 2 * 2 ^ k := by rw [Nat.pow_succ, Nat.mul_comm]
  have e : ((x : Int) % ((2 ^ (k + 1) : Nat) : Int)) = ((x % 2 ^ (k + 1) : Nat) : Int) := (Int.natCast_emod _ _).symm
  rw [sextNat, Int.bmod, e, if_neg (by omega), Nat.add_sub_cancel]
  split <;> split <;> omega

/-- A value in the range of a narrower signed type is its own residue at a wider one. -/
theorem bmod_bmod_of_lt {a b : Nat} (h : a < b) (x : Int) : Int.bmod (Int.bmod x (2 ^ a)) (2 ^ b) = Int.bmod x (2 ^ a) := by
  have hp : 2 * 2 ^ a ≤ 2 ^ b := by rw [← Nat.pow_succ']; exact Nat.pow_le_pow_right (by decide) h
  have h0 : 0 < 2 ^ a := Nat.two_pow_pos a
  have h1 := Int.le_bmod (x := x) h0
  have h2 := Int.bmod_lt (x := x) h0
  rw [Int.bmod_eq_of_le] <;> omega

theorem ITy.width_pos (t : ITy) : 0 < t.width := by cases t <;> decide

end Sys2Proof

namespace Sys2Proof.Machine

/-- A value read under a type: the bits as they are, or as two's complement (R151). -/
theorem ITy.value_eq (t : ITy) (x : Nat) :
    ITy.value t x = if t.signed then Int.bmod x (2 ^ t.width) else ((x % 2 ^ t.width : Nat) : Int) := by
  rw [ITy.value, sextNat_eq_bmod t.width_pos]

theorem ITy.value_range (t : ITy) (x : Nat) : -2 ^ t.width ≤ ITy.value t x ∧ ITy.value t x < 2 ^ t.width := by
  have hp := Nat.two_pow_pos t.width
  have h1 := Int.le_bmod (x := x) hp
  have h2 := Int.bmod_lt (x := x) hp
  have h3 := Nat.mod_lt x hp
  rw [ITy.value_eq, ← natCast_two_pow]
  split <;> omega

/-- A result of 32 bits or more, or of an unsigned type, is written as it is truncated. -/
theorem reduce_of_wide {t : ITy} (h : 32 ≤ t.width ∨ t.signed = false) (r : Int) : reduce t false r = truncInt t.width r := by
  simp only [reduce, ITy.write, Bool.false_eq_true, if_false]
  rcases h with h | h
  · rw [if_neg (Nat.not_lt.mpr h)]
  · rw [h, if_neg Bool.false_ne_true, ite_self]

/-- A result of a narrow signed type is extended to 32 bits. -/
theorem reduce_of_narrow {t : ITy} (hw : t.width < 32) (hs : t.signed = true) (r : Int) :
    reduce t false r = truncInt 32 (Int.bmod r (2 ^ t.width)) := by
  simp only [reduce, ITy.write, hw, hs, if_true, Bool.false_eq_true, if_false, sextNat_eq_bmod t.width_pos]
  rw [truncInt_cast, Int.emod_bmod]

theorem reduce_sat (t : ITy) (r : Int) : reduce t true r = reduce t false (min (max r (ITy.lo t)) (ITy.hi t)) := rfl

theorem toInt_ofNat_truncInt (n : Nat) (x : Int) : (BitVec.ofNat n (truncInt n x)).toInt = Int.bmod x (2 ^ n) := by
  rw [BitVec.toInt_ofNat', truncInt_cast, Int.emod_bmod]

end Sys2Proof.Machine

namespace Sys2Proof.Claims
open Sys2Proof.Machine

theorem reductionOfResults : ReductionOfResults := by
  intro t r
  refine ⟨fun h => ?_, fun hw hs => ?_, ?_⟩
  · rw [reduce_of_wide h, truncInt, natCast_two_pow]
    rfl
  · rw [reduce_of_narrow hw hs]
    exact ⟨(toInt_ofNat_truncInt 32 _).trans (bmod_bmod_of_lt hw r), truncInt_lt 32 _⟩
  · rw [reduce_sat, ITy.lo, ITy.hi, natCast_two_pow, natCast_two_pow]

end Sys2Proof.Claims
end

section
/-! PROOFS. What a source supplies for an integer type (R61 to R63, R151). -/

open Sys2Proof.Claims

namespace Sys2Proof.Machine

theorem Thread.reg_of_look {t : Thread} {n : Nat} {w : W32} (h : t.regs.look n = some w) : t.reg n = w := by
  rw [Thread.reg, AMap.lookD, h]
  rfl

theorem constInt_eq_inlineInt (k : Nat) : constInt k = inlineInt k := by
  simp only [constInt, inlineInt, Int.neg_sub]
  rfl

theorem constBits_of_inlineInt {n k : Nat} {z : Int} (h : inlineInt k = some z) : constBits (.int n) k = truncInt n z := by
  simp only [constBits, constInt_eq_inlineInt, h]

/-- The real inline constants, rounded to the format of a width, are the patterns of R62 and R63. -/
theorem constBits_eq_inlineReal (t : ITy) :
    ∀ n : Fin 40, inlineInt n = none → constBits (.int t.width) n = inlineReal t.width n % 2 ^ t.width := by
  cases t <;> decide +kernel

theorem Mb.raw_reg {m : Mb} {n : Nat} (hn : n ≤ 32) (r : Fin 128) : m.raw n (.v r) = (m.t.reg r).toNat % 2 ^ n := if_pos hn

theorem Mb.raw_pair (m : Mb) (r : Fin 128) : m.raw 64 (.v r) = (m.t.reg (r + 1)).toNat * 2 ^ 32 + (m.t.reg r).toNat := by
  have h1 := (m.t.reg r).isLt
  have h2 := (m.t.reg (r + 1)).isLt
  show ((m.t.reg r).toNat + 2 ^ 32 * (m.t.reg (r + 1)).toNat) % 2 ^ 64 = _
  omega

/-- What a source supplies lies below the width that it is read at. -/
theorem Mb.raw_lt (m : Mb) (t : ITy) (o : Opnd) : m.raw t.width o < 2 ^ t.width := by
  have hp : 0 < 2 ^ t.width := Nat.two_pow_pos _
  have h8 : 2 ^ 8 ≤ 2 ^ t.width := Nat.pow_le_pow_right (by decide) (by cases t <;> decide)
  cases o with
  | v n =>
    by_cases h : t.width ≤ 32
    · rw [Mb.raw_reg h]; exact Nat.mod_lt _ hp
    · exact Nat.lt_of_le_of_lt (Nat.le_of_eq (if_neg h)) (Nat.mod_lt _ hp)
  | p n =>
    simp only [Mb.raw, Thread.val]
    split <;> omega
  | q n =>
    have := n.isLt
    simp only [Mb.raw, Thread.val]
    omega
  | k n =>
    show constBits (.int t.width) n < _
    cases hz : inlineInt n with
    | none => rw [constBits_eq_inlineReal t n hz]; exact Nat.mod_lt _ hp
    | some z => rw [constBits_of_inlineInt hz]; exact truncInt_lt _ _
  | lit w => exact Nat.mod_lt _ hp
  | null => exact hp

end Sys2Proof.Machine

namespace Sys2Proof.Claims
open Sys2Proof.Machine

theorem integerSources : IntegerSources := by
  intro m t o
  refine ⟨ITy.value_eq t _, fun w => rfl, fun n w hw ht => ?_, fun n w w' hw hw' ht => ?_, fun n z hz => constBits_of_inlineInt hz,
    constBits_eq_inlineReal t, rfl, fun n => rfl⟩
  · rw [Mb.raw_reg ht, Thread.reg_of_look hw]
  · rw [ht, Mb.raw_pair, Thread.reg_of_look hw, Thread.reg_of_look hw']

end Sys2Proof.Claims
end

section
/-! PROOFS. The forms and words of the integer and predicate instructions (R58 to R62, R152 to R162). -/

open Sys2Proof.Claims

namespace Sys2Proof

/-! ### Words -/

/-- The opcode and MOD of an instruction stand in their places of its word (R58). -/
theorem encodeWord_opc_mod {i : Instr} {c : Cls} {opc mod : Nat} (h : codeOf i = some (c, opc, mod)) (ho : opc < 2 ^ 10)
    (hm : mod < 2 ^ 14) : bits (encodeWord i) 63 54 = opc ∧ bits (encodeWord i) 13 0 = mod := by
  simp only [encodeWord, h]
  generalize hf : WordF.mk opc i.x.dst.code i.x.sa.code i.x.sb.code i.x.sc.code i.x.lua i.x.lub i.x.luc i.x.gneg i.x.gpred.val i.x.fsel
    mod = f
  have hu : unpack (pack f) = f := by
    subst hf
    exact unpack_pack ⟨ho, Opnd.code_lt _, Opnd.code_lt _, Opnd.code_lt _, Opnd.code_lt _, i.x.gpred.isLt, hm⟩
  generalize pack f = w at hu ⊢
  subst hf
  exact ⟨congrArg WordF.opc hu, congrArg WordF.mod hu⟩

theorem codeOf_of_arithWord {i : Instr} {opc mod : Nat} (h : arithWord i = some (opc, mod)) : codeOf i = some (.V, opc, mod) := by
  unfold arithWord at h
  split at h <;> cases h <;> rfl

theorem codeOf_of_bitWord {i : Instr} {opc mod : Nat} (h : bitWord i = some (opc, mod)) : codeOf i = some (.V, opc, mod) := by
  unfold bitWord at h
  split at h <;> cases h <;> rfl

theorem arithWord_lt {i : Instr} {opc mod : Nat} (h : arithWord i = some (opc, mod)) : opc < 2 ^ 10 ∧ mod < 2 ^ 14 := by
  unfold arithWord at h
  split at h <;> cases h <;> grind [ITy.code_lt, Bool.toNat_lt]

theorem Byte.toNat_lt (b : Byte) : b.toNat < 256 := b.isLt

theorem bitWord_lt {i : Instr} {opc mod : Nat} (h : bitWord i = some (opc, mod)) : opc < 2 ^ 10 ∧ mod < 2 ^ 14 := by
  unfold bitWord at h
  split at h <;> cases h <;> grind [ITy.code_lt, Cmp.code_lt, Bool.toNat_lt, Byte.toNat_lt]

/-! ### Kinds of operands -/

theorem ok_none (o : Opnd) : Kind.none.ok o = (o == .null) := by cases o <;> rfl
theorem ok_pred (o : Opnd) : Kind.pred.ok o = predOpnd o := by cases o <;> rfl
theorem ok_predOrNull (o : Opnd) : Kind.predOrNull.ok o = (predOpnd o || o == .null) := by cases o <;> rfl
theorem ok_kr (t : ITy) (o : Opnd) : (kr t).ok o = destOf t o := by cases o <;> cases t <;> rfl
theorem ok_kv (t : ITy) (o : Opnd) : (kv t).ok o = dataOf t o := by cases o <;> cases t <;> rfl
theorem ok_vreg (o : Opnd) : Kind.vreg.ok o = destOf .b32 o := ok_kr .b32 o
theorem ok_pair (o : Opnd) : Kind.pair.ok o = destOf .s64 o := ok_kr .s64 o
theorem ok_val (o : Opnd) : Kind.val.ok o = dataOf .b32 o := ok_kv .b32 o
theorem ok_val64 (o : Opnd) : Kind.val64.ok o = dataOf .s64 o := ok_kv .s64 o

theorem ITy.arith_eq (t : ITy) : t.arith = decide (t.code < 8) := by cases t <;> rfl
theorem Cmp.int_eq (c : Cmp) : c.int = decide (c.code < 6) := by cases c <;> rfl

/-! ### Acceptance -/

/-- An instruction without a rule of its own on its operands is accepted by its modifiers, its four kinds and its last-use bits. -/
theorem accepted_iff {i : Instr} {x : X} {d a b c : Kind} (hx : i.x = x) (hs : i.sig = ⟨d, a, b, c⟩) (hf : i.followOnOk = true) :
    (i.modOk = true ∧ i.opsOk = true) ↔
      (i.modOk = true ∧ d.ok x.dst = true ∧ a.ok x.sa = true ∧ b.ok x.sb = true ∧ c.ok x.sc = true) ∧ i.luOk = true := by
  simp only [Instr.opsOk, hs, hx, hf, Bool.and_eq_true, and_true, and_assoc]

/-- The kinds of each instruction are those of its form; IMULH, IMAD and IMAD.WIDE have theirs because their type is of 32 bits. -/
theorem arith_accepted_iff {i : Instr} {opc mod : Nat} (h : arithWord i = some (opc, mod)) :
    (i.modOk = true ∧ i.opsOk = true) ↔ (arithForm i = true ∧ i.luOk = true) := by
  unfold arithWord at h
  split at h <;> cases h
  all_goals
    refine (accepted_iff rfl rfl rfl).trans (and_congr_left' ?_)
    simp only [arithForm, Instr.modOk, ok_kr, ok_kv, ok_none, ok_predOrNull, ok_vreg, ok_pair, ok_val, ok_val64, ITy.arith_eq,
      Bool.and_eq_true, Bool.or_eq_true, beq_iff_eq, and_assoc, and_congr_right_iff]
  -- IMULH, IMAD and IMAD.WIDE; then CVTI, which has two types; then the rest
  case h_4 | h_5 | h_6 => rintro (rfl | rfl) <;> exact Iff.rfl
  case h_13 => exact fun _ _ => Iff.rfl
  all_goals exact fun _ => Iff.rfl

/-- The kinds of each instruction are those of its form; BFX has its because its type is of 32 bits. -/
theorem bit_accepted_iff {i : Instr} {opc mod : Nat} (h : bitWord i = some (opc, mod)) :
    (i.modOk = true ∧ i.opsOk = true) ↔ (bitForm i = true ∧ i.luOk = true) := by
  unfold bitWord at h
  split at h <;> cases h
  all_goals
    refine (accepted_iff rfl rfl rfl).trans (and_congr_left' ?_)
    simp only [bitForm, Instr.modOk, ITy.raw3264, ok_kr, ok_kv, ok_none, ok_pred, ok_vreg, ok_val, ITy.arith_eq, Cmp.int_eq, true_and,
      Bool.and_eq_true, Bool.or_eq_true, beq_iff_eq, and_assoc, and_congr_right_iff]
  -- the instructions without a type; then BFX; then ISETP, which has a type and a comparison; then the rest
  case h_10 | h_12 | h_17 | h_21 | h_22 | h_23 | h_24 | h_25 => exact Iff.rfl
  case h_11 => rintro (rfl | rfl) <;> exact Iff.rfl
  case h_19 => exact fun _ _ => Iff.rfl
  all_goals exact fun _ => Iff.rfl

end Sys2Proof

namespace Sys2Proof.Claims

theorem arithmeticForms : ArithmeticForms := fun _ _ _ h =>
  ⟨arith_accepted_iff h, fun _ => encodeWord_opc_mod (codeOf_of_arithWord h) (arithWord_lt h).1 (arithWord_lt h).2⟩

theorem bitForms : BitForms := fun _ _ _ h =>
  ⟨bit_accepted_iff h, fun _ => encodeWord_opc_mod (codeOf_of_bitWord h) (bitWord_lt h).1 (bitWord_lt h).2⟩

end Sys2Proof.Claims
end

section
/-! PROOFS. The integer arithmetic of class V: its meanings as exact results, reduced, with their carries (R152, R161). -/

open Sys2Proof.Claims

namespace Sys2Proof.Machine

theorem toNat_eq_ite (b : Bool) : b.toNat = if b then 1 else 0 := by cases b <;> rfl
theorem natCast_bit (b : Bool) : ((if b then 1 else 0 : Nat) : Int) = if b then 1 else 0 := by cases b <;> rfl

/-- What an instruction of R152 or R161 gives a member: its exact result, reduced, and its carry. -/
def arithEff (i : Instr) (t : ITy) (sat : Bool) (f : Mb → Int) (m : Mb) : Eff :=
  { toDst i (reduce t sat (f m)) with preds := (carry i).toList.map fun c => (c.1.val, c.2 m) }

theorem execImulh_eq (x : X) (t : ITy) (s : State) :
    execImulh x t s = compute (.imulh x t)
      (arithEff (.imulh x t) t false fun m => Int.fdiv (m.int t x.sa * m.int t x.sb) (2 ^ 32)) s := by
  simp only [execImulh, ediv_two_pow_eq_fdiv]
  rfl

theorem execIadc_eq (x : X) (t : ITy) (cp : Fin 8) (s : State) :
    execIadc x t cp s = compute (.iadc x t cp)
      (arithEff (.iadc x t cp) t false fun m => m.int t x.sa + m.int t x.sb + (if m.t.pval x.sc then 1 else 0)) s := by
  simp only [execIadc, carryOut, toNat_eq_ite, natCast_bit]
  rfl

theorem execIsbc_eq (x : X) (t : ITy) (cp : Fin 8) (s : State) :
    execIsbc x t cp s = compute (.isbc x t cp)
      (arithEff (.isbc x t cp) t false fun m => m.int t x.sa - m.int t x.sb - (if m.t.pval x.sc then 1 else 0)) s := by
  simp only [execIsbc, borrowOut, toNat_eq_ite, natCast_bit]
  rfl

theorem exec_of_exactResult {i : Instr} {t : ITy} {sat : Bool} {f : Mb → Int} (h : exactResult i = some (t, sat, f)) (s : State) :
    exec i s = compute i (arithEff i t sat f) s := by
  cases i with
  | iadd | isub | imul | imad | imadWide | imin | imax | iabs | ineg | cvti => cases h; rfl
  | imulh => cases h; exact execImulh_eq _ _ s
  | iadc => cases h; exact execIadc_eq _ _ _ s
  | isbc => cases h; exact execIsbc_eq _ _ _ s
  | _ => cases h

theorem exactResult_of_arithWord {i : Instr} (h : (arithWord i).isSome = true) : ∃ t sat f, exactResult i = some (t, sat, f) := by
  cases i with
  | iadd | isub | imul | imulh | imad | imadWide | iadc | isbc | imin | imax | iabs | ineg | cvti => exact ⟨_, _, _, rfl⟩
  | _ => cases h

end Sys2Proof.Machine

namespace Sys2Proof.Claims
open Sys2Proof.Machine

theorem arithmeticResults : ArithmeticResults := by
  intro s i g t sat f h _ hc
  refine completes_of_compute hc (exec_of_exactResult h s) (fun _ => rfl) fun s' m hm => ⟨received_of_still hm rfl, fun p c hp => ?_⟩
  rw [predOf_of_still hm, effThread_pred (b := c m) (by simp [arithEff, hp])]

theorem carryUnderFalseGuard : CarryUnderFalseGuard := by
  intro s i g ha _ hc
  obtain ⟨t, sat, f, h⟩ := exactResult_of_arithWord ha
  obtain ⟨s', hs, -, hidle, -⟩ := compute_clear (f := arithEff i t sat f) hc (quietFp_of_raised_zero fun _ => rfl)
  refine ⟨s', (exec_of_exactResult h s).trans hs, fun m hm hg => ?_⟩
  have hna : m ∉ actors i s g := fun hx => by simp [actors, active, hg] at hx
  obtain ⟨-, hu, -⟩ := mem_membersOf hm
  refine ⟨fun n => ?_, fun n hn => ?_⟩
  · rw [predOf_of_still (hidle m hm hna), Thread.free_pred, predOf, hu]
    rfl
  · rw [regOf_of_still (hidle m hm hna), regOf, hu]
    exact look_foldl_del _ (whole_regs (clear_whole hc) hm) hn

end Sys2Proof.Claims

namespace Sys2Proof.Proofs

/-- Settles O4: each instruction of R152 and R161 is one computation of its exact result, reduced, with its carry. -/
theorem arithmeticResults : Obligations.ArithmeticResults :=
  ⟨Claims.arithmeticForms, Claims.integerSources, Claims.reductionOfResults, Claims.arithmeticResults, Claims.carryUnderFalseGuard⟩

end Sys2Proof.Proofs
end

section
/-! PROOFS. The bits that the logic, shift, field, count and permute functions give (R153 to R158). -/

namespace Sys2Proof.Machine

/-! ### Logic (R153) -/

theorem bits_of_and {n a b : Nat} (ha : a < 2 ^ n) : a &&& b < 2 ^ n ∧ ∀ k < n, bit (a &&& b) k = (bit a k && bit b k) :=
  ⟨Nat.lt_of_le_of_lt Nat.and_le_left ha, fun k _ => Nat.testBit_and a b k⟩

theorem bits_of_or {n a b : Nat} (ha : a < 2 ^ n) (hb : b < 2 ^ n) : a ||| b < 2 ^ n ∧ ∀ k < n, bit (a ||| b) k = (bit a k || bit b k) :=
  ⟨Nat.or_lt_two_pow ha hb, fun k _ => Nat.testBit_or a b k⟩

theorem bits_of_xor {n a b : Nat} (ha : a < 2 ^ n) (hb : b < 2 ^ n) : a ^^^ b < 2 ^ n ∧ ∀ k < n, bit (a ^^^ b) k = (bit a k ^^ bit b k) :=
  ⟨Nat.xor_lt_two_pow ha hb, fun k _ => Nat.testBit_xor a b k⟩

theorem bool3_bits (tt : Byte) (a b c n : Nat) : bool3 tt a b c n < 2 ^ n
    ∧ ∀ k < n, bit (bool3 tt a b c n) k = tt.getLsbD ((bit a k).toNat + 2 * (bit b k).toNat + 4 * (bit c k).toNat) := by
  induction n with
  | zero => simp [bool3]
  | succ n ih =>
    obtain ⟨hlt, hbit⟩ := ih
    refine ⟨add_bit_lt hlt _, fun k hk => ?_⟩
    rw [bool3, bit_add_bit hlt _ (by omega)]
    split
    · rename_i e; rw [e]
    · exact hbit k (by omega)

/-! ### Shifts (R154) -/

theorem shlBits_eq (n a c : Nat) : shlBits n a c = a * 2 ^ c % 2 ^ n := by
  unfold shlBits
  split
  · rename_i h
    exact (Nat.mod_eq_zero_of_dvd (Nat.dvd_mul_left_of_dvd (Nat.pow_dvd_pow 2 h) a)).symm
  · rfl

theorem shrBits_eq {n a : Nat} (h : a < 2 ^ n) (c : Nat) : shrBits n a c = a / 2 ^ c := by
  unfold shrBits
  split
  · rename_i hc
    exact (Nat.div_eq_of_lt (Nat.lt_of_lt_of_le h (Nat.pow_le_pow_right (by decide) hc))).symm
  · rfl

/-- A count of the width or more leaves the sign, as a longer shift does. -/
theorem ediv_two_pow_min {n : Nat} {z : Int} (hlo : -2 ^ n ≤ z) (hhi : z < 2 ^ n) (c : Nat) : z / 2 ^ min c n = z / 2 ^ c := by
  rcases Nat.le_total c n with h | h
  · rw [Nat.min_eq_left h]
  · have hp : (2 : Int) ^ n ≤ 2 ^ c := by
      rw [← natCast_two_pow, ← natCast_two_pow]
      exact Int.ofNat_le.mpr (Nat.pow_le_pow_right (by decide) h)
    rw [Nat.min_eq_right h]
    rcases Int.lt_or_le z 0 with hz | hz
    · rw [Int.ediv_eq_neg_one_of_neg_of_le hz (by omega), Int.ediv_eq_neg_one_of_neg_of_le hz (by omega)]
    · rw [Int.ediv_eq_zero_of_lt hz hhi, Int.ediv_eq_zero_of_lt hz (by omega)]

theorem sarBits_eq (t : ITy) (a c : Nat) : sarBits t a c = truncInt t.width (Int.fdiv (ITy.value t a) (2 ^ c)) := by
  obtain ⟨hlo, hhi⟩ := ITy.value_range t a
  rw [sarBits, ediv_two_pow_min hlo hhi, ediv_two_pow_eq_fdiv]

/-- A rotation joins the bits shifted up with those shifted out. -/
theorem rolBits_eq {n a : Nat} (hn : 0 < n) (h : a < 2 ^ n) (c : Nat) :
    rolBits n a c = ((BitVec.ofNat n a).rotateLeft (c % n)).toNat := by
  have hk : c % n < n := Nat.mod_lt c hn
  rw [rolBits, BitVec.toNat_rotateLeft, BitVec.toNat_ofNat, Nat.mod_eq_of_lt h, Nat.mod_mod, Nat.shiftLeft_eq, Nat.shiftRight_eq_div_pow]
  generalize c % n = k at hk
  have hsplit : 2 ^ n = 2 ^ k * 2 ^ (n - k) := by rw [← Nat.pow_add, Nat.add_sub_cancel' (Nat.le_of_lt hk)]
  have hlow : a / 2 ^ (n - k) < 2 ^ k := Nat.div_lt_of_lt_mul (by rwa [Nat.mul_comm, ← hsplit])
  have hhigh : a * 2 ^ k % 2 ^ n = 2 ^ k * (a % 2 ^ (n - k)) := by rw [hsplit, Nat.mul_comm a, Nat.mul_mod_mul_left]
  have hjoin : a / 2 ^ (n - k) + 2 ^ k * (a % 2 ^ (n - k)) < 2 ^ n := by
    rw [hsplit]
    exact join_lt hlow (Nat.mod_lt a (Nat.two_pow_pos _))
  rw [← Nat.mod_add_mod, hhigh, ← Nat.two_pow_add_eq_or_of_lt hlow, Nat.add_comm, Nat.mod_eq_of_lt hjoin]

/-! ### Bit fields (R156) -/

theorem bits_pos (ctl : Nat) : bits ctl 7 0 = ctl % 256 := by simp [bits_eq]
theorem bits_len (ctl : Nat) : bits ctl 15 8 = ctl / 256 % 256 := by simp [bits_eq]

theorem bfx_eq (signed : Bool) (e : Int) (ctl : Nat) :
    bfx signed e ctl =
      let pos := ctl % 256
      let len := min (ctl / 256 % 256) 32
      let f := Int.toNat (Int.fmod (Int.fdiv e (2 ^ pos)) (2 ^ len))
      if len = 0 then 0 else if signed then truncInt 32 (sextNat len f) else f := by
  simp only [bfx, bits_pos, bits_len, truncInt_eq_fmod, ediv_two_pow_eq_fdiv]

theorem fieldMask_lt {w pos n : Nat} (h : w + pos ≤ n ∨ w = 0) : (2 ^ w - 1) * 2 ^ pos < 2 ^ n := by
  rcases h with h | rfl
  · calc (2 ^ w - 1) * 2 ^ pos < 2 ^ w * 2 ^ pos :=
        Nat.mul_lt_mul_of_pos_right (Nat.sub_lt (Nat.two_pow_pos w) Nat.one_pos) (Nat.two_pow_pos pos)
      _ = 2 ^ (w + pos) := (Nat.pow_add 2 w pos).symm
      _ ≤ 2 ^ n := Nat.pow_le_pow_right (by decide) h
  · rw [Nat.pow_zero, Nat.sub_self, Nat.zero_mul]
    exact Nat.two_pow_pos n

theorem bit_fieldMask (w pos k : Nat) : bit ((2 ^ w - 1) * 2 ^ pos) k = decide (pos ≤ k ∧ k < pos + w) := by
  rw [bit, Nat.testBit_mul_two_pow, Nat.testBit_two_pow_sub_one, Bool.decide_and]
  by_cases h : pos ≤ k
  · simp [h, Nat.sub_lt_iff_lt_add' h]
  · simp [h]

/-- A field of `w` bits at `pos` within 32 bits, taken from the low bits of `a`, over `b`. -/
theorem bit_insertField {a b w pos k : Nat} (h : w + pos ≤ 32 ∨ w = 0) (hk : k < 32) :
    bit ((b &&& (2 ^ 32 - 1 - (2 ^ w - 1) * 2 ^ pos)) ||| (a * 2 ^ pos % 2 ^ 32 &&& (2 ^ w - 1) * 2 ^ pos)) k
      = if pos ≤ k ∧ k < pos + w then bit a (k - pos) else bit b k := by
  have hm := bit_fieldMask w pos k
  have hn := bit_complement (fieldMask_lt h) hk
  rw [hm] at hn
  unfold bit at hn hm ⊢
  rw [Nat.testBit_or, Nat.testBit_and, Nat.testBit_and, hn, hm, Nat.testBit_mod_two_pow, Nat.testBit_mul_two_pow]
  by_cases hin : pos ≤ k ∧ k < pos + w
  · simp [hin, hk]
  · simp [hin]

theorem bfi_bits (a b ctl : Nat) : bfi a b ctl < 2 ^ 32 ∧ ∀ k < 32, bit (bfi a b ctl) k =
    if ctl % 256 ≤ k ∧ k < ctl % 256 + ctl / 256 % 256 then bit a (k - ctl % 256) else bit b k := by
  unfold bfi
  rw [bits_pos, bits_len]
  dsimp only
  generalize ctl % 256 = pos
  generalize ctl / 256 % 256 = len
  generalize hw : (if pos < 32 then min len (32 - pos) else 0) = w
  have h : w + pos ≤ 32 ∨ w = 0 := by split at hw <;> omega
  rw [Nat.mod_eq_of_lt (fieldMask_lt (n := 32) h)]
  refine ⟨Nat.or_lt_two_pow (Nat.and_lt_two_pow _ (complement_lt 32 _)) (Nat.and_lt_two_pow _ (fieldMask_lt h)), fun k hk => ?_⟩
  have hin : (pos ≤ k ∧ k < pos + w) ↔ (pos ≤ k ∧ k < pos + len) := by split at hw <;> omega
  simp only [bit_insertField h hk, hin]

/-! ### Counts and reversal (R157) -/

theorem ones_eq (a n : Nat) : ones a n = ((List.range n).filter fun k => bit a k).length := by
  induction n with
  | zero => rfl
  | succ n ih =>
    rw [ones, ih, List.range_succ, List.filter_append, List.length_append]
    cases h : bit a n <;> simp [h]

theorem leadZeros_spec (a n : Nat) : leadZeros a n ≤ n ∧ (∀ k < leadZeros a n, bit a (n - 1 - k) = false)
    ∧ (leadZeros a n < n → bit a (n - 1 - leadZeros a n) = true) := by
  induction n with
  | zero => simp [leadZeros]
  | succ n ih =>
    obtain ⟨hle, hzero, hone⟩ := ih
    rw [leadZeros]
    split
    · rename_i h
      simp [h]
    · rename_i h
      refine ⟨by omega, fun k hk => ?_, fun hlt => ?_⟩
      · cases k with
        | zero => simpa using h
        | succ k =>
          have e : n + 1 - 1 - (k + 1) = n - 1 - k := by omega
          rw [e]
          exact hzero k (by omega)
      · have e : n + 1 - 1 - (1 + leadZeros a n) = n - 1 - leadZeros a n := by omega
        rw [e]
        exact hone (by omega)

theorem trailZeros_spec (a n : Nat) : trailZeros a n ≤ n ∧ (∀ k < trailZeros a n, bit a k = false)
    ∧ (trailZeros a n < n → bit a (trailZeros a n) = true) := by
  induction n generalizing a with
  | zero => simp [trailZeros]
  | succ n ih =>
    obtain ⟨hle, hzero, hone⟩ := ih (a / 2)
    rw [trailZeros]
    split
    · rename_i h
      simp [h]
    · rename_i h
      refine ⟨by omega, fun k hk => ?_, fun hlt => ?_⟩
      · cases k with
        | zero => simpa using h
        | succ k => rw [← bit_half]; exact hzero k (by omega)
      · rw [Nat.add_comm, ← bit_half]
        exact hone (by omega)

theorem reverseBits_succ (a n : Nat) : reverseBits a (n + 1) = reverseBits (a / 2) n + if bit a 0 then 2 ^ n else 0 := by
  rw [reverseBits, Nat.add_comm, bit, Nat.testBit_zero]
  rcases Nat.mod_two_eq_zero_or_one a with h | h <;> simp [h]

theorem reverseBits_bits (a n : Nat) : reverseBits a n < 2 ^ n ∧ ∀ k < n, bit (reverseBits a n) k = bit a (n - 1 - k) := by
  induction n generalizing a with
  | zero => simp [reverseBits]
  | succ n ih =>
    obtain ⟨hlt, hbit⟩ := ih (a / 2)
    rw [reverseBits_succ]
    refine ⟨add_bit_lt hlt _, fun k hk => ?_⟩
    rw [bit_add_bit hlt _ (by omega)]
    split
    · rename_i h
      rw [h, Nat.add_sub_cancel, Nat.sub_self]
    · rw [hbit k (by omega), bit_half]
      congr 1
      omega

/-! ### Bytes (R158) -/

theorem permByte_eq (pool c : Nat) : permByte pool c =
    let y := pool / 2 ^ (8 * (c % 8)) % 256
    if c / 8 % 4 = 0 then y else if c / 8 % 4 = 1 then 0 else if c / 8 % 4 = 2 then (if 0x80 ≤ y then 0xFF else 0) else 0xFF - y := by
  unfold permByte
  split <;> simp_all

theorem permByte_lt (pool c : Nat) : permByte pool c < 256 := by
  rw [permByte_eq]
  dsimp only
  repeat' split
  all_goals omega

/-- Each byte of BPERM is the one that its control byte permutes. -/
theorem bperm_bytes (a b c : Nat) : bperm a b c < 2 ^ 32
    ∧ ∀ k < 4, bperm a b c / 2 ^ (8 * k) % 256 = permByte (b * 2 ^ 32 + a) (c / 2 ^ (8 * k) % 256) := by
  simp only [bperm]
  generalize b * 2 ^ 32 + a = pool
  have h0 := permByte_lt pool (c % 256)
  have h1 := permByte_lt pool (c / 2 ^ 8 % 256)
  have h2 := permByte_lt pool (c / 2 ^ 16 % 256)
  have h3 := permByte_lt pool (c / 2 ^ 24 % 256)
  refine ⟨by omega, fun k hk => ?_⟩
  obtain rfl | rfl | rfl | rfl : k = 0 ∨ k = 1 ∨ k = 2 ∨ k = 3 := by omega
  all_goals simp only [Nat.reduceMul, Nat.reducePow, Nat.div_one] at h1 h2 h3 ⊢
  all_goals omega

end Sys2Proof.Machine
end

section
/-! PROOFS. The bit, copy and predicate instructions of class V complete with the bits of their rules (R153 to R160, R162). -/

open Sys2Proof.Claims

namespace Sys2Proof.Machine

theorem signed_eq_s32 {t : ITy} (h : t = .s32 ∨ t = .n32) : (t.signed = true) = (t = .s32) := by
  rcases h with rfl | rfl <;> simp [ITy.signed]

theorem exec_of_isBits {i : Instr} (h : isBits i = true) (hm : i.modOk = true) (s : State) :
    ∃ v : Mb → Nat, exec i s = rawOp i v s ∧ ∀ m, bitwise i m (v m) := by
  cases i with
  | and x t => exact ⟨_, rfl, fun m => bits_of_and (m.raw_lt t x.sa)⟩
  | or x t => exact ⟨_, rfl, fun m => bits_of_or (m.raw_lt t x.sa) (m.raw_lt t x.sb)⟩
  | xor x t => exact ⟨_, rfl, fun m => bits_of_xor (m.raw_lt t x.sa) (m.raw_lt t x.sb)⟩
  | not x t => exact ⟨_, rfl, fun m => ⟨complement_lt _ _, fun k hk => bit_complement (m.raw_lt t x.sa) hk⟩⟩
  | bool3 => exact ⟨_, rfl, fun m => bool3_bits _ _ _ _ _⟩
  | shl => exact ⟨_, rfl, fun m => shlBits_eq _ _ _⟩
  | shr x t => exact ⟨_, rfl, fun m => shrBits_eq (m.raw_lt t x.sa) _⟩
  | sar => exact ⟨_, rfl, fun m => sarBits_eq _ _ _⟩
  | rol x t => exact ⟨_, rfl, fun m => rolBits_eq t.width_pos (m.raw_lt t x.sa) _⟩
  | fsh => exact ⟨_, rfl, fun m => rfl⟩
  | bfx x t =>
    refine ⟨_, rfl, fun m => (bfx_eq _ _ _).trans ?_⟩
    simp only [signed_eq_s32 (t := t) (by simpa [Instr.modOk] using hm)]
  | bfi => exact ⟨_, rfl, fun m => bfi_bits _ _ _⟩
  | popc => exact ⟨_, rfl, fun m => ones_eq _ _⟩
  | clz => exact ⟨_, rfl, fun m => leadZeros_spec _ _⟩
  | ctz => exact ⟨_, rfl, fun m => trailZeros_spec _ _⟩
  | brev => exact ⟨_, rfl, fun m => reverseBits_bits _ _⟩
  | bperm =>
    refine ⟨_, rfl, fun m => ?_⟩
    obtain ⟨hlt, hbyte⟩ := bperm_bytes _ _ _
    exact ⟨hlt, fun k hk => (hbyte k hk).trans (permByte_eq _ _)⟩
  | sel x t => exact ⟨_, rfl, fun m => apply_ite (m.raw t.width) _ _ _⟩
  | mov => exact ⟨_, rfl, fun m => rfl⟩
  | _ => cases h

theorem predOp_congr {i : Instr} {f f' : Mb → Bool} (h : ∀ m, f m = f' m) (s : State) : predOp i f s = predOp i f' s := by
  rw [funext h]

theorem icmp_eq (a b : Int) : icmp .eq a b = decide (a = b) := rfl
theorem icmp_ne (a b : Int) : icmp .ne a b = decide (a ≠ b) := by
  rw [decide_not]
  rfl

theorem exec_of_truth {i : Instr} {f : Mb → Bool} (h : truth i = some f) (s : State) : exec i s = predOp i f s := by
  cases i with
  | isetp x t c =>
    cases c with
    | eq => cases h; exact predOp_congr (fun m => icmp_eq _ _) s
    | ne => cases h; exact predOp_congr (fun m => icmp_ne _ _) s
    | lt | le | gt | ge => cases h; rfl
    | _ => cases h
  | pxor => cases h; exact predOp_congr (fun _ => rfl) s
  | pand | por | pnot | pmov => cases h; rfl
  | _ => cases h

end Sys2Proof.Machine

namespace Sys2Proof.Claims
open Sys2Proof.Machine

theorem bitResults : BitResults := by
  intro s i g hb hw hc
  simp only [wellFormed, Bool.and_eq_true] at hw
  obtain ⟨⟨⟨hmod, -⟩, -⟩, -⟩ := hw
  obtain ⟨v, he, hv⟩ := exec_of_isBits hb hmod s
  obtain ⟨t, ht, hr⟩ := completes_of_rawOp hc he
  exact ⟨t, ht, fun m hm => ⟨v m, hv m, hr m hm⟩⟩

theorem predicateResults : PredicateResults := fun s _ _ _ h _ hc => completes_of_predOp hc (exec_of_truth h s)

theorem sourceSeven : SourceSeven := fun _ => ⟨rfl, rfl⟩

end Sys2Proof.Claims

namespace Sys2Proof.Proofs

/-- Settles O5: each instruction of R153 to R160 and R162 is one computation of the bits, or of the truth value, that its rule gives. -/
theorem bitAndPredicateResults : Obligations.BitAndPredicateResults :=
  ⟨Claims.bitForms, Claims.bitResults, Claims.predicateResults, Claims.sourceSeven⟩

end Sys2Proof.Proofs
end

section
/-! PROOFS. The forms and words of the class G instructions without a reduction (R207, R208, R213 to R216). -/

open Sys2Proof.Claims

namespace Sys2Proof

theorem ok_mask (o : Opnd) : Kind.mask.ok o = maskOpnd o := by cases o <;> rfl

theorem ok_wrel (o : Opnd) : Kind.wrel.ok o = (match o with | .k n => decide (1 ≤ n.val ∧ n.val ≤ 7) | _ => false) := by
  cases o with
  | k n => exact (Bool.decide_and _ _).symm
  | _ => rfl

theorem ok_table (n : Fin 8) (o : Opnd) :
    (Kind.table (n.val + 1)).ok o = (match o with | .v r => decide (r.val + n.val ≤ 127) | _ => false) := by
  cases o with
  | v r => exact decide_eq_decide.mpr (by omega)
  | _ => rfl

theorem ok_ite (c : Prop) [Decidable c] (a b : Kind) (o : Opnd) : (if c then a else b).ok o = if c then a.ok o else b.ok o := by
  split <;> rfl

theorem codeOf_of_gangWord {i : Instr} {opc mod : Nat} (h : gangWord i = some (opc, mod)) : codeOf i = some (.G, opc, mod) := by
  cases i with
  | shfl x md w => cases h; cases md <;> rfl
  | poll x md => cases h; cases md <;> rfl
  | maskof | matchv | elect | vlut => cases h; rfl
  | _ => cases h

theorem gangWord_lt {i : Instr} {opc mod : Nat} (h : gangWord i = some (opc, mod)) : opc < 2 ^ 10 ∧ mod < 2 ^ 14 := by
  have fits (hr : Laws.Rereads.Statement i) : opc < 2 ^ 10 ∧ mod < 2 ^ 14 :=
    let ⟨ho, hm, _⟩ := hr _ _ _ (codeOf_of_gangWord h)
    ⟨ho, hm⟩
  cases i with
  | shfl x md w => exact fits (Laws.Rereads.shfl x md w)
  | poll x md => exact fits (Laws.Rereads.poll x md)
  | maskof x => exact fits (Laws.Rereads.maskof x)
  | matchv x t => exact fits (Laws.Rereads.matchv x t)
  | elect x => exact fits (Laws.Rereads.elect x)
  | vlut x fill n => exact fits (Laws.Rereads.vlut x fill n)
  | _ => cases h

theorem gang_accepted_iff {i : Instr} {opc mod : Nat} (h : gangWord i = some (opc, mod)) :
    (i.modOk = true ∧ i.opsOk = true) ↔ (gangForm i = true ∧ i.luOk = true) := by
  have by_kinds {d a b c : Kind} (hs : i.sig = ⟨d, a, b, c⟩) (hf : i.followOnOk = true)
      (hk : (i.modOk && d.ok i.x.dst && a.ok i.x.sa && b.ok i.x.sb && c.ok i.x.sc) = gangForm i) :
      (i.modOk = true ∧ i.opsOk = true) ↔ (gangForm i = true ∧ i.luOk = true) := by
    rw [accepted_iff rfl hs hf, ← hk]
    simp only [Bool.and_eq_true, and_assoc]
  cases i with
  | shfl => exact by_kinds rfl rfl (by simp only [ok_ite, ok_vreg, ok_val, ok_wrel, ok_none]; rfl)
  | poll => exact by_kinds rfl rfl (by simp only [ok_ite, ok_pred, ok_mask, ok_none]; rfl)
  | maskof => exact by_kinds rfl rfl (by simp only [ok_mask, ok_none]; rfl)
  | matchv => exact by_kinds rfl rfl (by simp only [ok_mask, ok_kr, ok_none]; rfl)
  | elect => exact by_kinds rfl rfl (by simp only [ok_pred, ok_none]; rfl)
  | vlut => exact by_kinds rfl rfl (by simp only [ok_vreg, ok_table, ok_val, ok_none]; rfl)
  | _ => cases h

end Sys2Proof

namespace Sys2Proof.Claims

theorem gangForms : GangForms := fun _ _ _ h =>
  ⟨gang_accepted_iff h, fun _ => ⟨by rw [Instr.cls, codeOf_of_gangWord h]; rfl,
    encodeWord_opc_mod (codeOf_of_gangWord h) (gangWord_lt h).1 (gangWord_lt h).2⟩⟩

end Sys2Proof.Claims
end

section
/-! PROOFS. A gang in the order of its lanes: each active member stands on a lane of its own, so that what is folded over the lanes is
folded over the members (R203, R209). -/

open Sys2Proof.Claims

namespace Sys2Proof.Machine

theorem Thread.lane_lt (t : Thread) : t.lane < Config.lanes := Nat.mod_lt _ (by decide)

theorem onLane_some {act : List Mb} {j : Nat} {m : Mb} (h : onLane act j = some m) : m ∈ act ∧ m.t.lane = j :=
  ⟨List.mem_of_find?_eq_some h, by simpa using List.find?_some h⟩

theorem onLane_none {act : List Mb} {j : Nat} : onLane act j = none ↔ ∀ m ∈ act, m.t.lane ≠ j := by
  simp [onLane, List.find?_eq_none]

theorem onLane_lane {act : List Mb} {m : Mb} (hn : (act.map (·.t.lane)).Nodup) (hm : m ∈ act) : onLane act m.t.lane = some m := by
  induction act with
  | nil => cases hm
  | cons a act ih =>
    obtain ⟨ha, hn⟩ := List.nodup_cons.mp hn
    rcases List.mem_cons.mp hm with rfl | hm
    · exact List.find?_cons_of_pos (beq_self_eq_true _)
    · have hne : a.t.lane ≠ m.t.lane := fun e => ha (List.mem_map.mpr ⟨m, hm, e.symm⟩)
      exact (List.find?_cons_of_neg (by simpa using hne)).trans (ih hn hm)

theorem onLane_isSome (act : List Mb) (j : Nat) : (onLane act j).isSome = act.any fun m => m.t.lane == j := by
  rw [Bool.eq_iff_iff, onLane, List.find?_isSome, List.any_eq_true]

/-- The members, lane by lane. -/
def inLaneOrder (act : List Mb) : List Mb := (List.range Config.lanes).filterMap (onLane act)

theorem inLaneOrder_perm {act : List Mb} (hn : (act.map (·.t.lane)).Nodup) : (inLaneOrder act).Perm act := by
  have hord : (inLaneOrder act).Nodup :=
    List.Pairwise.filterMap (onLane act) (fun i j hij m hi m' hj e =>
      hij ((onLane_some hi).2.symm.trans ((congrArg (·.t.lane) e).trans (onLane_some hj).2))) List.nodup_range
  have hact : act.Nodup := (List.pairwise_map.mp hn).imp fun hne e => hne (congrArg (·.t.lane) e)
  refine (List.perm_ext_iff_of_nodup hord hact).mpr fun m => ?_
  rw [inLaneOrder, List.mem_filterMap]
  constructor
  · rintro ⟨j, -, h⟩
    exact (onLane_some h).1
  · exact fun hm => ⟨m.t.lane, List.mem_range.mpr m.t.lane_lt, onLane_lane hn hm⟩

/-! ### Masks (R203) -/

/-- The mask of a gang has the bit of each lane where a member stands. -/
theorem memberMask_isMask {act : List Mb} (hn : (act.map (·.t.lane)).Nodup) : isMask act (fun _ => true) (memberMask act) := by
  have hsum : memberMask act
      = (List.range Config.lanes).foldl (fun a j => a + if act.any (fun m => m.t.lane == j) then 2 ^ j else 0) 0 := by
    rw [memberMask, ← (inLaneOrder_perm hn).foldl_eq' fun m _ m' _ a => Nat.add_right_comm a _ _, inLaneOrder, List.foldl_filterMap]
    congr 1
    funext a j
    rw [← onLane_isSome]
    cases h : onLane act j with
    | none => rfl
    | some m => rw [← (onLane_some h).2]; rfl
  obtain ⟨hlt, hbit⟩ := bit_sum (fun j => act.any fun m => m.t.lane == j) Config.lanes
  rw [← hsum] at hlt hbit
  refine ⟨hlt, fun k => ?_⟩
  simp only [Bool.and_true]
  by_cases hk : k < Config.lanes
  · exact hbit k hk
  · rw [bit, Nat.testBit_lt_two_pow (Nat.lt_of_lt_of_le hlt (Nat.pow_le_pow_right (by decide) (Nat.not_lt.mp hk)))]
    exact (List.any_eq_false.mpr fun m _ => by have := m.t.lane_lt; simp; omega).symm

theorem memberMask_filter_isMask {act : List Mb} (hn : (act.map (·.t.lane)).Nodup) (p : Mb → Bool) :
    isMask act p (memberMask (act.filter p)) := by
  obtain ⟨hlt, hbit⟩ := memberMask_isMask (act := act.filter p) ((List.filter_sublist.map _).nodup hn)
  refine ⟨hlt, fun k => ?_⟩
  rw [hbit, List.any_filter]
  congr 1
  funext m
  rw [Bool.and_true, Bool.and_comm]

/-! ### Reductions (R209) -/

variable {op : Rop} {r : Rnd} {g : Nat → Nat → Nat}

theorem combine_fst (hop : ∀ a b, (ropApply op r a b).1 = g a b) (x y : Option Nat × Nat) :
    (combine op r x y).1 = Option.merge g x.1 y.1 := by
  obtain ⟨x, e⟩ := x
  obtain ⟨y, f⟩ := y
  cases x with
  | none => cases y <;> rfl
  | some a =>
    cases y with
    | none => rfl
    | some b => exact congrArg some (hop a b)

theorem length_treeLevel (op : Rop) (r : Rnd) : ∀ l, (treeLevel op r l).length = (l.length + 1) / 2
  | [] => rfl
  | [_] => by simp [treeLevel]
  | x :: y :: l => by
    simp only [treeLevel, List.length_cons, length_treeLevel op r l]
    omega

/-- A level of the tree regroups its values. -/
theorem foldl_treeLevel [Std.Associative g] (hop : ∀ a b, (ropApply op r a b).1 = g a b) :
    ∀ (l : List (Option Nat × Nat)) (v : Option Nat),
      ((treeLevel op r l).map (·.1)).foldl (Option.merge g) v = (l.map (·.1)).foldl (Option.merge g) v
  | [], _ => rfl
  | [_], _ => rfl
  | x :: y :: l, v => by
    simp only [treeLevel, List.map_cons, List.foldl_cons, foldl_treeLevel hop l, combine_fst hop]
    rw [Std.Associative.assoc (op := Option.merge g)]

/-- An associative combine gives the tree the result of a fold. -/
theorem tree_fst [Std.Associative g] (hop : ∀ a b, (ropApply op r a b).1 = g a b) (n : Nat) (l : List (Option Nat × Nat))
    (hl : l.length ≤ 2 ^ n) : (tree op r n l).1 = (l.map (·.1)).foldl (Option.merge g) none := by
  induction n generalizing l with
  | zero =>
    match l, hl with
    | [], _ => rfl
    | [x], _ => exact (Option.merge_none_left).symm
  | succ n ih =>
    rw [tree, ih _ (by rw [length_treeLevel, Nat.pow_succ] at *; omega), foldl_treeLevel hop]

/-- A fold of values that may be absent is the fold of those present, from a start that leaves each of them as it is. -/
theorem foldl_merge_getD {z : Nat} {l : List (Option Nat)} (hz : ∀ a ∈ l.reduceOption, g z a = a) :
    (l.foldl (Option.merge g) none).getD z = l.reduceOption.foldl g z := by
  have present (l : List (Option Nat)) (a : Nat) : l.foldl (Option.merge g) (some a) = some (l.reduceOption.foldl g a) := by
    induction l generalizing a with
    | nil => rfl
    | cons x l ih => cases x <;> exact ih _
  induction l with
  | nil => rfl
  | cons x l ih =>
    cases x with
    | none => exact ih hz
    | some a =>
      have ha : g z a = a := hz a List.mem_cons_self
      calc ((some a :: l).foldl (Option.merge g) none).getD z
          = l.reduceOption.foldl g a := congrArg (Option.getD · z) (present l a)
        _ = l.reduceOption.foldl g (g z a) := by rw [ha]

theorem laneVals_present (act : List Mb) (o : Opnd) (p : Mb → Bool) :
    ((laneVals act o p).map (·.1)).reduceOption = ((inLaneOrder act).filter p).map fun m => m.raw 32 o := by
  rw [laneVals, List.map_map, List.reduceOption, List.filterMap_map, inLaneOrder, List.filter_filterMap, List.map_filterMap]
  congr 1
  funext j
  simp only [Function.comp_apply, id]
  cases onLane act j with
  | none => rfl
  | some m => cases h : p m <;> simp [h, Option.filter]

/-- The tree of an associative and commutative combine, whose identity leaves every word as it is, folds the members that are present. -/
theorem vredValue_fst [Std.Associative g] [Std.Commutative g] (hop : ∀ a b, (ropApply op r a b).1 = g a b)
    (hz : ∀ a < 2 ^ 32, g (ropIdentity op) a = a) {act : List Mb} (hn : (act.map (·.t.lane)).Nodup) (o : Opnd) (p : Mb → Bool) :
    (vredValue op r act o p).1 = ((act.filter p).map fun m => m.raw 32 o).foldl g (ropIdentity op) := by
  have hval : ∀ a ∈ ((laneVals act o p).map (·.1)).reduceOption, g (ropIdentity op) a = a := by
    intro a ha
    rw [laneVals_present] at ha
    obtain ⟨m, -, rfl⟩ := List.mem_map.mp ha
    exact hz _ (m.raw_lt .b32 o)
  calc (vredValue op r act o p).1
      = (((laneVals act o p).map (·.1)).foldl (Option.merge g) none).getD (ropIdentity op) := by
        rw [vredValue, ← tree_fst hop 6 _ (by simp [laneVals, Config.lanes])]
    _ = (((inLaneOrder act).filter p).map fun m => m.raw 32 o).foldl g (ropIdentity op) := by
        rw [foldl_merge_getD hval, laneVals_present]
    _ = _ := (((inLaneOrder_perm hn).filter p).map _).foldl_eq' (fun a _ b _ c => by
        rw [Std.Associative.assoc (op := g), Std.Associative.assoc (op := g), Std.Commutative.comm (op := g) a b]) _

/-- Sums that are reduced at each step are reduced once. -/
theorem foldl_add_mod (n : Nat) (l : List Nat) : l.foldl (fun a b => (a + b) % n) 0 = l.foldl (· + ·) 0 % n := by
  rw [← List.foldl_hom (· % n) (g₂ := fun a b => (a + b) % n) fun a b => Nat.mod_add_mod a n b, Nat.zero_mod]

end Sys2Proof.Machine

namespace Sys2Proof.Claims
open Sys2Proof.Machine

theorem treeReductions : TreeReductions := by
  intro act o p r hn
  refine ⟨?_, vredValue_fst (op := .xor) (g := (· ^^^ ·)) (fun _ _ => rfl) (fun a _ => Nat.zero_xor a) hn o p,
    vredValue_fst (op := .or) (g := (· ||| ·)) (fun _ _ => rfl) (fun a _ => Nat.zero_or a) hn o p,
    vredValue_fst (op := .and) (g := (· &&& ·)) (fun _ _ => rfl) (fun a ha => ?_) hn o p,
    vredValue_fst (op := .nmax) (g := max) (fun _ _ => rfl) (fun a _ => Nat.zero_max a) hn o p⟩
  · have hassoc : Std.Associative fun a b => (a + b) % 2 ^ 32 := ⟨fun a b c => by simp [Nat.add_assoc]⟩
    have hcomm : Std.Commutative fun a b => (a + b) % 2 ^ 32 := ⟨fun a b => by rw [Nat.add_comm]⟩
    rw [← foldl_add_mod]
    exact vredValue_fst (op := .iadd) (g := fun a b => (a + b) % 2 ^ 32) (fun _ _ => rfl)
      (fun a ha => (congrArg (· % 2 ^ 32) (Nat.zero_add a)).trans (Nat.mod_eq_of_lt ha)) hn o p
  · rw [Nat.and_comm]
    exact (Nat.and_two_pow_sub_one_eq_mod a 32).trans (Nat.mod_eq_of_lt ha)

end Sys2Proof.Claims
end

section
/-! PROOFS. What a class G instruction leaves in the registers and predicates of its members (R203, R205). -/

open Sys2Proof.Claims

namespace Sys2Proof.Machine

/-- A G-class instruction that nothing holds back frees, has its effect and ends. -/
theorem issueG_clear {i : Instr} {check : List Mb → Option (Mb × Flt)} {eff : State → List Mb → State} {s : State} {g : Gather}
    (h : clear i s g = true) (hk : check (actors i s g) = none) :
    issueG i check eff s = .next (advance (eff (freeRegs s i (membersOf s g)) (actors i s g)) i g (membersOf s g) []) := by
  have hg := whole_gather (clear_whole h)
  simp only [clear, Bool.and_eq_true, List.all_eq_true, Bool.not_eq_true', Option.isNone_iff_eq_none, decide_eq_true_eq] at h
  obtain ⟨⟨-, hw⟩, hm⟩ := h
  rw [actors] at hk hw hm ⊢
  have hfreed : ((active i (membersOf s g)).filterMap fun m => (freedTrap s i m).map fun r => (m.u, r)) = [] :=
    filterMap_none fun m hx => by rw [(hm m hx).1, Option.map_none]
  have hlive := faultSet_none s i {} (active i (membersOf s g))
    (fun m => if liveAfter m.t i > m.b.maxlive then some ⟨0x2D, 0, 0⟩ else none) fun m hx => if_neg (Nat.not_lt.mpr (hm m hx).2)
  simp only [issueG, hg, hw, hfreed, hlive, hk, List.isEmpty_nil, Bool.not_true, Bool.false_eq_true, if_false]

/-- Each active member's thread has the frees and the effect that the gang gives it, but for what the end changes. -/
theorem gang_clear {i : Instr} {check : List Mb → Option (Mb × Flt)} {f : List Mb → Mb → Eff} {s : State} {g : Gather}
    (h : clear i s g = true) (hk : check (actors i s g) = none) :
    ∃ t, gang i check f s = .next t ∧ ∀ m ∈ actors i s g,
      (t.threads.look m.u).map Thread.still = some (effThread (f (actors i s g) m) (m.t.free (luRegs i))).still := by
  refine ⟨_, issueG_clear h hk, fun m hm => ?_⟩
  have hn := nodup_membersOf (s := s) (whole_nodup (clear_whole h))
  obtain ⟨hfree, -⟩ := freeRegs_threads (s := s) (i := i) hn
  have hna : ((actors i s g).map (·.u)).Nodup := (List.filter_sublist.map _).nodup hn
  obtain ⟨heff, -⟩ := foldl_threads _ (fun m => effThread (f (actors i s g) m)) (fun s m u => applyEff_threads s m _ u) _ hna
    (freeRegs s i (membersOf s g))
  rw [(Calm.advance _ i g (membersOf s g) []).threads, heff m hm, hfree m (actors_sub hm), (mem_membersOf (actors_sub hm)).2.1]
  rfl

/-- With no active member a G-class instruction only frees, as one that computes nothing. -/
theorem gang_of_no_actors {i : Instr} {check : List Mb → Option (Mb × Flt)} {f : List Mb → Mb → Eff} {s : State} {g : Gather}
    (h : clear i s g = true) (ha : actors i s g = []) (hk : check [] = none) : gang i check f s = compute i (fun _ => {}) s := by
  have hc := issueS_clear (sp := { effect := fun s ms => ms.foldl (fun s m => applyEff s m {}) s }) h rfl (fun _ _ => rfl)
    (fun _ _ => rfl) (fun _ _ => rfl) (by simp [ha])
  rw [ha] at hc
  have hg := issueG_clear (eff := fun s act => act.foldl (fun s m => applyEff s m (f act m)) s) h (ha.symm ▸ hk)
  rw [ha] at hg
  exact hg.trans (congrArg Host.Outcome.next hc.symm)

/-- The effect gives a member of a gang its truth value, or its result (R207 to R216). -/
def givesResult (i : Instr) (act : List Mb) (m : Mb) (e : Eff) : Prop :=
  (∀ b, gangTruth i act m = some b → e = toPred i b)
    ∧ (gangTruth i act m = none → ∃ v, gangResult i act m v ∧ e.regs = dstWords i.sig.dst i.x.dst v)

/-- An effect that gives a member its result leaves it in the member's destination. -/
theorem completes_of_gang {i : Instr} {check : List Mb → Option (Mb × Flt)} {f : List Mb → Mb → Eff} {s : State} {g : Gather}
    (h : clear i s g = true) (he : exec i s = gang i check f s) (hk : check (actors i s g) = none)
    (hf : ∀ m ∈ actors i s g, givesResult i (actors i s g) m (f (actors i s g) m)) :
    Completes i s g fun s' m => (∀ b, gangTruth i (actors i s g) m = some b → settled s' m i b)
      ∧ (gangTruth i (actors i s g) m = none → ∃ v, gangResult i (actors i s g) m v ∧ received s' m i v) := by
  obtain ⟨t, ht, hact⟩ := gang_clear (f := f) h hk
  refine ⟨t, he.trans ht, fun m hm => ?_⟩
  obtain ⟨htruth, hres⟩ := hf m hm
  have hstill := hact m hm
  refine ⟨fun b hb => ?_, fun hb => ?_⟩
  · rw [htruth b hb] at hstill
    exact settled_of_still hstill
  · obtain ⟨v, hv, hr⟩ := hres hb
    exact ⟨v, hv, received_of_still hstill hr⟩

theorem givesResult_toDst {i : Instr} {act : List Mb} {m : Mb} {v : Nat} {e : Eff} (ht : gangTruth i act m = none)
    (hv : gangResult i act m v) (he : e.regs = dstWords i.sig.dst i.x.dst v) : givesResult i act m e :=
  ⟨fun _ hb => (nomatch ht.symm.trans hb), fun _ => ⟨v, hv, he⟩⟩

theorem givesResult_toPred {i : Instr} {act : List Mb} {m : Mb} {b : Bool} (ht : gangTruth i act m = some b) :
    givesResult i act m (toPred i b) :=
  ⟨fun _ hb => congrArg (toPred i) (Option.some.inj (ht.symm.trans hb)), fun hb => (nomatch ht.symm.trans hb)⟩

/-! ### Permutes (R207, R208) -/

/-- The member on lane `j` of the gang, or the reader where none stands there (R207). -/
theorem onLane_of_int (act : List Mb) (me : Mb) (j : Int) :
    let src := ((if 0 ≤ j && j < Config.lanes then some j.toNat else none).bind (onLane act)).getD me
    if ∃ m ∈ act, (m.t.lane : Int) = j then src ∈ act ∧ (src.t.lane : Int) = j else src = me := by
  dsimp only
  by_cases h : ∃ m ∈ act, (m.t.lane : Int) = j
  · rw [if_pos h]
    obtain ⟨m, hm, rfl⟩ := h
    have hl := m.t.lane_lt
    rw [if_pos (by simp; omega), Int.toNat_natCast, Option.bind_some]
    cases hj : onLane act m.t.lane with
    | none => exact absurd rfl (onLane_none.mp hj m hm)
    | some src =>
      obtain ⟨hs, hsl⟩ := onLane_some hj
      exact ⟨hs, congrArg Int.ofNat hsl⟩
  · rw [if_neg h]
    split
    · rename_i hj
      simp only [Bool.and_eq_true, decide_eq_true_eq] at hj
      have hnone : onLane act j.toNat = none := onLane_none.mpr fun m hm e => h ⟨m, hm, by omega⟩
      rw [Option.bind_some, hnone, Option.getD_none]
    · rfl

theorem lutByte_lt (t : Thread) (base n idx : Nat) (fill : Byte) : lutByte t base n idx fill.toNat < 256 := by
  unfold lutByte
  split
  · exact Nat.mod_lt _ (by decide)
  · exact fill.isLt

/-- Four bytes that are joined stand in their places. -/
theorem bytes_of_join {b : Nat → Nat} (h : ∀ k, b k < 256) :
    (List.range 4).foldl (fun a k => a + b k * 2 ^ (8 * k)) 0 < 2 ^ 32
      ∧ ∀ k < 4, (List.range 4).foldl (fun a k => a + b k * 2 ^ (8 * k)) 0 / 2 ^ (8 * k) % 256 = b k := by
  have terms (w : Nat → Nat) : (List.range 4).foldl (fun a k => a + b k * w k) 0 = b 0 * w 0 + b 1 * w 1 + b 2 * w 2 + b 3 * w 3 := by
    simp [List.range_succ]
  have h0 := h 0
  have h1 := h 1
  have h2 := h 2
  have h3 := h 3
  rw [terms]
  simp only [Nat.reduceMul, Nat.reducePow]
  refine ⟨by omega, fun k hk => ?_⟩
  obtain rfl | rfl | rfl | rfl : k = 0 ∨ k = 1 ∨ k = 2 ∨ k = 3 := by omega
  all_goals simp only [Nat.reduceMul, Nat.reducePow]
  all_goals omega

/-! ### Every instruction of the class -/

/-- The meaning of an instruction is one effect on the gang, computed from all of its active members, which gives each its result. -/
def isCollective (i : Instr) (meaning : State → Res) : Prop :=
  ∃ check f, (∀ s, meaning s = gang i check f s) ∧ (∀ act, masksAgree i act → check act = none)
    ∧ ∀ act : List Mb, (act.map (·.t.lane)).Nodup → ∀ m, givesResult i act m (f act m)

theorem execShfl_isCollective (x : X) (md : ShfMode) (w : Bool) : isCollective (.shfl x md w) (execShfl x md w) := by
  refine ⟨_, _, fun _ => rfl, fun _ _ => rfl, fun act _ me => givesResult_toDst rfl ⟨_, rfl, ?_⟩ rfl⟩
  cases w <;> cases md <;> exact onLane_of_int act me _

theorem execVlut_isCollective (x : X) (fill : Byte) (n : Fin 8) : isCollective (.vlut x fill n) (execVlut x fill n) := by
  refine ⟨_, _, fun _ => rfl, fun _ _ => rfl, fun act _ me => givesResult_toDst rfl ?_ rfl⟩
  obtain ⟨hlt, hbyte⟩ := bytes_of_join fun k => lutByte_lt me.t _ (n.val + 1) (me.raw 32 x.sb / 2 ^ (8 * k) % 256) fill
  exact ⟨hlt, fun k hk => hbyte k hk⟩

theorem execVred_isCollective (x : X) (op : Rop) (masked : Bool) (r : Rnd) :
    isCollective (.vred x op masked r) (execVred x op masked r) := by
  refine ⟨_, _, fun _ => rfl, fun act ha => ?_, fun act _ me => givesResult_toDst rfl rfl rfl⟩
  cases masked with
  | false => rfl
  | true => exact ha

theorem execVredMr_isCollective (x : X) (r : Rnd) : isCollective (.vredMr x r) (execVredMr x r) :=
  ⟨_, _, fun _ => rfl, fun _ ha => ha, fun _ _ _ => givesResult_toDst rfl rfl rfl⟩

theorem execVscan_isCollective (x : X) (op : Rop) (excl : Bool) (r : Rnd) : isCollective (.vscan x op excl r) (execVscan x op excl r) :=
  ⟨_, _, fun _ => rfl, fun _ _ => rfl, fun _ _ _ => givesResult_toDst rfl rfl rfl⟩

theorem execPoll_isCollective (x : X) (md : PollMode) : isCollective (.poll x md) (execPoll x md) := by
  refine ⟨_, _, fun _ => rfl, fun _ _ => rfl, fun act hn me => ?_⟩
  cases md with
  | every => exact givesResult_toPred (by rw [List.all_map]; rfl)
  | some => exact givesResult_toPred (by rw [List.any_map]; rfl)
  | agree => exact givesResult_toPred (by rw [List.not_any_eq_all_not, List.all_map, List.all_map]; rfl)
  | mask => exact givesResult_toDst rfl (memberMask_filter_isMask hn _) rfl

theorem execMaskof_isCollective (x : X) : isCollective (.maskof x) (execMaskof x) :=
  ⟨_, _, fun _ => rfl, fun _ _ => rfl, fun _ hn _ => givesResult_toDst rfl (memberMask_isMask hn) rfl⟩

theorem execMatchv_isCollective (x : X) (t : ITy) : isCollective (.matchv x t) (execMatchv x t) :=
  ⟨_, _, fun _ => rfl, fun _ _ => rfl, fun _ hn _ => givesResult_toDst rfl (memberMask_filter_isMask hn _) rfl⟩

theorem execElect_isCollective (x : X) : isCollective (.elect x) (execElect x) :=
  ⟨_, _, fun _ => rfl, fun _ _ => rfl, fun _ _ _ => givesResult_toPred rfl⟩

theorem exec_isCollective {i : Instr} (h : isGang i = true) : isCollective i (exec i) := by
  cases i with
  | shfl x md w => exact execShfl_isCollective x md w
  | vlut x fill n => exact execVlut_isCollective x fill n
  | vred x op masked r => exact execVred_isCollective x op masked r
  | vredMr x r => exact execVredMr_isCollective x r
  | vscan x op excl r => exact execVscan_isCollective x op excl r
  | poll x md => exact execPoll_isCollective x md
  | maskof x => exact execMaskof_isCollective x
  | matchv x t => exact execMatchv_isCollective x t
  | elect x => exact execElect_isCollective x
  | _ => cases h

theorem isGang_of_gangWord {i : Instr} (h : (gangWord i).isSome = true) : isGang i = true := by
  cases i with
  | shfl | vlut | poll | maskof | matchv | elect => rfl
  | _ => cases h

/-- Members that are not there agree. -/
theorem masksAgree_nil (i : Instr) : masksAgree i [] := by
  unfold masksAgree
  split <;> trivial

end Sys2Proof.Machine

namespace Sys2Proof.Claims
open Sys2Proof.Machine

theorem gangResults : GangResults := by
  intro s i g hi _ hc hn ha
  obtain ⟨check, f, he, hk, hf⟩ := exec_isCollective hi
  exact completes_of_gang hc (he s) (hk _ ha) fun m _ => hf _ hn m

theorem noActiveMember : NoActiveMember := by
  intro s i g hw _ hc ha
  obtain ⟨check, f, he, hk, -⟩ := exec_isCollective (isGang_of_gangWord hw)
  obtain ⟨s', hs, -, hidle, -⟩ := compute_clear (f := fun _ => {}) hc (quietFp_of_raised_zero fun _ => rfl)
  refine ⟨s', ((he s).trans (gang_of_no_actors hc ha (hk [] (masksAgree_nil i)))).trans hs, fun m hm => ?_⟩
  have hstill := hidle m hm (by simp [ha])
  have hu := (mem_membersOf hm).2.1
  refine ⟨fun n => ?_, fun n hn => ?_⟩
  · rw [predOf_of_still hstill, Thread.free_pred, predOf, hu]
    rfl
  · rw [regOf_of_still hstill, regOf, hu]
    exact look_foldl_del _ (whole_regs (clear_whole hc) hm) hn

end Sys2Proof.Claims

namespace Sys2Proof.Proofs

/-- Settles O21: each instruction of R207 to R216 is one effect on the gang, and a tree over the lanes folds the present members. -/
theorem gangResults : Obligations.GangResults :=
  ⟨Claims.gangForms, Claims.gangResults, Claims.treeReductions, Claims.noActiveMember⟩

end Sys2Proof.Proofs
end
